-- ==== Sys2Proof/Word.lean ====
section
/-! DEFINITION. The widths and index types of the LS48 (spec 00_scope section 4): bytes, ports, quads,
engines, bundle groups, and what a timer holds. -/

namespace Sys2Proof

/-- One byte of a frame, a record or the configuration memory. -/
abbrev Byte := BitVec 8

/-- A port, 0 to 47. -/
abbrev Port := Fin 48

/-- A quad, Q0 to Q11. -/
abbrev Quad := Fin 12

/-- A probe engine, PE0 to PE3. -/
abbrev EngineId := Fin 4

/-- A bundle group, 0 to 15. -/
abbrev Group := Fin 16

/-- A reply slot of the supervision unit, 0 to 15. -/
abbrev SlotId := Fin 16

/-- A slot of the requester table; slot 0 is the internal requester (R153). -/
abbrev RequesterId := Fin 8

/-- A 48-bit address of the frame path. -/
abbrev Address := BitVec 48

/-- A set of ports: bit p is set when port p is a member (R180). -/
abbrev PortSet := BitVec 48

/-- A timer: `none` when stopped, `some t` when running, started for `t` (milliseconds; seconds for the
two timers of a survey record). No elapsed time is counted: the expiry is an event (spec 00_scope 5.4). -/
abbrev Timer := Option Nat

end Sys2Proof
end

