-- ==== Sys2Proof/Syntax.lean ====
section
/-! DEFINITION. The events of the LS48: one constructor per row of spec/opcode_table.json, with what the
event carries when it arrives at the part. -/

namespace Sys2Proof

/-- The four pairs of a port's cable, always taken in this order (spec 00_scope section 4). -/
inductive Pair where
  | a | b | c | d
  deriving DecidableEq, Repr

/-- One pair's part of a TAPS report: the tick position of the strongest echo tap and its magnitude
(R13). -/
structure Tap where
  position : Nat
  magnitude : Int
  deriving DecidableEq, Repr

/-- What a reset takes from outside at its event: the value of the strap pins (R175), and a port named once
for each frame handed to its line lane and not wholly sent (R28, log 10). -/
structure ResetInputs where
  straps : BitVec 4
  unsent : List Port
  deriving DecidableEq, Repr

/-- The events. The requests (READ_PORT to UNKNOWN_REQUEST) carry nothing: each is the execution of the
oldest request entry not yet executed, whose parameters the supervision unit holds (R162). -/
inductive Instr where
  /-- The supply becomes valid (R175). -/
  | powerOnReset (inputs : ResetInputs)
  /-- The reset pin is asserted (R175). -/
  | pinReset (inputs : ResetInputs)
  /-- The reset pin is released (R175). -/
  | pinRelease
  /-- The first pass over the configuration memory ends: the bytes it acknowledged, from address 0 up to
  the first read it did not acknowledge (R177). -/
  | imageFirstPassCompletion (bytes : List Byte)
  /-- A section of the second pass has been read: the bytes acknowledged from the section's start (R178). -/
  | imageSectionRead (bytes : List Byte)
  /-- The keep-alive of a quad stops; the ports of the quad whose RELEASE had already left the line lane
  (R15, R107). -/
  | quadLoss (quad : Quad) (released : List Port)
  /-- The keep-alive of a quad resumes (R16). -/
  | quadRecovery (quad : Quad)
  /-- Report ENERGY_ON (R14, R34). -/
  | energyOn (port : Port)
  /-- Report ENERGY_OFF (R14, R45). -/
  | energyOff (port : Port)
  /-- Report PARTNER_ABILITY with the rates, in Mb/s, that the partner names (R14, R37). -/
  | partnerAbility (port : Port) (rates : List Nat)
  /-- Report TRAIN_DONE with the margin in tenths of a decibel (R14, R42). -/
  | trainDone (port : Port) (margin : Int)
  /-- Report TRAIN_FAIL (R14, R43). -/
  | trainFail (port : Port)
  /-- Report MARGIN_REPORT with the margin (R14, R46). -/
  | marginReport (port : Port) (margin : Int)
  /-- Report SYMBOL_ERRORS with the count since the last such report (R14, R48). -/
  | symbolErrors (port : Port) (count : Nat)
  /-- Report SILENT (R13, R98). -/
  | silent (port : Port)
  /-- Report CAPTURE_SET: averaged samples of one listening pair for one pulsed pair (R13, R100). -/
  | captureSet (port : Port) (pulsed : Pair) (listening : Pair) (samples : List Int)
  /-- Report TAPS: the strongest echo tap of each pair (R13, R110). -/
  | taps (port : Port) (tapA : Tap) (tapB : Tap) (tapC : Tap) (tapD : Tap)
  /-- A frame has arrived whole from a port slot, check sequence included (R20). -/
  | switchToLineFrameArrival (port : Port) (frame : List Byte)
  /-- A frame has arrived whole from a line lane, check sequence included (R22). -/
  | lineToSwitchFrameArrival (port : Port) (frame : List Byte)
  /-- The sending of a forwarded frame toward the switch core ends (R25). -/
  | forwardedFrameSent (port : Port)
  /-- The last byte of an inserted frame has been sent; the reset inputs are read if the SUPERVISOR reset
  follows (R26, R168, log 28). -/
  | transmissionCompletion (port : Port) (inputs : ResetInputs)
  /-- Execution of a READ_PORT entry (R164). -/
  | readPort
  /-- Execution of a READ_REPORT entry (R142). -/
  | readReport
  /-- Execution of a READ_TABLE entry (R165). -/
  | readTable
  /-- Execution of a READ_STATUS entry (R166). -/
  | readStatus
  /-- Execution of a TEST_CABLE entry (R73). -/
  | testCable
  /-- Execution of a SURVEY_NOW entry (R76). -/
  | surveyNow
  /-- Execution of a CANCEL entry (R90). -/
  | cancel
  /-- Execution of a RETRAIN entry (R55). -/
  | retrain
  /-- Execution of a SET_ADMIN entry (R9). -/
  | setAdmin
  /-- Execution of a WRITE_PROFILE entry (R4). -/
  | writeProfile
  /-- Execution of a WRITE_PLAN_ENTRY entry (R59). -/
  | writePlanEntry
  /-- Execution of a WRITE_SIGNATURES entry (R128). -/
  | writeSignatures
  /-- Execution of a CLEAR_BLOCK entry (R129). -/
  | clearBlock
  /-- Execution of a SET_GEOMETRY entry (R127). -/
  | setGeometry
  /-- Execution of a LOWER_LOCK entry (R130). -/
  | lowerLock
  /-- Execution of a WRITE_REQUESTER entry (R167). -/
  | writeRequester
  /-- Execution of a SET_STATION entry (R157). -/
  | setStation
  /-- Execution of a RESET_PART entry (R168). -/
  | resetPart
  /-- Execution of an entry whose code names no request (R155). -/
  | unknownRequest
  /-- The exchange timer of a port expires (R38). -/
  | exchangeTimerExpiry (port : Port)
  /-- The attempt timer of a port expires (R43). -/
  | attemptTimerExpiry (port : Port)
  /-- The verify timer of a port expires (R47). -/
  | verifyTimerExpiry (port : Port)
  /-- The degrade window timer of a port expires (R48). -/
  | degradeWindowExpiry (port : Port)
  /-- The backoff timer of a port expires (R51). -/
  | backoffTimerExpiry (port : Port)
  /-- The phase timer of an engine expires (R96). -/
  | phaseTimerExpiry (engine : EngineId)
  /-- The hold timer of a bundle group expires (R85). -/
  | holdTimerExpiry (group : Group)
  /-- The survey timer of a port expires (R145). -/
  | surveyTimerExpiry (port : Port)
  /-- The grace timer of a port expires (R146). -/
  | graceTimerExpiry (port : Port)
  /-- The notice holdoff timer expires (R171). -/
  | holdoffTimerExpiry
  /-- The analysis of an engine's test ends (R102). -/
  | analyzeCompletion (engine : EngineId)
  /-- The RELEASE of an engine's test has left the line lane, or cannot be sent (R104). -/
  | restoreCompletion (engine : EngineId)
  deriving DecidableEq, Repr

end Sys2Proof
end

