-- ==== Sys2Proof/Decode.lean ====
section
/-! DEFINITION. The event that a word spells by the bits of spec/opcode_table.json. -/

namespace Sys2Proof

/-- The table gives no row any bits (every row's "fields" is empty and none has "fixed"), so no word spells
an event, whatever its length. -/
def decodeTableWord (_nbits _w : Nat) : Option Instr := none

end Sys2Proof
end

