-- ==== Sys2Proof/Config.lean ====
section
/-! DEFINITION. What is fixed in the part (times, limits, constants of the formats) and the one free
value, which the spec leaves open. -/

namespace Sys2Proof.Config

/-- FREE VALUE (log 4): the n-th choice of which consequence of one event is taken first, where the spec
says they reach a piece of state in either order (R39, R40, R80). Nothing in Lean evaluates it. -/
opaque arbitration : Nat → Nat

/-- Exchange timer, ms (R36). -/
def exchangeTime : Nat := 1500
/-- Attempt timer, ms (R41). -/
def attemptTime : Nat := 2500
/-- Degrade window, ms (R48). -/
def degradeWindow : Nat := 1000
/-- Phase timer in QUIESCE and SURVEY_READ, ms (R96). -/
def quiesceTime : Nat := 10
/-- Phase timer in CAPTURE, ms (R96). -/
def captureTime : Nat := 50
/-- Places of the diagnostic queue (R75). -/
def queuePlaces : Nat := 32
/-- Places open to external entries (R75). -/
def externalPlaces : Nat := 28
/-- Forwarded frames an output list holds (R25). -/
def forwardedPlaces : Nat := 64
/-- Reply entries of one frame, bytes (R161). -/
def replyBytes : Nat := 1480
/-- Event records of one notice (R172). -/
def noticeRecords : Nat := 12
/-- Ceiling of an occurrence count (R170). -/
def occurrenceCeiling : Nat := 15
/-- Ceiling of a traffic counter (R27). -/
def trafficCeiling : Nat := 4294967295
/-- Ceiling of the degrade window count and the discard counters (R48, R159). -/
def wordCeiling : Nat := 65535
/-- The forced-rate defaults: attempt limit and minimum margin (R35). -/
def forcedLimit : Nat := 3
def forcedMargin : Int := 0
/-- The image magic (section 13.4) and version (R177). -/
def imageMagic : Nat := 0xE2A14D08
def imageVersion : Nat := 1
/-- Bytes of the image header (section 13.4) and the greatest body length (R183). -/
def imageHeader : Nat := 12
def imageBodyMax : Nat := 65524

end Sys2Proof.Config
end

