-- ==== Sys2Proof/Machine/Bytes.lean ====
section
/-! DEFINITION. The pairs' order and codes, byte order, fields of byte lists, and the check sequence of frames (R180). -/

namespace Sys2Proof

/-- The pairs in their order (spec 00_scope section 4). -/
def Pair.all : List Pair := [.a, .b, .c, .d]

/-- Pair codes 0 to 3 (R180). -/
def Pair.index : Pair → Fin 4
  | .a => 0 | .b => 1 | .c => 2 | .d => 3

end Sys2Proof

namespace Sys2Proof.Machine

/-- `n` in `k` bytes, most significant byte first (R180). -/
def natBytes : Nat → Nat → List Byte
  | 0, _ => []
  | k + 1, n => BitVec.ofNat 8 (n / 256 ^ k) :: natBytes k n

/-- A signed value in `k` bytes, two's complement (R180). -/
def intBytes (k : Nat) (x : Int) : List Byte := natBytes k (x % (256 ^ k : Nat)).toNat

/-- The number that a list of bytes holds, most significant byte first (R180). -/
def bytesNat (b : List Byte) : Nat := b.foldl (fun acc x => acc * 256 + x.toNat) 0

/-- The field of `width` bytes at an offset, as a number. -/
def natAt (b : List Byte) (offset width : Nat) : Nat := bytesNat ((b.drop offset).take width)

/-- The byte at an offset, as a number. -/
def byteAt (b : List Byte) (offset : Nat) : Nat := (b.getD offset 0).toNat

/-- The signed field of two bytes at an offset. -/
def intAt (b : List Byte) (offset : Nat) : Int :=
  let n := natAt b offset 2
  if n < 32768 then (n : Int) else (n : Int) - 65536

/-- A yes/no or on/off byte: 0 or 1, any other code undefined (R180). -/
def flagAt (b : List Byte) (offset : Nat) : Option Bool :=
  if byteAt b offset = 0 then some false else if byteAt b offset = 1 then some true else none

/-- One byte. -/
def byteOf (n : Nat) : List Byte := natBytes 1 n

/-- A yes/no byte. -/
def flagByte (f : Bool) : List Byte := byteOf f.toNat

/-- Fill bytes, sent as 0 (R180). -/
def fill (n : Nat) : List Byte := List.replicate n 0

/-- A record filled to its stated length (R180). -/
def padTo (n : Nat) (b : List Byte) : List Byte := b ++ fill (n - b.length)

/-- A port set in six bytes: port p is bit (p mod 8) of byte floor(p / 8) (R180). -/
def portSetBytes (s : PortSet) : List Byte := (natBytes 6 s.toNat).reverse

/-- The port set in the six bytes at an offset (R180). -/
def portSetAt (b : List Byte) (offset : Nat) : PortSet :=
  BitVec.ofNat 48 (bytesNat ((b.drop offset).take 6).reverse)

/-- An index below `n`, or none. -/
def finOf (n k : Nat) : Option (Fin n) := if h : k < n then some ⟨k, h⟩ else none

/-- `n` shifts of the check sequence register, least significant bit first: the reflected form of the
generator 0x04C11DB7 (R180, log 18). -/
def checkShift : Nat → BitVec 32 → BitVec 32
  | 0, c => c
  | n + 1, c => checkShift n (if c.getLsbD 0 then (c >>> 1) ^^^ 0xEDB88320#32 else c >>> 1)

/-- The 32-bit cyclic redundancy check of a list of bytes (R180). -/
def checkValue (b : List Byte) : BitVec 32 :=
  ~~~ b.foldl (fun c x => checkShift 8 (c ^^^ x.setWidth 32)) 0xFFFFFFFF#32

/-- The check sequence of a frame, least significant byte first (R180). -/
def checkBytes (b : List Byte) : List Byte := (natBytes 4 (checkValue b).toNat).reverse

/-- A frame without its check sequence: its last four bytes (R180). -/
def frameBody (frame : List Byte) : List Byte := frame.take (frame.length - 4)

/-- The check sequence of a received frame is good (R180). -/
def checkGood (frame : List Byte) : Bool :=
  4 ≤ frame.length && frame.drop (frame.length - 4) == checkBytes (frameBody frame)

/-- A frame that the part originates: padded to the minimum length of 64 with its check sequence
(R180, R182). -/
def sealFrame (body : List Byte) : List Byte :=
  let b := padTo 60 body
  b ++ checkBytes b

end Sys2Proof.Machine
end

