-- ==== Sys2Proof/Machine/Types.lean ====
section
/-! DEFINITION. The records of the part, block by block, with the manual's own fields. -/

namespace Sys2Proof.Machine

/-! ### Names -/

/-- The five defined rates (spec 00_scope 5.1). -/
inductive Rate where
  | r10 | r100 | r1000 | r2500 | r5000
  deriving DecidableEq, Repr

/-- A set of rates: no repeats, in ascending order (its one canonical form). -/
abbrev RateSet := List Rate

/-- The nine ordered fault classes, least severe first (R132). -/
inductive FaultClass where
  | normal | beyondReach | highImpedance | lowImpedance | crossCoupled | unclassified
  | openEnd | shorted | crossShort
  deriving DecidableEq, Repr

/-- A verdict: a fault class, or NOT_TESTED, which stands outside the order (R132). -/
inductive Verdict where
  | notTested
  | classed (c : FaultClass)
  deriving DecidableEq, Repr

/-- Result codes (section 10.6). -/
inductive ResultCode where
  | ok | okAdjusted | badPort | badValue | notPermitted | unknownRequest | queueFull | duplicate
  | livePort | portBusy | portDisabled | noLine | locked | notBlank | alreadySet | notFound
  | tooLate | cancelled | frontEndTimeout | frontEndFault
  deriving DecidableEq, Repr

/-- Roles of requesters (R153). -/
inductive Role where
  | observer | operator | admin
  deriving DecidableEq, Repr

/-! ### Profile table (R3) -/

structure Profile where
  enabled : Bool
  group : Group
  allowed : RateSet
  forced : Option Rate
  nvp : Nat
  pathOffset : Nat
  nearBlank : Nat
  threshold : Nat
  slope : Nat
  verifyWindow : Nat
  degradeThreshold : Nat
  backoffTime : Nat
  autoDiagnosis : Bool
  internalPriority : Nat
  survey : Bool
  surveyInterval : Nat
  driftTolerance : Nat
  magnitudeTolerance : Nat
  protectLive : Bool
  deriving DecidableEq, Repr

/-! ### Line lane controllers -/

/-- Line modes (section 1.4); CAPTURING carries the pulsed pair and the listening pairs expected. -/
inductive LineMode where
  | openMode
  | silencing
  | silentMode
  | capturing (pulsed : Pair) (expected : List Pair)
  | readingTaps
  deriving DecidableEq, Repr

/-- Front-end commands (R12). -/
inductive LaneCommand where
  | sendAbility (rates : RateSet)
  | startTrain (rate : Rate)
  | stopTrain
  | silence
  | pulseCapture (pulsed : Pair) (listening : List Pair) (averaging : Nat)
  | readTaps
  | release
  deriving DecidableEq, Repr

/-! ### Rate plan table (R57) -/

structure PlanRate where
  rate : Rate
  limit : Nat
  margin : Int
  deriving DecidableEq, Repr

structure PlanEntry where
  inUse : Bool
  maxLength : Option Nat
  tolerated : Option (List FaultClass)
  rates : List PlanRate
  deriving DecidableEq, Repr

/-- The copy of one plan entry that a port trains under (R67). -/
structure Snapshot where
  index : Fin 16
  entry : PlanEntry
  deriving DecidableEq, Repr

/-! ### Training controllers (R29, R30) -/

inductive LinkState where
  | off | noLine | listen | exchange | pendingTrain | train | verify | up | held | backoff
  deriving DecidableEq, Repr

inductive HistoryOutcome where
  | success | lowMargin | timeout | verifyLost | abandoned | noCommonRate | exhausted
  deriving DecidableEq, Repr

structure HistoryRecord where
  rate : Option Rate
  outcome : HistoryOutcome
  margin : Option Int
  attempt : Nat
  planIndex : Nat
  deriving DecidableEq, Repr

structure Training where
  link : LinkState
  snapshot : Option Snapshot
  ability : RateSet
  demoted : RateSet
  target : Option Rate
  attempts : Nat
  current : Option Rate
  margin : Option Int
  energy : Bool
  history : List HistoryRecord
  degradeCount : Nat
  exchangeTimer : Timer
  attemptTimer : Timer
  verifyTimer : Timer
  degradeTimer : Timer
  backoffTimer : Timer
  deriving DecidableEq, Repr

/-- The status word of a port slot (R19). -/
structure StatusWord where
  linkUp : Bool
  rate : Option Rate
  held : Bool
  deriving DecidableEq, Repr

/-! ### Traffic path (R25, R27) -/

/-- Where a frame sent toward the switch core comes from; every source but the line carries the
supervisor-origin marker (R25). -/
inductive FrameSource where
  | forwarded
  | reply (slot : SlotId)
  | notice
  deriving DecidableEq, Repr

structure OutFrame where
  bytes : List Byte
  bad : Bool
  source : FrameSource
  deriving DecidableEq, Repr

structure Traffic where
  output : List OutFrame
  sending : Option OutFrame
  toLine : Nat
  toSwitch : Nat
  droppedNotUp : Nat
  badCheck : Nat
  diverted : Nat
  deriving DecidableEq, Repr

/-! ### Signature table and reports -/

/-- The geometry record (R126). -/
structure Geometry where
  distanceBins : Nat
  amplitudeBins : Nat
  reach : Nat
  deriving DecidableEq, Repr

/-- The content of a filled signature entry (R126). -/
structure Signature where
  cls : FaultClass
  confidence : Nat
  deriving DecidableEq, Repr

/-- A capture set: 4096 averaged samples with its labels (R95). -/
structure CaptureSet where
  pulsed : Pair
  listening : Pair
  samples : List Int
  deriving DecidableEq, Repr

/-- A reflection record of the arithmetic (R113); the relation is CROSS when the pairs differ. -/
structure ReflectionRecord where
  pulsed : Pair
  listening : Pair
  tick : Nat
  distance : Nat
  comp : Int
  saturated : Bool
  beyond : Bool
  index : Option Nat
  deriving DecidableEq, Repr

/-- A reflection as a cable report carries it (R136). -/
structure Reflection where
  distance : Nat
  comp : Int
  cls : FaultClass
  confidence : Nat
  saturated : Bool
  deriving DecidableEq, Repr

structure PairFinding where
  verdict : Verdict
  reflections : List Reflection
  deriving DecidableEq, Repr

structure CrossFinding where
  pulsed : Pair
  listening : Pair
  reflection : Reflection
  deriving DecidableEq, Repr

/-- A cable report (R136). -/
structure CableReport where
  port : Port
  sequence : BitVec 32
  pairs : List Pair
  averaging : Nat
  crossPair : Bool
  force : Bool
  findings : Vector PairFinding 4
  cross : List CrossFinding
  worst : FaultClass
  length : Option Nat
  deriving DecidableEq, Repr

/-- A survey summary, and the baseline, which is one (R125, R141). -/
structure SurveySummary where
  sequence : BitVec 32
  length : Nat
  lengths : Vector Nat 4
  healths : Vector Int 4
  deriving DecidableEq, Repr

/-! ### Surveillance (R143) -/

inductive SurveyState where
  | idle | counting | due | overdue
  deriving DecidableEq, Repr

structure SurveyRecord where
  state : SurveyState
  surveyTimer : Timer
  graceTimer : Timer
  pending : Bool
  deriving DecidableEq, Repr

/-! ### Pending event sets (R170) -/

/-- What a port event carries when it is raised (section 11.1). -/
inductive PortEvent where
  | linkUp
  | linkDown
  | trainExhausted (notQueued : Bool)
  | noCommonRate
  | degradedErrors
  | degradedProfile
  | cableFault (sequence : BitVec 32)
  | cableDrift (sequence : BitVec 32)
  | frontEndFault
  deriving DecidableEq, Repr

inductive DeviceEvent where
  | startUp
  | imageRejected
  deriving DecidableEq, Repr

/-- A present TRAIN_EXHAUSTED: its count and the flag "diagnosis not queued". -/
structure ExhaustedCount where
  count : Nat
  notQueued : Bool
  deriving DecidableEq, Repr

/-- A present DEGRADED: its count and its set of causes. -/
structure DegradedCount where
  count : Nat
  errors : Bool
  profile : Bool
  deriving DecidableEq, Repr

/-- A present CABLE_FAULT or CABLE_DRIFT: its count and the latest sequence number. -/
structure SequencedCount where
  count : Nat
  sequence : BitVec 32
  deriving DecidableEq, Repr

/-- The pending event set of a port: a kind is absent, or present with its occurrence count. -/
structure PortEvents where
  linkUp : Option Nat
  linkDown : Option Nat
  trainExhausted : Option ExhaustedCount
  noCommonRate : Option Nat
  degraded : Option DegradedCount
  cableFault : Option SequencedCount
  cableDrift : Option SequencedCount
  frontEndFault : Option Nat
  deriving DecidableEq, Repr

structure DeviceEvents where
  startUp : Option Nat
  imageRejected : Option Nat
  deriving DecidableEq, Repr

/-! ### All that the part holds for one port -/

structure PortState where
  profile : Profile
  mode : LineMode
  training : Training
  traffic : Traffic
  cableClass : Fin 16
  report : Option CableReport
  summary : Option SurveySummary
  baseline : Option SurveySummary
  survey : SurveyRecord
  events : PortEvents
  deriving DecidableEq, Repr

/-! ### Diagnostic queue (R72, R83, R89) -/

/-- One finished port of a sweep (R89). -/
structure PortResult where
  port : Port
  code : ResultCode
  worst : Verdict
  length : Option Nat
  deriving DecidableEq, Repr

/-- The sweep fields of a TEST entry; the start port and the count requested are those of the reply's
head (section 13.3). -/
structure Sweep where
  start : Port
  count : Nat
  down : Bool
  remaining : Nat
  results : List PortResult
  deriving DecidableEq, Repr

structure TestOptions where
  pairs : List Pair
  averaging : Nat
  crossPair : Bool
  force : Bool
  sweep : Option Sweep
  deriving DecidableEq, Repr

inductive EntryKind where
  | test (options : TestOptions)
  | survey
  deriving DecidableEq, Repr

inductive EntryState where
  | waiting
  | inFlight (engine : EngineId)
  deriving DecidableEq, Repr

/-- The place of a request entry's result: a reply slot and the position in its frame (log 32). -/
structure ReplyPlace where
  slot : SlotId
  index : Nat
  deriving DecidableEq, Repr

/-- The external request that an entry carries: its tag and where its result goes. -/
structure ExternalRequest where
  tag : BitVec 16
  place : ReplyPlace
  deriving DecidableEq, Repr

/-- A queue entry. `serial` counts admissions since the reset; its low 32 bits are the arrival stamp
(log 24). -/
structure QueueEntry where
  kind : EntryKind
  requester : RequesterId
  external : Option ExternalRequest
  port : Port
  adjusted : Bool
  priority : Nat
  urgent : Bool
  serial : Nat
  state : EntryState
  cancelMark : Bool
  deriving DecidableEq, Repr

/-- The holder of a capture slot (R83). -/
structure SlotHolder where
  port : Port
  engine : EngineId
  deriving DecidableEq, Repr

/-- One row of the bundle group table (R83 to R85). -/
structure BundleGroup where
  slot : Option SlotHolder
  reserved : Bool
  holdTimer : Timer
  deriving DecidableEq, Repr

/-! ### Probe engines (R94, R95) -/

inductive EngineState where
  | idle | quiesce | capture | analyze | restore | surveyRead
  deriving DecidableEq, Repr

inductive AbortCause where
  | cancelled | frontEndTimeout | frontEndFault
  deriving DecidableEq, Repr

/-- The result an engine records for its entry, with the stored report (R102, R105). -/
structure RecordedResult where
  code : ResultCode
  report : Option CableReport
  deriving DecidableEq, Repr

/-- The TEST fields of a measurement context (R95). `atGrant` names entries by their serial. -/
structure TestContext where
  group : Group
  pairs : List Pair
  averaging : Nat
  crossPair : Bool
  force : Bool
  toGo : List Pair
  captures : List CaptureSet
  abortCause : Option AbortCause
  atGrant : List Nat
  result : Option RecordedResult
  deriving DecidableEq, Repr

/-- A measurement context: the entry (by its serial), the port, and the kind: TEST with its fields, or
SURVEY (`none`) (R95). -/
structure Measurement where
  entry : Nat
  port : Port
  test : Option TestContext
  deriving DecidableEq, Repr

structure Engine where
  state : EngineState
  phaseTimer : Timer
  context : Option Measurement
  passedOver : Nat
  deriving DecidableEq, Repr

/-! ### Supervision unit (R153, R156, R160) -/

/-- A requester slot; an absent address is WILDCARD. -/
structure Requester where
  inUse : Bool
  address : Option Address
  role : Role
  readSet : PortSet
  disturbSet : PortSet
  priority : Nat
  deriving DecidableEq, Repr

structure Station where
  address : Address
  ethertype : BitVec 16
  noticeDestination : Option Address
  noticeSlot : Port
  holdoff : Nat
  starvationLimit : Nat
  holdLimit : Nat
  deriving DecidableEq, Repr

/-- A result with its encoded data. -/
structure Answer where
  code : ResultCode
  data : List Byte
  deriving DecidableEq, Repr

structure ReplyEntry where
  code : Byte
  tag : BitVec 16
  answer : Option Answer
  deriving DecidableEq, Repr

/-- A reply slot in use; `sending` is clear in COLLECTING. -/
structure ReplySlot where
  destination : Address
  port : Port
  tag : BitVec 16
  requester : RequesterId
  role : Role
  readSet : PortSet
  disturbSet : PortSet
  entries : List ReplyEntry
  sending : Bool
  deriving DecidableEq, Repr

/-- A request entry accepted and not yet executed (R162). -/
structure Request where
  place : ReplyPlace
  code : Byte
  tag : BitVec 16
  params : List Byte
  deriving DecidableEq, Repr

structure Supervision where
  accepting : Bool
  requesters : Vector Requester 8
  station : Station
  stationSet : Bool
  slots : Vector (Option ReplySlot) 16
  requests : List Request
  unknownSource : Nat
  malformed : Nat
  noReplySlot : Nat
  deriving DecidableEq, Repr

/-! ### Notice unit (R171) -/

inductive NoticeState where
  | idle | holding | sending
  deriving DecidableEq, Repr

structure NoticeUnit where
  state : NoticeState
  holdoffTimer : Timer
  scanStart : Port
  device : DeviceEvents
  deriving DecidableEq, Repr

/-! ### Start-up unit (R176) -/

structure ResetCauses where
  powerOn : Bool
  pin : Bool
  supervisor : Bool
  imageRejected : Bool
  deriving DecidableEq, Repr

inductive RejectReason where
  | noAcknowledge | badMagic | badVersion | badLength | badSum | badRecord
  deriving DecidableEq, Repr

inductive ImageOutcome where
  | accepted
  | rejected (reason : RejectReason)
  deriving DecidableEq, Repr

inductive SectionKind where
  | station | requesters | profiles | plan | geometry | signatures | lock
  deriving DecidableEq, Repr

/-- Where the load stands: the load state is COMPLETE in `complete` and LOADING in the others. -/
inductive LoadProgress where
  | awaitingRelease
  | firstPass
  | secondPass (left : Nat)
  | complete
  deriving DecidableEq, Repr

structure StartUp where
  straps : BitVec 4
  causes : ResetCauses
  progress : LoadProgress
  outcome : Option ImageOutcome
  applied : List SectionKind
  deriving DecidableEq, Repr

/-! ### The signature table, and the model's own records -/

structure SignatureTable where
  geometry : Geometry
  entries : Vector (Option Signature) 1024
  lock : Nat
  deriving DecidableEq, Repr

/-- What the part has put on its lanes (log 9). -/
inductive Output where
  /-- A command handed to the line lane of a port (R12). -/
  | command (port : Port) (cmd : LaneCommand)
  /-- A RELEASE handed over and ended unsent by the loss of the quad (R103). -/
  | releaseEnded (port : Port)
  /-- A frame handed to the line lane (R21). -/
  | toLine (port : Port) (bytes : List Byte)
  /-- A frame whose sending toward the switch core has ended, with its marks (R25, R28). -/
  | toSwitch (port : Port) (bytes : List Byte) (bad : Bool) (supervisorOrigin : Bool)
  /-- A frame handed to the line lane and ended by the line lane controller at a reset before it was wholly
  sent: its receiver sees it as damaged (R28). -/
  | lineCut (port : Port) (bytes : List Byte)
  deriving DecidableEq, Repr

/-- Consequences of the present event still owed within it (log 17). -/
structure Due where
  select : Bool
  reservations : Bool
  reentry : List Port
  deriving DecidableEq, Repr

end Sys2Proof.Machine
end

