-- ==== Sys2Proof/Machine/Builtin.lean ====
section
/-! DEFINITION. The built-in and reset values of each block, as the rules state them. -/

namespace Sys2Proof.Machine

/-- The quad of a port (R1). -/
def quadOf (p : Port) : Quad := ⟨p.val / 4, by have := p.isLt; omega⟩

/-- The probe engine of a port (R1). -/
def engineOf (p : Port) : EngineId := ⟨p.val / 4 - 4 * (p.val / 4 / 4), by have := p.isLt; omega⟩

/-- The built-in profile of a port (R3): its bundle group is its quad index. -/
def Profile.builtin (p : Port) : Profile where
  enabled := true
  group := ⟨p.val / 4, by have := p.isLt; omega⟩
  allowed := [.r10, .r100, .r1000, .r2500, .r5000]
  forced := none
  nvp := 680
  pathOffset := 24
  nearBlank := 8
  threshold := 48
  slope := 4
  verifyWindow := 500
  degradeThreshold := 100
  backoffTime := 4000
  autoDiagnosis := true
  internalPriority := 1
  survey := true
  surveyInterval := 300
  driftTolerance := 20
  magnitudeTolerance := 64
  protectLive := true

/-- The rate list of every built-in plan entry (R58). -/
def PlanEntry.builtinRates : List PlanRate :=
  [⟨.r5000, 2, 30⟩, ⟨.r2500, 2, 30⟩, ⟨.r1000, 3, 20⟩, ⟨.r100, 3, 10⟩, ⟨.r10, 3, 0⟩]

/-- The built-in entry 0 (R58). -/
def PlanEntry.default : PlanEntry := ⟨true, none, none, PlanEntry.builtinRates⟩

/-- The built-in entries 1 to 15 (R58). -/
def PlanEntry.unused : PlanEntry := ⟨false, some 4000, some [.normal], PlanEntry.builtinRates⟩

/-- The built-in rate plan table (R58). -/
def planBuiltin : Vector PlanEntry 16 := (Vector.replicate 16 PlanEntry.unused).set 0 PlanEntry.default

/-- The training context after a reset (R29). -/
def Training.atReset : Training where
  link := .off
  snapshot := none
  ability := []
  demoted := []
  target := none
  attempts := 0
  current := none
  margin := none
  energy := false
  history := []
  degradeCount := 0
  exchangeTimer := none
  attemptTimer := none
  verifyTimer := none
  degradeTimer := none
  backoffTimer := none

/-- The traffic path's state of a port after a reset (R19, R25, R27). -/
def Traffic.atReset : Traffic := ⟨[], none, 0, 0, 0, 0, 0⟩

/-- The survey record after a reset (R143). -/
def SurveyRecord.atReset : SurveyRecord := ⟨.idle, none, none, false⟩

/-- An empty pending event set (R170). -/
def PortEvents.empty : PortEvents := ⟨none, none, none, none, none, none, none, none⟩

/-- An empty device set (R170). -/
def DeviceEvents.empty : DeviceEvents := ⟨none, none⟩

/-- A port after a reset (R175). -/
def PortState.atReset (p : Port) : PortState where
  profile := Profile.builtin p
  mode := .openMode
  training := Training.atReset
  traffic := Traffic.atReset
  cableClass := 0
  report := none
  summary := none
  baseline := none
  survey := SurveyRecord.atReset
  events := PortEvents.empty

/-- A bundle group after a reset (R71). -/
def BundleGroup.atReset : BundleGroup := ⟨none, false, none⟩

/-- An engine after a reset (R71, R94). -/
def Engine.atReset : Engine := ⟨.idle, none, none, 0⟩

/-- The built-in signature table (R126). -/
def SignatureTable.builtin : SignatureTable := ⟨⟨32, 8, 1600⟩, Vector.replicate 1024 none, 1024⟩

/-- A requester slot not in use (R153). -/
def Requester.unused : Requester := ⟨false, none, .observer, 0, 0, 0⟩

/-- The built-in slot 1: the WILDCARD ADMIN (R153). -/
def Requester.wildcardAdmin : Requester := ⟨true, none, .admin, BitVec.allOnes 48, BitVec.allOnes 48, 2⟩

/-- The built-in requester table (R153). -/
def requestersBuiltin : Vector Requester 8 :=
  (Vector.replicate 8 Requester.unused).set 1 Requester.wildcardAdmin

/-- The built-in station record: the supervisor address ends in the strap value (R156). -/
def Station.builtin (straps : BitVec 4) : Station where
  address := 0x024E505A0000#48 ||| straps.setWidth 48
  ethertype := 0x9A5C#16
  noticeDestination := none
  noticeSlot := 0
  holdoff := 100
  starvationLimit := 8
  holdLimit := 2000

/-- The supervision unit after a reset (R169). -/
def Supervision.atReset (straps : BitVec 4) : Supervision where
  accepting := false
  requesters := requestersBuiltin
  station := Station.builtin straps
  stationSet := false
  slots := Vector.replicate 16 none
  requests := []
  unknownSource := 0
  malformed := 0
  noReplySlot := 0

/-- The notice unit after a reset (R171). -/
def NoticeUnit.atReset : NoticeUnit := ⟨.idle, none, 0, DeviceEvents.empty⟩

/-- Nothing owed. -/
def Due.none : Due := ⟨false, false, []⟩

end Sys2Proof.Machine
end

