-- ==== Sys2Proof/Machine/State.lean ====
section
/-! DEFINITION. The state of the part, block by block, the queue of events not yet taken, and the state
after a reset. -/

namespace Sys2Proof.Machine

/-- No event stops the part: every refusal of the spec is a result code, a discard or an abort, and the
part goes on. So no reason for a fault exists. -/
inductive Fault where
  deriving DecidableEq, Repr

/-- Why an event is refused. -/
inductive Refusal where
  /-- Raised by `exec` for an event that has no meaning yet; safe (no arm does so). -/
  | notModelled (mnemonic : String)
  deriving DecidableEq, Repr

/-- The state of the LS48. -/
structure State where
  /-- Events not yet taken, the next one first. -/
  pending : List Instr
  /-- The start-up unit (R176). -/
  startUp : StartUp
  /-- Availability of the twelve quads (section 1.5): set for AVAILABLE. -/
  quads : Vector Bool 12
  /-- The 48 ports. -/
  ports : Vector PortState 48
  /-- The rate plan table (R57). -/
  plan : Vector PlanEntry 16
  /-- The diagnostic queue, oldest first (R71). -/
  queue : List QueueEntry
  /-- Admissions since the reset; the low 32 bits are the arrival stamp counter (R71, log 24). -/
  admissions : Nat
  /-- The bundle group table (R83). -/
  groups : Vector BundleGroup 16
  /-- The probe engines, with the scheduler's passed-over counters (R81, R94). -/
  engines : Vector Engine 4
  /-- The signature table (R126). -/
  signatures : SignatureTable
  /-- The sequence counter of the cable report store (R135). -/
  sequence : BitVec 32
  /-- The supervision unit (chapter 10). -/
  supervision : Supervision
  /-- The notice unit (chapter 11). -/
  notice : NoticeUnit
  /-- Consequences owed within the present event (the model's own, log 17). -/
  due : Due
  /-- Free choices of order drawn so far (the model's own, log 4). -/
  arbiter : Nat
  /-- What the part has put on its lanes, oldest first (the model's own, log 9). -/
  outputs : List Output
  deriving DecidableEq, Repr

/-- Every block at its reset value (R175): the strap value read, the causes recorded, the load at
`progress`; `pending`, `arbiter` and `outputs` are the world's and pass through. -/
def State.atReset (straps : BitVec 4) (causes : ResetCauses) (progress : LoadProgress)
    (pending : List Instr) (arbiter : Nat) (outputs : List Output) : State where
  pending := pending
  startUp := ⟨straps, causes, progress, none, []⟩
  quads := Vector.replicate 12 false
  ports := Vector.ofFn PortState.atReset
  plan := planBuiltin
  queue := []
  admissions := 0
  groups := Vector.replicate 16 BundleGroup.atReset
  engines := Vector.replicate 4 Engine.atReset
  signatures := SignatureTable.builtin
  sequence := 0
  supervision := Supervision.atReset straps
  notice := NoticeUnit.atReset
  due := Due.none
  arbiter := arbiter
  outputs := outputs

/-- The part right after a POWER_ON reset with strap value 0 (log 1): the load stands before its first
pass, and no event waits. -/
def State.reset : State :=
  State.atReset 0 ⟨true, false, false, false⟩ .firstPass [] 0 []

end Sys2Proof.Machine
end

