-- ==== Sys2Proof/Machine/Operands.lean ====
section
/-! DEFINITION. The codes and records of the formats (chapter 13): what request parameters, image records
and result data say, byte by byte. A decoder answers none where the checks of the write concerned refuse
the record (R4, R59, R157, R167), and says whether it clamped a value. -/

namespace Sys2Proof.Machine

/-! ### Codes (R180) -/

/-- The rates in ascending order. -/
def Rate.all : List Rate := [.r10, .r100, .r1000, .r2500, .r5000]

/-- Rate codes 1 to 5 (R180). -/
def Rate.code : Rate → Nat
  | .r10 => 1 | .r100 => 2 | .r1000 => 3 | .r2500 => 4 | .r5000 => 5

/-- A rate in Mb/s. -/
def Rate.mbps : Rate → Nat
  | .r10 => 10 | .r100 => 100 | .r1000 => 1000 | .r2500 => 2500 | .r5000 => 5000

/-- The rate of a code; other codes name no rate. -/
def Rate.ofCode (n : Nat) : Option Rate := Rate.all.find? fun r => r.code == n

/-- The set of the rates that satisfy `f`, in canonical order. -/
def RateSet.ofPred (f : Rate → Bool) : RateSet := Rate.all.filter f

/-- A set of rates with one more member. -/
def RateSet.insert (r : Rate) (s : RateSet) : RateSet := RateSet.ofPred fun x => x == r || s.contains x

/-- A rate set in one byte: bit n - 1 for rate code n (R180). -/
def RateSet.byte (s : RateSet) : List Byte := byteOf ((s.map fun r => 2 ^ (r.code - 1)).sum)

/-- The rate set of a byte; a bit above the five names a value that is not a rate (R4). -/
def RateSet.ofByte (n : Nat) : Option RateSet :=
  if n < 32 then some (RateSet.ofPred fun r => n.testBit (r.code - 1)) else none

/-- An optional rate byte: 0 when absent, an undefined code refused (R180). -/
def optionalRate (n : Nat) : Option (Option Rate) :=
  if n = 0 then some none else (Rate.ofCode n).map some

/-- An optional rate in one byte (R180). -/
def optionalRateByte (r : Option Rate) : List Byte := byteOf ((r.map Rate.code).getD 0)

/-- A pair set byte: bit n for pair n, bits 4 to 7 fill (R180). -/
def pairsOfByte (n : Nat) : List Pair := Pair.all.filter fun p => n.testBit p.index.val

/-- A pair set in one byte (R180). -/
def pairsByte (s : List Pair) : List Byte := byteOf ((s.map fun p => 2 ^ p.index.val).sum)

/-- Severity, which is also the code of a class (R132, R180). -/
def FaultClass.severity : FaultClass → Nat
  | .normal => 0 | .beyondReach => 1 | .highImpedance => 2 | .lowImpedance => 3 | .crossCoupled => 4
  | .unclassified => 5 | .openEnd => 6 | .shorted => 7 | .crossShort => 8

/-- The fault classes, least severe first. -/
def FaultClass.all : List FaultClass :=
  [.normal, .beyondReach, .highImpedance, .lowImpedance, .crossCoupled, .unclassified, .openEnd,
    .shorted, .crossShort]

/-- The class of a code. -/
def FaultClass.ofCode (n : Nat) : Option FaultClass := FaultClass.all.find? fun c => c.severity == n

/-- A verdict's code: NOT_TESTED is 15 (R180). -/
def Verdict.code : Verdict → Nat
  | .notTested => 15
  | .classed c => c.severity

/-- Result codes 0 to 19 in the order of section 10.6 (R180). -/
def ResultCode.code : ResultCode → Nat
  | .ok => 0 | .okAdjusted => 1 | .badPort => 2 | .badValue => 3 | .notPermitted => 4
  | .unknownRequest => 5 | .queueFull => 6 | .duplicate => 7 | .livePort => 8 | .portBusy => 9
  | .portDisabled => 10 | .noLine => 11 | .locked => 12 | .notBlank => 13 | .alreadySet => 14
  | .notFound => 15 | .tooLate => 16 | .cancelled => 17 | .frontEndTimeout => 18 | .frontEndFault => 19

/-- Link states 0 to 9 (R180). -/
def LinkState.code : LinkState → Nat
  | .off => 0 | .noLine => 1 | .listen => 2 | .exchange => 3 | .pendingTrain => 4 | .train => 5
  | .verify => 6 | .up => 7 | .held => 8 | .backoff => 9

/-- Line modes 0 to 4 (R180). -/
def LineMode.code : LineMode → Nat
  | .openMode => 0 | .silencing => 1 | .silentMode => 2 | .capturing _ _ => 3 | .readingTaps => 4

/-- Engine states 0 to 5 (R180). -/
def EngineState.code : EngineState → Nat
  | .idle => 0 | .quiesce => 1 | .capture => 2 | .analyze => 3 | .restore => 4 | .surveyRead => 5

/-- Survey states 0 to 3 (R180). -/
def SurveyState.code : SurveyState → Nat
  | .idle => 0 | .counting => 1 | .due => 2 | .overdue => 3

/-- History outcomes 0 to 6 (R180). -/
def HistoryOutcome.code : HistoryOutcome → Nat
  | .success => 0 | .lowMargin => 1 | .timeout => 2 | .verifyLost => 3 | .abandoned => 4
  | .noCommonRate => 5 | .exhausted => 6

/-- Roles 0 to 2, which is also their order (R155, R180). -/
def Role.code : Role → Nat
  | .observer => 0 | .operator => 1 | .admin => 2

/-- The role of a code. -/
def Role.ofCode (n : Nat) : Option Role := [Role.observer, .operator, .admin].find? fun r => r.code == n

/-- Rejection reasons 1 to 6 (R180). -/
def RejectReason.code : RejectReason → Nat
  | .noAcknowledge => 1 | .badMagic => 2 | .badVersion => 3 | .badLength => 4 | .badSum => 5
  | .badRecord => 6

/-- Section kinds 1 to 7 (R183). -/
def SectionKind.code : SectionKind → Nat
  | .station => 1 | .requesters => 2 | .profiles => 3 | .plan => 4 | .geometry => 5 | .signatures => 6
  | .lock => 7

/-- The section kinds in the order of their codes. -/
def SectionKind.all : List SectionKind :=
  [.station, .requesters, .profiles, .plan, .geometry, .signatures, .lock]

/-- The section kind of a code (R183). -/
def SectionKind.ofCode (n : Nat) : Option SectionKind := SectionKind.all.find? fun k => k.code == n

/-- The record size of a section kind (R183). -/
def SectionKind.recordSize : SectionKind → Nat
  | .station => 24 | .requesters => 24 | .profiles => 33 | .plan => 33 | .geometry => 4
  | .signatures => 3 | .lock => 2

/-- The kinds marked "one record" (R183). -/
def SectionKind.oneRecord : SectionKind → Bool
  | .station | .geometry | .lock => true
  | .requesters | .profiles | .plan | .signatures => false

/-- An optional distance in two bytes, 0xFFFF when absent (R180). -/
def optionalDistance (d : Option Nat) : List Byte := natBytes 2 (d.getD 0xFFFF)

/-- A value raised to the lower end or lowered to the upper end of its range (R5). -/
def clampNat (lo hi n : Nat) : Nat := if n < lo then lo else if hi < n then hi else n

/-- A minimum margin clamped to its range (R60). -/
def clampMargin (m : Int) : Int := if m < -100 then -100 else if 300 < m then 300 else m

/-! ### Profile record, 32 bytes (R3, R180) -/

/-- The values outside the "refused" class checks of R4: checks 1 to 3. -/
def Profile.acceptable (p : Profile) : Bool :=
  !p.allowed.isEmpty
    && (match p.forced with | none => true | some r => p.allowed.contains r)
    && p.pathOffset ≤ 255 && p.nearBlank ≤ 63 && 8 ≤ p.threshold && p.threshold ≤ 512
    && p.slope ≤ 63 && 1 ≤ p.degradeThreshold && p.degradeThreshold ≤ 65535 && p.internalPriority ≤ 3

/-- The clamped class of R3, clamped (R5). -/
def Profile.clamped (p : Profile) : Profile :=
  { p with
    nvp := clampNat 500 900 p.nvp
    verifyWindow := clampNat 100 5000 p.verifyWindow
    backoffTime := clampNat 1000 60000 p.backoffTime
    surveyInterval := clampNat 10 3600 p.surveyInterval
    driftTolerance := clampNat 1 1000 p.driftTolerance
    magnitudeTolerance := clampNat 1 1023 p.magnitudeTolerance }

/-- The fields of a profile record as written; none where a field holds an undefined code (R180) or the
bundle group is out of range. -/
def Profile.fields (b : List Byte) : Option Profile := do
  let enabled ← flagAt b 0
  let group ← finOf 16 (byteAt b 1)
  let allowed ← RateSet.ofByte (byteAt b 2)
  let forced ← optionalRate (byteAt b 3)
  let autoDiagnosis ← flagAt b 17
  let survey ← flagAt b 19
  let protectLive ← flagAt b 26
  some
    { enabled, group, allowed, forced
      nvp := natAt b 4 2
      pathOffset := byteAt b 6
      nearBlank := byteAt b 7
      threshold := natAt b 8 2
      slope := byteAt b 10
      verifyWindow := natAt b 11 2
      degradeThreshold := natAt b 13 2
      backoffTime := natAt b 15 2
      autoDiagnosis
      internalPriority := byteAt b 18
      survey
      surveyInterval := natAt b 20 2
      driftTolerance := natAt b 22 2
      magnitudeTolerance := natAt b 24 2
      protectLive }

/-- A profile record taken through checks 1 to 3 of R4 and the clamping of R5: the profile to store and
whether a field was changed. -/
def Profile.decode (b : List Byte) : Option (Profile × Bool) :=
  match Profile.fields b with
  | none => none
  | some p => if p.acceptable then some (p.clamped, p.clamped != p) else none

/-- The profile record of a stored profile. -/
def Profile.encode (p : Profile) : List Byte :=
  padTo 32 (flagByte p.enabled ++ byteOf p.group.val ++ RateSet.byte p.allowed ++ optionalRateByte p.forced
    ++ natBytes 2 p.nvp ++ byteOf p.pathOffset ++ byteOf p.nearBlank ++ natBytes 2 p.threshold
    ++ byteOf p.slope ++ natBytes 2 p.verifyWindow ++ natBytes 2 p.degradeThreshold
    ++ natBytes 2 p.backoffTime ++ flagByte p.autoDiagnosis ++ byteOf p.internalPriority
    ++ flagByte p.survey ++ natBytes 2 p.surveyInterval ++ natBytes 2 p.driftTolerance
    ++ natBytes 2 p.magnitudeTolerance ++ flagByte p.protectLive)

/-! ### Plan entry record, 32 bytes (R57, R180, log 19) -/

/-- Place `i` of the rate list: rate, attempt limit, minimum margin (R180). -/
def PlanRate.at (b : List Byte) (i : Nat) : Option PlanRate :=
  (Rate.ofCode (byteAt b (8 + 4 * i))).map fun r => ⟨r, byteAt b (9 + 4 * i), intAt b (10 + 4 * i)⟩

/-- The first `n` places of the rate list; none if one names no defined rate (R59 check 3). -/
def PlanRate.list (b : List Byte) : Nat → Option (List PlanRate)
  | 0 => some []
  | n + 1 => do
    let front ← PlanRate.list b n
    let last ← PlanRate.at b n
    some (front ++ [last])

/-- No rate is named more than once. -/
def PlanRate.distinct : List PlanRate → Bool
  | [] => true
  | x :: rest => !(rest.any fun y => y.rate == x.rate) && PlanRate.distinct rest

/-- The tolerated verdicts of two bytes; none if they name NOT_TESTED or no fault class (R59 check 5). -/
def toleratedOf (n : Nat) : Option (List FaultClass) :=
  if n < 512 then some (FaultClass.all.filter fun c => n.testBit c.severity) else none

/-- The maximum length and tolerated verdicts of entries 1 to 15 (R59 check 5); entry 0 keeps both
absent whatever the record carries. -/
def PlanEntry.description (index : Nat) (b : List Byte) : Option (Option Nat × Option (List FaultClass)) :=
  if index = 0 then some (none, none)
  else if byteAt b 1 = 1 && byteAt b 4 = 1 && 1 ≤ natAt b 2 2 && natAt b 2 2 ≤ 4000 then
    (toleratedOf (natAt b 5 2)).map fun t => (some (natAt b 2 2), some t)
  else none

/-- A plan entry record for an index, taken through the checks of R59 and the clamping of R60: the entry
to store and whether a margin was clamped. -/
def PlanEntry.decode (index : Nat) (b : List Byte) : Option (PlanEntry × Bool) := do
  let inUse ← flagAt b 0
  let description ← PlanEntry.description index b
  let rates ← PlanRate.list b (byteAt b 7)
  if index ≤ 15 && (inUse || index != 0) && 1 ≤ byteAt b 7 && byteAt b 7 ≤ 5 && PlanRate.distinct rates
      && rates.all (fun r => 1 ≤ r.limit && r.limit ≤ 8) then
    let stored := rates.map fun r => { r with margin := clampMargin r.margin }
    some (⟨inUse, description.1, description.2, stored⟩, stored != rates)
  else none

/-- One place of the rate list. -/
def PlanRate.encode (r : PlanRate) : List Byte := byteOf r.rate.code ++ byteOf r.limit ++ intBytes 2 r.margin

/-- The plan entry record of a stored entry. -/
def PlanEntry.encode (e : PlanEntry) : List Byte :=
  padTo 32 (flagByte e.inUse
    ++ flagByte e.maxLength.isSome ++ natBytes 2 (e.maxLength.getD 0)
    ++ flagByte e.tolerated.isSome
    ++ natBytes 2 ((e.tolerated.getD []).map fun c => 2 ^ c.severity).sum
    ++ byteOf e.rates.length ++ (e.rates.map PlanRate.encode).flatten)

/-! ### Requester slot record, 24 bytes, slot number first (R153, R180) -/

/-- A requester slot record taken through the checks of R167. -/
def Requester.decode (b : List Byte) : Option (RequesterId × Requester) := do
  let slot ← finOf 8 (byteAt b 0)
  let inUse ← flagAt b 1
  let wildcard ← flagAt b 2
  let role ← Role.ofCode (byteAt b 9)
  if slot != 0 && byteAt b 22 ≤ 3 then
    some (slot,
      { inUse, role
        address := if wildcard then none else some (BitVec.ofNat 48 (natAt b 3 6))
        readSet := portSetAt b 10
        disturbSet := portSetAt b 16
        priority := byteAt b 22 })
  else none

/-- The requester slot record of a slot. -/
def Requester.encode (slot : RequesterId) (r : Requester) : List Byte :=
  padTo 24 (byteOf slot.val ++ flagByte r.inUse ++ flagByte r.address.isNone
    ++ natBytes 6 ((r.address.getD 0).toNat) ++ byteOf r.role.code
    ++ portSetBytes r.readSet ++ portSetBytes r.disturbSet ++ byteOf r.priority)

/-! ### Station record, 24 bytes (R156, R180) -/

/-- A group address has bit 0 of its first byte set (R180). -/
def isGroupAddress (a : Address) : Bool := a.getLsbD 40

/-- A station record taken through check 2 of R157. -/
def Station.decode (b : List Byte) : Option Station := do
  let present ← flagAt b 8
  let noticeSlot ← finOf 48 (byteAt b 15)
  let address := BitVec.ofNat 48 (natAt b 0 6)
  if !isGroupAddress address && 0x0600 ≤ natAt b 6 2
      && 10 ≤ natAt b 16 2 && natAt b 16 2 ≤ 1000
      && 1 ≤ byteAt b 18 && byteAt b 18 ≤ 64
      && 100 ≤ natAt b 19 2 && natAt b 19 2 ≤ 10000 then
    some
      { address, noticeSlot
        ethertype := BitVec.ofNat 16 (natAt b 6 2)
        noticeDestination := if present then some (BitVec.ofNat 48 (natAt b 9 6)) else none
        holdoff := natAt b 16 2
        starvationLimit := byteAt b 18
        holdLimit := natAt b 19 2 }
  else none

/-- The station record, encoded. -/
def Station.encode (s : Station) : List Byte :=
  padTo 24 (natBytes 6 s.address.toNat ++ natBytes 2 s.ethertype.toNat
    ++ flagByte s.noticeDestination.isSome ++ natBytes 6 ((s.noticeDestination.getD 0).toNat)
    ++ byteOf s.noticeSlot.val ++ natBytes 2 s.holdoff ++ byteOf s.starvationLimit
    ++ natBytes 2 s.holdLimit)

/-! ### Geometry and signature items -/

/-- Check 1 of R127. -/
def Geometry.acceptable (g : Geometry) : Bool :=
  ((g.distanceBins == 16 && g.amplitudeBins == 16) || (g.distanceBins == 32 && g.amplitudeBins == 8)
      || (g.distanceBins == 64 && g.amplitudeBins == 4))
    && 100 ≤ g.reach && g.reach ≤ 6000

/-- D, A and the reach limit (R181). -/
def Geometry.decode (b : List Byte) : Option Geometry :=
  let g : Geometry := ⟨byteAt b 0, byteAt b 1, natAt b 2 2⟩
  if g.acceptable then some g else none

/-- A class that a signature entry can hold (R126). -/
def FaultClass.storable : FaultClass → Bool
  | .normal | .beyondReach => false
  | .highImpedance | .lowImpedance | .crossCoupled | .unclassified | .openEnd | .shorted | .crossShort => true

/-- A signature item: the class in the high four bits, the confidence in the low four; none for a class
that an entry cannot hold (R128 check 2, R181). -/
def Signature.decode (n : Nat) : Option Signature :=
  match FaultClass.ofCode (n / 16) with
  | none => none
  | some c => if c.storable then some ⟨c, n % 16⟩ else none

/-- A signature item in one byte. -/
def Signature.encode (s : Signature) : List Byte := byteOf (s.cls.severity * 16 + s.confidence)

/-! ### Result data (section 13.3) -/

/-- A reflection, 6 bytes. -/
def Reflection.encode (r : Reflection) : List Byte :=
  natBytes 2 r.distance ++ intBytes 2 r.comp ++ byteOf r.cls.severity
    ++ byteOf (r.confidence % 16 + 128 * r.saturated.toNat)

/-- A pair finding. -/
def PairFinding.encode (f : PairFinding) : List Byte :=
  byteOf f.verdict.code ++ byteOf f.reflections.length ++ (f.reflections.map Reflection.encode).flatten

/-- A cross finding, 7 bytes. -/
def CrossFinding.encode (f : CrossFinding) : List Byte :=
  byteOf (f.pulsed.index.val * 16 + f.listening.index.val) ++ f.reflection.encode

/-- A cable report: a 12-byte head, the pair findings A to D, the cross findings. -/
def CableReport.encode (r : CableReport) : List Byte :=
  natBytes 4 r.sequence.toNat ++ byteOf r.port.val ++ pairsByte r.pairs
    ++ byteOf (r.crossPair.toNat + 2 * r.force.toNat) ++ byteOf r.averaging ++ byteOf r.worst.severity
    ++ optionalDistance r.length ++ byteOf r.cross.length
    ++ (r.findings.toList.map PairFinding.encode).flatten ++ (r.cross.map CrossFinding.encode).flatten

/-- A survey summary (kind 1) or baseline (kind 2), 24 bytes. -/
def SurveySummary.encode (port : Port) (kind : Nat) (s : SurveySummary) : List Byte :=
  byteOf port.val ++ byteOf kind ++ natBytes 4 s.sequence.toNat ++ natBytes 2 s.length
    ++ (s.lengths.toList.map (natBytes 2)).flatten ++ (s.healths.toList.map (intBytes 2)).flatten

/-- A port result of a sweep, 8 bytes. -/
def PortResult.encode (r : PortResult) : List Byte :=
  byteOf r.port.val ++ byteOf r.code.code ++ byteOf r.worst.code ++ fill 1 ++ optionalDistance r.length
    ++ fill 2

/-- A sweep's data: an 8-byte head and its port results. -/
def Sweep.encode (s : Sweep) : List Byte :=
  byteOf s.start.val ++ flagByte s.down ++ byteOf s.count ++ byteOf s.results.length ++ fill 4
    ++ (s.results.map PortResult.encode).flatten

/-- Ten occurrence counts of four bits, kind 0 in the high half of the first byte (section 13.3). -/
def packCounts : List Nat → List Byte
  | hi :: lo :: rest => byteOf (hi * 16 + lo) ++ packCounts rest
  | _ => []

/-- The event record of a port, 16 bytes; an absent kind counts 0. -/
def PortEvents.encode (port : Port) (e : PortEvents) : List Byte :=
  let flags := (e.trainExhausted.map fun x => x.notQueued.toNat).getD 0
    + (e.degraded.map fun x => 2 * x.errors.toNat + 4 * x.profile.toNat).getD 0
  padTo 16 (byteOf port.val ++ byteOf flags
    ++ packCounts
      [e.linkUp.getD 0, e.linkDown.getD 0, (e.trainExhausted.map ExhaustedCount.count).getD 0,
        e.noCommonRate.getD 0, (e.degraded.map DegradedCount.count).getD 0,
        (e.cableFault.map SequencedCount.count).getD 0, (e.cableDrift.map SequencedCount.count).getD 0,
        e.frontEndFault.getD 0, 0, 0]
    ++ natBytes 4 ((e.cableFault.map fun x => x.sequence.toNat).getD 0)
    ++ natBytes 4 ((e.cableDrift.map fun x => x.sequence.toNat).getD 0))

/-- The event record of the device set. -/
def DeviceEvents.encode (e : DeviceEvents) : List Byte :=
  padTo 16 (byteOf 0xFF ++ byteOf 0
    ++ packCounts [0, 0, 0, 0, 0, 0, 0, 0, e.startUp.getD 0, e.imageRejected.getD 0])

/-- A history record, 8 bytes. -/
def HistoryRecord.encode (h : HistoryRecord) : List Byte :=
  optionalRateByte h.rate ++ byteOf h.outcome.code ++ flagByte h.margin.isSome
    ++ intBytes 2 (h.margin.getD 0) ++ byteOf h.attempt ++ byteOf h.planIndex ++ fill 1

/-- The arrival stamp of an entry: its serial in 32 bits (R71, log 24). -/
def QueueEntry.stamp (e : QueueEntry) : BitVec 32 := BitVec.ofNat 32 e.serial

/-- A SURVEY entry. -/
def QueueEntry.isSurvey (e : QueueEntry) : Bool :=
  match e.kind with
  | .survey => true
  | .test _ => false

/-- The options of a TEST entry. -/
def QueueEntry.options (e : QueueEntry) : Option TestOptions :=
  match e.kind with
  | .survey => none
  | .test o => some o

/-- The sweep fields of an entry. -/
def QueueEntry.sweep (e : QueueEntry) : Option Sweep := e.options.bind TestOptions.sweep

/-- A non-sweep TEST entry. -/
def QueueEntry.isSingleTest (e : QueueEntry) : Bool := !e.isSurvey && e.sweep.isNone

/-- A WAITING entry. -/
def QueueEntry.waiting (e : QueueEntry) : Bool := e.state == .waiting

/-- A queue entry record of READ_PORT, 8 bytes. -/
def QueueEntry.encode (e : QueueEntry) : List Byte :=
  byteOf (e.isSurvey.toNat + 2 * (!e.waiting).toNat + 4 * e.urgent.toNat) ++ byteOf e.requester.val
    ++ natBytes 2 ((e.external.map fun x => x.tag.toNat).getD 0) ++ natBytes 4 e.stamp.toNat

/-- A reply entry: an 8-byte head and its data (section 13.2). -/
def ReplyEntry.encode (index : Nat) (e : ReplyEntry) : List Byte :=
  match e.answer with
  | none => []
  | some a =>
    [e.code] ++ byteOf a.code.code ++ natBytes 2 e.tag.toNat ++ natBytes 2 a.data.length ++ byteOf index
      ++ fill 1 ++ a.data

/-- The reply entries of a slot, one after another from a position. -/
def ReplyEntry.encodeFrom : Nat → List ReplyEntry → List Byte
  | _, [] => []
  | i, e :: rest => e.encode i ++ ReplyEntry.encodeFrom (i + 1) rest

/-- A frame that the part originates, before padding: the layout of section 13.2. -/
def originated (station : Station) (destination : Address) (kind : Nat) (tag : Nat) (count : Nat)
    (payload : List Byte) : List Byte :=
  natBytes 6 destination.toNat ++ natBytes 6 station.address.toNat ++ natBytes 2 station.ethertype.toNat
    ++ byteOf 1 ++ byteOf kind ++ natBytes 2 tag ++ byteOf count ++ fill 1 ++ natBytes 2 payload.length
    ++ payload

end Sys2Proof.Machine
end

