-- ==== Sys2Proof/Machine/Arithmetic.lean ====
section
/-! DEFINITION. The reflection arithmetic (chapter 7), classification and the building of a cable report
(sections 8.3 and 8.5), and the survey arithmetic (R125): exact integers throughout. -/

namespace Sys2Proof.Machine

/-! ### Distance and loss compensation -/

/-- Net delay: the tick less the path offset, floored at 0 (R116). -/
def netDelay (pathOffset tick : Nat) : Nat := tick - pathOffset

/-- Distance in dm of a net delay, rounded half up (R117). -/
def distanceOf (net nvp : Nat) : Nat := (net * nvp * 1874 + 500000) / 1000000

/-- The distance clamped to the reach limit (R118). -/
def reachClamp (reach distance : Nat) : Nat := if reach < distance then reach else distance

/-- The loss factor at a distance (R119). -/
def lossFactor (slope distance : Nat) : Nat := 1024 + slope * (distance / 10)

/-- The compensated amplitude before saturation, truncated toward zero (R119). -/
def compensate (slope distance : Nat) (sample : Int) : Int :=
  (sample * (lossFactor slope distance : Int)).tdiv 1024

/-- The compensated amplitude saturated at 1023 in magnitude (R120). -/
def saturateComp (comp : Int) : Int := if 1023 < comp then 1023 else if comp < -1023 then -1023 else comp

/-! ### Peak candidates (R114, R115) -/

/-- A compared neighbour is zero or has the sign of the sample (R115). -/
def sameSign (sample neighbour : Int) : Bool :=
  neighbour == 0 || (decide (0 < neighbour) == decide (0 < sample))

/-- A sample is an extremum of its own sign between its left neighbour and its right one, if it has one
(R115). -/
def isExtremum (left sample : Int) (right : Option Int) : Bool :=
  left.natAbs ≤ sample.natAbs && sameSign sample left
    && (match right with | none => true | some r => r.natAbs < sample.natAbs && sameSign sample r)

/-- The peak candidates of samples that begin at `tick`, with the sample before them; `start` is the sum
of the path offset and the near-end blank (R114). -/
def peaksFrom (start : Nat) : Nat → Int → List Int → List (Nat × Int)
  | _, _, [] => []
  | tick, left, x :: rest =>
    let here := start < tick && 4 ≤ x.natAbs && x != 0 && isExtremum left x rest.head?
    if here then (tick, x) :: peaksFrom start (tick + 1) x rest else peaksFrom start (tick + 1) x rest

/-- The peak candidates of a capture set in tick order (R114). -/
def peaks (start : Nat) (samples : List Int) : List (Nat × Int) := peaksFrom start 0 0 samples

/-! ### Reflection records -/

/-- The five profile fields and the geometry record that one test uses (R112). -/
structure ArithmeticInputs where
  nvp : Nat
  pathOffset : Nat
  nearBlank : Nat
  threshold : Nat
  slope : Nat
  geometry : Geometry
  deriving DecidableEq, Repr

/-- The inputs as a profile and a geometry record give them (R112). -/
def arithmeticInputs (p : Profile) (g : Geometry) : ArithmeticInputs :=
  ⟨p.nvp, p.pathOffset, p.nearBlank, p.threshold, p.slope, g⟩

/-- The signature index of a reflection within reach (R123). -/
def signatureIndex (g : Geometry) (cross : Bool) (distance : Nat) (comp : Int) : Nat :=
  let quarter := cross.toNat * 2 + (decide (comp < 0)).toNat
  let dbin := min (g.distanceBins - 1) (distance * g.distanceBins / g.reach)
  let abin := min (g.amplitudeBins - 1) (comp.natAbs * g.amplitudeBins / 1024)
  (quarter * g.distanceBins + dbin) * g.amplitudeBins + abin

/-- The reflection record of a candidate (R113, R116 to R120, R123). -/
def reflectionRecord (k : ArithmeticInputs) (pulsed listening : Pair) (candidate : Nat × Int) :
    ReflectionRecord :=
  let raw := distanceOf (netDelay k.pathOffset candidate.1) k.nvp
  let beyond := decide (k.geometry.reach < raw)
  let distance := reachClamp k.geometry.reach raw
  let full := compensate k.slope distance candidate.2
  let comp := saturateComp full
  { pulsed, listening, distance, comp, beyond
    tick := candidate.1
    saturated := decide (1023 < full.natAbs)
    index := if beyond then none else some (signatureIndex k.geometry (pulsed != listening) distance comp) }

/-- Insert before the first item that the new one precedes, so that equals keep their order. -/
def insertBy {α : Type} (precedes : α → α → Bool) (x : α) : List α → List α
  | [] => [x]
  | y :: rest => if precedes x y then x :: y :: rest else y :: insertBy precedes x rest

/-- Sort by a strict order, equals in their given order. -/
def sortBy {α : Type} (precedes : α → α → Bool) (xs : List α) : List α :=
  xs.foldl (fun acc x => insertBy precedes x acc) []

/-- The stronger of two candidates: the greater |comp|, or on a tie the smaller tick (R121). -/
def ReflectionRecord.stronger (x y : ReflectionRecord) : Bool :=
  y.comp.natAbs < x.comp.natAbs || (x.comp.natAbs == y.comp.natAbs && x.tick < y.tick)

/-- The nearer of two reflections, or on a tie the one with the smaller tick (R121). -/
def ReflectionRecord.nearer (x y : ReflectionRecord) : Bool :=
  x.distance < y.distance || (x.distance == y.distance && x.tick < y.tick)

/-- The kept reflections of a capture set: over the threshold, the three strongest, by distance (R121). -/
def keepStrongest (threshold : Nat) (xs : List ReflectionRecord) : List ReflectionRecord :=
  let passed := xs.filter fun x => threshold ≤ x.comp.natAbs
  sortBy ReflectionRecord.nearer ((sortBy ReflectionRecord.stronger passed).take 3)

/-- The reflection records of a capture set (R113 to R123). -/
def reflectionsOf (k : ArithmeticInputs) (c : CaptureSet) : List ReflectionRecord :=
  keepStrongest k.threshold
    ((peaks (k.pathOffset + k.nearBlank) c.samples).map (reflectionRecord k c.pulsed c.listening))

/-! ### Classification (R133) -/

/-- The class and confidence of a reflection record, read from the signature entries as they stand. -/
def classify (entries : Vector (Option Signature) 1024) (r : ReflectionRecord) : Reflection :=
  match r.index with
  | none => ⟨r.distance, r.comp, .beyondReach, 15, r.saturated⟩
  | some i =>
    match entries[i]?.join with
    | none => ⟨r.distance, r.comp, .unclassified, 0, r.saturated⟩
    | some g => ⟨r.distance, r.comp, g.cls, g.confidence, r.saturated⟩

/-! ### The cable report (R136 to R139) -/

/-- The more severe of two classes (R132). -/
def moreSevere (x y : FaultClass) : FaultClass := if x.severity < y.severity then y else x

/-- The most severe class of a collection (R132). -/
def mostSevere : List FaultClass → Option FaultClass
  | [] => none
  | c :: rest => some (rest.foldl moreSevere c)

/-- The capture set of an ordered pair of pairs (R100 keeps at most one). -/
def captureOf (captures : List CaptureSet) (pulsed listening : Pair) : Option CaptureSet :=
  captures.find? fun c => c.pulsed == pulsed && c.listening == listening

/-- The kept reflections of an ordered pair of pairs; none without a capture set. -/
def keptFor (k : ArithmeticInputs) (captures : List CaptureSet) (pulsed listening : Pair) :
    List ReflectionRecord :=
  match captureOf captures pulsed listening with
  | none => []
  | some c => reflectionsOf k c

/-- The finding of a pair (R137). -/
def pairFinding (k : ArithmeticInputs) (entries : Vector (Option Signature) 1024) (tested : List Pair)
    (captures : List CaptureSet) (p : Pair) : PairFinding :=
  if tested.contains p then
    let reflections := (keptFor k captures p p).map (classify entries)
    ⟨.classed ((mostSevere (reflections.map Reflection.cls)).getD .normal), reflections⟩
  else ⟨.notTested, []⟩

/-- The cross finding of an ordered pair of distinct pairs, if its set kept a reflection (R138). -/
def crossFinding (k : ArithmeticInputs) (entries : Vector (Option Signature) 1024)
    (captures : List CaptureSet) (pulsed listening : Pair) : Option CrossFinding :=
  if pulsed == listening then none
  else
    ((sortBy ReflectionRecord.stronger (keptFor k captures pulsed listening)).head?).map
      fun r => ⟨pulsed, listening, classify entries r⟩

/-- The cross findings in the order of pulsed pair, then listening pair (R138). -/
def crossFindings (k : ArithmeticInputs) (entries : Vector (Option Signature) 1024)
    (captures : List CaptureSet) : List CrossFinding :=
  (Pair.all.map fun pulsed => Pair.all.filterMap fun listening =>
    crossFinding k entries captures pulsed listening).flatten

/-- The classes of the verdicts that are not NOT_TESTED. -/
def Verdict.cls : Verdict → Option FaultClass
  | .notTested => none
  | .classed c => some c

/-- The reflections that a report carries (R136). -/
def carried (findings : List PairFinding) (cross : List CrossFinding) : List Reflection :=
  (findings.map PairFinding.reflections).flatten ++ cross.map CrossFinding.reflection

/-- The worst verdict (R139). -/
def worstVerdict (findings : List PairFinding) (cross : List CrossFinding) : FaultClass :=
  (mostSevere (findings.filterMap (fun f => f.verdict.cls) ++ cross.map fun c => c.reflection.cls)).getD
    .normal

/-- The length estimate: the greatest distance classed OPEN among the carried reflections (R139). -/
def lengthEstimate (findings : List PairFinding) (cross : List CrossFinding) : Option Nat :=
  (((carried findings cross).filter fun r => r.cls == .openEnd).map Reflection.distance).max?

/-- The cable report of a test, before the store numbers it (R136). -/
def buildReport (k : ArithmeticInputs) (entries : Vector (Option Signature) 1024) (port : Port)
    (t : TestContext) : CableReport :=
  let finding := pairFinding k entries t.pairs t.captures
  let findings : Vector PairFinding 4 := #v[finding .a, finding .b, finding .c, finding .d]
  let cross := crossFindings k entries t.captures
  { port, findings, cross
    sequence := 0
    pairs := t.pairs
    averaging := t.averaging
    crossPair := t.crossPair
    force := t.force
    worst := worstVerdict findings.toList cross
    length := lengthEstimate findings.toList cross }

/-! ### The survey arithmetic (R125) -/

/-- The length of a tap: its distance after the reach clamp. -/
def tapLength (k : ArithmeticInputs) (t : Tap) : Nat :=
  reachClamp k.geometry.reach (distanceOf (netDelay k.pathOffset t.position) k.nvp)

/-- The health of a tap: its compensated, saturated magnitude. -/
def tapHealth (k : ArithmeticInputs) (t : Tap) : Int :=
  saturateComp (compensate k.slope (tapLength k t) t.magnitude)

/-- The survey summary of four taps, before the store numbers it (R125). -/
def surveySummary (k : ArithmeticInputs) (a b c d : Tap) : SurveySummary where
  sequence := 0
  length := max (max (tapLength k a) (tapLength k b)) (max (tapLength k c) (tapLength k d))
  lengths := #v[tapLength k a, tapLength k b, tapLength k c, tapLength k d]
  healths := #v[tapHealth k a, tapHealth k b, tapHealth k c, tapHealth k d]

end Sys2Proof.Machine
end

