-- ==== Sys2Proof/Machine/Ops.lean ====
section
/-! DEFINITION. Named reads and writes of the state, the line lane's commands (R12), the offers to the
output lists (R25) and the answers to request entries (R160, R163): the operations every block shares. A
block has no exception entry; what an event raises is in Flags.lean. -/

namespace Sys2Proof.Machine

/-! ### Ports -/

/-- What the part holds for a port. -/
def State.port (s : State) (p : Port) : PortState := s.ports[p]

/-- Rewrite what the part holds for a port. -/
def State.updPort (s : State) (p : Port) (f : PortState → PortState) : State :=
  { s with ports := s.ports.set p (f (s.port p)) }

/-- The training context of a port (R29). -/
def State.training (s : State) (p : Port) : Training := (s.port p).training

/-- Rewrite the training context of a port. -/
def State.updTraining (s : State) (p : Port) (f : Training → Training) : State :=
  s.updPort p fun x => { x with training := f x.training }

/-- The link state of a port. -/
def State.link (s : State) (p : Port) : LinkState := (s.training p).link

/-- The stored profile of a port (R3). -/
def State.profile (s : State) (p : Port) : Profile := (s.port p).profile

/-- The bundle group that a port's profile names at this moment (R2). -/
def State.groupOf (s : State) (p : Port) : Group := (s.profile p).group

/-- The survey record of a port (R143). -/
def State.survey (s : State) (p : Port) : SurveyRecord := (s.port p).survey

/-- Rewrite the survey record of a port. -/
def State.updSurvey (s : State) (p : Port) (f : SurveyRecord → SurveyRecord) : State :=
  s.updPort p fun x => { x with survey := f x.survey }

/-- The line mode of a port. -/
def State.mode (s : State) (p : Port) : LineMode := (s.port p).mode

/-- Set the line mode of a port. -/
def State.setMode (s : State) (p : Port) (m : LineMode) : State :=
  s.updPort p fun x => { x with mode := m }

/-- The traffic path's state of a port. -/
def State.traffic (s : State) (p : Port) : Traffic := (s.port p).traffic

/-- Rewrite the traffic path's state of a port. -/
def State.updTraffic (s : State) (p : Port) (f : Traffic → Traffic) : State :=
  s.updPort p fun x => { x with traffic := f x.traffic }

/-- All ports, in ascending order. -/
def allPorts : List Port := List.finRange 48

/-- The four ports of a quad, in ascending order (R1). -/
def portsOf (q : Quad) : List Port := allPorts.filter fun p => quadOf p == q

/-- The quad of a port is AVAILABLE. -/
def State.quadUp (s : State) (p : Port) : Bool := s.quads[quadOf p]

/-- The configuration image is loading (R176). -/
def State.loading (s : State) : Bool := s.startUp.progress != .complete

/-- The reset pin holds the part in reset (R175). -/
def State.pinHeld (s : State) : Bool := s.startUp.progress == .awaitingRelease

/-! ### Engines, groups, queue -/

/-- An engine. -/
def State.engine (s : State) (e : EngineId) : Engine := s.engines[e]

/-- Rewrite an engine. -/
def State.updEngine (s : State) (e : EngineId) (f : Engine → Engine) : State :=
  { s with engines := s.engines.set e (f (s.engine e)) }

/-- The measurement context of an engine. -/
def State.context (s : State) (e : EngineId) : Option Measurement := (s.engine e).context

/-- Rewrite the TEST fields of an engine's context. -/
def State.updTest (s : State) (e : EngineId) (f : TestContext → TestContext) : State :=
  s.updEngine e fun x => { x with context := x.context.map fun m => { m with test := m.test.map f } }

/-- The TEST fields of an engine's context. -/
def State.testOf (s : State) (e : EngineId) : Option TestContext := (s.context e).bind Measurement.test

/-- All engines. -/
def allEngines : List EngineId := List.finRange 4

/-- The engine whose measurement context names a port (R13). -/
def State.engineOn (s : State) (p : Port) : Option EngineId :=
  allEngines.find? fun e => (s.context e).any fun m => m.port == p

/-- A row of the bundle group table. -/
def State.group (s : State) (g : Group) : BundleGroup := s.groups[g]

/-- Rewrite a row of the bundle group table. -/
def State.updGroup (s : State) (g : Group) (f : BundleGroup → BundleGroup) : State :=
  { s with groups := s.groups.set g (f (s.group g)) }

/-- All bundle groups. -/
def allGroups : List Group := List.finRange 16

/-- The queue entry of a serial. -/
def State.entry (s : State) (serial : Nat) : Option QueueEntry :=
  s.queue.find? fun x => x.serial == serial

/-- Rewrite the queue entry of a serial, in its place. -/
def State.updEntry (s : State) (serial : Nat) (f : QueueEntry → QueueEntry) : State :=
  { s with queue := s.queue.map fun x => if x.serial == serial then f x else x }

/-- The SURVEY entry of a port, of which the queue holds at most one (R76). -/
def State.surveyEntry (s : State) (p : Port) : Option QueueEntry :=
  s.queue.find? fun x => x.isSurvey && x.port == p

/-! ### Consequences owed within the event (log 17) -/

/-- Grant selection is to run (R78). -/
def State.oweSelection (s : State) : State := { s with due := { s.due with select := true } }

/-- Reservations are to be looked at (R85). -/
def State.oweReservations (s : State) : State := { s with due := { s.due with reservations := true } }

/-- Ports that are to go again to training entry (R40). -/
def State.oweReentry (s : State) (ports : List Port) : State :=
  { s with due := { s.due with reentry := s.due.reentry ++ ports } }

/-! ### Line lane (R12) -/

/-- Record something put on a lane (log 9). -/
def State.emit (s : State) (o : Output) : State := { s with outputs := s.outputs ++ [o] }

/-- The line mode after a command (R12). -/
def LaneCommand.modeAfter (mode : LineMode) : LaneCommand → LineMode
  | .sendAbility _ | .startTrain _ | .stopTrain => mode
  | .silence => .silencing
  | .pulseCapture pulsed listening _ => .capturing pulsed listening
  | .readTaps => .readingTaps
  | .release => .openMode

/-- Send a front-end command for a port: only while its quad is AVAILABLE; otherwise nothing is sent and
the line mode is unchanged (R12). -/
def State.send (s : State) (p : Port) (cmd : LaneCommand) : State :=
  if s.quadUp p then (s.setMode p (cmd.modeAfter (s.mode p))).emit (.command p cmd) else s

/-! ### Counters -/

/-- A saturating increment. -/
def saturating (ceiling n : Nat) : Nat := if n < ceiling then n + 1 else n

/-! ### Output lists (R25) -/

/-- Place a frame ready to be sent toward the switch core: it begins at once when nothing is being sent
and the list is empty, and stands at the tail otherwise. -/
def Traffic.place (t : Traffic) (f : OutFrame) : Traffic :=
  if t.sending.isNone && t.output.isEmpty then { t with sending := some f }
  else { t with output := t.output ++ [f] }

/-- The frame being sent has ended: the head of the list begins. -/
def Traffic.advance (t : Traffic) : Traffic :=
  match t.output with
  | [] => { t with sending := none }
  | f :: rest => { t with sending := some f, output := rest }

/-- The forwarded frames waiting in an output list. -/
def Traffic.forwardedWaiting (t : Traffic) : Nat :=
  (t.output.filter fun f => f.source == .forwarded).length

/-- Hand a frame that the part originates to the traffic path for a port (R25). -/
def State.insertFrame (s : State) (p : Port) (bytes : List Byte) (source : FrameSource) : State :=
  s.updTraffic p fun t => t.place ⟨bytes, false, source⟩

/-! ### Reply slots (R160, R163) -/

/-- A reply slot; none when free. -/
def State.slot (s : State) (i : SlotId) : Option ReplySlot := s.supervision.slots[i]

/-- Rewrite the supervision unit. -/
def State.updSupervision (s : State) (f : Supervision → Supervision) : State :=
  { s with supervision := f s.supervision }

/-- Fill, rewrite or free a reply slot. -/
def State.setSlot (s : State) (i : SlotId) (r : Option ReplySlot) : State :=
  s.updSupervision fun v => { v with slots := v.slots.set i r }

/-- The reply frame of a slot, under the station record as it stands (R163, R182). -/
def replyFrame (station : Station) (r : ReplySlot) : List Byte :=
  sealFrame (originated station r.destination 2 r.tag.toNat r.entries.length
    (ReplyEntry.encodeFrom 0 r.entries))

/-- Every result of a slot is present. -/
def ReplySlot.complete (r : ReplySlot) : Bool := r.entries.all fun e => e.answer.isSome

/-- Write a result in its place. -/
def ReplySlot.withAnswer (r : ReplySlot) (index : Nat) (a : Answer) : ReplySlot :=
  { r with entries := r.entries.modify index fun e => { e with answer := some a } }

/-- Give a request entry its result. At the event at which the last absent result of a slot in COLLECTING
becomes present, the reply is assembled and handed over, and the slot passes to SENDING (R160, R163). -/
def State.answer (s : State) (place : ReplyPlace) (code : ResultCode) (data : List Byte) : State :=
  match s.slot place.slot with
  | none => s
  | some r =>
    let r' := r.withAnswer place.index ⟨code, data⟩
    if r'.complete && !r.sending then
      (s.setSlot place.slot (some { r' with sending := true })).insertFrame r.port
        (replyFrame s.supervision.station r') (.reply place.slot)
    else s.setSlot place.slot (some r')

/-! ### Class selection (R64, R65) -/

/-- The length input of class selection (R64). -/
def lengthInput (report : Option CableReport) (summary : Option SurveySummary) : Option Nat :=
  match report.bind CableReport.length with
  | some d => some d
  | none => summary.map SurveySummary.length

/-- The worst-verdict input of class selection (R64). -/
def worstInput (report : Option CableReport) : FaultClass :=
  match report with
  | none => .normal
  | some r => r.worst

/-- An entry among 1 to 15 fits the inputs (R65). -/
def PlanEntry.fits (e : PlanEntry) (length : Nat) (worst : FaultClass) : Bool :=
  e.inUse && (e.maxLength.any fun m => length ≤ m) && (e.tolerated.any fun t => t.contains worst)

/-- The indices 1 to 15 in ascending order. -/
def classIndices : List (Fin 16) := (List.finRange 16).drop 1

/-- The cable class that the inputs and the table give (R65). -/
def selectClass (plan : Vector PlanEntry 16) (report : Option CableReport)
    (summary : Option SurveySummary) : Fin 16 :=
  match lengthInput report summary with
  | none => 0
  | some length =>
    (classIndices.find? fun i => (plan[i]).fits length (worstInput report)).getD 0

/-- A port with its class selected anew from what it stores and from a table. -/
def PortState.reclassified (x : PortState) (plan : Vector PlanEntry 16) : PortState :=
  { x with cableClass := selectClass plan x.report x.summary }

/-- Class selection for a port (R63). -/
def State.selectClassOf (s : State) (p : Port) : State := s.updPort p fun x => x.reclassified s.plan

/-- Class selection for all 48 ports (R60, R179). -/
def State.selectAllClasses (s : State) : State :=
  { s with ports := s.ports.map fun x => x.reclassified s.plan }

end Sys2Proof.Machine
end

