-- ==== Sys2Proof/Machine/Flags.lean ====
section
/-! DEFINITION. Pending event sets and the holdoff timer that a raise starts (R170, R171), and the status
word of a port slot (R19). -/

namespace Sys2Proof.Machine

/-- One more occurrence of a kind: present with 1, or one more up to 15 (R170). -/
def occurrence (n : Option Nat) : Option Nat :=
  match n with
  | none => some 1
  | some k => some (min (k + 1) Config.occurrenceCeiling)

/-- One more TRAIN_EXHAUSTED: the flag is set by an occurrence that has it (R170). -/
def ExhaustedCount.more (x : Option ExhaustedCount) (notQueued : Bool) : Option ExhaustedCount :=
  match x with
  | none => some ⟨1, notQueued⟩
  | some k => some ⟨min (k.count + 1) Config.occurrenceCeiling, k.notQueued || notQueued⟩

/-- One more DEGRADED: its cause joins the cause set (R170). -/
def DegradedCount.more (x : Option DegradedCount) (errors profile : Bool) : Option DegradedCount :=
  match x with
  | none => some ⟨1, errors, profile⟩
  | some k => some ⟨min (k.count + 1) Config.occurrenceCeiling, k.errors || errors, k.profile || profile⟩

/-- One more CABLE_FAULT or CABLE_DRIFT: the sequence number replaces the stored one (R170). -/
def SequencedCount.more (x : Option SequencedCount) (sequence : BitVec 32) : Option SequencedCount :=
  match x with
  | none => some ⟨1, sequence⟩
  | some k => some ⟨min (k.count + 1) Config.occurrenceCeiling, sequence⟩

/-- An event recorded in a port's pending set (R170). -/
def PortEvents.record (e : PortEvents) : PortEvent → PortEvents
  | .linkUp => { e with linkUp := occurrence e.linkUp }
  | .linkDown => { e with linkDown := occurrence e.linkDown }
  | .trainExhausted q => { e with trainExhausted := ExhaustedCount.more e.trainExhausted q }
  | .noCommonRate => { e with noCommonRate := occurrence e.noCommonRate }
  | .degradedErrors => { e with degraded := DegradedCount.more e.degraded true false }
  | .degradedProfile => { e with degraded := DegradedCount.more e.degraded false true }
  | .cableFault n => { e with cableFault := SequencedCount.more e.cableFault n }
  | .cableDrift n => { e with cableDrift := SequencedCount.more e.cableDrift n }
  | .frontEndFault => { e with frontEndFault := occurrence e.frontEndFault }

/-- An event recorded in the device set (R170). -/
def DeviceEvents.record (e : DeviceEvents) : DeviceEvent → DeviceEvents
  | .startUp => { e with startUp := occurrence e.startUp }
  | .imageRejected => { e with imageRejected := occurrence e.imageRejected }

/-- The set holds no event. -/
def PortEvents.isEmpty (e : PortEvents) : Bool := e == PortEvents.empty

/-- The device set holds no event. -/
def DeviceEvents.isEmpty (e : DeviceEvents) : Bool := e == DeviceEvents.empty

/-- Start the holdoff timer with the station's holdoff and enter HOLDING (R171). -/
def State.startHoldoff (s : State) : State :=
  { s with
    notice := { s.notice with state := .holding, holdoffTimer := some s.supervision.station.holdoff } }

/-- What a raise does to the notice state: from IDLE, with a notice destination present, the unit enters
HOLDING (R171). -/
def State.noticeRaised (s : State) : State :=
  if s.notice.state == .idle && s.supervision.station.noticeDestination.isSome then s.startHoldoff else s

/-- Raise a port event at the notice unit (R170, R171). -/
def State.raise (s : State) (p : Port) (e : PortEvent) : State :=
  (s.updPort p fun x => { x with events := x.events.record e }).noticeRaised

/-- Raise a device event at the notice unit (R170, R171). -/
def State.raiseDevice (s : State) (e : DeviceEvent) : State :=
  State.noticeRaised { s with notice := { s.notice with device := s.notice.device.record e } }

/-- The status word of a port's slot (R19): a view of its training context. -/
def State.statusWord (s : State) (p : Port) : StatusWord where
  linkUp := s.link p == .up
  rate := if s.link p == .up then (s.training p).current else none
  held := s.link p == .held

end Sys2Proof.Machine
end

