-- ==== Sys2Proof/Machine/Reports.lean ====
section
/-! DEFINITION. The cable report store: numbering and storing a result (R135, R140, R141), and the drift
check of a summary (R148). -/

namespace Sys2Proof.Machine

/-- The sequence number after one: 1 follows the greatest, and 0 names no result (R135). -/
def nextSequence (n : BitVec 32) : BitVec 32 := if n = BitVec.allOnes 32 then 1 else n + 1

/-- A worst verdict of greater severity than BEYOND_REACH (R140). -/
def FaultClass.isFault (c : FaultClass) : Bool := 1 < c.severity

/-- Store a cable report: it is numbered, replaces the port's report, class selection runs, and
CABLE_FAULT is raised if the worst verdict calls for it (R140). -/
def State.storeReport (s : State) (p : Port) (r : CableReport) : State :=
  let n := nextSequence s.sequence
  let stored := ({ s with sequence := n }.updPort p fun x =>
    { x with report := some { r with sequence := n } }).selectClassOf p
  if r.worst.isFault then stored.raise p (.cableFault n) else stored

/-- Store a survey summary: it is numbered, replaces the port's summary, and class selection runs
(R141). -/
def State.storeSummary (s : State) (p : Port) (r : SurveySummary) : State :=
  let n := nextSequence s.sequence
  ({ s with sequence := n }.updPort p fun x =>
    { x with summary := some { r with sequence := n } }).selectClassOf p

/-- The magnitude of a difference exceeds a tolerance (R148). -/
def differs (tolerance : Nat) (x y : Int) : Bool := tolerance < (x - y).natAbs

/-- A summary has drifted from a baseline (R148). -/
def drifted (p : Profile) (r baseline : SurveySummary) : Bool :=
  differs p.driftTolerance r.length baseline.length
    || (List.finRange 4).any fun i => differs p.magnitudeTolerance (r.healths[i]) (baseline.healths[i])

/-- A stored summary becomes the baseline, or is compared with it (R148). -/
def State.checkDrift (s : State) (p : Port) (r : SurveySummary) : State :=
  match (s.port p).baseline with
  | none => s.updPort p fun x => { x with baseline := some r }
  | some b => if drifted (s.profile p) r b then s.raise p (.cableDrift r.sequence) else s

end Sys2Proof.Machine
end

