-- ==== Sys2Proof/Machine/Queue.lean ====
section
/-! DEFINITION. The diagnostic queue: capacity, admission, the end of an entry (R71, R75, R86, R93), the
internal entries, the offers of surveys, and what blocks and holds a bundle group (R83 to R85). -/

namespace Sys2Proof.Machine

/-! ### Capacity and admission -/

/-- The queue has room for an internal entry (R75). -/
def State.roomInternal (s : State) : Bool := s.queue.length < Config.queuePlaces

/-- The queue has room for an external entry (R75). -/
def State.roomExternal (s : State) : Bool := s.queue.length < Config.externalPlaces

/-- Admit an entry: at the tail of the list, WAITING, with the next arrival stamp (R71). -/
def State.enqueue (s : State) (x : QueueEntry) : State :=
  { s with
    queue := s.queue ++ [{ x with serial := s.admissions, state := .waiting }]
    admissions := s.admissions + 1 }.oweSelection

/-- An entry of the internal requester (R72): no request tag, no reply slot. -/
def internalEntry (kind : EntryKind) (p : Port) (priority : Nat) : QueueEntry where
  kind := kind
  requester := 0
  external := none
  port := p
  adjusted := false
  priority := priority
  urgent := false
  serial := 0
  state := .waiting
  cancelMark := false

/-- The options of the internal TEST that exhaustion offers (R50). -/
def internalTestOptions : TestOptions := ⟨Pair.all, 16, true, false, none⟩

/-- The internal TEST entry of a port (R50, R75). -/
def internalTest (p : Port) (prof : Profile) : QueueEntry :=
  internalEntry (.test internalTestOptions) p prof.internalPriority

/-- The internal SURVEY entry of a port (R75). -/
def internalSurvey (p : Port) : QueueEntry := internalEntry .survey p 0

/-- The queue holds a WAITING non-sweep TEST for a port (R50). -/
def State.testWaiting (s : State) (p : Port) : Bool :=
  s.queue.any fun x => x.isSingleTest && x.port == p && x.waiting

/-! ### Offers of surveys (R145, R147) -/

/-- The surveillance unit offers an internal SURVEY for a port: a port that has a SURVEY entry gets none;
an admitted offer clears pending, with the urgent mark set for an OVERDUE port; a refused one sets or
leaves pending (R76, R145, R147). -/
def State.offerSurvey (s : State) (p : Port) : State :=
  if (s.surveyEntry p).isSome then s
  else if s.roomInternal then
    (s.enqueue { internalSurvey p with urgent := (s.survey p).state == .overdue }).updSurvey p
      fun r => { r with pending := false }
  else s.updSurvey p fun r => { r with pending := true }

/-- At a departure from the queue, a survey is offered for every port whose pending field is set, lowest
port first (R147). -/
def State.offerPending (s : State) : State :=
  allPorts.foldl (fun t p => if (t.survey p).pending then t.offerSurvey p else t) s

/-! ### The end of an entry -/

/-- Give an external entry's request its result; an internal entry's result goes nowhere (R86). -/
def State.answerEntry (s : State) (x : QueueEntry) (code : ResultCode) (data : List Byte) : State :=
  match x.external with
  | none => s
  | some r => s.answer r.place code data

/-- Take an entry out of the queue. -/
def State.dropEntry (s : State) (serial : Nat) : State :=
  { s with queue := s.queue.filter fun x => x.serial != serial }

/-- Remove an entry from the queue: a departure. It is reported to the surveillance unit, which offers what it
holds pending against the queue as the departure leaves it (R93, R147); reservations are to be looked at
(R85). -/
def State.removeEntry (s : State) (serial : Nat) : State :=
  (s.dropEntry serial).offerPending.oweReservations

/-- An entry leaves the queue with a result (R86). -/
def State.finishEntry (s : State) (x : QueueEntry) (code : ResultCode) (data : List Byte) : State :=
  (s.removeEntry x.serial).answerEntry x code data

/-- OK, or OK_ADJUSTED for an entry whose averaging count admission changed (R86). -/
def QueueEntry.okCode (x : QueueEntry) : ResultCode := if x.adjusted then .okAdjusted else .ok

/-! ### The bundle group table -/

/-- The members of a group at this moment (R2). -/
def State.members (s : State) (g : Group) : List Port := allPorts.filter fun p => s.groupOf p == g

/-- A port is the port of an IN_FLIGHT entry (R77). -/
def State.portInFlight (s : State) (p : Port) : Bool :=
  s.queue.any fun x => !x.waiting && x.port == p

/-- A member of a group other than a port is in TRAIN (R77, R84). -/
def State.otherInTrain (s : State) (g : Group) (p : Port) : Bool :=
  allPorts.any fun q => q != p && s.groupOf q == g && s.link q == .train

/-- A WAITING TEST entry is blocked by training (R84). -/
def State.blockedByTraining (s : State) (x : QueueEntry) : Bool :=
  x.waiting && !x.isSurvey && s.quadUp x.port && !s.portInFlight x.port
    && (s.group (s.groupOf x.port)).slot.isNone && s.otherInTrain (s.groupOf x.port) x.port

/-- A group has at least one blocked entry (R84). -/
def State.groupBlocked (s : State) (g : Group) : Bool :=
  s.queue.any fun x => s.groupOf x.port == g && s.blockedByTraining x

/-- A group has a WAITING TEST entry whose port, or cursor port, is a member (R85). -/
def State.testWaitingIn (s : State) (g : Group) : Bool :=
  s.queue.any fun x => x.waiting && !x.isSurvey && s.groupOf x.port == g

/-- The release event of a group: its members in PENDING_TRAIN go again to training entry, and grant
selection runs (R40, R83). -/
def State.releaseEvent (s : State) (g : Group) : State :=
  (s.oweReentry ((s.members g).filter fun p => s.link p == .pendingTrain)).oweSelection

/-- Release a group's capture slot: a release event if no reservation stands; grant selection runs (R78,
R83). -/
def State.releaseSlot (s : State) (g : Group) : State :=
  let freed := (s.updGroup g fun x => { x with slot := none }).oweSelection
  if (s.group g).reserved then freed else freed.releaseEvent g

/-- Clear the reservation of a group left with no WAITING TEST entry for its members: a release event if
the slot is free (R85). -/
def State.dropReservation (s : State) (g : Group) : State :=
  if (s.group g).reserved && !s.testWaitingIn g then
    let cleared := (s.updGroup g fun x => { x with reserved := false }).oweSelection
    if (s.group g).slot.isNone then cleared.releaseEvent g else cleared
  else s

/-- Clear every reservation that nothing waits for (R85). -/
def State.dropReservations (s : State) : State := allGroups.foldl State.dropReservation s

/-- The hold timer of a group after an event: started at the first event after which the group has a
blocked entry, if it had none before and no reservation stands; stopped at the first event after which it
has none (R84). -/
def State.holdTimer (before s : State) (g : Group) : State :=
  if s.groupBlocked g && !before.groupBlocked g && !(s.group g).reserved then
    s.updGroup g fun x => { x with holdTimer := some s.supervision.station.holdLimit }
  else if before.groupBlocked g && !s.groupBlocked g then
    s.updGroup g fun x => { x with holdTimer := none }
  else s

/-- The hold timers of all groups after an event (R84). -/
def State.holdTimers (before s : State) : State := allGroups.foldl (State.holdTimer before) s

end Sys2Proof.Machine
end

