-- ==== Sys2Proof/Machine/Surveillance.lean ====
section
/-! DEFINITION. The surveillance unit (chapter 9): the survey record's moves, and the end of
a survey without a summary (R111). -/

namespace Sys2Proof.Machine

/-- Grace time in seconds: a quarter of the interval, floored, never less than 5 (R143). -/
def graceTime (interval : Nat) : Nat := max (interval / 4) 5

/-- The survey record of a port that enters UP (R144), or whose survey has ended while it is UP (R148,
R149): COUNTING under a fresh survey timer with survey on, IDLE with survey off. -/
def surveyRestarted (prof : Profile) (r : SurveyRecord) : SurveyRecord :=
  if prof.survey then
    { r with state := .counting, surveyTimer := some prof.surveyInterval, graceTimer := none }
  else { r with state := .idle, surveyTimer := none, graceTimer := none }

/-- Move a port's survey record on (R144, R148, R149). -/
def State.restartSurvey (s : State) (p : Port) : State := s.updSurvey p (surveyRestarted (s.profile p))

/-- A survey is called for: DUE, the survey timer stopped and the grace timer started (R145, R152). -/
def surveyDue (prof : Profile) (r : SurveyRecord) : SurveyRecord :=
  { r with state := .due, surveyTimer := none, graceTimer := some (graceTime prof.surveyInterval) }

/-- A port enters UP: its baseline is cleared and its survey record restarted (R144). -/
def State.surveyEntersUp (s : State) (p : Port) : State :=
  (s.updPort p fun x => { x with baseline := none }).restartSurvey p

/-- An engine returns to IDLE: its context is emptied and its phase timer stopped; grant selection runs
(R78, R94). -/
def State.idleEngine (s : State) (e : EngineId) : State :=
  (s.updEngine e fun x => { x with state := .idle, phaseTimer := none, context := none }).oweSelection

/-- The SURVEY entry of a port that leaves UP: WAITING, it is removed and its request answered PORT_BUSY
(R93); IN_FLIGHT, the survey ends without a summary, the line mode returns to OPEN, the engine to IDLE, and
the entry completes with the cause (R111). -/
def State.endSurvey (s : State) (p : Port) (cause : ResultCode) : State :=
  match s.surveyEntry p with
  | none => s
  | some x =>
    match x.state with
    | .waiting => s.finishEntry x .portBusy []
    | .inFlight e => ((s.setMode p .openMode).idleEngine e).finishEntry x cause []

/-- The survey record of a port that leaves UP (R150). -/
def State.surveyLeavesUp (s : State) (p : Port) (cause : ResultCode) : State :=
  (s.updSurvey p fun _ => SurveyRecord.atReset).endSurvey p cause

end Sys2Proof.Machine
end

