-- ==== Sys2Proof/Machine/Training.lean ====
section
/-! DEFINITION. The training controllers (chapter 3): entering and leaving link states, snapshots,
attempts, demotion and exhaustion. The functions are in the order of what calls what; each reads the state
as it stands when it is called. -/

namespace Sys2Proof.Machine

/-! ### Link states and timers -/

/-- A training context in a link state, with the five timers stopped: each runs only in its state, and
entering a state from itself starts its timer afresh (R31). -/
def Training.enter (t : Training) (l : LinkState) : Training :=
  { t with
    link := l
    exchangeTimer := none
    attemptTimer := none
    verifyTimer := none
    degradeTimer := none
    backoffTimer := none }

/-- Move a port to a link state. Grant selection runs when a port leaves TRAIN or enters UP (R78). -/
def State.setLink (s : State) (p : Port) (l : LinkState) : State :=
  let moved := s.updTraining p fun t => t.enter l
  if (s.link p == .train && l != .train) || (s.link p != .up && l == .up) then moved.oweSelection else moved

/-! ### History (R30) -/

/-- A history with one more record: at most 8, the oldest dropped. -/
def pushHistory (h : List HistoryRecord) (r : HistoryRecord) : List HistoryRecord :=
  (h ++ [r]).drop ((h ++ [r]).length - 8)

/-- The plan index of a record: that of the snapshot in force (R30; log 29 where none stands). -/
def Training.planIndex (t : Training) : Nat := (t.snapshot.map fun x => x.index.val).getD 0

/-- Make a record that concerns the attempt running: its rate and number (R30). -/
def Training.recordAttempt (t : Training) (o : HistoryOutcome) (margin : Option Int) : Training :=
  { t with history := pushHistory t.history ⟨t.target, o, margin, t.attempts + 1, t.planIndex⟩ }

/-- Make a record that concerns no attempt (R30). -/
def Training.recordCycle (t : Training) (o : HistoryOutcome) : Training :=
  { t with history := pushHistory t.history ⟨none, o, none, 0, t.planIndex⟩ }

/-- An attempt running in TRAIN or VERIFY is recorded ABANDONED and not counted (R45, R52, R55). -/
def Training.abandonAttempt (t : Training) : Training :=
  if t.link = .train ∨ t.link = .verify then t.recordAttempt .abandoned t.margin else t

/-- Record the abandonment of an attempt running at a port. -/
def State.abandonAttempt (s : State) (p : Port) : State := s.updTraining p Training.abandonAttempt

/-! ### Departure from UP (R49) -/

/-- A port leaves UP: LINK_DOWN is raised, the current rate cleared, the degrade window timer stopped, and
the surveillance unit told; `cause` is the result of a survey that the departure ends (R49, R111, R150). -/
def State.departUp (s : State) (p : Port) (cause : ResultCode) : State :=
  ((s.raise p .linkDown).updTraining p fun t => { t with current := none, degradeTimer := none })
    |>.surveyLeavesUp p cause

/-- The departure from UP of a port that is in UP. -/
def State.departIfUp (s : State) (p : Port) (cause : ResultCode) : State :=
  if s.link p = .up then s.departUp p cause else s

/-! ### Attempts (R41) -/

/-- The attempt limit and minimum margin of the target rate: the snapshot's figures, or the forced-rate
defaults for a rate not in its list (R35, R41). -/
def Training.figures (t : Training) : Nat × Int :=
  match t.snapshot.bind fun x => x.entry.rates.find? fun r => some r.rate == t.target with
  | none => (Config.forcedLimit, Config.forcedMargin)
  | some r => (r.limit, r.margin)

/-- Enter TRAIN, or restart in it: the latest margin cleared, START_TRAIN sent with the target rate, and
the attempt timer started (R41). -/
def State.enterTrain (s : State) (p : Port) : State :=
  let moved := (s.setLink p .train).updTraining p fun t =>
    { t with margin := none, attemptTimer := some Config.attemptTime }
  match (s.training p).target with
  | none => moved
  | some r => moved.send p (.startTrain r)

/-- STOP_TRAIN where the port leaves EXCHANGE for a state other than EXCHANGE and TRAIN and none has been
sent (R32, log 13). -/
def State.stopIf (s : State) (leavesExchange : Bool) (p : Port) : State :=
  if leavesExchange then s.send p .stopTrain else s

/-- Training entry: to TRAIN if the group's capture slot is free and no reservation stands, and otherwise
to PENDING_TRAIN with target and counter kept (R39). -/
def State.trainingEntry (s : State) (fromExchange : Bool) (p : Port) : State :=
  let g := s.group (s.groupOf p)
  if g.slot.isNone && !g.reserved then s.enterTrain p
  else (s.stopIf fromExchange p).setLink p .pendingTrain

/-! ### Exhaustion (R50) -/

/-- The end of a cycle with nothing left to try: the EXHAUSTED record, BACKOFF under the backoff time, the
offer of an internal TEST when auto-diagnosis is on and none waits, and TRAIN_EXHAUSTED (R36, R50). -/
def State.exhaust (s : State) (fromExchange : Bool) (p : Port) : State :=
  let prof := s.profile p
  let ended := (((s.updTraining p fun t => t.recordCycle .exhausted).stopIf fromExchange p).setLink p
    .backoff).updTraining p fun t => { t with backoffTimer := some prof.backoffTime }
  if prof.autoDiagnosis && !ended.testWaiting p then
    if ended.roomInternal then (ended.enqueue (internalTest p prof)).raise p (.trainExhausted false)
    else ended.raise p (.trainExhausted true)
  else ended.raise p (.trainExhausted false)

/-! ### Exchange and the forced start (R35, R36) -/

/-- Take a plan snapshot from the entry of the port's cable class (R35, R36). -/
def State.takeSnapshot (s : State) (p : Port) : State :=
  s.updPort p fun x =>
    { x with training := { x.training with snapshot := some ⟨x.cableClass, s.plan[x.cableClass]⟩ } }

/-- A forced start in place of EXCHANGE: the snapshot, the counter cleared, the forced rate as target;
exhaustion if it is demoted, and otherwise training entry (R35). -/
def State.forcedStart (s : State) (fromExchange : Bool) (p : Port) (rate : Rate) : State :=
  let aimed := (s.takeSnapshot p).updTraining p fun t => { t with attempts := 0, target := some rate }
  if (s.training p).demoted.contains rate then aimed.exhaust fromExchange p
  else aimed.trainingEntry fromExchange p

/-- Local ability: the rates in the allowed rates and in the snapshot's list and not demoted (R36). -/
def localAbility (allowed : RateSet) (plan : PlanEntry) (demoted : RateSet) : RateSet :=
  RateSet.ofPred fun r =>
    allowed.contains r && (plan.rates.any fun x => x.rate == r) && !demoted.contains r

/-- Enter EXCHANGE: a new snapshot, counter and target cleared, local ability set; exhaustion if it is
empty, and otherwise SEND_ABILITY and the exchange timer (R36). -/
def State.enterExchange (s : State) (fromExchange : Bool) (p : Port) : State :=
  let ability :=
    localAbility (s.profile p).allowed (s.plan[(s.port p).cableClass]) (s.training p).demoted
  let formed := (s.takeSnapshot p).updTraining p fun t =>
    { t with attempts := 0, target := none, ability := ability }
  if ability.isEmpty then formed.exhaust fromExchange p
  else
    ((formed.setLink p .exchange).updTraining p fun t =>
      { t with exchangeTimer := some Config.exchangeTime }).send p (.sendAbility ability)

/-- Enter EXCHANGE, or make a forced start if the profile's forced rate is present at this moment (R35). -/
def State.beginExchange (s : State) (fromExchange : Bool) (p : Port) : State :=
  match (s.profile p).forced with
  | none => s.enterExchange fromExchange p
  | some r => s.forcedStart fromExchange p r

/-! ### LISTEN, OFF, NO_LINE, HELD -/

/-- Enter LISTEN: demoted set, counter, target, snapshot and latest margin cleared; with energy present
set, the port proceeds at once as at an ENERGY_ON (R34). -/
def State.enterListen (s : State) (p : Port) : State :=
  let cleared := (s.setLink p .listen).updTraining p fun t =>
    { t with demoted := [], attempts := 0, target := none, snapshot := none, margin := none }
  if (s.training p).energy then cleared.beginExchange false p else cleared

/-- A training context that has entered OFF or NO_LINE: the snapshot, latest margin and energy present
are cleared (R33, R54). -/
def Training.silenced (t : Training) : Training :=
  { t with snapshot := none, margin := none, energy := false }

/-- Enter OFF: SILENCE is sent (R10, R54). -/
def State.enterOff (s : State) (p : Port) : State :=
  ((s.setLink p .off).updTraining p Training.silenced).send p .silence

/-- Enter NO_LINE (R15, R54). -/
def State.enterNoLine (s : State) (p : Port) : State :=
  (s.setLink p .noLine).updTraining p Training.silenced

/-- Enter HELD at the grant of a test (R52): an attempt running is recorded ABANDONED, a port in UP
leaves it, the timers stop and energy present is cleared; no command is sent. -/
def State.enterHeld (s : State) (p : Port) : State :=
  (((s.abandonAttempt p).departIfUp p .portBusy).setLink p .held).updTraining p
    fun t => { t with energy := false }

/-! ### Failure and demotion -/

/-- A demotion: the target joins the demoted set, the counter is cleared, STOP_TRAIN is sent, and the port
enters EXCHANGE or makes a forced start (R44). -/
def State.demote (s : State) (p : Port) : State :=
  ((s.updTraining p fun t =>
      { t with
        demoted := (t.target.map fun r => RateSet.insert r t.demoted).getD t.demoted
        attempts := 0 }).send p .stopTrain).beginExchange false p

/-- An attempt in TRAIN has failed: the counter moves, and TRAIN restarts or the rate is demoted (R43). -/
def State.failAttempt (s : State) (p : Port) : State :=
  let counted := s.updTraining p fun t => { t with attempts := t.attempts + 1 }
  if (s.training p).attempts + 1 < (s.training p).figures.1 then counted.enterTrain p
  else counted.demote p

/-- The link states whose departure sends STOP_TRAIN (R32). -/
def LinkState.stopsTraining : LinkState → Bool
  | .exchange | .train | .verify | .up => true
  | .off | .noLine | .listen | .pendingTrain | .held | .backoff => false

/-- Send STOP_TRAIN for a port in EXCHANGE, TRAIN, VERIFY or UP (R32). -/
def State.stopTraining (s : State) (p : Port) (was : LinkState) : State :=
  if was.stopsTraining then s.send p .stopTrain else s

/-! ### The administrative field (R10, R11) -/

/-- admin has been stored as DISABLED for a port that was ENABLED (R10). -/
def State.disablePort (s : State) (p : Port) : State :=
  match s.link p with
  | .held | .noLine | .off => s
  | .listen | .exchange | .pendingTrain | .train | .verify | .up | .backoff =>
    ((((s.abandonAttempt p).departIfUp p .portBusy).stopTraining p (s.link p)).enterOff p)

/-- admin has been stored as ENABLED for a port that was DISABLED (R11). -/
def State.enablePort (s : State) (p : Port) : State :=
  if s.link p = .off then (s.send p .release).enterListen p else s

/-- The effect of storing a value of admin over the one stored before (R9 to R11). -/
def State.adminStored (s : State) (p : Port) (was now : Bool) : State :=
  if was && !now then s.disablePort p else if !was && now then s.enablePort p else s

/-! ### RETRAIN (R55, R56) -/

/-- The rates above a from rate; none without one (R56). -/
def preDemotion (fromRate : Option Rate) : RateSet :=
  match fromRate with
  | none => []
  | some r => RateSet.ofPred fun x => r.mbps < x.mbps

/-- The restart of RETRAIN (R55): abandonment, departure from UP, STOP_TRAIN, the demoted set cleared and
pre-demoted, and a new exchange or forced start. -/
def State.restart (s : State) (p : Port) (fromRate : Option Rate) : State :=
  ((((s.abandonAttempt p).departIfUp p .portBusy).stopTraining p (s.link p)).updTraining p
    fun t => { t with demoted := preDemotion fromRate }).beginExchange false p

/-! ### A profile write that removes a rate in use (R8) -/

/-- A rate was in the old allowed rates and is not in the new ones. -/
def removedRate (old new : RateSet) (r : Rate) : Bool := old.contains r && !new.contains r

/-- The rate that a port uses was removed from its allowed rates: what the training controller does at
once (R8). `old` is the set before the store. -/
def State.ratesRemoved (s : State) (p : Port) (old : RateSet) : State :=
  let t := s.training p
  let removed := removedRate old (s.profile p).allowed
  match t.link with
  | .up =>
    if t.current.any removed then
      (((s.raise p .degradedProfile).departUp p .portBusy).send p .stopTrain).beginExchange false p
    else s
  | .exchange => if t.ability.any removed then s.beginExchange true p else s
  | .train | .verify =>
    if t.target.any removed then
      (((s.abandonAttempt p).updTraining p fun x => { x with attempts := 0 }).send p
        .stopTrain).beginExchange false p
    else s
  | .pendingTrain => if t.target.any removed then s.beginExchange false p else s
  | .off | .noLine | .listen | .held | .backoff => s

end Sys2Proof.Machine
end

