-- ==== Sys2Proof/Machine/Engines.lean ====
section
/-! DEFINITION. The probe engines (chapter 6) and the end of a measurement in the queue: sweeps,
coalescing, completion (sections 5.6 and 5.7). -/

namespace Sys2Proof.Machine

/-! ### Sweeps (R88, R89) -/

/-- The cursor's next port, up or down as the direction states (R89). -/
def nextCursor (down : Bool) (p : Port) : Port := if down then p - 1 else p + 1

/-- A port of the sweep is finished: its result is appended and the remaining count falls by one (R89). -/
def Sweep.append (w : Sweep) (r : PortResult) : Sweep :=
  { w with results := w.results ++ [r], remaining := w.remaining - 1 }

/-- The result of a port that was not measured. -/
def notMeasured (p : Port) (code : ResultCode) : PortResult := ⟨p, code, .notTested, none⟩

/-- CANCELLED appended for `n` ports from a cursor on, without step checks (R90, R91). -/
def Sweep.cancelRest : Nat → Port → Sweep → Sweep
  | 0, _, w => w
  | n + 1, p, w => Sweep.cancelRest n (nextCursor w.down p) (w.append (notMeasured p .cancelled))

/-- The disturb set of a requester slot as the table holds it; empty for a slot not in use (R88, R153). -/
def State.disturbSet (s : State) (r : RequesterId) : PortSet :=
  if (s.supervision.requesters[r]).inUse then (s.supervision.requesters[r]).disturbSet else 0

/-- A port is UP under protect live, and the request does not force (R73 check 6, R88 check 2). -/
def State.livePort (s : State) (p : Port) (force : Bool) : Bool :=
  s.link p == .up && (s.profile p).protectLive && !force

/-- The step checks for a cursor port: the result to append, or none for a port to be measured (R88). -/
def State.stepRefusal (s : State) (r : RequesterId) (force : Bool) (p : Port) : Option ResultCode :=
  if !(s.disturbSet r).getLsbD p.val then some .notPermitted
  else if s.livePort p force then some .livePort
  else none

/-- The step checks from a cursor on: each port that fails is finished, and the cursor stops on the first
port to be measured (R88, R89). -/
def State.stepChecks (s : State) (r : RequesterId) (force : Bool) : Nat → Port → Sweep → Port × Sweep
  | 0, p, w => (p, w)
  | n + 1, p, w =>
    match s.stepRefusal r force p with
    | none => (p, w)
    | some code => s.stepChecks r force n (nextCursor w.down p) (w.append (notMeasured p code))

/-- A sweep at a new cursor: the step checks are made; it completes if no port remains, and otherwise
stands WAITING in its place with the cursor on its next port to be measured (R88, R89). -/
def State.continueSweep (s : State) (x : QueueEntry) (o : TestOptions) (p : Port) (w : Sweep) : State :=
  let stepped := s.stepChecks x.requester o.force w.remaining p w
  if stepped.2.remaining = 0 then s.finishEntry x x.okCode stepped.2.encode
  else
    (s.updEntry x.serial fun y =>
      { y with
        kind := .test { o with sweep := some stepped.2 }
        port := stepped.1
        state := .waiting }).oweSelection.oweReservations

/-- A sweep completes CANCELLED, with CANCELLED appended for every port that remains (R90, R91). -/
def State.cancelSweep (s : State) (x : QueueEntry) (p : Port) (w : Sweep) : State :=
  s.finishEntry x .cancelled (w.cancelRest w.remaining p).encode

/-! ### The end of a measurement (R86, R89, R104) -/

/-- The port result of a measured port (R89). -/
def measuredPort (p : Port) (r : RecordedResult) : PortResult :=
  match r.report with
  | none => notMeasured p r.code
  | some rep => ⟨p, r.code, .classed rep.worst, rep.length⟩

/-- The result data of a measured non-sweep entry (R86). -/
def RecordedResult.data (r : RecordedResult) : List Byte :=
  match r.report with
  | none => []
  | some rep => rep.encode

/-- The scheduler ends an entry's measurement on a port: a non-sweep entry completes; a sweep appends its
port result, and completes, continues, or with its cancel mark set appends CANCELLED for the ports that
remain (R86, R89, R91). -/
def State.endMeasurement (s : State) (serial : Nat) (p : Port) (r : RecordedResult) : State :=
  match s.entry serial with
  | none => s
  | some x =>
    match x.options, x.sweep with
    | some o, some w =>
      let w' := w.append (measuredPort p r)
      if x.cancelMark then s.cancelSweep x (nextCursor w.down p) w'
      else s.continueSweep x o (nextCursor w.down p) w'
    | _, _ => s.finishEntry x r.code r.data

/-! ### CAPTURE (R98 to R100) -/

/-- The listening pairs of a pulsed pair (R99). -/
def listeningPairs (crossPair : Bool) (pulsed : Pair) : List Pair := if crossPair then Pair.all else [pulsed]

/-- Send the next PULSE_CAPTURE: its pulsed pair leaves the pairs to go (R99). -/
def State.pulseNext (s : State) (e : EngineId) : State :=
  match s.context e with
  | none => s
  | some m =>
    match m.test with
    | none => s
    | some t =>
      match t.toGo with
      | [] => s
      | x :: rest =>
        (s.updTest e fun y => { y with toGo := rest }).send m.port
          (.pulseCapture x (listeningPairs t.crossPair x) t.averaging)

/-- QUIESCE ends: CAPTURE begins under its 50 ms, with the first PULSE_CAPTURE (R98). -/
def State.beginCapture (s : State) (e : EngineId) : State :=
  (s.updEngine e fun x => { x with state := .capture, phaseTimer := some Config.captureTime }).pulseNext e

/-- An engine enters a state in which no phase timer runs (R96). -/
def State.enterUntimed (s : State) (e : EngineId) (st : EngineState) : State :=
  s.updEngine e fun x => { x with state := st, phaseTimer := none }

/-- The capture set that completes a pulsed pair has been appended: the next PULSE_CAPTURE, or the end of
CAPTURE, which releases the capture slot of the group taken and enters ANALYZE (R100). -/
def State.pairCaptured (s : State) (e : EngineId) : State :=
  match s.testOf e with
  | none => s
  | some t =>
    if t.toGo.isEmpty then (s.enterUntimed e .analyze).releaseSlot t.group else s.pulseNext e

/-! ### RESTORE (R103, R104) -/

/-- A port leaves HELD at the RESTORE completion: NO_LINE if its quad is UNAVAILABLE, LISTEN or OFF by its
admin otherwise (R53, R104). -/
def State.leaveHeld (s : State) (p : Port) : State :=
  if !s.quadUp p then s.enterNoLine p
  else if (s.profile p).enabled then s.enterListen p
  else s.enterOff p

/-- The RESTORE completion of an engine (R104). -/
def State.completeRestore (s : State) (e : EngineId) : State :=
  match s.context e with
  | none => s
  | some m =>
    let r := (m.test.bind TestContext.result).getD ⟨.ok, none⟩
    (((s.leaveHeld m.port).idleEngine e).endMeasurement m.entry m.port r)

/-- Enter RESTORE: the captures are discarded and RELEASE is sent; on an UNAVAILABLE quad nothing is sent
and RESTORE completes at once (R102, R103, log 11). -/
def State.enterRestore (s : State) (e : EngineId) : State :=
  match s.context e with
  | none => s
  | some m =>
    let entered := (s.enterUntimed e .restore).updTest e fun t => { t with captures := [] }
    if s.quadUp m.port then entered.send m.port .release else entered.completeRestore e

/-! ### Aborts (R105 to R107) -/

/-- The result code of an abort cause (R86). -/
def AbortCause.code : AbortCause → ResultCode
  | .cancelled => .cancelled
  | .frontEndTimeout => .frontEndTimeout
  | .frontEndFault => .frontEndFault

/-- Abort a test in QUIESCE or CAPTURE: the captures are discarded, the capture slot of the group taken is
released, the cause is recorded as the entry's result, and RESTORE is entered (R105, R106). -/
def State.abortTest (s : State) (e : EngineId) (cause : AbortCause) : State :=
  match s.testOf e with
  | none => s
  | some t =>
    ((s.updTest e fun y =>
      { y with abortCause := some cause, result := some ⟨cause.code, none⟩ }).releaseSlot t.group
      ).enterRestore e

/-- Abort a test in QUIESCE or CAPTURE at the loss of its quad: the slot is released, the port goes to
NO_LINE, the engine to IDLE, and the measurement ends with FRONT_END_FAULT, without RESTORE (R107). -/
def State.abortLost (s : State) (e : EngineId) (m : Measurement) (t : TestContext) : State :=
  ((((s.releaseSlot t.group).enterNoLine m.port).idleEngine e).endMeasurement m.entry m.port
    ⟨.frontEndFault, none⟩)

/-! ### ANALYZE (R87, R102) -/

/-- An entry that the report of a measured test completes (R87). -/
def QueueEntry.coalesces (x : QueueEntry) (p : Port) (t : TestContext) : Bool :=
  match x.kind with
  | .survey => false
  | .test o =>
    o.sweep.isNone && x.port == p && x.waiting && (o.pairs.all fun y => t.pairs.contains y)
      && o.averaging ≤ t.averaging && (!o.crossPair || t.crossPair) && t.atGrant.contains x.serial

/-- Complete every entry that qualifies with the stored report (R87). -/
def State.coalesce (s : State) (p : Port) (t : TestContext) (r : CableReport) : State :=
  (s.queue.filter fun x => x.coalesces p t).foldl (fun u x => u.finishEntry x x.okCode r.encode) s

/-- The ANALYZE completion of an engine (R102). -/
def State.completeAnalyze (s : State) (e : EngineId) : State :=
  match s.context e with
  | none => s
  | some m =>
    match m.test with
    | none => s
    | some t =>
      let k := arithmeticInputs (s.profile m.port) s.signatures.geometry
      let stored := s.storeReport m.port (buildReport k s.signatures.entries m.port t)
      match (stored.port m.port).report with
      | none => s
      | some r =>
        let code := ((s.entry m.entry).map QueueEntry.okCode).getD .ok
        ((stored.coalesce m.port t r).updTest e fun y => { y with result := some ⟨code, some r⟩ }
          ).enterRestore e

/-! ### Surveys (R110, R111) -/

/-- The TAPS of a survey: the summary is computed and stored, the baseline formed or the drift checked, the
survey record moved on, the engine idle, and the entry completed with the summary (R110, R148). -/
def State.completeSurvey (s : State) (e : EngineId) (m : Measurement) (a b c d : Tap) : State :=
  let k := arithmeticInputs (s.profile m.port) s.signatures.geometry
  let stored := s.storeSummary m.port (surveySummary k a b c d)
  match (stored.port m.port).summary with
  | none => s
  | some r =>
    let ended := (((stored.checkDrift m.port r).restartSurvey m.port).idleEngine e)
    match s.entry m.entry with
    | none => ended
    | some x => ended.finishEntry x .ok (r.encode m.port 1)

/-- The phase timer of a survey has expired: it is given up without a summary (R111, R149). -/
def State.timeOutSurvey (s : State) (e : EngineId) (m : Measurement) : State :=
  let ended := (((s.setMode m.port .openMode).restartSurvey m.port).idleEngine e)
  match s.entry m.entry with
  | none => ended
  | some x => ended.finishEntry x .frontEndTimeout []

end Sys2Proof.Machine
end

