-- ==== Sys2Proof/Machine/Scheduler.lean ====
section
/-! DEFINITION. Grant selection and grants (sections 5.3 and 5.4), and what closes every event: the
consequences owed within it, in a free order where the spec leaves the order open, and the hold timers. -/

namespace Sys2Proof.Machine

/-! ### Eligibility and choice (R77, R79) -/

/-- A WAITING entry is eligible for its engine (R77). -/
def State.eligible (s : State) (x : QueueEntry) : Bool :=
  x.waiting && (s.engine (engineOf x.port)).state == .idle && !s.portInFlight x.port && s.quadUp x.port
    && (if x.isSurvey then s.link x.port == .up
        else (s.group (s.groupOf x.port)).slot.isNone && !s.otherInTrain (s.groupOf x.port) x.port)

/-- A quiet entry: a TEST whose port is not UP, or any SURVEY (R79). -/
def State.quiet (s : State) (x : QueueEntry) : Bool := x.isSurvey || s.link x.port != .up

/-- The oldest entry of the highest priority class (R79). -/
def highestClass : List QueueEntry → Option QueueEntry
  | [] => none
  | x :: rest =>
    match highestClass rest with
    | none => some x
    | some y => if x.priority < y.priority then some y else some x

/-- The choice among eligible entries, oldest first: urgent, then quiet, then class, then age (R79). -/
def State.choose (s : State) (xs : List QueueEntry) : Option QueueEntry :=
  match xs.find? fun x => x.urgent with
  | some x => some x
  | none =>
    let quietOnes := xs.filter s.quiet
    highestClass (if quietOnes.isEmpty then xs else quietOnes)

/-- The entry that grant selection for an engine grants, if any (R78, R79). -/
def State.selection (s : State) (e : EngineId) : Option QueueEntry :=
  s.choose (s.queue.filter fun x => engineOf x.port == e && s.eligible x)

/-! ### Grants (R80, R81, R97, R109) -/

/-- The oldest WAITING entry of an engine (R81). -/
def State.oldestWaiting (s : State) (e : EngineId) : Option QueueEntry :=
  s.queue.find? fun x => x.waiting && engineOf x.port == e

/-- The passed-over counter of an engine after a grant that left `oldest` the engine's oldest WAITING
entry; reaching the starvation limit marks that entry urgent (R81). -/
def State.movePassedOver (s : State) (e : EngineId) (oldest : Option QueueEntry) (granted : Nat) : State :=
  match oldest with
  | none => s
  | some x =>
    if x.serial = granted then s.updEngine e fun y => { y with passedOver := 0 }
    else if (s.engine e).passedOver + 1 < s.supervision.station.starvationLimit then
      s.updEngine e fun y => { y with passedOver := y.passedOver + 1 }
    else
      (s.updEngine e fun y => { y with passedOver := 0 }).updEntry x.serial
        fun y => { y with urgent := true }

/-- The context that a TEST grant fills (R95, R97); `atGrant` are the WAITING non-sweep TEST entries for
the port that stand in the queue. -/
def testContext (group : Group) (o : TestOptions) (atGrant : List Nat) : TestContext :=
  ⟨group, o.pairs, o.averaging, o.crossPair, o.force, Pair.all.filter fun p => o.pairs.contains p, [], none,
    atGrant, none⟩

/-- An engine takes a measurement, under its 10 ms (R96). -/
def State.engage (s : State) (e : EngineId) (st : EngineState) (m : Measurement) : State :=
  s.updEngine e fun x =>
    { x with state := st, phaseTimer := some Config.quiesceTime, context := some m }

/-- The grant of a TEST: the capture slot of the port's group is taken and any reservation cleared, the
port goes to HELD, and QUIESCE begins with SILENCE (R80, R97). -/
def State.grantTest (s : State) (e : EngineId) (x : QueueEntry) (o : TestOptions) : State :=
  let g := s.groupOf x.port
  let atGrant := (s.queue.filter fun y => y.isSingleTest && y.port == x.port && y.waiting).map
    QueueEntry.serial
  let taken := s.updGroup g fun y => { y with slot := some ⟨x.port, e⟩, reserved := false }
  ((taken.enterHeld x.port).engage e .quiesce ⟨x.serial, x.port, some (testContext g o atGrant)⟩).send x.port
    .silence

/-- The grant of a SURVEY: SURVEY_READ begins with READ_TAPS; the port stays UP (R80, R109). -/
def State.grantSurvey (s : State) (e : EngineId) (x : QueueEntry) : State :=
  (s.engage e .surveyRead ⟨x.serial, x.port, none⟩).send x.port .readTaps

/-- A grant: the entry becomes IN_FLIGHT with its urgent mark cleared, the measurement begins, and the
passed-over counter moves (R80, R81). -/
def State.grant (s : State) (e : EngineId) (x : QueueEntry) : State :=
  let oldest := s.oldestWaiting e
  let inFlight := s.updEntry x.serial fun y => { y with state := .inFlight e, urgent := false }
  let begun :=
    match x.kind with
    | .survey => inFlight.grantSurvey e x
    | .test o => inFlight.grantTest e x o
  begun.movePassedOver e oldest x.serial

/-! ### The consequences of an event -/

/-- One consequence that an event may owe: a port's new training entry, or an engine's grant. -/
inductive Consequence where
  | reenter (p : Port)
  | grant (e : EngineId) (x : QueueEntry)
  deriving DecidableEq, Repr

/-- The consequences owed at this moment that do something: members in PENDING_TRAIN that go again to
training entry (R40), and engines whose selection grants an entry (R78). -/
def State.consequences (s : State) : List Consequence :=
  ((s.due.reentry.filter fun p => s.link p == .pendingTrain).map .reenter)
    ++ (if s.due.select then
          allEngines.filterMap fun e => (s.selection e).map (.grant e)
        else [])

/-- Carry out one consequence. -/
def State.carryOut (s : State) : Consequence → State
  | .reenter p =>
    { s with due := { s.due with reentry := s.due.reentry.filter fun q => q != p } }.trainingEntry false p
  | .grant e x => s.grant e x

/-- Reservations that nothing waits for are cleared, if that may have come about (R85). -/
def State.reservationsDue (s : State) : State :=
  if s.due.reservations then { s with due := { s.due with reservations := false } }.dropReservations else s

/-- Nothing is owed any more. -/
def State.discharge (s : State) : State := { s with due := Due.none }

/-- Carry out what the event owes: reservations first, then training entries and grants one after another,
in a free order where more than one stands (R39, R40, R80, log 4). `fuel` bounds the loop; each round
spends one training entry or one grant. -/
def State.settle : Nat → State → State
  | 0, s => s.discharge
  | fuel + 1, s =>
    let s := s.reservationsDue
    match s.consequences with
    | [] => s.discharge
    | [c] => State.settle fuel (s.carryOut c)
    | c :: rest =>
      let n := Config.arbitration s.arbiter % (rest.length + 1)
      State.settle fuel ({ s with arbiter := s.arbiter + 1 }.carryOut ((c :: rest).getD n c))

/-- Rounds that suffice for every event: the 48 ports as they stand owed a training entry, the 48 as members
of a group whose reservation is cleared in between (each group's at most once), 4 grants, and the last
look. -/
def settleFuel : Nat := 128

/-- Close an event: what it owes is carried out, and the hold timers follow (R84). -/
def State.closeEvent (before s : State) : State := State.holdTimers before (State.settle settleFuel s)

/-- An event taken whole. While the reset pin is held no block takes an event (R175). -/
def takeEvent (f : State → State) (s : State) : Host.Outcome State Fault Refusal :=
  if s.pinHeld then .next s else .next (State.closeEvent s (f s))

end Sys2Proof.Machine
end

