-- ==== Sys2Proof/Machine/Completions.lean ====
section
/-! DEFINITION. The ends of ANALYZE and RESTORE (chapter 6). -/

namespace Sys2Proof.Machine

/-- The ANALYZE completion of an engine in ANALYZE (R102). -/
def State.analyzed (s : State) (e : EngineId) : State :=
  if (s.engine e).state = .analyze then s.completeAnalyze e else s

/-- The analysis of an engine's test ends (R102). -/
def execAnalyzeCompletion (engine : EngineId) (s : State) : Host.Outcome State Fault Refusal :=
  takeEvent (fun t => t.analyzed engine) s

/-- The RESTORE completion of an engine in RESTORE (R104). -/
def State.restored (s : State) (e : EngineId) : State :=
  if (s.engine e).state = .restore then s.completeRestore e else s

/-- The RELEASE of an engine's test has left the line lane (R104). -/
def execRestoreCompletion (engine : EngineId) (s : State) : Host.Outcome State Fault Refusal :=
  takeEvent (fun t => t.restored engine) s

end Sys2Proof.Machine
end

