-- ==== Sys2Proof/Machine/Expiries.lean ====
section
/-! DEFINITION. The expiries of the part's timers: the five of a port's training context, the phase timer,
the hold timer, the two of a survey record, and the notice holdoff. A timer that does not run does not
expire (log 3). -/

namespace Sys2Proof.Machine

/-! ### Training timers -/

/-- The exchange timer expires in EXCHANGE: a TIMEOUT record without a rate, and EXCHANGE again (R38). -/
def State.exchangeExpired (s : State) (p : Port) : State :=
  if s.link p = .exchange ∧ (s.training p).exchangeTimer.isSome then
    (s.updTraining p fun t => t.recordCycle .timeout).beginExchange true p
  else s

/-- Expiry of a port's exchange timer (R38). -/
def execExchangeTimerExpiry (port : Port) (s : State) : Host.Outcome State Fault Refusal :=
  takeEvent (fun t => t.exchangeExpired port) s

/-- The attempt timer expires in TRAIN: a TIMEOUT record, and the attempt has failed (R43). -/
def State.attemptExpired (s : State) (p : Port) : State :=
  if s.link p = .train ∧ (s.training p).attemptTimer.isSome then
    (s.updTraining p fun t => t.recordAttempt .timeout none).failAttempt p
  else s

/-- Expiry of a port's attempt timer (R43). -/
def execAttemptTimerExpiry (port : Port) (s : State) : Host.Outcome State Fault Refusal :=
  takeEvent (fun t => t.attemptExpired port) s

/-- Enter UP: LINK_UP, the current rate, the degrade window, and the survey record (R47, R48, R144). -/
def State.enterUp (s : State) (p : Port) : State :=
  (((s.setLink p .up).updTraining p fun t =>
    { t with
      current := t.target
      degradeCount := 0
      degradeTimer := some Config.degradeWindow }).raise p .linkUp).surveyEntersUp p

/-- The verify timer expires in VERIFY: a SUCCESS record, and UP (R47). -/
def State.verifyExpired (s : State) (p : Port) : State :=
  if s.link p = .verify ∧ (s.training p).verifyTimer.isSome then
    (s.updTraining p fun t => t.recordAttempt .success t.margin).enterUp p
  else s

/-- Expiry of a port's verify timer (R47). -/
def execVerifyTimerExpiry (port : Port) (s : State) : Host.Outcome State Fault Refusal :=
  takeEvent (fun t => t.verifyExpired port) s

/-- A degrade window that met its threshold: the current rate is demoted, DEGRADED raised, the port leaves
UP, and enters EXCHANGE or makes a forced start (R48, R49). -/
def State.degraded (s : State) (p : Port) : State :=
  let demoted := s.updTraining p fun t =>
    { t with demoted := (t.current.map fun r => RateSet.insert r t.demoted).getD t.demoted }
  (((demoted.raise p .degradedErrors).departUp p .portBusy).send p .stopTrain).beginExchange false p

/-- The degrade window timer expires in UP (R48). -/
def State.windowExpired (s : State) (p : Port) : State :=
  if s.link p = .up ∧ (s.training p).degradeTimer.isSome then
    if (s.profile p).degradeThreshold ≤ (s.training p).degradeCount then s.degraded p
    else
      s.updTraining p fun t => { t with degradeCount := 0, degradeTimer := some Config.degradeWindow }
  else s

/-- Expiry of a port's degrade window timer (R48). -/
def execDegradeWindowExpiry (port : Port) (s : State) : Host.Outcome State Fault Refusal :=
  takeEvent (fun t => t.windowExpired port) s

/-- The backoff timer expires in BACKOFF: LISTEN (R51). -/
def State.backoffExpired (s : State) (p : Port) : State :=
  if s.link p = .backoff ∧ (s.training p).backoffTimer.isSome then s.enterListen p else s

/-- Expiry of a port's backoff timer (R51). -/
def execBackoffTimerExpiry (port : Port) (s : State) : Host.Outcome State Fault Refusal :=
  takeEvent (fun t => t.backoffExpired port) s

/-! ### Phase timer and hold timer -/

/-- The phase timer of an engine expires: a test in QUIESCE or CAPTURE is aborted, and a survey given up
(R96, R105, R111). -/
def State.phaseExpired (s : State) (e : EngineId) : State :=
  match (s.engine e).phaseTimer, (s.engine e).state, s.context e with
  | some _, .quiesce, some _ | some _, .capture, some _ => s.abortTest e .frontEndTimeout
  | some _, .surveyRead, some m => s.timeOutSurvey e m
  | _, _, _ => s

/-- Expiry of an engine's phase timer (R96). -/
def execPhaseTimerExpiry (engine : EngineId) (s : State) : Host.Outcome State Fault Refusal :=
  takeEvent (fun t => t.phaseExpired engine) s

/-- The hold timer of a group expires: a reservation is made (R85). -/
def State.holdExpired (s : State) (g : Group) : State :=
  if (s.group g).holdTimer.isSome then s.updGroup g fun x => { x with reserved := true, holdTimer := none }
  else s

/-- Expiry of a group's hold timer (R85). -/
def execHoldTimerExpiry (group : Group) (s : State) : Host.Outcome State Fault Refusal :=
  takeEvent (fun t => t.holdExpired group) s

/-! ### Survey timers -/

/-- The survey timer of a port expires in COUNTING: DUE, and an internal SURVEY is offered (R145). -/
def State.surveyExpired (s : State) (p : Port) : State :=
  if (s.survey p).state = .counting ∧ (s.survey p).surveyTimer.isSome then
    (s.updSurvey p (surveyDue (s.profile p))).offerSurvey p
  else s

/-- Expiry of a port's survey timer (R145). -/
def execSurveyTimerExpiry (port : Port) (s : State) : Host.Outcome State Fault Refusal :=
  takeEvent (fun t => t.surveyExpired port) s

/-- The survey of a port is OVERDUE: its WAITING entry becomes urgent and grant selection runs, or pending
stays set for the entry to come; a survey IN_FLIGHT leaves the port DUE (R146). -/
def State.surveyLate (s : State) (p : Port) : State :=
  match s.surveyEntry p with
  | some x =>
    if x.waiting then
      ((s.updSurvey p fun r => { r with state := .overdue }).updEntry x.serial
        fun y => { y with urgent := true }).oweSelection
    else s
  | none => if (s.survey p).pending then s.updSurvey p fun r => { r with state := .overdue } else s

/-- The grace timer of a port expires in DUE (R146). -/
def State.graceExpired (s : State) (p : Port) : State :=
  if (s.survey p).state = .due ∧ (s.survey p).graceTimer.isSome then
    (s.updSurvey p fun r => { r with graceTimer := none }).surveyLate p
  else s

/-- Expiry of a port's grace timer (R146). -/
def execGraceTimerExpiry (port : Port) (s : State) : Host.Outcome State Fault Refusal :=
  takeEvent (fun t => t.graceExpired port) s

/-! ### Notices (R171, R172) -/

/-- The ports in the order of a notice's search: from the scan start upward, port 0 after port 47. -/
def scanOrder (start : Port) : List Port := allPorts.map fun i => start + i

/-- The device record of a notice is taken. -/
def State.deviceReported (s : State) : Bool := !s.notice.device.isEmpty

/-- The ports whose records a notice takes (R172). -/
def State.portsReported (s : State) : List Port :=
  ((scanOrder s.notice.scanStart).filter fun p => !(s.port p).events.isEmpty).take
    (Config.noticeRecords - s.deviceReported.toNat)

/-- The event records of a notice, the device record first (R172). -/
def State.noticeEntries (s : State) : List (List Byte) :=
  (if s.deviceReported then [s.notice.device.encode] else [])
    ++ s.portsReported.map fun p => (s.port p).events.encode p

/-- The notice frame to a destination (R172, R182). -/
def State.noticeFrame (s : State) (destination : Address) : List Byte :=
  sealFrame (originated s.supervision.station destination 3 0 s.noticeEntries.length s.noticeEntries.flatten)

/-- Every set that gave a record is emptied, and the scan start moves past the last port reported
(R172). -/
def State.reportedCleared (s : State) : State :=
  let start := (s.portsReported.getLast?.map fun p => p + 1).getD s.notice.scanStart
  let cleared := s.portsReported.foldl (fun t p => t.updPort p fun x => { x with events := .empty }) s
  { cleared with
    notice :=
      { cleared.notice with
        scanStart := start
        device := if s.deviceReported then DeviceEvents.empty else cleared.notice.device } }

/-- The notice unit in a state with its holdoff timer stopped. -/
def State.noticeRests (s : State) (st : NoticeState) : State :=
  { s with notice := { s.notice with state := st, holdoffTimer := none } }

/-- Build a notice and hand it over for the notice slot (R172). -/
def State.sendNotice (s : State) (destination : Address) : State :=
  (s.reportedCleared.noticeRests .sending).insertFrame s.supervision.station.noticeSlot
    (s.noticeFrame destination) .notice

/-- The holdoff timer expires in HOLDING (R171). -/
def State.holdoffExpired (s : State) : State :=
  if s.notice.state = .holding ∧ s.notice.holdoffTimer.isSome then
    match s.supervision.station.noticeDestination with
    | none => s.noticeRests .idle
    | some d => if s.noticeEntries.isEmpty then s.noticeRests .idle else s.sendNotice d
  else s

/-- Expiry of the notice holdoff timer (R171). -/
def execHoldoffTimerExpiry (s : State) : Host.Outcome State Fault Refusal :=
  takeEvent State.holdoffExpired s

end Sys2Proof.Machine
end

