-- ==== Sys2Proof/Machine/LaneEvents.lean ====
section
/-! DEFINITION. The events of the line lanes: loss and recovery of a quad, the front ends' training
reports and their measurement reports (chapters 1, 3 and 6). -/

namespace Sys2Proof.Machine

/-! ### Quad loss and recovery (R15 to R17, R107) -/

/-- The availability of a quad. -/
def State.setQuad (s : State) (q : Quad) (up : Bool) : State := { s with quads := s.quads.set q up }

/-- The test of a HELD port whose quad is lost (R15, R107): aborted in QUIESCE or CAPTURE; completed in
RESTORE if its RELEASE had not left the lane; otherwise left alone. -/
def State.testLost (s : State) (released : List Port) (p : Port) : State :=
  match s.engineOn p with
  | none => s
  | some e =>
    match s.context e with
    | none => s
    | some m =>
      match (s.engine e).state, m.test with
      | .quiesce, some t | .capture, some t => s.abortLost e m t
      | .restore, some _ =>
        if released.contains p then s else (s.emit (.releaseEnded p)).completeRestore e
      | _, _ => s

/-- What a port does at the loss of its quad, its line mode being OPEN already (R15). -/
def State.portLost (released : List Port) (s : State) (p : Port) : State :=
  match s.link p with
  | .noLine => s
  | .held => s.testLost released p
  | .off | .listen | .exchange | .pendingTrain | .train | .verify | .up | .backoff =>
    ((s.abandonAttempt p).departIfUp p .frontEndFault).enterNoLine p

/-- The line modes of the ports return to OPEN, and FRONT_END_FAULT is raised for each (R15). -/
def State.frontEndFaults (s : State) (ports : List Port) : State :=
  ports.foldl (fun t p => (t.setMode p .openMode).raise p .frontEndFault) s

/-- The ports of a quad in the order in which a loss moves them, lowest first, those in HELD last: a sweep whose
measurement the loss ends finds no port of the quad UP at its step checks, and waits there (R88, R89, log
16). -/
def State.lossOrder (s : State) (q : Quad) : List Port :=
  ((portsOf q).filter fun p => s.link p != .held) ++ (portsOf q).filter fun p => s.link p == .held

/-- The loss of a quad: nothing if it is UNAVAILABLE already, availability alone during the load, and
otherwise the line modes, the events and the four ports (R15, R17). -/
def State.quadLost (s : State) (q : Quad) (released : List Port) : State :=
  if !s.quads[q] then s
  else if s.loading then s.setQuad q false
  else (s.lossOrder q).foldl (State.portLost released) ((s.setQuad q false).frontEndFaults (portsOf q))

/-- The keep-alive of a quad stops. -/
def execQuadLoss (quad : Quad) (released : List Port) (s : State) : Host.Outcome State Fault Refusal :=
  takeEvent (fun t => t.quadLost quad released) s

/-- What a port does at the recovery of its quad (R16). -/
def State.portRecovered (s : State) (p : Port) : State :=
  if s.link p = .noLine then (if (s.profile p).enabled then s.enterListen p else s.enterOff p) else s

/-- The recovery of a quad: nothing if it is AVAILABLE already, availability alone during the load, and
otherwise its ports in NO_LINE move, and grant selection runs (R16, R17). -/
def State.quadRecovered (s : State) (q : Quad) : State :=
  if s.quads[q] then s
  else if s.loading then s.setQuad q true
  else ((portsOf q).foldl State.portRecovered (s.setQuad q true)).oweSelection

/-- The keep-alive of a quad resumes, or is first observed. -/
def execQuadRecovery (quad : Quad) (s : State) : Host.Outcome State Fault Refusal :=
  takeEvent (fun t => t.quadRecovered quad) s

/-! ### Training reports (R14) -/

/-- A training report reaches the training controller: the load has ended, the quad is AVAILABLE (log 26),
and the line mode is OPEN or READING_TAPS (R14). -/
def State.reportReaches (s : State) (p : Port) : Bool :=
  !s.loading && s.quadUp p && (s.mode p == .openMode || s.mode p == .readingTaps)

/-- A training report, and what the training controller does with it. -/
def State.report (s : State) (p : Port) (f : State → State) : State := if s.reportReaches p then f s else s

/-- ENERGY_ON at the training controller (R33, R34). -/
def State.energyRises (s : State) (p : Port) : State :=
  let seen := s.updTraining p fun t => { t with energy := true }
  if s.link p = .listen then seen.beginExchange false p else seen

/-- Report ENERGY_ON (R34). -/
def execEnergyOn (port : Port) (s : State) : Host.Outcome State Fault Refusal :=
  takeEvent (fun t => t.report port fun u => u.energyRises port) s

/-- ENERGY_OFF at the training controller (R33, R38, R40, R45, R49). -/
def State.energyFalls (s : State) (p : Port) : State :=
  let seen := s.updTraining p fun t => { t with energy := false }
  match s.link p with
  | .exchange | .train | .verify | .up =>
    (((seen.abandonAttempt p).departIfUp p .portBusy).send p .stopTrain).enterListen p
  | .pendingTrain => seen.enterListen p
  | .off | .noLine | .listen | .held | .backoff => seen

/-- Report ENERGY_OFF (R45). -/
def execEnergyOff (port : Port) (s : State) : Host.Outcome State Fault Refusal :=
  takeEvent (fun t => t.report port fun u => u.energyFalls port) s

/-- Rate resolution: the first rate of the snapshot's list that is in local ability and in the partner's
set, other rates passed over (R37). -/
def Training.resolve (t : Training) (rates : List Nat) : Option Rate :=
  match t.snapshot with
  | none => none
  | some x =>
    (x.entry.rates.map PlanRate.rate).find? fun r => t.ability.contains r && rates.contains r.mbps

/-- No rate in common: the record, the event, STOP_TRAIN, and BACKOFF under the backoff time (R32, R37,
R50). -/
def State.noCommonRate (s : State) (p : Port) : State :=
  let recorded := (s.updTraining p fun t => t.recordCycle .noCommonRate).raise p .noCommonRate
  ((recorded.send p .stopTrain).setLink p .backoff).updTraining p
    fun t => { t with backoffTimer := some (s.profile p).backoffTime }

/-- PARTNER_ABILITY at the training controller (R37). -/
def State.partnerAnswers (s : State) (p : Port) (rates : List Nat) : State :=
  if s.link p = .exchange then
    match (s.training p).resolve rates with
    | none => s.noCommonRate p
    | some r => (s.updTraining p fun t => { t with target := some r }).trainingEntry true p
  else s

/-- Report PARTNER_ABILITY (R37). -/
def execPartnerAbility (port : Port) (rates : List Nat) (s : State) : Host.Outcome State Fault Refusal :=
  takeEvent (fun t => t.report port fun u => u.partnerAnswers port rates) s

/-- Enter VERIFY under the profile's verify window (R46). -/
def State.enterVerify (s : State) (p : Port) : State :=
  (s.setLink p .verify).updTraining p fun t => { t with verifyTimer := some (s.profile p).verifyWindow }

/-- TRAIN_DONE at the training controller (R42, R43). -/
def State.attemptTrained (s : State) (p : Port) (margin : Int) : State :=
  if s.link p = .train then
    let judged := s.updTraining p fun t => { t with attemptTimer := none, margin := some margin }
    if (s.training p).figures.2 ≤ margin then judged.enterVerify p
    else (judged.updTraining p fun t => t.recordAttempt .lowMargin (some margin)).failAttempt p
  else s

/-- Report TRAIN_DONE (R42). -/
def execTrainDone (port : Port) (margin : Int) (s : State) : Host.Outcome State Fault Refusal :=
  takeEvent (fun t => t.report port fun u => u.attemptTrained port margin) s

/-- TRAIN_FAIL at the training controller (R43). -/
def State.attemptFailed (s : State) (p : Port) : State :=
  if s.link p = .train then (s.updTraining p fun t => t.recordAttempt .lowMargin none).failAttempt p else s

/-- Report TRAIN_FAIL (R43). -/
def execTrainFail (port : Port) (s : State) : Host.Outcome State Fault Refusal :=
  takeEvent (fun t => t.report port fun u => u.attemptFailed port) s

/-- A verify window lost: the record, the counter, and training entry again or a demotion (R46). -/
def State.verifyLost (s : State) (p : Port) (margin : Int) : State :=
  let counted := s.updTraining p fun t =>
    { t.recordAttempt .verifyLost (some margin) with attempts := t.attempts + 1 }
  if (s.training p).attempts + 1 < (s.training p).figures.1 then
    (counted.send p .stopTrain).trainingEntry false p
  else counted.demote p

/-- MARGIN_REPORT at the training controller (R46, R48). -/
def State.marginReported (s : State) (p : Port) (margin : Int) : State :=
  let kept := s.updTraining p fun t => { t with margin := some margin }
  match s.link p with
  | .verify => if (s.training p).figures.2 ≤ margin then kept else kept.verifyLost p margin
  | .up => kept
  | .off | .noLine | .listen | .exchange | .pendingTrain | .train | .held | .backoff => s

/-- Report MARGIN_REPORT (R46). -/
def execMarginReport (port : Port) (margin : Int) (s : State) : Host.Outcome State Fault Refusal :=
  takeEvent (fun t => t.report port fun u => u.marginReported port margin) s

/-- SYMBOL_ERRORS at the training controller: in UP the count joins the degrade window count, saturating
(R48). -/
def State.errorsReported (s : State) (p : Port) (count : Nat) : State :=
  if s.link p = .up then
    s.updTraining p fun t => { t with degradeCount := min (t.degradeCount + count) Config.wordCeiling }
  else s

/-- Report SYMBOL_ERRORS (R48). -/
def execSymbolErrors (port : Port) (count : Nat) (s : State) : Host.Outcome State Fault Refusal :=
  takeEvent (fun t => t.report port fun u => u.errorsReported port count) s

/-! ### Measurement reports (R13) -/

/-- SILENT: accepted in SILENCING; it ends the QUIESCE of an engine whose context names the port (R13,
R98). -/
def State.silentReported (s : State) (p : Port) : State :=
  if s.mode p = .silencing then
    let quiet := s.setMode p .silentMode
    match s.engineOn p with
    | none => quiet
    | some e => if (s.engine e).state = .quiesce then quiet.beginCapture e else quiet
  else s

/-- Report SILENT (R98). -/
def execSilent (port : Port) (s : State) : Host.Outcome State Fault Refusal :=
  takeEvent (fun t => t.silentReported port) s

/-- The line mode after an accepted CAPTURE_SET: SILENT once nothing is expected (R13). -/
def captureModeAfter (pulsed : Pair) (left : List Pair) : LineMode :=
  if left.isEmpty then .silentMode else .capturing pulsed left

/-- CAPTURE_SET: accepted in CAPTURING for the outstanding pulsed pair and an expected listening pair, and
appended by an engine in CAPTURE (R13, R100). -/
def State.captureReported (s : State) (p : Port) (c : CaptureSet) : State :=
  match s.mode p, s.engineOn p with
  | .capturing pulsed expected, some e =>
    if pulsed = c.pulsed ∧ expected.contains c.listening then
      let left := expected.erase c.listening
      let taken := s.setMode p (captureModeAfter pulsed left)
      if (s.engine e).state = .capture then
        let kept := taken.updTest e fun t => { t with captures := t.captures ++ [c] }
        if left.isEmpty then kept.pairCaptured e else kept
      else taken
    else s
  | _, _ => s

/-- Report CAPTURE_SET (R100). -/
def execCaptureSet (port : Port) (pulsed listening : Pair) (samples : List Int) (s : State) :
    Host.Outcome State Fault Refusal :=
  takeEvent (fun t => t.captureReported port ⟨pulsed, listening, samples⟩) s

/-- TAPS: accepted in READING_TAPS; the line mode returns to OPEN, and the survey completes (R13, R110). -/
def State.tapsReported (s : State) (p : Port) (a b c d : Tap) : State :=
  match s.mode p, s.engineOn p with
  | .readingTaps, some e =>
    let opened := s.setMode p .openMode
    match (s.engine e).state, s.context e with
    | .surveyRead, some m => opened.completeSurvey e m a b c d
    | _, _ => opened
  | _, _ => s

/-- Report TAPS (R110). -/
def execTaps (port : Port) (tapA tapB tapC tapD : Tap) (s : State) : Host.Outcome State Fault Refusal :=
  takeEvent (fun t => t.tapsReported port tapA tapB tapC tapD) s

end Sys2Proof.Machine
end

