-- ==== Sys2Proof/Machine/StartUp.lean ====
section
/-! DEFINITION. Resets, the two passes over the configuration image, and load completion (chapter 12,
section 13.4, R183). -/

namespace Sys2Proof.Machine

/-! ### Resets (R28, R175, R176) -/

/-- A frame at the end of its sending toward the switch core, with its marks (R25, R28). -/
def OutFrame.sent (f : OutFrame) (p : Port) (bad : Bool) : Output :=
  .toSwitch p f.bytes bad (f.source != .forwarded)

/-- The frames being sent when a reset occurs reach the switch core with the bad mark set (R28). -/
def State.cutFrames (s : State) : List Output :=
  allPorts.filterMap fun p => (s.traffic p).sending.map fun f => f.sent p true

/-- The frames handed to the line lane of a port, oldest first (R21). -/
def State.handedToLine (s : State) (p : Port) : List (List Byte) :=
  s.outputs.filterMap fun
    | .toLine q bytes => if q = p then some bytes else none
    | .command .. | .releaseEnded _ | .toSwitch .. | .lineCut .. => none

/-- The frames that the line lane controllers end at a reset: of each port, the newest of the frames handed
over, as many as `unsent` names the port (R28, log 10). -/
def State.lineCuts (s : State) (unsent : List Port) : List Output :=
  allPorts.flatMap fun p =>
    let handed := s.handedToLine p
    (handed.drop (handed.length - unsent.count p)).map (.lineCut p)

/-- A reset: the frames under way in both directions are cut (R28), and every block takes its reset value
(R175). -/
def State.resetTo (s : State) (inputs : ResetInputs) (causes : ResetCauses) (progress : LoadProgress) : State :=
  State.atReset inputs.straps causes progress s.pending s.arbiter
    (s.outputs ++ s.cutFrames ++ s.lineCuts inputs.unsent)

/-- POWER_ON reset: the cause record becomes {POWER_ON} (R176). With the reset pin held the part stays in
reset until its release (log 20). -/
def execPowerOnReset (inputs : ResetInputs) (s : State) : Host.Outcome State Fault Refusal :=
  .next (s.resetTo inputs ⟨true, false, false, false⟩ (if s.pinHeld then .awaitingRelease else .firstPass))

/-- PIN reset: PIN is added to the cause record, and the part stays in reset while the pin is held (R175,
R176). -/
def execPinReset (inputs : ResetInputs) (s : State) : Host.Outcome State Fault Refusal :=
  if s.pinHeld then .next s
  else .next (s.resetTo inputs { s.startUp.causes with pin := true } .awaitingRelease)

/-- The release of the reset pin: the load begins (R175). -/
def execPinRelease (s : State) : Host.Outcome State Fault Refusal :=
  if s.pinHeld then .next { s with startUp := { s.startUp with progress := .firstPass } } else .next s

/-- SUPERVISOR reset: SUPERVISOR is added to the cause record (R168, R176). -/
def State.supervisorReset (s : State) (inputs : ResetInputs) : State :=
  s.resetTo inputs { s.startUp.causes with supervisor := true } .firstPass

/-! ### Load completion (R179) -/

/-- Place a port by its quad's availability and its admin (R17). -/
def State.placePort (s : State) (p : Port) : State :=
  if !s.quadUp p then s.enterNoLine p
  else if (s.profile p).enabled then (s.send p .release).enterListen p
  else s.enterOff p

/-- The load state becomes COMPLETE with an outcome. -/
def State.loadEnded (s : State) (outcome : ImageOutcome) : State :=
  { s with startUp := { s.startUp with progress := .complete, outcome := some outcome } }

/-- Load completion, in the order of R179: the image state, the classes, the ports, START_UP, and the
acceptance of frames. -/
def State.completeLoad (s : State) (outcome : ImageOutcome) : State :=
  ((allPorts.foldl State.placePort (s.loadEnded outcome).selectAllClasses).raiseDevice
    .startUp).updSupervision fun v => { v with accepting := true }

/-- Every block whose values the image could set returns to its built-in values (R178). -/
def State.unloaded (s : State) : State :=
  { s with
    ports := Vector.ofFn fun p => { s.port p with profile := Profile.builtin p }
    plan := planBuiltin
    signatures := SignatureTable.builtin
    supervision :=
      { s.supervision with
        requesters := requestersBuiltin
        station := Station.builtin s.startUp.straps } }

/-- Rejection of the image: the built-in values, no section applied, IMAGE_REJECTED in the cause record
and in the device set, and load completion at once (R178). -/
def State.rejectImage (s : State) (reason : RejectReason) : State :=
  let u := s.unloaded
  let recorded : State :=
    { u with
      startUp :=
        { u.startUp with
          causes := { u.startUp.causes with imageRejected := true }
          applied := [] } }
  (recorded.raiseDevice .imageRejected).completeLoad (.rejected reason)

/-! ### First pass (R177) -/

/-- The length field of a header. -/
def bodyLength (bytes : List Byte) : Nat := natAt bytes 8 4

/-- The body that follows a header. -/
def imageBody (bytes : List Byte) : List Byte := (bytes.drop Config.imageHeader).take (bodyLength bytes)

/-- The sum of the bytes of a body, modulo 65,536. -/
def bodySum (body : List Byte) : Nat := (body.map BitVec.toNat).sum % 65536

/-- The first failure of the six checks of the first pass, in their order (R177). An image of length 0 is taken
through all six, so that a header sum other than 0 is BAD_SUM (log 38: the model's choice). -/
def firstPassFailure (bytes : List Byte) : Option RejectReason :=
  if bytes.length < Config.imageHeader then some .noAcknowledge
  else if natAt bytes 0 4 ≠ Config.imageMagic then some .badMagic
  else if natAt bytes 4 2 ≠ Config.imageVersion then some .badVersion
  else if Config.imageBodyMax < bodyLength bytes then some .badLength
  else if bytes.length < Config.imageHeader + bodyLength bytes then some .noAcknowledge
  else if bodySum (imageBody bytes) ≠ natAt bytes 6 2 then some .badSum
  else none

/-- What the end of the first pass does: rejection, acceptance of an image that holds no section, or the
second pass (R177, R179). -/
def State.firstPassEnds (s : State) (bytes : List Byte) : State :=
  if s.startUp.progress = .firstPass then
    match firstPassFailure bytes with
    | some reason => s.rejectImage reason
    | none =>
      if bodyLength bytes = 0 then s.completeLoad .accepted
      else { s with startUp := { s.startUp with progress := .secondPass (bodyLength bytes) } }
  else s

/-- The first pass over the configuration memory ends, with the bytes acknowledged (R177, log 21). -/
def execImageFirstPassCompletion (bytes : List Byte) (s : State) : Host.Outcome State Fault Refusal :=
  takeEvent (fun t => t.firstPassEnds bytes) s

/-! ### Second pass (R177, R178, R183) -/

/-- The records of a section, `size` bytes each. -/
def sectionRecords (size count : Nat) (b : List Byte) : List (List Byte) :=
  (List.range count).map fun i => (b.drop (i * size)).take size

/-- Decode every record; none if one is refused. -/
def decodeAll {α : Type} (f : List Byte → Option α) : List (List Byte) → Option (List α)
  | [] => some []
  | b :: rest =>
    match f b, decodeAll f rest with
    | some x, some xs => some (x :: xs)
    | _, _ => none

/-- No number occurs twice. -/
def noneTwice : List Nat → Bool
  | [] => true
  | n :: rest => !rest.contains n && noneTwice rest

/-- Decoded records, refused where two name one thing (R178). -/
def onceEach {α : Type} (key : α → Nat) (xs : List α) : Option (List α) :=
  if noneTwice (xs.map key) then some xs else none

/-- A record of the profiles section: port and profile (R178, R183). -/
def profileRecord (b : List Byte) : Option (Port × Profile) :=
  match finOf 48 (byteAt b 0), Profile.decode (b.drop 1) with
  | some p, some d => some (p, d.1)
  | _, _ => none

/-- A record of the plan entries section: index and entry (R178, R183). -/
def planRecord (b : List Byte) : Option (Fin 16 × PlanEntry) :=
  match finOf 16 (byteAt b 0), PlanEntry.decode (byteAt b 0) (b.drop 1) with
  | some i, some d => some (i, d.1)
  | _, _ => none

/-- A record of the signature entries section: index and item (R178, R183). -/
def signatureRecord (b : List Byte) : Option (Fin 1024 × Signature) :=
  match finOf 1024 (natAt b 0 2), Signature.decode (byteAt b 2) with
  | some i, some g => some (i, g)
  | _, _ => none

/-- A lock index that the table can hold: at most 1024 and a multiple of 16 (R130). -/
def lockAcceptable (n : Nat) : Bool := n ≤ 1024 && n % 16 == 0

/-- The requester table with records applied. -/
def Supervision.withRequesters (v : Supervision) (xs : List (RequesterId × Requester)) : Supervision :=
  { v with requesters := xs.foldl (fun t x => t.set x.1 x.2) v.requesters }

/-- The signature entries with records applied. -/
def SignatureTable.withEntries (t : SignatureTable) (xs : List (Fin 1024 × Signature)) : SignatureTable :=
  { t with entries := xs.foldl (fun e x => e.set x.1 (some x.2)) t.entries }

/-- The records of a section checked and applied; none if a record is refused (R178). -/
def State.applySection (s : State) (kind : SectionKind) (records : List (List Byte)) : Option State :=
  match kind with
  | .station =>
    (decodeAll Station.decode records).map fun xs =>
      s.updSupervision fun v => { v with station := xs.getLastD v.station }
  | .requesters =>
    ((decodeAll Requester.decode records).bind (onceEach fun x => x.1.val)).map fun xs =>
      s.updSupervision fun v => v.withRequesters xs
  | .profiles =>
    ((decodeAll profileRecord records).bind (onceEach fun x => x.1.val)).map fun xs =>
      xs.foldl (fun t x => t.updPort x.1 fun y => { y with profile := x.2 }) s
  | .plan =>
    ((decodeAll planRecord records).bind (onceEach fun x => x.1.val)).map fun xs =>
      { s with plan := xs.foldl (fun t x => t.set x.1 x.2) s.plan }
  | .geometry =>
    (decodeAll Geometry.decode records).map fun xs =>
      { s with signatures := { s.signatures with geometry := xs.getLastD s.signatures.geometry } }
  | .signatures =>
    ((decodeAll signatureRecord records).bind (onceEach fun x => x.1.val)).map fun xs =>
      { s with signatures := s.signatures.withEntries xs }
  | .lock =>
    let values := records.map fun b => natAt b 0 2
    if values.all lockAcceptable then
      some { s with signatures := { s.signatures with lock := values.getLastD s.signatures.lock } }
    else none

/-- The length of the records that a section header states (section 13.4). -/
def sectionLength (bytes : List Byte) : Nat := natAt bytes 2 2

/-- A length that holds whole records of a kind, and exactly one where the kind is marked so (R183). -/
def SectionKind.lengthFits (k : SectionKind) (length : Nat) : Bool :=
  if k.oneRecord then length == k.recordSize else length != 0 && length % k.recordSize == 0

/-- A section has been applied: its kind joins the set, and the body that is left shrinks; at the body's
end the image is accepted (R178, R179). -/
def State.sectionApplied (s : State) (kind : SectionKind) (left : Nat) : State :=
  let joined : State := { s with startUp := { s.startUp with applied := s.startUp.applied ++ [kind] } }
  if left = 0 then joined.completeLoad .accepted
  else { joined with startUp := { joined.startUp with progress := .secondPass left } }

/-- The checks of one section's records, once its header has passed. -/
def State.sectionRead (s : State) (bytes : List Byte) (kind : SectionKind) (left : Nat) : State :=
  let length := sectionLength bytes
  if bytes.length < 4 + length then s.rejectImage .noAcknowledge
  else
    match s.applySection kind (sectionRecords kind.recordSize (length / kind.recordSize) (bytes.drop 4)) with
    | none => s.rejectImage .badRecord
    | some t => t.sectionApplied kind (left - (4 + length))

/-- A section of the second pass, `left` body bytes standing from its header on (R177, R183). The spec does
not say which reason wins where a header fails a check and the read of its records, within the body, would
not be acknowledged: the model judges the header before it reads the records, BAD_RECORD (log 22). -/
def State.secondPassSection (s : State) (bytes : List Byte) (left : Nat) : State :=
  if left < 4 then s.rejectImage .badRecord
  else if bytes.length < 4 then s.rejectImage .noAcknowledge
  else
    match SectionKind.ofCode (byteAt bytes 0) with
    | none => s.rejectImage .badRecord
    | some kind =>
      if s.startUp.applied.contains kind || left < 4 + sectionLength bytes
          || !kind.lengthFits (sectionLength bytes) then s.rejectImage .badRecord
      else s.sectionRead bytes kind left

/-- A section has been read in the second pass, with the bytes acknowledged from its start (R178). -/
def execImageSectionRead (bytes : List Byte) (s : State) : Host.Outcome State Fault Refusal :=
  takeEvent
    (fun t =>
      match t.startUp.progress with
      | .secondPass left => t.secondPassSection bytes left
      | .awaitingRelease | .firstPass | .complete => t) s

end Sys2Proof.Machine
end

