-- ==== Sys2Proof/Machine/Requests.lean ====
section
/-! DEFINITION. The execution of request entries (sections 10.1, 10.4 and 10.5): the checks common to all,
and what each request does at the block that owns its state. -/

namespace Sys2Proof.Machine

/-! ### The request in execution (R155, R162) -/

/-- A request entry in execution, with the copy of its requester slot that its frame holds (R154). -/
structure Call where
  place : ReplyPlace
  tag : BitVec 16
  params : List Byte
  requester : RequesterId
  role : Role
  readSet : PortSet
  disturbSet : PortSet
  /-- The only entry of its frame. -/
  alone : Bool
  deriving DecidableEq, Repr

/-- The call of a request, with what its reply slot holds. -/
def Request.call (r : Request) (slot : ReplySlot) : Call where
  place := r.place
  tag := r.tag
  params := r.params
  requester := slot.requester
  role := slot.role
  readSet := slot.readSet
  disturbSet := slot.disturbSet
  alone := slot.entries.length == 1

/-- A result without data. -/
def Call.give (c : Call) (code : ResultCode) (s : State) : State := s.answer c.place code []

/-- OK with data. -/
def Call.data (c : Call) (b : List Byte) (s : State) : State := s.answer c.place .ok b

/-- OK, or OK_ADJUSTED where a value was clamped. -/
def Call.stored (c : Call) (adjusted : Bool) (s : State) : State :=
  c.give (if adjusted then .okAdjusted else .ok) s

/-- Checks 3 and 4 of R155 for the port in the first parameter byte. -/
def Call.onPort (c : Call) (set : PortSet) (body : Port → State → State) (s : State) : State :=
  match finOf 48 (byteAt c.params 0) with
  | none => c.give .badPort s
  | some p => if set.getLsbD p.val then body p s else c.give .notPermitted s

/-- The oldest request entry is taken and executed if its code is `code`: the role (R155 check 2), the
parameter length (R181, log 6), then the request itself. -/
def State.serve (code : Nat) (lowest : Role) (lengthFits : List Byte → Bool) (body : Call → State → State)
    (s : State) : State :=
  match s.supervision.requests with
  | [] => s
  | r :: rest =>
    if r.code.toNat ≠ code then s
    else
      let t := s.updSupervision fun v => { v with requests := rest }
      match s.slot r.place.slot with
      | none => t
      | some slot =>
        let c := r.call slot
        if c.role.code < lowest.code then c.give .notPermitted t
        else if !lengthFits c.params then c.give .badValue t
        else body c t

/-- Parameters of exactly `n` bytes. -/
def exactly (n : Nat) (params : List Byte) : Bool := params.length == n

/-! ### READ_PORT (R164, section 13.3) -/

/-- The plan snapshot in 32 bytes, fill when absent. -/
def snapshotBytes (x : Option Snapshot) : List Byte :=
  match x with
  | none => fill 32
  | some y => y.entry.encode

/-- The training context as READ_PORT returns it: bytes 1 to 113 but for the cable class. -/
def Training.encodeFirst (t : Training) : List Byte :=
  byteOf t.link.code ++ RateSet.byte t.ability ++ RateSet.byte t.demoted ++ optionalRateByte t.target
    ++ byteOf t.attempts ++ optionalRateByte t.current ++ flagByte t.energy ++ flagByte t.margin.isSome
    ++ intBytes 2 (t.margin.getD 0) ++ natBytes 2 t.degradeCount

/-- The snapshot and the history (bytes 14 to 113). -/
def Training.encodeLast (t : Training) : List Byte :=
  flagByte t.snapshot.isSome ++ byteOf t.planIndex ++ snapshotBytes t.snapshot
    ++ byteOf t.history.length ++ fill 1 ++ padTo 64 (t.history.map HistoryRecord.encode).flatten

/-- The five counters (bytes 114 to 133). -/
def Traffic.encode (t : Traffic) : List Byte :=
  natBytes 4 t.toLine ++ natBytes 4 t.toSwitch ++ natBytes 4 t.droppedNotUp ++ natBytes 4 t.badCheck
    ++ natBytes 4 t.diverted

/-- The engine on a port: its number, state and capture count (bytes 138 to 140). -/
def State.engineBytes (s : State) (p : Port) : List Byte :=
  match s.engineOn p with
  | none => byteOf 0xFF ++ byteOf 0 ++ byteOf 0
  | some e =>
    byteOf e.val ++ byteOf (s.engine e).state.code
      ++ byteOf (((s.testOf e).map fun t => t.captures.length).getD 0)

/-- The queue entries whose port or cursor is a port, oldest first. -/
def State.entriesFor (s : State) (p : Port) : List QueueEntry := s.queue.filter fun x => x.port == p

/-- The reply data of READ_PORT (section 13.3). -/
def State.portData (s : State) (p : Port) : List Byte :=
  byteOf p.val ++ (s.training p).encodeFirst ++ byteOf (s.port p).cableClass.val
    ++ (s.training p).encodeLast ++ (s.traffic p).encode
    ++ flagByte (s.quadUp p) ++ byteOf (s.mode p).code ++ byteOf (s.survey p).state.code
    ++ flagByte (s.survey p).pending ++ s.engineBytes p ++ fill 1
    ++ (s.port p).events.encode p ++ byteOf (s.entriesFor p).length ++ fill 1
    ++ ((s.entriesFor p).map QueueEntry.encode).flatten

/-- READ_PORT: everything the part holds for a port (R164). -/
def execReadPort (s : State) : Host.Outcome State Fault Refusal :=
  takeEvent
    (fun t => t.serve 1 .observer (exactly 1) fun c =>
      c.onPort c.readSet fun p u => c.data (u.portData p) u) s

/-! ### READ_REPORT (R142) -/

/-- OK with a record's encoding, or NOT_FOUND. -/
def Call.record (c : Call) (record : Option (List Byte)) (s : State) : State :=
  match record with
  | none => c.give .notFound s
  | some b => c.data b s

/-- READ_REPORT by its selector: REPORT, SUMMARY or BASELINE (R142, R181). -/
def Call.readReport (c : Call) (p : Port) (s : State) : State :=
  match byteAt c.params 1 with
  | 0 => c.record ((s.port p).report.map CableReport.encode) s
  | 1 => c.record ((s.port p).summary.map (SurveySummary.encode p 1)) s
  | 2 => c.record ((s.port p).baseline.map (SurveySummary.encode p 2)) s
  | _ => c.give .badValue s

/-- READ_REPORT: a stored record of a port (R142). -/
def execReadReport (s : State) : Host.Outcome State Fault Refusal :=
  takeEvent (fun t => t.serve 2 .observer (exactly 2) fun c => c.onPort c.readSet c.readReport) s

/-! ### READ_TABLE (R61, R131, R165) -/

/-- One signature entry in two bytes (section 13.3). -/
def signaturePair (x : Option Signature) : List Byte :=
  match x with
  | none => byteOf 0 ++ byteOf 0
  | some g => byteOf 1 ++ g.encode

/-- The entries from a start index on. -/
def SignatureTable.encodeRange (t : SignatureTable) (start count : Nat) : List Byte :=
  natBytes 2 start ++ byteOf count ++ fill 1
    ++ ((List.range count).map fun k => signaturePair t.entries[start + k]?.join).flatten

/-- The geometry and lock form. -/
def SignatureTable.encodeGeometry (t : SignatureTable) : List Byte :=
  byteOf t.geometry.distanceBins ++ byteOf t.geometry.amplitudeBins ++ natBytes 2 t.geometry.reach
    ++ natBytes 2 t.lock ++ fill 2

/-- The index or port of a READ_TABLE. -/
def Call.tableIndex (c : Call) : Nat := natAt c.params 1 2

/-- The plan entry form (R61). -/
def Call.readPlan (c : Call) (s : State) : State :=
  match finOf 16 c.tableIndex with
  | none => c.give .badValue s
  | some i => c.data (byteOf i.val ++ (s.plan[i]).encode) s

/-- The signature entries form (R131). -/
def Call.readSignatures (c : Call) (s : State) : State :=
  let count := byteAt c.params 3
  if 1 ≤ count ∧ count ≤ 64 ∧ c.tableIndex ≤ 1023 ∧ c.tableIndex + count ≤ 1024 then
    c.data (s.signatures.encodeRange c.tableIndex count) s
  else c.give .badValue s

/-- The requester slot form (R165). -/
def Call.readRequester (c : Call) (s : State) : State :=
  match finOf 8 c.tableIndex with
  | none => c.give .badValue s
  | some i => if i = 0 then c.give .badValue s else c.data ((s.supervision.requesters[i]).encode i) s

/-- The profile form, with the port checks of R155 (R165). -/
def Call.readProfile (c : Call) (s : State) : State :=
  match finOf 48 c.tableIndex with
  | none => c.give .badPort s
  | some p => if c.readSet.getLsbD p.val then c.data (s.profile p).encode s else c.give .notPermitted s

/-- READ_TABLE by its form (R165, R181). The count byte outside the signature form, and the index bytes of the
geometry form, are not read (log 37: the model's choice). -/
def Call.readTable (c : Call) (s : State) : State :=
  match byteAt c.params 0 with
  | 0 => c.readPlan s
  | 1 => c.readSignatures s
  | 2 => c.data s.signatures.encodeGeometry s
  | 3 => c.readRequester s
  | 4 => c.readProfile s
  | _ => c.give .badValue s

/-- READ_TABLE: a part of one of the tables (R165). -/
def execReadTable (s : State) : Host.Outcome State Fault Refusal :=
  takeEvent (fun t => t.serve 3 .observer (exactly 4) Call.readTable) s

/-! ### READ_STATUS (R166) -/

/-- The reset cause record in one byte. -/
def ResetCauses.byte (c : ResetCauses) : List Byte :=
  byteOf (c.powerOn.toNat + 2 * c.pin.toNat + 4 * c.supervisor.toNat + 8 * c.imageRejected.toNat)

/-- The outcome and its reason in two bytes (R180). -/
def outcomeBytes (o : Option ImageOutcome) : List Byte :=
  match o with
  | none => byteOf 0 ++ byteOf 0
  | some .accepted => byteOf 1 ++ byteOf 0
  | some (.rejected reason) => byteOf 2 ++ byteOf reason.code

/-- The reply data of READ_STATUS (section 13.3). -/
def State.statusData (s : State) : List Byte :=
  s.startUp.causes.byte ++ fill 1
    ++ natBytes 2 s.supervision.unknownSource ++ natBytes 2 s.supervision.malformed
    ++ natBytes 2 s.supervision.noReplySlot
    ++ flagByte (!s.loading) ++ outcomeBytes s.startUp.outcome
    ++ byteOf (s.startUp.applied.map fun k => 2 ^ (k.code - 1)).sum
    ++ flagByte s.supervision.stationSet ++ fill 3 ++ s.supervision.station.encode ++ fill 8

/-- READ_STATUS clears what it has returned: the reset cause record and the discard counters (R166). -/
def State.statusCleared (s : State) : State :=
  { s with startUp := { s.startUp with causes := ⟨false, false, false, false⟩ } }.updSupervision
    fun v => { v with unknownSource := 0, malformed := 0, noReplySlot := 0 }

/-- READ_STATUS: the status of the part, with its clearing (R166). -/
def execReadStatus (s : State) : Host.Outcome State Fault Refusal :=
  takeEvent
    (fun t => t.serve 4 .observer (exactly 0) fun c u => c.data u.statusData u.statusCleared) s

/-! ### TEST_CABLE (R73, R74) -/

/-- A request entry's parameters for a test. -/
structure TestRequest where
  pairs : List Pair
  averaging : Nat
  crossPair : Bool
  force : Bool
  sweep : Bool
  down : Bool
  count : Nat
  deriving DecidableEq, Repr

/-- The parameters of a TEST_CABLE (R181). Bits 4 to 7 of the options byte, which the spec does not name, are
not read (log 35: the model's choice). -/
def Call.test (c : Call) : TestRequest where
  pairs := pairsOfByte (byteAt c.params 1)
  averaging := byteAt c.params 2
  crossPair := (byteAt c.params 3).testBit 0
  force := (byteAt c.params 3).testBit 1
  sweep := (byteAt c.params 3).testBit 2
  down := (byteAt c.params 3).testBit 3
  count := byteAt c.params 4

/-- The averaging count stored: the greatest allowed value not above the one given, 1 for 0, 64 above 64
(R73). -/
def roundAveraging (n : Nat) : Nat := (([64, 32, 16, 8, 4, 2, 1].find? fun k => k ≤ n).getD 1)

/-- The entry of a requester slot that holds a tag, oldest first. -/
def State.tagged (s : State) (r : RequesterId) (tag : BitVec 16) : Option QueueEntry :=
  s.queue.find? fun x => x.requester == r && (x.external.any fun y => y.tag == tag)

/-- A WAITING non-sweep TEST of a requester slot for a port. -/
def State.singleWaiting (s : State) (r : RequesterId) (p : Port) : Option QueueEntry :=
  s.queue.find? fun x => x.requester == r && x.isSingleTest && x.port == p && x.waiting

/-- DUPLICATE with a tag (R74). -/
def Call.duplicate (c : Call) (tag : BitVec 16) (s : State) : State :=
  s.answer c.place .duplicate (natBytes 2 tag.toNat)

/-- The tag of an entry's external request. -/
def QueueEntry.tag (x : QueueEntry) : BitVec 16 := (x.external.map ExternalRequest.tag).getD 0

/-- The priority class of the call's requester slot, read at admission (R73, R76). -/
def State.classOf (s : State) (c : Call) : Nat := (s.supervision.requesters[c.requester]).priority

/-- The external entry that a call asks for. -/
def State.externalEntry (s : State) (c : Call) (kind : EntryKind) (p : Port) (adjusted : Bool) :
    QueueEntry where
  kind := kind
  requester := c.requester
  external := some ⟨c.tag, c.place⟩
  port := p
  adjusted := adjusted
  priority := s.classOf c
  urgent := false
  serial := s.admissions
  state := .waiting
  cancelMark := false

/-- The options stored for a test. -/
def TestRequest.options (t : TestRequest) (sweep : Option Sweep) : TestOptions :=
  ⟨t.pairs, roundAveraging t.averaging, t.crossPair, t.force, sweep⟩

/-- Admission changed the averaging count (R73). -/
def TestRequest.adjusted (t : TestRequest) : Bool := roundAveraging t.averaging != t.averaging

/-- A single test on a port: checks 1, 4, 5, 6 and 7 of R73, and admission. -/
def Call.singleTest (c : Call) (p : Port) (s : State) : State :=
  if c.test.pairs.isEmpty then c.give .badValue s
  else
    match s.tagged c.requester c.tag with
    | some _ => c.duplicate c.tag s
    | none =>
      match s.singleWaiting c.requester p with
      | some x => c.duplicate x.tag s
      | none =>
        if s.livePort p c.test.force then c.give .livePort s
        else if !s.roomExternal then c.give .queueFull s
        else s.enqueue (s.externalEntry c (.test (c.test.options none)) p c.test.adjusted)

/-- The range of a sweep lies within ports 0 to 47 (R73 check 3). -/
def TestRequest.inRange (t : TestRequest) (start : Nat) : Bool :=
  start < 48 && (if t.down then t.count ≤ start + 1 else start + t.count ≤ 48)

/-- Admit a sweep with its cursor on its start port and make the step checks (R73, R88). -/
def State.admitSweep (s : State) (c : Call) (start : Port) : State :=
  let w : Sweep := ⟨start, c.test.count, c.test.down, c.test.count, []⟩
  let o := c.test.options (some w)
  let x := s.externalEntry c (.test o) start c.test.adjusted
  (s.enqueue x).continueSweep x o start w

/-- A sweep: checks 1 to 4 and 7 of R73, and admission. -/
def Call.sweepTest (c : Call) (s : State) : State :=
  if c.test.pairs.isEmpty || c.test.count = 0 || 48 < c.test.count then c.give .badValue s
  else if !c.test.inRange (byteAt c.params 0) then c.give .badPort s
  else
    match s.tagged c.requester c.tag with
    | some _ => c.duplicate c.tag s
    | none =>
      if !s.roomExternal then c.give .queueFull s
      else
        match finOf 48 (byteAt c.params 0) with
        | none => c.give .badPort s
        | some start => s.admitSweep c start

/-- TEST_CABLE at the scheduler, the port of a single test checked as R155 states. -/
def Call.testCable (c : Call) (s : State) : State :=
  if c.test.sweep then c.sweepTest s else c.onPort c.disturbSet c.singleTest s

/-- TEST_CABLE: a test or a sweep is offered to the queue (R73). -/
def execTestCable (s : State) : Host.Outcome State Fault Refusal :=
  takeEvent (fun t => t.serve 5 .operator (exactly 5) Call.testCable) s

/-! ### SURVEY_NOW (R76, R152) -/

/-- The surveillance unit learns of a SURVEY_NOW: from COUNTING or IDLE the port becomes DUE; in DUE and
OVERDUE a new entry clears pending (R152). -/
def surveyCalled (prof : Profile) (fresh : Bool) (r : SurveyRecord) : SurveyRecord :=
  match r.state with
  | .idle | .counting => surveyDue prof r
  | .due | .overdue => if fresh then { r with pending := false } else r

/-- A request attaches to an internal SURVEY entry (R76). -/
def QueueEntry.attach (x : QueueEntry) (c : Call) (priority : Nat) : QueueEntry :=
  { x with
    requester := c.requester
    external := some ⟨c.tag, c.place⟩
    priority := max x.priority priority }

/-- SURVEY_NOW for a port (R76, R152). -/
def Call.surveyNow (c : Call) (p : Port) (s : State) : State :=
  if s.link p ≠ .up then c.give .portBusy s
  else
    match s.surveyEntry p with
    | none =>
      if s.roomExternal then
        (s.enqueue (s.externalEntry c .survey p false)).updSurvey p (surveyCalled (s.profile p) true)
      else c.give .queueFull s
    | some x =>
      match x.external with
      | some y => c.duplicate y.tag s
      | none =>
        (s.updEntry x.serial fun y => y.attach c (s.classOf c)).updSurvey p
          (surveyCalled (s.profile p) false)

/-- SURVEY_NOW: a survey is asked for at once (R76). -/
def execSurveyNow (s : State) : Host.Outcome State Fault Refusal :=
  takeEvent (fun t => t.serve 6 .operator (exactly 1) fun c => c.onPort c.readSet c.surveyNow) s

/-! ### CANCEL (R90 to R92, R106) -/

/-- A CANCEL of an IN_FLIGHT TEST in QUIESCE or CAPTURE (R91, R106): a sweep is marked, and the test is
aborted. -/
def State.cancelRunning (s : State) (x : QueueEntry) (e : EngineId) : State :=
  (s.updEntry x.serial fun y => { y with cancelMark := x.sweep.isSome }).abortTest e .cancelled

/-- A CANCEL of an IN_FLIGHT TEST (R91). A request of the CANCEL's own frame is answered as any other, at the
RESTORE completion where R91 has it so and not at the CANCEL's execution (log 39: the model's choice). -/
def Call.cancelInFlight (c : Call) (x : QueueEntry) (e : EngineId) (s : State) : State :=
  if x.cancelMark then c.give .tooLate s
  else
    match (s.engine e).state with
    | .quiesce | .capture => c.give .ok (s.cancelRunning x e)
    | .idle | .analyze | .restore | .surveyRead =>
      match x.sweep with
      | none => c.give .tooLate s
      | some w =>
        if 1 < w.remaining then c.give .ok (s.updEntry x.serial fun y => { y with cancelMark := true })
        else c.give .tooLate s

/-- A WAITING SURVEY whose request is cancelled goes on as the port's internal survey (R92). -/
def QueueEntry.detach (x : QueueEntry) : QueueEntry :=
  { x with requester := 0, external := none, priority := 0 }

/-- A CANCEL of a WAITING entry (R90, R92). The cancelled request is answered before the CANCEL (log 36: the
model's choice). -/
def Call.cancelWaiting (c : Call) (x : QueueEntry) (s : State) : State :=
  if x.isSurvey then c.give .ok ((s.updEntry x.serial QueueEntry.detach).answerEntry x .cancelled [])
  else
    match x.sweep with
    | none => c.give .ok (s.finishEntry x .cancelled [])
    | some w => c.give .ok (s.cancelSweep x x.port w)

/-- CANCEL of a tag among the entries of the call's requester slot (R90, log 23). -/
def Call.cancel (c : Call) (s : State) : State :=
  match s.tagged c.requester (BitVec.ofNat 16 (natAt c.params 0 2)) with
  | none => c.give .notFound s
  | some x =>
    match x.state with
    | .waiting => c.cancelWaiting x s
    | .inFlight e => if x.isSurvey then c.give .tooLate s else c.cancelInFlight x e s

/-- CANCEL: a queued request is given up (R90). -/
def execCancel (s : State) : Host.Outcome State Fault Refusal :=
  takeEvent (fun t => t.serve 7 .operator (exactly 2) Call.cancel) s

/-! ### RETRAIN (R55) -/

/-- RETRAIN at the training controller (R55). A request that the restart ends is answered before the RETRAIN (log
36: the model's choice). -/
def Call.retrain (c : Call) (p : Port) (s : State) : State :=
  match optionalRate (byteAt c.params 1) with
  | none => c.give .badValue s
  | some fromRate =>
    match s.link p with
    | .off => c.give .portDisabled s
    | .noLine => c.give .noLine s
    | .held => c.give .portBusy s
    | .listen | .exchange | .pendingTrain | .train | .verify | .up | .backoff =>
      c.give .ok (s.restart p fromRate)

/-- RETRAIN: a port starts a new training cycle (R55). -/
def execRetrain (s : State) : Host.Outcome State Fault Refusal :=
  takeEvent (fun t => t.serve 8 .operator (exactly 2) fun c => c.onPort c.disturbSet c.retrain) s

/-! ### SET_ADMIN (R9) -/

/-- Store a value of admin, with its effect (R9 to R11). -/
def State.storeAdmin (s : State) (p : Port) (now : Bool) : State :=
  (s.updPort p fun x => { x with profile := { x.profile with enabled := now } }).adminStored p
    (s.profile p).enabled now

/-- SET_ADMIN for a port (R9, R181). A request that it ends is answered before it (log 36: the model's
choice). -/
def Call.setAdmin (c : Call) (p : Port) (s : State) : State :=
  match flagAt c.params 1 with
  | none => c.give .badValue s
  | some now => c.give .ok (s.storeAdmin p now)

/-- SET_ADMIN: a port is enabled or disabled (R9). -/
def execSetAdmin (s : State) : Host.Outcome State Fault Refusal :=
  takeEvent (fun t => t.serve 9 .admin (exactly 2) fun c => c.onPort c.disturbSet c.setAdmin) s

/-! ### WRITE_PROFILE (R4 to R8, R151) -/

/-- A SURVEY entry that stays at a change of survey from on to off: external, or IN_FLIGHT (R151). -/
def QueueEntry.staysUnsurveyed (x : QueueEntry) : Bool := x.external.isSome || !x.waiting

/-- The survey record when survey goes off: the survey timer stops, pending is cleared, and the state
becomes IDLE unless a SURVEY entry stays (R151). -/
def surveyTurnedOff (stays : Bool) (r : SurveyRecord) : SurveyRecord :=
  if stays then { r with surveyTimer := none, pending := false } else SurveyRecord.atReset

/-- survey has been stored off over on (R151). -/
def State.surveyOff (s : State) (p : Port) : State :=
  match s.surveyEntry p with
  | none => s.updSurvey p (surveyTurnedOff false)
  | some x =>
    if x.staysUnsurveyed then s.updSurvey p (surveyTurnedOff true)
    else (s.updSurvey p (surveyTurnedOff false)).removeEntry x.serial

/-- survey has been stored on over off (R151). -/
def State.surveyOn (s : State) (p : Port) : State :=
  if s.link p = .up ∧ (s.survey p).state = .idle then s.restartSurvey p else s

/-- The effect of storing a value of survey over the one stored before (R151). -/
def State.surveyStored (s : State) (p : Port) (was now : Bool) : State :=
  if was && !now then s.surveyOff p else if !was && now then s.surveyOn p else s

/-- The states in which the bundle group cannot change (R6). -/
def LinkState.keepsGroup : LinkState → Bool
  | .train | .pendingTrain | .held => true
  | .off | .noLine | .listen | .exchange | .verify | .up | .backoff => false

/-- A change of bundle group calls for grant selection and a look at the reservations (R78, R85). -/
def State.groupStored (s : State) (was now : Group) : State :=
  if was = now then s else s.oweSelection.oweReservations

/-- Store a whole profile, with the effects that follow the store (R4, R8, R10, R11, R151, log 15). -/
def State.storeProfile (s : State) (p : Port) (new : Profile) : State :=
  let old := s.profile p
  ((((s.updPort p fun x => { x with profile := new }).groupStored old.group new.group).ratesRemoved p
    old.allowed).adminStored p old.enabled new.enabled).surveyStored p old.survey new.survey

/-- WRITE_PROFILE for a port: checks 1 to 4 of R4, and the store. A request that it ends is answered before it
(log 36: the model's choice). -/
def Call.writeProfile (c : Call) (p : Port) (s : State) : State :=
  match Profile.decode (c.params.drop 1) with
  | none => c.give .badValue s
  | some (new, adjusted) =>
    if new.group ≠ s.groupOf p ∧ (s.link p).keepsGroup then c.give .portBusy s
    else c.stored adjusted (s.storeProfile p new)

/-- WRITE_PROFILE: a port's profile is replaced whole (R4). -/
def execWriteProfile (s : State) : Host.Outcome State Fault Refusal :=
  takeEvent (fun t => t.serve 10 .admin (exactly 33) fun c => c.onPort c.disturbSet c.writeProfile) s

/-! ### The tables (R59, R127 to R130, R167) -/

/-- WRITE_PLAN_ENTRY at the rate plan table: the store, and class selection for all ports (R59, R60). -/
def Call.writePlanEntry (c : Call) (s : State) : State :=
  match finOf 16 (byteAt c.params 0), PlanEntry.decode (byteAt c.params 0) (c.params.drop 1) with
  | some i, some (entry, adjusted) =>
    c.stored adjusted { s with plan := s.plan.set i entry }.selectAllClasses
  | _, _ => c.give .badValue s

/-- WRITE_PLAN_ENTRY: an entry of the rate plan table is replaced (R59). -/
def execWritePlanEntry (s : State) : Host.Outcome State Fault Refusal :=
  takeEvent (fun t => t.serve 11 .admin (exactly 33) Call.writePlanEntry) s

/-- The items of a WRITE_SIGNATURES; none if one names a class that an entry cannot hold (R128 check 2). -/
def signatureItems (b : List Byte) : Option (List Signature) :=
  decodeAll (fun x => Signature.decode (byteAt x 0)) (sectionRecords 1 b.length b)

/-- Entries filled one after another from an index on. -/
def fillEntries : Nat → List Signature → Vector (Option Signature) 1024 → Vector (Option Signature) 1024
  | _, [], t => t
  | i, g :: rest, t => fillEntries (i + 1) rest (t.setIfInBounds i (some g))

/-- Some entry of `count` from an index on is filled. -/
def SignatureTable.filledWithin (t : SignatureTable) (start count : Nat) : Bool :=
  (List.range count).any fun k => t.entries[start + k]?.join.isSome

/-- The start index and the count of a WRITE_SIGNATURES pass check 1 of R128. -/
def signatureRange (start count : Nat) : Bool :=
  1 ≤ count && count ≤ 16 && start ≤ 1023 && start + count ≤ 1024

/-- WRITE_SIGNATURES at the signature table (R128). -/
def Call.writeSignatures (c : Call) (s : State) : State :=
  let start := natAt c.params 0 2
  let count := byteAt c.params 2
  if !signatureRange start count then c.give .badValue s
  else
    match signatureItems (c.params.drop 3) with
    | none => c.give .badValue s
    | some items =>
      if s.signatures.lock < start + count then c.give .locked s
      else if s.signatures.filledWithin start count then c.give .notBlank s
      else
        c.give .ok
          { s with
            signatures := { s.signatures with entries := fillEntries start items s.signatures.entries } }

/-- The parameter length of a WRITE_SIGNATURES: three bytes and one for each item (R181). -/
def signaturesLength (params : List Byte) : Bool := params.length == 3 + byteAt params 2 && 3 ≤ params.length

/-- WRITE_SIGNATURES: blank entries are filled (R128). -/
def execWriteSignatures (s : State) : Host.Outcome State Fault Refusal :=
  takeEvent (fun t => t.serve 12 .admin signaturesLength Call.writeSignatures) s

/-- The sixteen entries of a block made blank. -/
def blankBlock (block : Nat) (entries : Vector (Option Signature) 1024) : Vector (Option Signature) 1024 :=
  Vector.ofFn fun i => if i.val / 16 = block then none else entries[i]

/-- CLEAR_BLOCK at the signature table (R129). -/
def Call.clearBlock (c : Call) (s : State) : State :=
  let block := byteAt c.params 0
  if 63 < block then c.give .badValue s
  else if s.signatures.lock ≤ 16 * block then c.give .locked s
  else
    c.give .ok
      { s with signatures := { s.signatures with entries := blankBlock block s.signatures.entries } }

/-- CLEAR_BLOCK: the entries of a block are made blank (R129). -/
def execClearBlock (s : State) : Host.Outcome State Fault Refusal :=
  takeEvent (fun t => t.serve 13 .admin (exactly 1) Call.clearBlock) s

/-- SET_GEOMETRY at the signature table (R127). -/
def Call.setGeometry (c : Call) (s : State) : State :=
  match Geometry.decode c.params with
  | none => c.give .badValue s
  | some g =>
    if s.signatures.lock < 1024 then c.give .locked s
    else if s.signatures.filledWithin 0 s.signatures.lock then c.give .notBlank s
    else c.give .ok { s with signatures := { s.signatures with geometry := g } }

/-- SET_GEOMETRY: the geometry record is replaced (R127). -/
def execSetGeometry (s : State) : Host.Outcome State Fault Refusal :=
  takeEvent (fun t => t.serve 14 .admin (exactly 4) Call.setGeometry) s

/-- LOWER_LOCK at the signature table (R130). -/
def Call.lowerLock (c : Call) (s : State) : State :=
  let new := natAt c.params 0 2
  if lockAcceptable new && new ≤ s.signatures.lock then
    c.give .ok { s with signatures := { s.signatures with lock := new } }
  else c.give .badValue s

/-- LOWER_LOCK: the lock index is lowered (R130). -/
def execLowerLock (s : State) : Host.Outcome State Fault Refusal :=
  takeEvent (fun t => t.serve 15 .admin (exactly 2) Call.lowerLock) s

/-- WRITE_REQUESTER at the requester table (R167). -/
def Call.writeRequester (c : Call) (s : State) : State :=
  match Requester.decode c.params with
  | none => c.give .badValue s
  | some x => c.give .ok (s.updSupervision fun v => v.withRequesters [x])

/-- WRITE_REQUESTER: a requester slot is replaced whole (R167). -/
def execWriteRequester (s : State) : Host.Outcome State Fault Refusal :=
  takeEvent (fun t => t.serve 16 .admin (exactly 24) Call.writeRequester) s

/-! ### SET_STATION (R157, R173) -/

/-- Some pending event set holds an event. -/
def State.anyEvents (s : State) : Bool :=
  !s.notice.device.isEmpty || allPorts.any fun p => !(s.port p).events.isEmpty

/-- The notice unit after the store of a station record: from IDLE, with a destination and something
pending, it enters HOLDING (R173). -/
def State.stationStored (s : State) : State :=
  if s.notice.state == .idle && s.supervision.station.noticeDestination.isSome && s.anyEvents then
    s.startHoldoff
  else s

/-- SET_STATION at the supervision unit (R157). -/
def Call.setStation (c : Call) (s : State) : State :=
  if s.supervision.stationSet then c.give .alreadySet s
  else
    match Station.decode c.params with
    | none => c.give .badValue s
    | some station =>
      c.give .ok (s.updSupervision fun v => { v with station := station, stationSet := true }).stationStored

/-- SET_STATION: the station record is replaced, once between two resets (R157). -/
def execSetStation (s : State) : Host.Outcome State Fault Refusal :=
  takeEvent (fun t => t.serve 17 .admin (exactly 24) Call.setStation) s

/-! ### RESET_PART and unknown codes (R155, R168) -/

/-- RESET_PART at the supervision unit: alone in its frame, no further frame is accepted (R168). -/
def Call.resetPart (c : Call) (s : State) : State :=
  if c.alone then c.give .ok (s.updSupervision fun v => { v with accepting := false })
  else c.give .badValue s

/-- RESET_PART: the reply is handed over, and its transmission completion resets the part (R168). -/
def execResetPart (s : State) : Host.Outcome State Fault Refusal :=
  takeEvent (fun t => t.serve 18 .admin (exactly 0) Call.resetPart) s

/-- The oldest request entry has a code that names no request: UNKNOWN_REQUEST (R155 check 1). -/
def State.serveUnknown (s : State) : State :=
  match s.supervision.requests with
  | [] => s
  | r :: rest =>
    if 1 ≤ r.code.toNat ∧ r.code.toNat ≤ 18 then s
    else (s.updSupervision fun v => { v with requests := rest }).answer r.place .unknownRequest []

/-- An entry whose code names no request (R155). -/
def execUnknownRequest (s : State) : Host.Outcome State Fault Refusal :=
  takeEvent State.serveUnknown s

end Sys2Proof.Machine
end

