-- ==== Sys2Proof/Machine/TrafficEvents.lean ====
section
/-! DEFINITION. The traffic path's events (chapter 2): arrivals of frames, the acceptance of request frames
(section 10.3), and the ends of frames sent toward the switch core. -/

namespace Sys2Proof.Machine

/-! ### Matching a frame to a requester (R154) -/

/-- Slots 1 to 7 in ascending order. -/
def requesterSlots : List RequesterId := (List.finRange 8).drop 1

/-- The requester slot of a source address: the first slot in use with that address, or else the first
WILDCARD slot in use (R154). -/
def matchRequester (table : Vector Requester 8) (source : Address) : Option RequesterId :=
  match requesterSlots.find? fun i => (table[i]).inUse && (table[i]).address == some source with
  | some i => some i
  | none => requesterSlots.find? fun i => (table[i]).inUse && (table[i]).address == none

/-! ### Request frames (R158, R161, R181) -/

/-- Bytes before the payload of a supervision frame (section 13.2). -/
def frameHead : Nat := 22

/-- The worst-case reply data of a READ_TABLE (R161, log 7). -/
def tableWorst (params : List Byte) : Nat :=
  match byteAt params 0 with
  | 0 => 33
  | 1 => 4 + 2 * byteAt params 3
  | 2 => 8
  | 3 => 24
  | 4 => 32
  | _ => 0

/-- The worst-case reply data of a request entry, from its code and parameters alone (R161, log 7). -/
def worstData (code : Nat) (params : List Byte) : Nat :=
  match code with
  | 1 => 448
  | 2 =>
    match byteAt params 1 with
    | 0 => 176
    | 1 | 2 => 24
    | _ => 0
  | 3 => tableWorst params
  | 4 => 48
  | 5 => if (byteAt params 3).testBit 2 then 8 + 8 * byteAt params 4 else 176
  | 6 => 24
  | _ => 0

/-- A request entry as a frame carries it: code, tag, parameters. -/
structure RawEntry where
  code : Byte
  tag : BitVec 16
  params : List Byte
  deriving DecidableEq, Repr

/-- The entries of a payload, exactly `count` of them and ending exactly at its end; none otherwise
(R181). -/
def parseEntries : Nat → List Byte → Option (List RawEntry)
  | 0, b => if b.isEmpty then some [] else none
  | n + 1, b =>
    let length := natAt b 4 2
    if b.length < 6 + length then none
    else
      (parseEntries n (b.drop (6 + length))).map fun rest =>
        ⟨b.getD 0 0, BitVec.ofNat 16 (natAt b 2 2), (b.drop 6).take length⟩ :: rest

/-- The worst-case reply size of a frame (R161). -/
def worstSize (entries : List RawEntry) : Nat :=
  (entries.map fun e => 8 + worstData e.code.toNat e.params).sum

/-- The entries of a frame that is not malformed (R158, R181); `body` is the frame without its check
sequence. -/
def requestEntries (good : Bool) (body : List Byte) : Option (List RawEntry) :=
  let length := natAt body 20 2
  if !good || body.length < frameHead || byteAt body 14 ≠ 1 || byteAt body 15 ≠ 1
      || byteAt body 18 = 0 || 8 < byteAt body 18 || body.length < frameHead + length then none
  else
    (parseEntries (byteAt body 18) ((body.drop frameHead).take length)).bind fun entries =>
      if worstSize entries ≤ Config.replyBytes then some entries else none

/-! ### Acceptance (R158 to R160, R162) -/

/-- All reply slots, lowest first. -/
def allSlots : List SlotId := List.finRange 16

/-- The reply slot that an accepted frame takes: the lowest free one (R160, log 8). -/
def State.freeSlot (s : State) : Option SlotId := allSlots.find? fun i => (s.slot i).isNone

/-- A reply slot filled at acceptance, with the copy of its requester slot (R154, R160). -/
def filledSlot (source : Address) (p : Port) (tag : BitVec 16) (id : RequesterId) (r : Requester)
    (entries : List RawEntry) : ReplySlot where
  destination := source
  port := p
  tag := tag
  requester := id
  role := r.role
  readSet := r.readSet
  disturbSet := r.disturbSet
  entries := entries.map fun e => ⟨e.code, e.tag, none⟩
  sending := false

/-- The entries of an accepted frame in frame order, to be executed after those of every frame accepted
before (R162). -/
def queuedRequests (slot : SlotId) : Nat → List RawEntry → List Request
  | _, [] => []
  | i, e :: rest => ⟨⟨slot, i⟩, e.code, e.tag, e.params⟩ :: queuedRequests slot (i + 1) rest

/-- Accept a frame into a free reply slot (R160, R162). -/
def State.acceptFrame (s : State) (i : SlotId) (r : ReplySlot) (entries : List RawEntry) : State :=
  (s.setSlot i (some r)).updSupervision fun v => { v with requests := v.requests ++ queuedRequests i 0 entries }

/-- The arrival of a diverted frame at the supervision unit: discarded uncounted while it does not accept;
otherwise the checks of R158 in order, and acceptance. -/
def State.superviseArrival (s : State) (p : Port) (good : Bool) (body : List Byte) : State :=
  let source : Address := BitVec.ofNat 48 (natAt body 6 6)
  if !s.supervision.accepting then s
  else
    match matchRequester s.supervision.requesters source with
    | none => s.updSupervision fun v => { v with unknownSource := saturating Config.wordCeiling v.unknownSource }
    | some id =>
      match requestEntries good body with
      | none => s.updSupervision fun v => { v with malformed := saturating Config.wordCeiling v.malformed }
      | some entries =>
        match s.freeSlot with
        | none =>
          s.updSupervision fun v => { v with noReplySlot := saturating Config.wordCeiling v.noReplySlot }
        | some i =>
          s.acceptFrame i
            (filledSlot source p (BitVec.ofNat 16 (natAt body 16 2)) id (s.supervision.requesters[id]) entries)
            entries

/-! ### The switch-to-line direction (R20, R21, R24) -/

/-- A frame is a supervision frame under a station record: long enough to hold the compared fields, and
both equal (R20). -/
def isSupervision (station : Station) (body : List Byte) : Bool :=
  14 ≤ body.length && natAt body 0 6 == station.address.toNat && natAt body 12 2 == station.ethertype.toNat

/-- The arrival of a switch-to-line frame: diverted, forwarded to the line, or dropped (R20, R21, R24). -/
def State.fromSwitch (s : State) (p : Port) (frame : List Byte) : State :=
  if isSupervision s.supervision.station (frameBody frame) then
    (s.updTraffic p fun t => { t with diverted := saturating Config.trafficCeiling t.diverted }).superviseArrival
      p (checkGood frame) (frameBody frame)
  else if s.link p = .up then
    (s.updTraffic p fun t => { t with toLine := saturating Config.trafficCeiling t.toLine }).emit
      (.toLine p frame)
  else s.updTraffic p fun t => { t with droppedNotUp := saturating Config.trafficCeiling t.droppedNotUp }

/-- A frame has arrived whole from a port slot (R20). -/
def execSwitchToLineFrameArrival (port : Port) (frame : List Byte) (s : State) :
    Host.Outcome State Fault Refusal :=
  takeEvent (fun t => t.fromSwitch port frame) s

/-! ### The line-to-switch direction (R22, R23, R25) -/

/-- A forwarded frame is listed, unless 64 forwarded frames already wait (R22, R25). -/
def Traffic.forward (t : Traffic) (frame : List Byte) (bad : Bool) : Traffic :=
  if t.forwardedWaiting < Config.forwardedPlaces then
    { t.place ⟨frame, bad, .forwarded⟩ with toSwitch := saturating Config.trafficCeiling t.toSwitch }
  else t

/-- A frame with a failed check moves its counter and, in UP, the degrade window count (R22, R23). -/
def State.badFrame (s : State) (p : Port) : State :=
  let counted := s.updTraffic p fun t => { t with badCheck := saturating Config.trafficCeiling t.badCheck }
  if s.link p = .up then
    counted.updTraining p fun t => { t with degradeCount := saturating Config.wordCeiling t.degradeCount }
  else counted

/-- The arrival of a line-to-switch frame (R22, R23, R25). -/
def State.fromLine (s : State) (p : Port) (frame : List Byte) : State :=
  let listed := s.updTraffic p fun t => t.forward frame (!checkGood frame)
  if checkGood frame then listed else listed.badFrame p

/-- A frame has arrived whole from a line lane (R22). -/
def execLineToSwitchFrameArrival (port : Port) (frame : List Byte) (s : State) :
    Host.Outcome State Fault Refusal :=
  takeEvent (fun t => t.fromLine port frame) s

/-! ### The ends of frames toward the switch core (R25, R26, R168, R171) -/

/-- The frame being sent at a port ends, and the head of its list begins (R25). -/
def State.sendingEnds (s : State) (p : Port) (f : OutFrame) : State :=
  (s.updTraffic p Traffic.advance).emit (f.sent p f.bad)

/-- The end of a forwarded frame (R25). -/
def State.forwardedSent (s : State) (p : Port) : State :=
  match (s.traffic p).sending with
  | none => s
  | some f => if f.source = .forwarded then s.sendingEnds p f else s

/-- The sending of a forwarded frame toward the switch core ends (R25). -/
def execForwardedFrameSent (port : Port) (s : State) : Host.Outcome State Fault Refusal :=
  takeEvent (fun t => t.forwardedSent port) s

/-- A reply slot holds the reply to a RESET_PART that was carried out (R168). -/
def ReplySlot.resetsPart (r : ReplySlot) : Bool :=
  match r.entries with
  | [e] => e.code.toNat == 18 && (e.answer.any fun a => a.code == .ok)
  | _ => false

/-- The frame being sent at a port is the reply to a RESET_PART (R168). -/
def State.resetReply (s : State) (p : Port) : Bool :=
  match (s.traffic p).sending with
  | some ⟨_, _, .reply i⟩ => (s.slot i).any ReplySlot.resetsPart
  | _ => false

/-- A transmission completion at its source: a reply frees its slot, and a notice starts the holdoff timer
(R26, R163, R171). -/
def State.inserted (s : State) : FrameSource → State
  | .forwarded => s
  | .reply i => s.setSlot i none
  | .notice => if s.notice.state = .sending then s.startHoldoff else s

/-- The end of an inserted frame (R26). -/
def State.transmissionCompleted (s : State) (p : Port) : State :=
  match (s.traffic p).sending with
  | none => s
  | some f => if f.source = .forwarded then s else (s.sendingEnds p f).inserted f.source

/-- The last byte of an inserted frame has been sent: its source is told, and after the reply to RESET_PART
the SUPERVISOR reset takes effect (R26, R168, log 10, 25, 28). -/
def execTransmissionCompletion (port : Port) (inputs : ResetInputs) (s : State) :
    Host.Outcome State Fault Refusal :=
  if !s.pinHeld && s.resetReply port then .next ((s.transmissionCompleted port).supervisorReset inputs)
  else takeEvent (fun t => t.transmissionCompleted port) s

end Sys2Proof.Machine
end

