-- ==== Sys2Proof/Machine/Dispatch.lean ====
section
/-! DEFINITION. One arm per event: the meaning of each row of the table. -/

namespace Sys2Proof.Machine

def exec (i : Instr) (s : State) : Host.Outcome State Fault Refusal :=
  match i with
  | .powerOnReset inputs => Sys2Proof.Machine.execPowerOnReset inputs s
  | .pinReset inputs => Sys2Proof.Machine.execPinReset inputs s
  | .pinRelease => Sys2Proof.Machine.execPinRelease s
  | .imageFirstPassCompletion bytes => Sys2Proof.Machine.execImageFirstPassCompletion bytes s
  | .imageSectionRead bytes => Sys2Proof.Machine.execImageSectionRead bytes s
  | .quadLoss quad released => Sys2Proof.Machine.execQuadLoss quad released s
  | .quadRecovery quad => Sys2Proof.Machine.execQuadRecovery quad s
  | .energyOn port => Sys2Proof.Machine.execEnergyOn port s
  | .energyOff port => Sys2Proof.Machine.execEnergyOff port s
  | .partnerAbility port rates => Sys2Proof.Machine.execPartnerAbility port rates s
  | .trainDone port margin => Sys2Proof.Machine.execTrainDone port margin s
  | .trainFail port => Sys2Proof.Machine.execTrainFail port s
  | .marginReport port margin => Sys2Proof.Machine.execMarginReport port margin s
  | .symbolErrors port count => Sys2Proof.Machine.execSymbolErrors port count s
  | .silent port => Sys2Proof.Machine.execSilent port s
  | .captureSet port pulsed listening samples => Sys2Proof.Machine.execCaptureSet port pulsed listening samples s
  | .taps port tapA tapB tapC tapD => Sys2Proof.Machine.execTaps port tapA tapB tapC tapD s
  | .switchToLineFrameArrival port frame => Sys2Proof.Machine.execSwitchToLineFrameArrival port frame s
  | .lineToSwitchFrameArrival port frame => Sys2Proof.Machine.execLineToSwitchFrameArrival port frame s
  | .forwardedFrameSent port => Sys2Proof.Machine.execForwardedFrameSent port s
  | .transmissionCompletion port inputs => Sys2Proof.Machine.execTransmissionCompletion port inputs s
  | .readPort => Sys2Proof.Machine.execReadPort s
  | .readReport => Sys2Proof.Machine.execReadReport s
  | .readTable => Sys2Proof.Machine.execReadTable s
  | .readStatus => Sys2Proof.Machine.execReadStatus s
  | .testCable => Sys2Proof.Machine.execTestCable s
  | .surveyNow => Sys2Proof.Machine.execSurveyNow s
  | .cancel => Sys2Proof.Machine.execCancel s
  | .retrain => Sys2Proof.Machine.execRetrain s
  | .setAdmin => Sys2Proof.Machine.execSetAdmin s
  | .writeProfile => Sys2Proof.Machine.execWriteProfile s
  | .writePlanEntry => Sys2Proof.Machine.execWritePlanEntry s
  | .writeSignatures => Sys2Proof.Machine.execWriteSignatures s
  | .clearBlock => Sys2Proof.Machine.execClearBlock s
  | .setGeometry => Sys2Proof.Machine.execSetGeometry s
  | .lowerLock => Sys2Proof.Machine.execLowerLock s
  | .writeRequester => Sys2Proof.Machine.execWriteRequester s
  | .setStation => Sys2Proof.Machine.execSetStation s
  | .resetPart => Sys2Proof.Machine.execResetPart s
  | .unknownRequest => Sys2Proof.Machine.execUnknownRequest s
  | .exchangeTimerExpiry port => Sys2Proof.Machine.execExchangeTimerExpiry port s
  | .attemptTimerExpiry port => Sys2Proof.Machine.execAttemptTimerExpiry port s
  | .verifyTimerExpiry port => Sys2Proof.Machine.execVerifyTimerExpiry port s
  | .degradeWindowExpiry port => Sys2Proof.Machine.execDegradeWindowExpiry port s
  | .backoffTimerExpiry port => Sys2Proof.Machine.execBackoffTimerExpiry port s
  | .phaseTimerExpiry engine => Sys2Proof.Machine.execPhaseTimerExpiry engine s
  | .holdTimerExpiry group => Sys2Proof.Machine.execHoldTimerExpiry group s
  | .surveyTimerExpiry port => Sys2Proof.Machine.execSurveyTimerExpiry port s
  | .graceTimerExpiry port => Sys2Proof.Machine.execGraceTimerExpiry port s
  | .holdoffTimerExpiry => Sys2Proof.Machine.execHoldoffTimerExpiry s
  | .analyzeCompletion engine => Sys2Proof.Machine.execAnalyzeCompletion engine s
  | .restoreCompletion engine => Sys2Proof.Machine.execRestoreCompletion engine s

end Sys2Proof.Machine
end

