-- ==== Sys2Proof/Machine/Step.lean ====
section
/-! DEFINITION. One step: the event at the front of the queue is taken whole. -/

namespace Sys2Proof.Machine

/-- Take the event at the front of the queue and answer what it does to the part with the queue's rest; on
an empty queue the part idles (log 2). -/
def step (s : State) : Host.Outcome State Fault Refusal :=
  match s.pending with
  | [] => .next s
  | c :: rest => exec c { s with pending := rest }

/-- The state with the event that a word spells put at the front of its queue; the table spells none, so
the state is unchanged. -/
def State.withFetchWord (s : State) (nbits w : Nat) : State :=
  match decodeTableWord nbits w with
  | none => s
  | some c => { s with pending := c :: s.pending }

end Sys2Proof.Machine
end

