-- ==== Sys2Proof/Safety.lean ====
section
/-! DEFINITION. What counts as a safe state, in the terms the statements use: the invariants of the part,
and what it means that an event has a given effect of its own. -/

namespace Sys2Proof.Machine

/-! ### Effects -/

/-- The event's own effect makes the state `u`; what it owes beyond (reservations, training
entries, grants, hold timers) is carried out from there within the same event (log 17). -/
def HasEffect (i : Instr) (s u : State) : Prop := exec i s = .next (State.closeEvent s u)

/-- Between two events, with the reset pin released: nothing is owed (log 17). -/
def State.ready (s : State) : Prop := s.pinHeld = false ∧ s.due = Due.none

/-- Between two events, with a training report of a port reaching its training controller (R14). -/
def State.hears (s : State) (p : Port) : Prop := s.due = Due.none ∧ s.reportReaches p = true

/-- The oldest request entry has this code and its reply slot is in use: executing it is the call `c`, made
in the state `t` in which it has been taken (R155, R162). -/
def State.calls (s : State) (code : Nat) (c : Call) (t : State) : Prop :=
  ∃ r rest slot, s.supervision.requests = r :: rest ∧ r.code.toNat = code
    ∧ s.slot r.place.slot = some slot ∧ c = r.call slot
    ∧ t = s.updSupervision fun v => { v with requests := rest }

/-- The oldest request entry has this code, its role may issue it, and its parameters have the length that
the code requires: its execution is the call `c` in the state `t` (R155, R181). -/
def State.passes (s : State) (code length : Nat) (lowest : Role) (c : Call) (t : State) : Prop :=
  s.ready ∧ s.calls code c t ∧ lowest.code ≤ c.role.code ∧ c.params.length = length

/-- The first parameter byte of a call names this port, and the port is in a set of the call (R155). -/
def Call.names (c : Call) (set : PortSet) (p : Port) : Prop :=
  byteAt c.params 0 = p.val ∧ set.getLsbD p.val = true

/-- The call is answered at its execution with a code and no data. -/
def Refuses (i : Instr) (s : State) (c : Call) (t : State) (code : ResultCode) : Prop :=
  exec i s = .next (t.answer c.place code [])

/-- What R155 and R181 say of one request: its code, the lowest role allowed, its parameter lengths, and the
port set in which its first parameter byte is checked, if any. -/
structure RequestRow where
  event : Instr
  code : Nat
  lowest : Role
  lengthFits : List Byte → Bool
  checked : ReplySlot → List Byte → Option PortSet

/-- The requests of the part (R155, R181). -/
def requestRows : List RequestRow :=
  let reads (x : ReplySlot) (_ : List Byte) : Option PortSet := some x.readSet
  let disturbs (x : ReplySlot) (_ : List Byte) : Option PortSet := some x.disturbSet
  let unlessSweep (x : ReplySlot) (b : List Byte) : Option PortSet :=
    if (byteAt b 3).testBit 2 then none else some x.disturbSet
  let none (_ : ReplySlot) (_ : List Byte) : Option PortSet := Option.none
  let length (n : Nat) (b : List Byte) : Bool := b.length == n
  [⟨.readPort, 1, .observer, length 1, reads⟩, ⟨.readReport, 2, .observer, length 2, reads⟩,
    ⟨.readTable, 3, .observer, length 4, none⟩, ⟨.readStatus, 4, .observer, length 0, none⟩,
    ⟨.testCable, 5, .operator, length 5, unlessSweep⟩, ⟨.surveyNow, 6, .operator, length 1, reads⟩,
    ⟨.cancel, 7, .operator, length 2, none⟩, ⟨.retrain, 8, .operator, length 2, disturbs⟩,
    ⟨.setAdmin, 9, .admin, length 2, disturbs⟩, ⟨.writeProfile, 10, .admin, length 33, disturbs⟩,
    ⟨.writePlanEntry, 11, .admin, length 33, none⟩,
    ⟨.writeSignatures, 12, .admin, fun b => 3 ≤ b.length && b.length == 3 + byteAt b 2, none⟩,
    ⟨.clearBlock, 13, .admin, length 1, none⟩, ⟨.setGeometry, 14, .admin, length 4, none⟩,
    ⟨.lowerLock, 15, .admin, length 2, none⟩, ⟨.writeRequester, 16, .admin, length 24, none⟩,
    ⟨.setStation, 17, .admin, length 24, none⟩, ⟨.resetPart, 18, .admin, length 0, none⟩]

/-- The snapshot that an EXCHANGE entry or forced start of a port takes (R35, R36). -/
def State.nextSnapshot (s : State) (p : Port) : Snapshot :=
  ⟨(s.port p).cableClass, s.plan[(s.port p).cableClass]⟩

/-- The rates a port may try when a set is demoted: allowed by the profile, listed by the entry of its
class, not demoted (R36). -/
def State.triable (s : State) (p : Port) (demoted : RateSet) : RateSet :=
  Rate.all.filter fun r =>
    decide (r ∈ (s.profile p).allowed ∧ r ∈ (s.nextSnapshot p).entry.rates.map PlanRate.rate ∧ r ∉ demoted)

/-- Grant selection is owed beside a state if a port was in TRAIN and has left it (R78). -/
def State.leavingTrain (before : State) (p : Port) (u : State) : State :=
  if before.link p = .train then u.oweSelection else u

/-- STOP_TRAIN is sent where the flag says so. -/
def State.stopping (s : State) (stop : Bool) (p : Port) : State := if stop then s.send p .stopTrain else s

/-- A training context in LISTEN, its cycle cleared (R34). -/
def Training.listening (t : Training) : Training :=
  { t.enter .listen with demoted := [], attempts := 0, target := none, snapshot := none, margin := none }

/-- A training context with one more history record (R30). -/
def Training.noted (t : Training) (r : HistoryRecord) : Training :=
  { t with history := pushHistory t.history r }

/-- The record of the attempt running, in the words of R30's table. -/
def Training.attemptRecord (t : Training) (o : HistoryOutcome) (margin : Option Int) : HistoryRecord :=
  ⟨t.target, o, margin, t.attempts + 1, t.planIndex⟩

/-- The record of no attempt (R30). -/
def Training.cycleRecord (t : Training) (o : HistoryOutcome) : HistoryRecord := ⟨none, o, none, 0, t.planIndex⟩

/-- The notice unit, at a raise, leaves IDLE for HOLDING if a notice destination is present (R171). -/
def State.woken (s : State) : State :=
  if s.notice.state = .idle ∧ s.supervision.station.noticeDestination.isSome = true then
    { s with
      notice :=
        { s.notice with state := .holding, holdoffTimer := some s.supervision.station.holdoff } }
  else s

/-- The seven training reports of a port (R14). -/
def trainingReports (p : Port) (rates : List Nat) (margin : Int) (count : Nat) : List Instr :=
  [.energyOn p, .energyOff p, .partnerAbility p rates, .trainDone p margin, .trainFail p,
    .marginReport p margin, .symbolErrors p count]

/-- The target rate joins the demoted set and the counter is cleared (R44). -/
def Training.demoting (t : Training) (r : Rate) : Training :=
  { t with demoted := RateSet.insert r t.demoted, attempts := 0 }

/-- The group of a port has its capture slot free and no reservation (R39). -/
def State.openGroup (s : State) (p : Port) : Prop :=
  (s.group (s.groupOf p)).slot = none ∧ (s.group (s.groupOf p)).reserved = false

/-! ### Tests and the queue -/

/-- A training context that has entered a silent state: OFF or NO_LINE (R54). -/
def Training.quieted (t : Training) (l : LinkState) : Training :=
  { t.enter l with snapshot := none, margin := none, energy := false }

/-- A survey record after a survey of a port in UP, or at its entry to UP (R144, R148, R149). -/
def SurveyRecord.begun (r : SurveyRecord) (p : Profile) : SurveyRecord :=
  if p.survey then
    { r with state := .counting, surveyTimer := some p.surveyInterval, graceTimer := none }
  else { r with state := .idle, surveyTimer := none, graceTimer := none }

/-- An engine that returns to IDLE, with grant selection owed (R78, R94). -/
def State.freed (s : State) (e : EngineId) : State :=
  (s.updEngine e fun y => { y with state := .idle, phaseTimer := none, context := none }).oweSelection

/-- The engine whose context names a port runs a test of it, in this state. -/
def State.testing (s : State) (p : Port) (e : EngineId) (st : EngineState) (m : Measurement)
    (t : TestContext) : Prop :=
  s.engineOn p = some e ∧ (s.engine e).state = st ∧ (s.engine e).context = some m ∧ m.test = some t

/-- What the choice among eligible entries goes by: urgency, then quietness, then class (R79). -/
def State.rank (s : State) (x : QueueEntry) : Nat × Nat :=
  if x.urgent then (2, 0)
  else (if x.isSurvey || s.link x.port != .up then 1 else 0, x.priority)

/-- A rank above another, the first component deciding first. -/
def outranks (a b : Nat × Nat) : Prop := b.1 < a.1 ∨ (b.1 = a.1 ∧ b.2 < a.2)

/-- The conditions of R77 under which an entry is eligible for an engine. -/
def State.mayGrant (s : State) (e : EngineId) (x : QueueEntry) : Prop :=
  engineOf x.port = e ∧ x.state = .waiting ∧ (s.engine e).state = .idle
    ∧ (∀ y ∈ s.queue, y.state ≠ .waiting → y.port ≠ x.port) ∧ s.quadUp x.port = true
    ∧ (x.isSurvey = true → s.link x.port = .up)
    ∧ (x.isSurvey = false → (s.group (s.groupOf x.port)).slot = none
      ∧ ∀ q, q ≠ x.port → s.groupOf q = s.groupOf x.port → s.link q ≠ .train)

/-- A look through a list, first place first: it answers the first member that meets a condition, and none when
no member does. -/
def FirstWith {α : Type} (xs : List α) (meets : α → Prop) (found : Option α) : Prop :=
  (∀ x, found = some x ↔ meets x ∧ ∃ front rest, xs = front ++ x :: rest ∧ ∀ y ∈ front, ¬ meets y)
    ∧ (found = none ↔ ∀ x ∈ xs, ¬ meets x)

/-! ### Records that a write or the image stores -/

/-- A profile that passes checks 1 to 3 of R4: its fields of the refused class lie in their ranges. -/
def Profile.storable (g : Profile) : Prop :=
  g.allowed ≠ [] ∧ (∀ r, g.forced = some r → r ∈ g.allowed) ∧ g.pathOffset ≤ 255 ∧ g.nearBlank ≤ 63
    ∧ 8 ≤ g.threshold ∧ g.threshold ≤ 512 ∧ g.slope ≤ 63 ∧ 1 ≤ g.degradeThreshold
    ∧ g.degradeThreshold ≤ 65535 ∧ g.internalPriority ≤ 3

/-- A profile with its fields of the clamped class brought into their ranges (R3, R5). -/
def Profile.intoRange (g : Profile) : Profile :=
  { g with
    nvp := max 500 (min 900 g.nvp)
    verifyWindow := max 100 (min 5000 g.verifyWindow)
    backoffTime := max 1000 (min 60000 g.backoffTime)
    surveyInterval := max 10 (min 3600 g.surveyInterval)
    driftTolerance := max 1 (min 1000 g.driftTolerance)
    magnitudeTolerance := max 1 (min 1023 g.magnitudeTolerance) }

/-- A plan entry record that passes the checks of R59 for an index (its presence bytes: log 19). -/
def planAcceptable (index : Nat) (b : List Byte) : Prop :=
  index < 16 ∧ byteAt b 0 ≤ 1 ∧ (index = 0 → byteAt b 0 = 1) ∧ 1 ≤ byteAt b 7 ∧ byteAt b 7 ≤ 5
    ∧ (∀ k, k < byteAt b 7 → (∃ r : Rate, r.code = byteAt b (8 + 4 * k)) ∧ 1 ≤ byteAt b (9 + 4 * k)
      ∧ byteAt b (9 + 4 * k) ≤ 8)
    ∧ (∀ j k, j < k → k < byteAt b 7 → byteAt b (8 + 4 * j) ≠ byteAt b (8 + 4 * k))
    ∧ (index ≠ 0 → byteAt b 1 = 1 ∧ 1 ≤ natAt b 2 2 ∧ natAt b 2 2 ≤ 4000 ∧ byteAt b 4 = 1
      ∧ natAt b 5 2 < 512)

/-- The entry that a plan entry record gives, its margins clamped (R57, R60). -/
def PlanEntry.storedFrom (e : PlanEntry) (index : Nat) (b : List Byte) : Prop :=
  e.inUse = (byteAt b 0 == 1)
    ∧ (index = 0 → e.maxLength = none ∧ e.tolerated = none)
    ∧ (index ≠ 0 → e.maxLength = some (natAt b 2 2)
      ∧ e.tolerated = some (FaultClass.all.filter fun k => (natAt b 5 2).testBit k.severity))
    ∧ e.rates.length = byteAt b 7
    ∧ ∀ k x, e.rates[k]? = some x → x.rate.code = byteAt b (8 + 4 * k)
      ∧ x.limit = byteAt b (9 + 4 * k) ∧ x.margin = max (-100) (min 300 (intAt b (10 + 4 * k)))

/-- A geometry that passes check 1 of R127. -/
def Geometry.allowed (g : Geometry) : Prop :=
  ((g.distanceBins = 16 ∧ g.amplitudeBins = 16) ∨ (g.distanceBins = 32 ∧ g.amplitudeBins = 8)
    ∨ (g.distanceBins = 64 ∧ g.amplitudeBins = 4)) ∧ 100 ≤ g.reach ∧ g.reach ≤ 6000

/-- The geometry that four bytes name (R181). -/
def Geometry.ofRecord (b : List Byte) : Geometry := ⟨byteAt b 0, byteAt b 1, natAt b 2 2⟩

/-- A requester slot record that passes the checks of R167. -/
def requesterAcceptable (b : List Byte) : Prop :=
  1 ≤ byteAt b 0 ∧ byteAt b 0 ≤ 7 ∧ byteAt b 1 ≤ 1 ∧ byteAt b 2 ≤ 1 ∧ byteAt b 9 ≤ 2 ∧ byteAt b 22 ≤ 3

/-- The requester slot that a record gives, with its role (R153, R180). -/
def Requester.ofRecord (b : List Byte) (r : Role) : Requester where
  inUse := byteAt b 1 == 1
  address := if byteAt b 2 = 1 then none else some (BitVec.ofNat 48 (natAt b 3 6))
  role := r
  readSet := portSetAt b 10
  disturbSet := portSetAt b 16
  priority := byteAt b 22

/-- A station record that passes check 2 of R157. -/
def stationAcceptable (b : List Byte) : Prop :=
  byteAt b 0 % 2 = 0 ∧ 0x0600 ≤ natAt b 6 2 ∧ byteAt b 8 ≤ 1 ∧ byteAt b 15 ≤ 47 ∧ 10 ≤ natAt b 16 2
    ∧ natAt b 16 2 ≤ 1000 ∧ 1 ≤ byteAt b 18 ∧ byteAt b 18 ≤ 64 ∧ 100 ≤ natAt b 19 2
    ∧ natAt b 19 2 ≤ 10000

/-- The station that a record gives, with its notice slot (R156, R180). -/
def Station.ofRecord (b : List Byte) (slot : Port) : Station where
  address := BitVec.ofNat 48 (natAt b 0 6)
  ethertype := BitVec.ofNat 16 (natAt b 6 2)
  noticeDestination := if byteAt b 8 = 1 then some (BitVec.ofNat 48 (natAt b 9 6)) else none
  noticeSlot := slot
  holdoff := natAt b 16 2
  starvationLimit := byteAt b 18
  holdLimit := natAt b 19 2

/-! ### Training (R29 to R31) -/

/-- Each of the five timers runs only in its link state (R31). -/
def Training.timersFit (t : Training) : Prop :=
  (t.exchangeTimer.isSome → t.link = .exchange) ∧ (t.attemptTimer.isSome → t.link = .train)
    ∧ (t.verifyTimer.isSome → t.link = .verify) ∧ (t.degradeTimer.isSome → t.link = .up)
    ∧ (t.backoffTimer.isSome → t.link = .backoff)

/-- A plan entry lists at most 5 rates, and its attempt limits are at most 8 (R57). -/
def PlanEntry.limitsFit (e : PlanEntry) : Prop := e.rates.length ≤ 5 ∧ ∀ r ∈ e.rates, r.limit ≤ 8

/-- The rate list of every plan entry fits (R57). -/
def State.limitsFit (s : State) : Prop := ∀ i : Fin 16, (s.plan[i]).limitsFit

/-- The history holds at most 8 records, the degrade window count is at most 65535 and the attempt counter at
most 8, and the rate list of the snapshot fits (R29, R30, R48, R57). -/
def Training.bounded (t : Training) : Prop :=
  t.history.length ≤ 8 ∧ t.degradeCount ≤ Config.wordCeiling ∧ t.attempts ≤ 8
    ∧ ∀ x, t.snapshot = some x → x.entry.limitsFit

/-- The timers of every port fit its link state (R31). -/
def State.timersFit (s : State) : Prop := ∀ p, (s.training p).timersFit

/-! ### Counters and events (R25, R27, R159, R170) -/

/-- The counters of a port within 32 bits, and at most 64 forwarded frames waiting (R25, R27). -/
def Traffic.bounded (t : Traffic) : Prop :=
  t.toLine ≤ Config.trafficCeiling ∧ t.toSwitch ≤ Config.trafficCeiling
    ∧ t.droppedNotUp ≤ Config.trafficCeiling ∧ t.badCheck ≤ Config.trafficCeiling
    ∧ t.diverted ≤ Config.trafficCeiling ∧ t.forwardedWaiting ≤ Config.forwardedPlaces

/-- A present kind counts 1 to 15 (R170). -/
def countFits (n : Option Nat) : Prop := ∀ k, n = some k → 1 ≤ k ∧ k ≤ Config.occurrenceCeiling

/-- Every occurrence count of a port's set lies within 1 and 15 (R170). -/
def PortEvents.countsFit (e : PortEvents) : Prop :=
  countFits e.linkUp ∧ countFits e.linkDown ∧ countFits (e.trainExhausted.map ExhaustedCount.count)
    ∧ countFits e.noCommonRate ∧ countFits (e.degraded.map DegradedCount.count)
    ∧ countFits (e.cableFault.map SequencedCount.count) ∧ countFits (e.cableDrift.map SequencedCount.count)
    ∧ countFits e.frontEndFault

/-- Every occurrence count of the device set lies within 1 and 15 (R170). -/
def DeviceEvents.countsFit (e : DeviceEvents) : Prop := countFits e.startUp ∧ countFits e.imageRejected

/-- The three discard counters lie within 16 bits, and the starvation limit is at most 64 (R156, R159). -/
def Supervision.bounded (v : Supervision) : Prop :=
  v.unknownSource ≤ Config.wordCeiling ∧ v.malformed ≤ Config.wordCeiling
    ∧ v.noReplySlot ≤ Config.wordCeiling ∧ v.station.starvationLimit ≤ 64

/-- Every count that the spec bounds lies within its bounds: those of the ports, the device events, the discard
counters, and the passed-over counters, at most 64 as the starvation limit is (R81). The rate lists of the
plan table, which bound the attempt counters to come, stand with them. -/
def State.countsBounded (s : State) : Prop :=
  (∀ p, (s.training p).bounded ∧ (s.traffic p).bounded ∧ (s.port p).events.countsFit)
    ∧ s.notice.device.countsFit ∧ s.supervision.bounded ∧ s.limitsFit
    ∧ ∀ e, (s.engine e).passedOver ≤ 64

/-! ### The queue, the bundle groups, the plan, the signature table -/

/-- The diagnostic queue never holds more than 32 entries (R75). -/
def State.queueWithinCapacity (s : State) : Prop := s.queue.length ≤ Config.queuePlaces

/-- The entries of the queue stand oldest first, no two with one number, and every number lies below the next
one to be given (R71; log 24). -/
def State.numbered (s : State) : Prop :=
  (s.queue.map QueueEntry.serial).Pairwise (· < ·) ∧ ∀ x ∈ s.queue, x.serial < s.admissions

/-- No port is in TRAIN while a test on another port of its bundle group holds that group's capture slot
(R83). -/
def State.captureExclusive (s : State) : Prop :=
  ∀ p, s.link p = .train → ∀ h, (s.group (s.groupOf p)).slot = some h → h.port = p

/-- Entry 0 is in use, and the cable class of every port names an entry that is in use (R59, R62). -/
def State.classesInUse (s : State) : Prop :=
  (s.plan[(0 : Fin 16)]).inUse = true ∧ ∀ p, (s.plan[(s.port p).cableClass]).inUse = true

/-- The lock index is at most 1024 and a multiple of 16 (R130). -/
def State.lockFits (s : State) : Prop := s.signatures.lock ≤ 1024 ∧ s.signatures.lock % 16 = 0

/-- The lock index has not risen, and no entry at or above it has changed (R130). -/
def LockKept (s t : State) : Prop :=
  t.signatures.lock ≤ s.signatures.lock
    ∧ ∀ i : Fin 1024, s.signatures.lock ≤ i.val → t.signatures.entries[i] = s.signatures.entries[i]

/-! ### The load (R175) -/

/-- A port at rest: OFF, with no timer, no survey, no energy, class 0, and its line mode OPEN. -/
def PortState.atRest (x : PortState) : Prop :=
  x.training = Training.atReset ∧ x.survey = SurveyRecord.atReset ∧ x.cableClass = 0 ∧ x.mode = .openMode

/-- While the load is in progress every port, engine and bundle group is at rest, the queue is empty, and
no request is accepted (R175). -/
def State.restsWhileLoading (s : State) : Prop :=
  s.loading = true →
    (∀ p, (s.port p).atRest) ∧ (∀ e, s.engine e = Engine.atReset) ∧ (∀ g, s.group g = BundleGroup.atReset)
      ∧ s.queue = [] ∧ s.due = Due.none ∧ (∀ i, s.slot i = none) ∧ s.supervision.requests = []
      ∧ s.supervision.accepting = false

/-- A section of a kind has left alone what it does not carry: the other tables, and all that the image cannot
set. -/
def SectionLeaves (kind : SectionKind) (s t : State) : Prop :=
  t.startUp = s.startUp ∧ t.pending = s.pending ∧ t.quads = s.quads ∧ t.queue = s.queue
    ∧ t.admissions = s.admissions ∧ t.engines = s.engines ∧ t.groups = s.groups ∧ t.notice = s.notice
    ∧ t.sequence = s.sequence ∧ t.outputs = s.outputs ∧ t.due = s.due ∧ t.arbiter = s.arbiter
    ∧ t.supervision.station = s.supervision.station ∧ t.supervision.stationSet = s.supervision.stationSet
    ∧ t.supervision.accepting = s.supervision.accepting ∧ t.supervision.slots = s.supervision.slots
    ∧ t.supervision.requests = s.supervision.requests ∧ t.signatures.geometry = s.signatures.geometry
    ∧ t.signatures.lock = s.signatures.lock
    ∧ (kind ≠ .plan → t.plan = s.plan)
    ∧ (kind ≠ .requesters → t.supervision.requesters = s.supervision.requesters)
    ∧ (kind ≠ .signatures → t.signatures.entries = s.signatures.entries)
    ∧ ∀ p, t.port p = { s.port p with profile := t.profile p }
      ∧ (kind ≠ .profiles → t.profile p = s.profile p)

/-- A section of records that each name one item of a table: every item named takes its record's value, no
other item changes, nor anything beside the table, and a record that the write would refuse, or an item named
twice, refuses the section (R178). -/
def SectionTable {K V : Type} (s : State) (kind : SectionKind) (decode : List Byte → Option (K × V))
    (read : State → K → Option V) : Prop :=
  (∀ (bs : List (List Byte)) (xs : List (K × V)), bs.map decode = xs.map some →
    ((xs.map Prod.fst).Nodup → ∃ t, s.applySection kind bs = some t
      ∧ SectionLeaves kind s t ∧ (∀ x ∈ xs, read t x.1 = some x.2)
      ∧ ∀ k, k ∉ xs.map Prod.fst → read t k = read s k)
    ∧ (¬ (xs.map Prod.fst).Nodup → s.applySection kind bs = none))
  ∧ ∀ bs : List (List Byte), none ∈ bs.map decode → s.applySection kind bs = none

/-! ### Layouts (R180) -/

/-- The bytes hold each field from its offset on. -/
def Holds (b : List Byte) (fields : List (Nat × List Byte)) : Prop :=
  ∀ x ∈ fields, (b.drop x.1).take x.2.length = x.2

/-- The part has just been reset (R175). -/
def State.justReset (t : State) : Prop :=
  ∃ straps causes progress pending arbiter outputs,
    t = State.atReset straps causes progress pending arbiter outputs

end Sys2Proof.Machine
end

