-- ==== Sys2Proof/Certificates/Slice0/Obligations.lean ====
section
/-! DEFINITION. The statements about the LS48, for the provers: the step and what every step keeps, the
training controllers, resets and the load, quads, measurements, the queue, traffic, the requests, the arithmetic,
and what the part shows and in which formats. -/

section Statements

open Sys2Proof Sys2Proof.Machine

/-! ### The step and what every step keeps -/

/-- A step takes the event at the front of the queue, on the state with the queue's rest; with nothing
waiting the part idles (log 2: the model's choice). -/
def Obligations.StepTakesFrontEvent : Prop :=
  (∀ (c : Instr) (rest : List Instr) (s : State), s.pending = c :: rest →
    step s = exec c { s with pending := rest })
  ∧ ∀ s : State, s.pending = [] → step s = .next s

/-- Every event completes in every state, adds no event to the queue, and leaves nothing owed (log 17). -/
def Obligations.EveryEventCompletes : Prop :=
  ∀ (i : Instr) (s : State), ∃ t, exec i s = .next t ∧ t.pending = s.pending
    ∧ (s.due = Due.none → t.due = Due.none)

/-- Closing an event (log 17: the model's reading of section 5.4 of 00_scope) changes no profile, class, stored
result, traffic counter, table, quad or load, and reads no event from the queue: what it may change are link
states, engines, capture slots, queue entries and replies. -/
def Obligations.ClosingKeepsTables : Prop :=
  ∀ before s : State, let t := State.closeEvent before s
    t.pending = s.pending ∧ t.startUp = s.startUp ∧ t.quads = s.quads ∧ t.plan = s.plan
      ∧ t.signatures = s.signatures ∧ t.sequence = s.sequence
      ∧ t.supervision.requesters = s.supervision.requesters
      ∧ t.supervision.station = s.supervision.station
      ∧ t.supervision.stationSet = s.supervision.stationSet
      ∧ t.supervision.accepting = s.supervision.accepting
      ∧ t.supervision.requests = s.supervision.requests
      ∧ ∀ p, t.profile p = s.profile p ∧ (t.port p).cableClass = (s.port p).cableClass
        ∧ (t.port p).report = (s.port p).report ∧ (t.port p).summary = (s.port p).summary
        ∧ (t.port p).baseline = (s.port p).baseline
        ∧ (t.traffic p).toLine = (s.traffic p).toLine ∧ (t.traffic p).toSwitch = (s.traffic p).toSwitch
        ∧ (t.traffic p).droppedNotUp = (s.traffic p).droppedNotUp
        ∧ (t.traffic p).badCheck = (s.traffic p).badCheck ∧ (t.traffic p).diverted = (s.traffic p).diverted

/-- R40, R78, R83, R85: what the close of an event carries out (log 17: the model's reading). A grant selection
that was owed leaves no entry that may be granted. A port stands in PENDING_TRAIN in an open group only if it
stood so before and was owed no training entry: what was owed has been made, and the members of a group that
the clearing of its reservation opened have gone again to training entry. No reservation is made; one that
stands, where a look was owed, has a WAITING TEST; one that is gone found its slot taken or no TEST waiting.
The release of a capture slot calls for a selection and, with no reservation standing, owes each member in
PENDING_TRAIN a training entry. Every step keeps a queue numbered. -/
def Obligations.ClosingSettles : Prop :=
  (∀ before u : State, u.numbered →
    let t := State.closeEvent before u
    let waitsIn (x : QueueEntry) (g : Group) : Prop :=
      x.state = .waiting ∧ x.isSurvey = false ∧ t.groupOf x.port = g
    (u.due.select = true → ∀ e, ∀ x ∈ t.queue, ¬ t.mayGrant e x)
    ∧ (∀ p, t.link p = .pendingTrain → t.openGroup p →
      u.link p = .pendingTrain ∧ u.openGroup p ∧ p ∉ u.due.reentry)
    ∧ (∀ g, (t.group g).reserved = true → (u.group g).reserved = true
      ∧ (u.due.reservations = true → ∃ x ∈ t.queue, waitsIn x g))
    ∧ ∀ g, (u.group g).reserved = true → (t.group g).reserved = false →
      (t.group g).slot ≠ none ∨ ∀ x ∈ t.queue, ¬ waitsIn x g)
  ∧ ∀ (s : State) (g : Group),
    let freed := (s.updGroup g fun x => { x with slot := none }).oweSelection
    ((s.group g).reserved = true → s.releaseSlot g = freed)
    ∧ ((s.group g).reserved = false → s.releaseSlot g
      = freed.oweReentry (allPorts.filter fun p => s.groupOf p == g && s.link p == .pendingTrain))

/-- R71, R75: the diagnostic queue never holds more than 32 entries, and they stand in the order of their
admission, each under its own number (log 24: the model numbers them without a bound). -/
def Obligations.QueueCapacityKept : Prop :=
  ∀ s t : State, step s = .next t →
    (s.queueWithinCapacity → t.queueWithinCapacity) ∧ (s.numbered → t.numbered)

/-- R31: each of a port's five timers runs only in its link state. -/
def Obligations.TimersFitKept : Prop :=
  ∀ s t : State, s.timersFit → step s = .next t → t.timersFit

/-- R25, R27, R29, R30, R57, R81, R159, R170: every count stays within its bounds: traffic counters, frames
waiting, attempt and degrade counts, histories, occurrence counts, discard counters and the passed-over
counters, which the starvation limit keeps at 64 or below. -/
def Obligations.CountsBoundedKept : Prop :=
  ∀ s t : State, s.countsBounded → step s = .next t → t.countsBounded

/-- R175: while the load is in progress the part is at rest. -/
def Obligations.RestWhileLoadingKept : Prop :=
  ∀ s t : State, s.restsWhileLoading → step s = .next t → t.restsWhileLoading

/-- R83: no port is in TRAIN while a test on another port of its group holds the group's capture slot. -/
def Obligations.CaptureExclusiveKept : Prop :=
  ∀ s t : State, s.restsWhileLoading → s.captureExclusive → step s = .next t → t.captureExclusive

/-- R62: the cable class of every port names an entry in use. -/
def Obligations.ClassesInUseKept : Prop :=
  ∀ s t : State, s.restsWhileLoading → s.classesInUse → step s = .next t → t.classesInUse

/-- R130: between two resets the lock index never rises, and no entry at or above it changes; it stays a
multiple of 16, at most 1024. -/
def Obligations.LockKeptBetweenResets : Prop :=
  ∀ s t : State, s.lockFits → step s = .next t →
    t.lockFits ∧ (s.loading = false → t.justReset ∨ LockKept s t)


/-! ### Shared operations -/

/-- R1, R12: the reads and writes of one item that the statements name, and the notes of what an event owes
(log 17: the model's own field); a command is sent, and sets the line mode by its row, only while the quad is
AVAILABLE. -/
def Obligations.CommandsSent : Prop :=
  (∀ (s : State) (p : Port),
    s.port p = s.ports[p] ∧ s.profile p = (s.port p).profile ∧ s.groupOf p = (s.profile p).group
    ∧ s.training p = (s.port p).training ∧ s.link p = (s.training p).link ∧ s.mode p = (s.port p).mode
    ∧ s.traffic p = (s.port p).traffic ∧ s.survey p = (s.port p).survey ∧ s.quadUp p = s.quads[quadOf p]
    ∧ (quadOf p).val = p.val / 4 ∧ (engineOf p).val = p.val / 4 % 4
    ∧ (∀ f, s.updPort p f = { s with ports := s.ports.set p (f (s.port p)) })
    ∧ (∀ f, s.updTraining p f = s.updPort p fun x => { x with training := f x.training })
    ∧ (∀ f, s.updTraffic p f = s.updPort p fun x => { x with traffic := f x.traffic })
    ∧ (∀ f, s.updSurvey p f = s.updPort p fun x => { x with survey := f x.survey })
    ∧ ∀ m, s.setMode p m = s.updPort p fun x => { x with mode := m })
  ∧ (∀ (s : State) (e : EngineId) (g : Group) (i : SlotId) (n : Nat) (o : Output) (ports : List Port),
    s.engine e = s.engines[e] ∧ s.group g = s.groups[g] ∧ s.slot i = s.supervision.slots[i]
    ∧ (s.loading = true ↔ s.startUp.progress ≠ .complete)
    ∧ (s.pinHeld = true ↔ s.startUp.progress = .awaitingRelease)
    ∧ (∀ f, s.updEngine e f = { s with engines := s.engines.set e (f (s.engine e)) })
    ∧ (∀ f, s.updTest e f = s.updEngine e fun x =>
      { x with context := x.context.map fun m => { m with test := m.test.map f } })
    ∧ (∀ f, s.updGroup g f = { s with groups := s.groups.set g (f (s.group g)) })
    ∧ (∀ f, s.updSupervision f = { s with supervision := f s.supervision })
    ∧ (∀ r, s.setSlot i r = s.updSupervision fun v => { v with slots := v.slots.set i r })
    ∧ (∀ f, s.updEntry n f = { s with queue := s.queue.map fun x => if x.serial = n then f x else x })
    ∧ s.emit o = { s with outputs := s.outputs ++ [o] }
    ∧ s.oweSelection = { s with due := { s.due with select := true } }
    ∧ s.oweReservations = { s with due := { s.due with reservations := true } }
    ∧ s.oweReentry ports = { s with due := { s.due with reentry := s.due.reentry ++ ports } })
  ∧ ∀ (s : State) (p : Port) (cmd : LaneCommand),
    (s.quadUp p = false → s.send p cmd = s)
    ∧ (s.quadUp p = true → ∃ m, s.send p cmd = (s.setMode p m).emit (.command p cmd)
        ∧ match cmd with
          | .sendAbility _ | .startTrain _ | .stopTrain => m = s.mode p
          | .silence => m = .silencing
          | .pulseCapture pulsed listening _ => m = .capturing pulsed listening
          | .readTaps => m = .readingTaps
          | .release => m = .openMode)

/-- R170, R171: a raised event joins its set, its count saturating at 15 and its flags or sequence number as
R170 says; the notice unit leaves IDLE for HOLDING if a notice destination is present. -/
def Obligations.EventsRaised : Prop :=
  (∀ (s : State) (p : Port) (e : PortEvent) (d : DeviceEvent),
    s.raise p e = (s.updPort p fun x => { x with events := x.events.record e }).woken
    ∧ s.raiseDevice d = { s with notice := { s.notice with device := s.notice.device.record d } }.woken)
  ∧ (∀ e : DeviceEvents, e.record .startUp = { e with startUp := occurrence e.startUp }
      ∧ e.record .imageRejected = { e with imageRejected := occurrence e.imageRejected })
  ∧ (∀ k : Nat, occurrence (some k) = some (min (k + 1) 15)) ∧ occurrence none = some 1
  ∧ ∀ (e : PortEvents) (k : Nat) (q a c d : Bool) (n m : BitVec 32),
      (e.record .linkUp = { e with linkUp := occurrence e.linkUp })
      ∧ (e.record .linkDown = { e with linkDown := occurrence e.linkDown })
      ∧ (e.record .noCommonRate = { e with noCommonRate := occurrence e.noCommonRate })
      ∧ (e.record .frontEndFault = { e with frontEndFault := occurrence e.frontEndFault })
      ∧ (e.trainExhausted = none →
          e.record (.trainExhausted q) = { e with trainExhausted := some ⟨1, q⟩ })
      ∧ (e.trainExhausted = some ⟨k, a⟩ →
          e.record (.trainExhausted q) = { e with trainExhausted := some ⟨min (k + 1) 15, a || q⟩ })
      ∧ (e.degraded = none → e.record .degradedErrors = { e with degraded := some ⟨1, true, false⟩ }
          ∧ e.record .degradedProfile = { e with degraded := some ⟨1, false, true⟩ })
      ∧ (e.degraded = some ⟨k, c, d⟩ →
          e.record .degradedErrors = { e with degraded := some ⟨min (k + 1) 15, true, d⟩ }
          ∧ e.record .degradedProfile = { e with degraded := some ⟨min (k + 1) 15, c, true⟩ })
      ∧ (e.cableFault = none → e.record (.cableFault n) = { e with cableFault := some ⟨1, n⟩ })
      ∧ (e.cableFault = some ⟨k, m⟩ →
          e.record (.cableFault n) = { e with cableFault := some ⟨min (k + 1) 15, n⟩ })
      ∧ (e.cableDrift = none → e.record (.cableDrift n) = { e with cableDrift := some ⟨1, n⟩ })
      ∧ (e.cableDrift = some ⟨k, m⟩ →
          e.record (.cableDrift n) = { e with cableDrift := some ⟨min (k + 1) 15, n⟩ })

/-- R35, R36, R50: an entry to EXCHANGE, or the forced start in its place; the snapshot is of the entry that the
port's cable class names, the ability is what the profile allows, the entry lists and no demotion removes. A
cycle with nothing left to try makes an EXHAUSTED record and enters BACKOFF; with auto-diagnosis on and no
single test of the port waiting, an internal TEST is offered; TRAIN_EXHAUSTED follows, flagged when the offer
was refused. What precedes the forced start and BACKOFF in STOP_TRAIN is logs 13 and 14: the model's
reading. -/
def Obligations.ExchangeAndExhaustion : Prop :=
  (∀ (s : State) (again : Bool) (p : Port),
    let x := s.nextSnapshot p
    let ability := s.triable p (s.training p).demoted
    ((s.profile p).forced = none → ability ≠ [] →
      s.beginExchange again p = s.leavingTrain p ((s.updTraining p fun t =>
        { t.enter .exchange with
          snapshot := some x
          attempts := 0
          target := none
          ability := ability
          exchangeTimer := some 1500 }).send p (.sendAbility ability)))
    ∧ ((s.profile p).forced = none → ability = [] →
      s.beginExchange again p = (s.updTraining p fun t =>
        { t with snapshot := some x, attempts := 0, target := none, ability := [] }).exhaust again p)
    ∧ ∀ r, (s.profile p).forced = some r →
      let aimed := s.updTraining p fun t => { t with snapshot := some x, attempts := 0, target := some r }
      (r ∈ (s.training p).demoted → s.beginExchange again p = aimed.exhaust again p)
      ∧ (r ∉ (s.training p).demoted → s.beginExchange again p = aimed.trainingEntry again p))
  ∧ ∀ (s : State) (again : Bool) (p : Port),
    let u := s.leavingTrain p ((s.updTraining p fun t =>
      { (t.noted (t.cycleRecord .exhausted)).enter .backoff with
        backoffTimer := some (s.profile p).backoffTime }).stopping again p)
    let offered : QueueEntry :=
      { kind := .test ⟨[.a, .b, .c, .d], 16, true, false, none⟩
        requester := 0
        external := none
        port := p
        adjusted := false
        priority := (s.profile p).internalPriority
        urgent := false
        serial := 0
        state := .waiting
        cancelMark := false }
    ((s.profile p).autoDiagnosis = false ∨ s.testWaiting p = true →
      s.exhaust again p = u.raise p (.trainExhausted false))
    ∧ ((s.profile p).autoDiagnosis = true → s.testWaiting p = false →
      (s.queue.length < 32 → s.exhaust again p = (u.enqueue offered).raise p (.trainExhausted false))
      ∧ (32 ≤ s.queue.length → s.exhaust again p = u.raise p (.trainExhausted true)))
    ∧ (s.testWaiting p = true ↔ ∃ x ∈ s.queue, x.port = p ∧ x.state = .waiting
      ∧ ∃ o, x.kind = .test o ∧ o.sweep = none)

/-- R34, R39, R41: training entry goes to TRAIN while the group's capture slot is free and no reservation
stands, and to PENDING_TRAIN otherwise, with STOP_TRAIN when it leaves EXCHANGE (log 13: the model's reading);
an entry to LISTEN clears the cycle, and with energy present goes on as at an ENERGY_ON. A link state is
entered with the five timers stopped (R31). -/
def Obligations.TrainingAndListenEntry : Prop :=
  (∀ (t : Training) (l : LinkState), t.enter l =
    { t with
      link := l
      exchangeTimer := none
      attemptTimer := none
      verifyTimer := none
      degradeTimer := none
      backoffTimer := none })
  ∧ (∀ (s : State) (again : Bool) (p : Port) (r : Rate), (s.training p).target = some r →
    (s.openGroup p →
      s.trainingEntry again p = (s.updTraining p fun t =>
        { t.enter .train with margin := none, attemptTimer := some 2500 }).send p (.startTrain r))
    ∧ (¬ s.openGroup p →
      s.trainingEntry again p = s.leavingTrain p
        ((s.updTraining p fun t => t.enter .pendingTrain).stopping again p)))
  ∧ ∀ (s : State) (p : Port),
    let u := s.leavingTrain p (s.updTraining p Training.listening)
    ((s.training p).energy = false → s.enterListen p = u)
    ∧ ((s.training p).energy = true → s.enterListen p = u.beginExchange false p)

/-- R49, R111, R150: a departure from UP raises LINK_DOWN, clears the current rate, stops the degrade window
timer and returns the survey record to rest; a waiting survey is answered PORT_BUSY, and one in flight ends
with the cause, its line mode OPEN and its engine IDLE. -/
def Obligations.DepartureFromUp : Prop :=
  ∀ (s : State) (p : Port) (cause : ResultCode),
    let u := (s.updPort p fun x =>
      { x with
        training := { x.training with current := none, degradeTimer := none }
        survey := ⟨.idle, none, none, false⟩ }).raise p .linkDown
    (s.surveyEntry p = none → s.departUp p cause = u)
    ∧ ∀ x, s.surveyEntry p = some x →
      (x.state = .waiting → s.departUp p cause = u.finishEntry x .portBusy [])
      ∧ ∀ e, x.state = .inFlight e →
        s.departUp p cause = (((u.setMode p .openMode).updEngine e fun y =>
          { y with state := .idle, phaseTimer := none, context := none }).oweSelection).finishEntry x cause []

/-! ### Training reports and timers -/

/-- R14: a training report changes nothing while the image loads, in SILENCING, SILENT and CAPTURING, and from an
UNAVAILABLE quad (log 26: the model's reading); one that reaches its port in a link state that it does not
concern changes nothing (R37, R42, R43, R46, R51). -/
def Obligations.ReportsWithoutEffect : Prop :=
  ∀ (s : State) (p : Port) (rates : List Nat) (margin : Int) (count : Nat),
    (s.reportReaches p = true ↔
      s.loading = false ∧ s.quadUp p = true ∧ (s.mode p = .openMode ∨ s.mode p = .readingTaps))
    ∧ (s.due = Due.none → s.reportReaches p = false →
      ∀ i ∈ trainingReports p rates margin count, exec i s = .next s)
    ∧ (s.hears p →
      (s.link p ≠ .exchange → exec (.partnerAbility p rates) s = .next s)
      ∧ (s.link p ≠ .train → exec (.trainDone p margin) s = .next s ∧ exec (.trainFail p) s = .next s)
      ∧ (s.link p ≠ .verify → s.link p ≠ .up → exec (.marginReport p margin) s = .next s)
      ∧ (s.link p ≠ .up → exec (.symbolErrors p count) s = .next s))

/-- R33 to R35, R38, R40, R45, R49: ENERGY_ON and ENERGY_OFF in each link state. -/
def Obligations.EnergyReports : Prop :=
  ∀ (s : State) (p : Port), s.hears p →
    (s.link p = .listen →
      HasEffect (.energyOn p) s ((s.updTraining p fun t => { t with energy := true }).beginExchange false p))
    ∧ (s.link p ≠ .listen →
      exec (.energyOn p) s = .next (s.updTraining p fun t => { t with energy := true }))
    ∧ (s.link p = .off ∨ s.link p = .noLine ∨ s.link p = .listen ∨ s.link p = .held ∨ s.link p = .backoff →
      exec (.energyOff p) s = .next (s.updTraining p fun t => { t with energy := false }))
    ∧ (s.link p = .pendingTrain →
      exec (.energyOff p) s = .next (s.updTraining p fun t => { t.listening with energy := false }))
    ∧ (s.link p = .exchange →
      exec (.energyOff p) s
        = .next ((s.updTraining p fun t => { t.listening with energy := false }).send p .stopTrain))
    ∧ (s.link p = .verify →
      exec (.energyOff p) s
        = .next ((s.updTraining p fun t =>
          { (t.noted (t.attemptRecord .abandoned t.margin)).listening with energy := false }).send p .stopTrain))
    ∧ (s.link p = .train →
      HasEffect (.energyOff p) s
        (((s.updTraining p fun t =>
          { (t.noted (t.attemptRecord .abandoned t.margin)).listening with energy := false }).send p
            .stopTrain).oweSelection))
    ∧ (s.link p = .up →
      HasEffect (.energyOff p) s
        (((((s.updTraining p fun t => { t with energy := false }).departUp p .portBusy).send p
          .stopTrain).updTraining p Training.listening)))

/-- R37: the target is the first rate of the snapshot's list in local ability and in the partner's set; with
none, NO_COMMON_RATE and BACKOFF. -/
def Obligations.PartnerAbilityResolved : Prop :=
  ∀ (s : State) (p : Port) (rates : List Nat) (x : Snapshot), s.hears p → s.link p = .exchange →
    (s.training p).snapshot = some x →
    (∀ y before after, x.entry.rates = before ++ y :: after →
      (y.rate ∈ (s.training p).ability ∧ y.rate.mbps ∈ rates) →
      (∀ z ∈ before, ¬ (z.rate ∈ (s.training p).ability ∧ z.rate.mbps ∈ rates)) →
      HasEffect (.partnerAbility p rates) s
        ((s.updTraining p fun t => { t with target := some y.rate }).trainingEntry true p))
    ∧ ((∀ z ∈ x.entry.rates, ¬ (z.rate ∈ (s.training p).ability ∧ z.rate.mbps ∈ rates)) →
      exec (.partnerAbility p rates) s
        = .next (((s.updTraining p fun t =>
          { (t.noted (t.cycleRecord .noCommonRate)).enter .backoff with
            backoffTimer := some (s.profile p).backoffTime }).send p .stopTrain).raise p .noCommonRate))

/-- R30, R35, R41 to R44: a history keeps the newest eight records, each under the index of the snapshot in
force; an attempt is judged by its rate's figures
in the snapshot's list, and by limit 3 and margin 0 for a rate not in it; a margin at or above the minimum
takes the port from TRAIN to VERIFY under the profile's verify window; a TRAIN_DONE below it, a TRAIN_FAIL and
the expiry of the attempt timer each make their record and count one attempt; below the limit TRAIN restarts
at the same rate, and at the limit the rate is demoted. The STOP_TRAIN before a forced start is log 14: the
model's reading. -/
def Obligations.AttemptsJudged : Prop :=
  (∀ (h : List HistoryRecord) (r : HistoryRecord), h.length < 8 → pushHistory h r = h ++ [r])
  ∧ (∀ (h : List HistoryRecord) (a r : HistoryRecord), h.length = 7 → pushHistory (a :: h) r = h ++ [r])
  ∧ (∀ (set : RateSet) (r x : Rate), x ∈ RateSet.insert r set ↔ x = r ∨ x ∈ set)
  ∧ (∀ (t : Training) (x : Snapshot), t.snapshot = some x → t.planIndex = x.index.val)
  ∧ (∀ (t : Training) (x : Snapshot) (r : Rate), t.snapshot = some x → t.target = some r →
      (∀ y before after, x.entry.rates = before ++ y :: after → y.rate = r → r ∉ before.map PlanRate.rate →
        t.figures = (y.limit, y.margin))
      ∧ (r ∉ x.entry.rates.map PlanRate.rate → t.figures = (3, 0)))
  ∧ (∀ (s : State) (p : Port) (margin : Int), s.hears p → s.link p = .train →
    (s.training p).figures.2 ≤ margin →
      HasEffect (.trainDone p margin) s
        ((s.updTraining p fun t =>
          { t.enter .verify with
            margin := some margin
            verifyTimer := some (s.profile p).verifyWindow }).oweSelection))
  ∧ ∀ (s : State) (p : Port) (margin : Int) (r : Rate), s.link p = .train → (s.training p).target = some r →
    let restarted (t : Training) : Training :=
      { t.enter .train with attempts := t.attempts + 1, margin := none, attemptTimer := some 2500 }
    let lowMargin (t : Training) : Training :=
      t.noted (t.attemptRecord .lowMargin (some margin))
    let failed (t : Training) : Training := t.noted (t.attemptRecord .lowMargin none)
    let timedOut (t : Training) : Training := t.noted (t.attemptRecord .timeout none)
    ((s.training p).attempts + 1 < (s.training p).figures.1 →
      (s.hears p → margin < (s.training p).figures.2 →
        exec (.trainDone p margin) s
          = .next ((s.updTraining p fun t => restarted (lowMargin t)).send p (.startTrain r)))
      ∧ (s.hears p →
        exec (.trainFail p) s
          = .next ((s.updTraining p fun t => restarted (failed t)).send p (.startTrain r)))
      ∧ (s.ready → (s.training p).attemptTimer.isSome = true →
        exec (.attemptTimerExpiry p) s
          = .next ((s.updTraining p fun t => restarted (timedOut t)).send p (.startTrain r))))
    ∧ ((s.training p).figures.1 ≤ (s.training p).attempts + 1 →
      (s.hears p → margin < (s.training p).figures.2 →
        HasEffect (.trainDone p margin) s
          (((s.updTraining p fun t =>
            { (lowMargin t).demoting r with attemptTimer := none, margin := some margin }).send p
              .stopTrain).beginExchange false p))
      ∧ (s.hears p →
        HasEffect (.trainFail p) s
          (((s.updTraining p fun t => (failed t).demoting r).send p .stopTrain).beginExchange false p))
      ∧ (s.ready → (s.training p).attemptTimer.isSome = true →
        HasEffect (.attemptTimerExpiry p) s
          (((s.updTraining p fun t => (timedOut t).demoting r).send p .stopTrain).beginExchange false p)))

/-- R46, R48: a MARGIN_REPORT is judged in VERIFY and only stored in UP; in UP a SYMBOL_ERRORS count joins the
degrade window count, which saturates at 65535. The STOP_TRAIN before a forced start that a demotion leads to
is log 14: the model's reading. -/
def Obligations.LinkQualityReports : Prop :=
  ∀ (s : State) (p : Port) (margin : Int) (count : Nat), s.hears p →
    let lost (t : Training) : Training :=
      { t.noted (t.attemptRecord .verifyLost (some margin)) with margin := some margin }
    (s.link p = .up → exec (.marginReport p margin) s
      = .next (s.updTraining p fun t => { t with margin := some margin })
      ∧ exec (.symbolErrors p count) s
        = .next (s.updTraining p fun t => { t with degradeCount := min (t.degradeCount + count) 65535 }))
    ∧ (s.link p = .verify →
      ((s.training p).figures.2 ≤ margin → exec (.marginReport p margin) s
        = .next (s.updTraining p fun t => { t with margin := some margin }))
      ∧ (margin < (s.training p).figures.2 → (s.training p).attempts + 1 < (s.training p).figures.1 →
        HasEffect (.marginReport p margin) s
          (((s.updTraining p fun t => { lost t with attempts := t.attempts + 1 }).send p
            .stopTrain).trainingEntry false p))
      ∧ ∀ r, (s.training p).target = some r → margin < (s.training p).figures.2 →
        (s.training p).figures.1 ≤ (s.training p).attempts + 1 →
        HasEffect (.marginReport p margin) s
          (((s.updTraining p fun t => (lost t).demoting r).send p .stopTrain).beginExchange false p))

/-- R38, R47 to R49, R51, R144: the exchange timer's expiry makes a TIMEOUT record and enters EXCHANGE again;
the backoff timer's leads to LISTEN; the verify timer's makes a SUCCESS record and brings the port UP at its
target rate, with a fresh degrade window and no baseline, and the surveys of a port with survey on begin. At
the end of a degrade window the count is cleared and the window starts again below the threshold; at or above
it the current rate is demoted, DEGRADED is raised, and the port leaves UP for a new exchange or forced start
(STOP_TRAIN before it: log 14, the model's reading). -/
def Obligations.TrainingTimersExpire : Prop :=
  (∀ (s : State) (p : Port), s.ready →
    (s.link p = .exchange → (s.training p).exchangeTimer.isSome = true →
      HasEffect (.exchangeTimerExpiry p) s
        ((s.updTraining p fun t => t.noted (t.cycleRecord .timeout)).beginExchange true p))
    ∧ (s.link p = .backoff → (s.training p).backoffTimer.isSome = true →
      HasEffect (.backoffTimerExpiry p) s (s.enterListen p))
    ∧ (s.link p = .verify → (s.training p).verifyTimer.isSome = true →
      HasEffect (.verifyTimerExpiry p) s
        (((s.updPort p fun x =>
          { x with
            training :=
              { (x.training.noted (x.training.attemptRecord .success x.training.margin)).enter .up with
                current := x.training.target
                degradeCount := 0
                degradeTimer := some 1000 }
            baseline := none
            survey :=
              if x.profile.survey then
                { x.survey with
                  state := .counting
                  surveyTimer := some x.profile.surveyInterval
                  graceTimer := none }
              else { x.survey with state := .idle, surveyTimer := none, graceTimer := none } }).raise p
          .linkUp).oweSelection)))
  ∧ ∀ (s : State) (p : Port) (r : Rate), s.ready → s.link p = .up →
    (s.training p).degradeTimer.isSome = true → (s.training p).current = some r →
    ((s.training p).degradeCount < (s.profile p).degradeThreshold →
      exec (.degradeWindowExpiry p) s
        = .next (s.updTraining p fun t => { t with degradeCount := 0, degradeTimer := some 1000 }))
    ∧ ((s.profile p).degradeThreshold ≤ (s.training p).degradeCount →
      HasEffect (.degradeWindowExpiry p) s
        ((((((s.updTraining p fun t => { t with demoted := RateSet.insert r t.demoted }).raise p
          .degradedErrors).departUp p .portBusy).send p .stopTrain).beginExchange false p)))



/-! ### Resets and the load -/

/-- R175, R176: what each kind of reset makes of the part, and what the release of the reset pin starts;
a release of a pin that is not held does nothing (log 3: the model's choice), and
while the pin is held no other event does anything. R28: every frame being sent toward the switch core reaches
it with its bad mark set, and every frame handed to a line lane and not wholly sent is ended there and seen as
damaged; which ones these are, the newest of each port, is the event's operand (log 10: the model's choice).
POWER_ON under a held pin and a second assertion are log 20: the model's choices. -/
def Obligations.ResetsTakeEffect : Prop :=
  (allPorts.map Fin.val = List.range 48 ∧ ∀ s : State, s.cutFrames = allPorts.flatMap fun p =>
    match (s.traffic p).sending with
    | none => []
    | some f => [.toSwitch p f.bytes true (decide (f.source ≠ .forwarded))])
  ∧ (∀ (s : State) (unsent : List Port),
    let handed (p : Port) : List (List Byte) := s.outputs.flatMap fun o =>
      match o with
      | .toLine q bytes => if q = p then [bytes] else []
      | _ => []
    s.lineCuts unsent = allPorts.flatMap fun p =>
      ((handed p).drop ((handed p).length - unsent.count p)).map (Output.lineCut p))
  ∧ ∀ (s : State) (inputs : ResetInputs),
    let reset (causes : ResetCauses) (progress : LoadProgress) : State :=
      State.atReset inputs.straps causes progress s.pending s.arbiter
        (s.outputs ++ s.cutFrames ++ s.lineCuts inputs.unsent)
    (s.pinHeld = false →
      exec (.powerOnReset inputs) s = .next (reset ⟨true, false, false, false⟩ .firstPass)
      ∧ exec (.pinReset inputs) s = .next (reset { s.startUp.causes with pin := true } .awaitingRelease)
      ∧ exec .pinRelease s = .next s)
    ∧ (s.pinHeld = true →
      exec .pinRelease s = .next { s with startUp := { s.startUp with progress := .firstPass } }
      ∧ exec (.powerOnReset inputs) s = .next (reset ⟨true, false, false, false⟩ .awaitingRelease)
      ∧ ∀ i, i ≠ .pinRelease → (∀ x, i ≠ .powerOnReset x) → exec i s = .next s)

/-- R3, R17, R19, R25, R27, R29, R58, R62, R71, R94, R126, R135, R143, R153, R156, R160, R169 to R171, R176:
the values that every reset leaves; and the state after reset meets every invariant that the statements name,
and owes nothing. -/
def Obligations.ResetValues : Prop :=
  (∀ (straps : BitVec 4) (causes : ResetCauses) (progress : LoadProgress) (pending : List Instr)
    (arbiter : Nat) (outputs : List Output),
    let s := State.atReset straps causes progress pending arbiter outputs
    (∀ p : Port, (s.port p).profile =
        { enabled := true, group := (quadOf p).castLE (by decide), allowed := [.r10, .r100, .r1000, .r2500, .r5000]
          forced := none, nvp := 680, pathOffset := 24, nearBlank := 8, threshold := 48, slope := 4
          verifyWindow := 500, degradeThreshold := 100, backoffTime := 4000, autoDiagnosis := true
          internalPriority := 1, survey := true, surveyInterval := 300, driftTolerance := 20
          magnitudeTolerance := 64, protectLive := true }
      ∧ (s.port p).training = ⟨.off, none, [], [], none, 0, none, none, false, [], 0, none, none, none, none, none⟩
      ∧ (s.port p).traffic = ⟨[], none, 0, 0, 0, 0, 0⟩ ∧ (s.port p).mode = .openMode
      ∧ (s.port p).cableClass = 0 ∧ (s.port p).report = none ∧ (s.port p).summary = none
      ∧ (s.port p).baseline = none ∧ (s.port p).survey = ⟨.idle, none, none, false⟩
      ∧ (s.port p).events = ⟨none, none, none, none, none, none, none, none⟩)
    ∧ (∀ q : Quad, s.quads[q] = false)
    ∧ (∀ i : Fin 16,
        let rates : List PlanRate :=
          [⟨.r5000, 2, 30⟩, ⟨.r2500, 2, 30⟩, ⟨.r1000, 3, 20⟩, ⟨.r100, 3, 10⟩, ⟨.r10, 3, 0⟩]
        s.plan[i] = if i = 0 then ⟨true, none, none, rates⟩ else ⟨false, some 4000, some [.normal], rates⟩)
    ∧ s.queue = [] ∧ s.admissions = 0
    ∧ (∀ g, s.group g = ⟨none, false, none⟩) ∧ (∀ e, s.engine e = ⟨.idle, none, none, 0⟩)
    ∧ s.signatures.geometry = ⟨32, 8, 1600⟩ ∧ s.signatures.lock = 1024
    ∧ (∀ i : Fin 1024, s.signatures.entries[i] = none)
    ∧ s.sequence = 0
    ∧ (∀ r : RequesterId, s.supervision.requesters[r] =
        if r = 1 then ⟨true, none, .admin, BitVec.allOnes 48, BitVec.allOnes 48, 2⟩
        else ⟨false, none, .observer, 0, 0, 0⟩)
    ∧ s.supervision.station = ⟨0x024E505A00#40 ++ (0#4 ++ straps), 0x9A5C, none, 0, 100, 8, 2000⟩
    ∧ s.supervision.stationSet = false ∧ s.supervision.accepting = false ∧ s.supervision.requests = []
    ∧ (∀ i, s.slot i = none) ∧ s.supervision.unknownSource = 0 ∧ s.supervision.malformed = 0
    ∧ s.supervision.noReplySlot = 0
    ∧ s.notice = ⟨.idle, none, 0, ⟨none, none⟩⟩
    ∧ s.startUp.straps = straps ∧ s.startUp.causes = causes ∧ s.startUp.outcome = none
    ∧ s.startUp.applied = [])
  ∧ State.reset.queueWithinCapacity ∧ State.reset.numbered ∧ State.reset.timersFit ∧ State.reset.countsBounded
  ∧ State.reset.captureExclusive ∧ State.reset.classesInUse ∧ State.reset.lockFits
  ∧ State.reset.restsWhileLoading ∧ State.reset.ready

/-- R177: the six checks of the first pass in their order, each with the reason of its rejection; an image
that passes holds no section and is accepted, or goes on to the second pass. An image of length 0 whose header
sum is not 0 is BAD_SUM (log 38), and the bytes acknowledged are the event's operand (log 21): the model's
choices. -/
def Obligations.FirstPassJudged : Prop :=
  ∀ (s : State) (b : List Byte), s.due = Due.none → s.startUp.progress = .firstPass →
    let rejected (reason : RejectReason) : Prop :=
      HasEffect (.imageFirstPassCompletion b) s (s.rejectImage reason)
    let length := natAt b 8 4
    (b.length < 12 → rejected .noAcknowledge)
    ∧ (12 ≤ b.length → natAt b 0 4 ≠ 0xE2A14D08 → rejected .badMagic)
    ∧ (12 ≤ b.length → natAt b 0 4 = 0xE2A14D08 →
      (natAt b 4 2 ≠ 1 → rejected .badVersion)
      ∧ (natAt b 4 2 = 1 →
        (65536 < 12 + length → rejected .badLength)
        ∧ (12 + length ≤ 65536 →
          (b.length < 12 + length → rejected .noAcknowledge)
          ∧ (12 + length ≤ b.length →
            (((((b.drop 12).take length).map BitVec.toNat).sum % 65536 ≠ natAt b 6 2 → rejected .badSum)
            ∧ ((((b.drop 12).take length).map BitVec.toNat).sum % 65536 = natAt b 6 2 →
              (length = 0 → HasEffect (.imageFirstPassCompletion b) s (s.completeLoad .accepted))
              ∧ (length ≠ 0 → exec (.imageFirstPassCompletion b) s
                = .next { s with startUp := { s.startUp with progress := .secondPass length } })))))))

/-- R177, R178, R183: the section kinds with their codes, record sizes and "one record" marks; the records of a
section, one after another; the checks of one section of the second pass, and its application; the body's end
is the end of the last section. A section that does not fit what is left, or whose header fails a check, is
BAD_RECORD before its records are read (log 22: the model's reading and its choice); the bytes acknowledged
are the event's operand (log 21). -/
def Obligations.SectionJudged : Prop :=
  ([SectionKind.station, .requesters, .profiles, .plan, .geometry, .signatures, .lock].map
      (fun k => (k.code, k.recordSize, k.oneRecord))
    = [(1, 24, true), (2, 24, false), (3, 33, false), (4, 33, false), (5, 4, true), (6, 3, false), (7, 2, true)])
  ∧ (∀ (size count : Nat) (b : List Byte), (sectionRecords size count b).length = count
    ∧ ∀ k, k < count → (sectionRecords size count b)[k]? = some ((b.drop (k * size)).take size))
  ∧ ∀ (s : State) (b : List Byte) (left : Nat), s.due = Due.none → s.startUp.progress = .secondPass left →
    let rejected (reason : RejectReason) : Prop := HasEffect (.imageSectionRead b) s (s.rejectImage reason)
    let length := natAt b 2 2
    (left < 4 → rejected .badRecord)
    ∧ (4 ≤ left → b.length < 4 → rejected .noAcknowledge)
    ∧ (4 ≤ left → 4 ≤ b.length →
      ((∀ k : SectionKind, k.code ≠ byteAt b 0) → rejected .badRecord)
      ∧ ∀ k : SectionKind, k.code = byteAt b 0 →
        let whole : Prop :=
          if k.oneRecord then length = k.recordSize else length ≠ 0 ∧ k.recordSize ∣ length
        let records := sectionRecords k.recordSize (length / k.recordSize) (b.drop 4)
        (k ∈ s.startUp.applied ∨ left < 4 + length ∨ ¬ whole → rejected .badRecord)
        ∧ (k ∉ s.startUp.applied → 4 + length ≤ left → whole →
          (b.length < 4 + length → rejected .noAcknowledge)
          ∧ (4 + length ≤ b.length →
            (s.applySection k records = none → rejected .badRecord)
            ∧ ∀ t, s.applySection k records = some t →
              let joined : State :=
                { t with startUp := { t.startUp with applied := t.startUp.applied ++ [k] } }
              (left = 4 + length → HasEffect (.imageSectionRead b) s (joined.completeLoad .accepted))
              ∧ (4 + length < left → HasEffect (.imageSectionRead b) s
                { joined with
                  startUp := { joined.startUp with progress := .secondPass (left - (4 + length)) } }))))

/-- R178, R183: what one record of each section kind gives: the port, slot or index of its first bytes, in its
range, and the value that the write concerned stores, clamped as that write clamps it; it gives nothing exactly
where that write refuses (presence bytes of a plan entry: log 19, the model's reading). A section gives what
its records give; a record that gives nothing and a name that occurs twice refuse it. -/
def Obligations.SectionValues : Prop :=
  (∀ (b : List Byte) (p : Port) (g : Profile), profileRecord b = some (p, g) ↔
    p.val = byteAt b 0 ∧ ∃ given, Profile.fields (b.drop 1) = some given ∧ given.storable ∧ g = given.intoRange)
  ∧ (∀ (b : List Byte) (i : Fin 16) (e : PlanEntry), planRecord b = some (i, e) ↔
    i.val = byteAt b 0 ∧ planAcceptable i.val (b.drop 1) ∧ e.storedFrom i.val (b.drop 1))
  ∧ (∀ (b : List Byte) (i : Fin 1024) (g : Signature), signatureRecord b = some (i, g) ↔
    i.val = natAt b 0 2 ∧ g.cls.severity = byteAt b 2 / 16 ∧ g.cls ≠ .normal ∧ g.cls ≠ .beyondReach
      ∧ g.confidence = byteAt b 2 % 16)
  ∧ (∀ (b : List Byte) (i : RequesterId) (r : Requester), Requester.decode b = some (i, r) ↔
    i.val = byteAt b 0 ∧ requesterAcceptable b
      ∧ ∃ role : Role, role.code = byteAt b 9 ∧ r = Requester.ofRecord b role)
  ∧ (∀ (b : List Byte) (x : Station), Station.decode b = some x ↔
    stationAcceptable b ∧ ∃ slot : Port, slot.val = byteAt b 15 ∧ x = Station.ofRecord b slot)
  ∧ (∀ (b : List Byte) (g : Geometry), Geometry.decode b = some g ↔ g = Geometry.ofRecord b ∧ g.allowed)
  ∧ ∀ s : State,
    (∀ b, (natAt b 0 2 ≤ 1024 ∧ natAt b 0 2 % 16 = 0 →
        s.applySection .lock [b] = some { s with signatures := { s.signatures with lock := natAt b 0 2 } })
      ∧ (¬ (natAt b 0 2 ≤ 1024 ∧ natAt b 0 2 % 16 = 0) → s.applySection .lock [b] = none))
    ∧ (∀ b, s.applySection .geometry [b]
        = (Geometry.decode b).map fun g => { s with signatures := { s.signatures with geometry := g } })
    ∧ (∀ b, s.applySection .station [b]
        = (Station.decode b).map fun x => s.updSupervision fun v => { v with station := x })
    ∧ SectionTable s .profiles profileRecord (fun t p => some (t.profile p))
    ∧ SectionTable s .plan planRecord (fun t i => some t.plan[i])
    ∧ SectionTable s .requesters Requester.decode (fun t r => some t.supervision.requesters[r])
    ∧ SectionTable s .signatures signatureRecord (fun t i => t.signatures.entries[i])

/-- R178, R179: a rejection returns what the image could set to its built-in values, which are
those of a reset, and goes to load completion; load completion gives each port its class, places it by its quad and its admin, raises START_UP
and opens the supervision unit. -/
def Obligations.LoadEnds : Prop :=
  (∀ (s : State) (reason : RejectReason),
    let built := State.atReset s.startUp.straps s.startUp.causes .firstPass [] 0 []
    ∃ u : State,
    s.rejectImage reason = (u.raiseDevice .imageRejected).completeLoad (.rejected reason)
    ∧ (∀ p, u.profile p = built.profile p ∧ u.training p = s.training p ∧ u.mode p = s.mode p)
    ∧ u.plan = built.plan ∧ u.signatures = built.signatures
    ∧ u.supervision.requesters = built.supervision.requesters
    ∧ u.supervision.station = built.supervision.station
    ∧ u.supervision.stationSet = s.supervision.stationSet
    ∧ u.startUp.causes = { s.startUp.causes with imageRejected := true } ∧ u.startUp.applied = []
    ∧ u.quads = s.quads)
  ∧ ∀ (s : State) (outcome : ImageOutcome), (∀ p, (s.training p).energy = false) →
    let t := s.completeLoad outcome
    t.loading = false ∧ t.startUp.outcome = some outcome ∧ t.supervision.accepting = true
    ∧ t.notice.device.startUp = occurrence s.notice.device.startUp
    ∧ t.plan = s.plan ∧ t.signatures = s.signatures ∧ t.supervision.requesters = s.supervision.requesters
    ∧ t.supervision.station = s.supervision.station ∧ t.quads = s.quads ∧ t.queue = s.queue
    ∧ t.startUp.applied = s.startUp.applied ∧ t.startUp.causes = s.startUp.causes
    ∧ (∀ p, t.profile p = s.profile p)
    ∧ ∀ p, (t.port p).cableClass = selectClass s.plan (s.port p).report (s.port p).summary
      ∧ (s.quadUp p = false → t.link p = .noLine ∧ t.mode p = s.mode p)
      ∧ (s.quadUp p = true → (s.profile p).enabled = true →
        t.training p = (s.training p).listening ∧ t.mode p = .openMode ∧ .command p .release ∈ t.outputs)
      ∧ (s.quadUp p = true → (s.profile p).enabled = false →
        t.link p = .off ∧ t.mode p = .silencing ∧ .command p .silence ∈ t.outputs)

/-! ### Quads -/

/-- R15 to R17, R88, R89, R107: the loss of a quad. Its ports' line modes return to OPEN and FRONT_END_FAULT
is raised for each; then each port, lowest first and those in HELD last, so that the step checks of a sweep
find no port of the quad in UP (log 16: the model's order), goes to NO_LINE, or stays in HELD with its test
aborted, completed or left alone. -/
def Obligations.QuadLost : Prop :=
  (∀ (p : Port) (q : Quad), p ∈ portsOf q ↔ p.val / 4 = q.val)
  ∧ (∀ q : Quad, (portsOf q).Pairwise (· < ·))
  ∧ (∀ (s : State) (q : Quad) (released : List Port), s.ready →
    let lost : State := { s with quads := s.quads.set q false }
    (s.quads[q] = false → exec (.quadLoss q released) s = .next s)
    ∧ (s.quads[q] = true → s.loading = true → s.restsWhileLoading →
      exec (.quadLoss q released) s = .next lost)
    ∧ (s.quads[q] = true → s.loading = false →
      HasEffect (.quadLoss q released) s (((portsOf q).filter (fun p => s.link p != .held)
        ++ (portsOf q).filter fun p => s.link p == .held).foldl (State.portLost released)
        ((portsOf q).foldl (fun t p => (t.setMode p .openMode).raise p .frontEndFault) lost))))
  ∧ ∀ (s : State) (released : List Port) (p : Port), s.quadUp p = false →
    (s.link p = .noLine → State.portLost released s p = s)
    ∧ (s.link p = .up →
      State.portLost released s p
        = (s.departUp p .frontEndFault).updTraining p fun t => t.quieted .noLine)
    ∧ (s.link p = .verify →
      State.portLost released s p
        = s.updTraining p fun t => (t.noted (t.attemptRecord .abandoned t.margin)).quieted .noLine)
    ∧ (s.link p = .train →
      State.portLost released s p
        = (s.updTraining p fun t =>
          (t.noted (t.attemptRecord .abandoned t.margin)).quieted .noLine).oweSelection)
    ∧ (s.link p ∈ [LinkState.off, .listen, .exchange, .pendingTrain, .backoff] →
      State.portLost released s p = s.updTraining p fun t => t.quieted .noLine)
    ∧ (s.link p = .held →
      (s.engineOn p = none → State.portLost released s p = s)
      ∧ ∀ e st m t, s.testing p e st m t →
        (st = .quiesce ∨ st = .capture → State.portLost released s p
          = (((s.releaseSlot t.group).updTraining p fun t => t.quieted .noLine).freed e).endMeasurement
            m.entry p ⟨.frontEndFault, none⟩)
        ∧ (st = .analyze → State.portLost released s p = s)
        ∧ (st = .restore → p ∈ released → State.portLost released s p = s)
        ∧ (st = .restore → p ∉ released →
          State.portLost released s p = (s.emit (.releaseEnded p)).completeRestore e))

/-- R16, R17: the recovery of a quad takes each of its ports in NO_LINE, lowest first (log 16: the model's
order), to LISTEN, or to OFF with SILENCE, and grant selection runs. -/
def Obligations.QuadRecovered : Prop :=
  (∀ (s : State) (q : Quad), s.ready →
    let back : State := { s with quads := s.quads.set q true }
    (s.quads[q] = true → exec (.quadRecovery q) s = .next s)
    ∧ (s.quads[q] = false → s.loading = true → s.restsWhileLoading →
      exec (.quadRecovery q) s = .next back)
    ∧ (s.quads[q] = false → s.loading = false →
      HasEffect (.quadRecovery q) s (((portsOf q).foldl State.portRecovered back).oweSelection)))
  ∧ ∀ (s : State) (p : Port),
    (s.link p ≠ .noLine → s.portRecovered p = s)
    ∧ (s.link p = .noLine → (s.profile p).enabled = true → s.portRecovered p = s.enterListen p)
    ∧ (s.link p = .noLine → (s.profile p).enabled = false →
      s.portRecovered p = (s.updTraining p fun t => t.quieted .off).send p .silence)

/-! ### Measurements -/

/-- R13, R98 to R100: SILENT and CAPTURE_SET, accepted by the line mode and taken by the engine whose context
names the port; the capture that completes the last pulsed pair ends CAPTURE and releases the slot. -/
def Obligations.CaptureReports : Prop :=
  ∀ (s : State) (p : Port) (pulsed listening : Pair) (samples : List Int), s.ready →
    FirstWith [0, 1, 2, 3] (fun e => ∃ m, (s.engine e).context = some m ∧ m.port = p) (s.engineOn p)
    ∧ (s.mode p ≠ .silencing → exec (.silent p) s = .next s)
    ∧ (s.mode p = .silencing → s.engineOn p = none → exec (.silent p) s = .next (s.setMode p .silentMode))
    ∧ (∀ e m t x rest, s.mode p = .silencing → s.testing p e .quiesce m t → t.toGo = x :: rest →
      exec (.silent p) s = .next (((s.setMode p .silentMode).updEngine e fun y =>
        { y with
          state := .capture
          phaseTimer := some 50
          context := some { m with test := some { t with toGo := rest } } }).send p
        (.pulseCapture x (if t.crossPair then [.a, .b, .c, .d] else [x]) t.averaging)))
    ∧ ((∀ expected, s.mode p = .capturing pulsed expected → listening ∉ expected) →
      exec (.captureSet p pulsed listening samples) s = .next s)
    ∧ ∀ expected e m t, s.mode p = .capturing pulsed expected → listening ∈ expected → s.testing p e .capture m t →
      let kept (toGo : List Pair) : Measurement :=
        { m with test := some { t with captures := t.captures ++ [⟨pulsed, listening, samples⟩], toGo := toGo } }
      (expected ≠ [listening] → exec (.captureSet p pulsed listening samples) s
        = .next ((s.setMode p (.capturing pulsed (expected.erase listening))).updEngine e fun y =>
          { y with context := some (kept t.toGo) }))
      ∧ (expected = [listening] →
        (∀ x rest, t.toGo = x :: rest → exec (.captureSet p pulsed listening samples) s
          = .next (((s.setMode p .silentMode).updEngine e fun y =>
            { y with context := some (kept rest) }).send p
            (.pulseCapture x (if t.crossPair then [.a, .b, .c, .d] else [x]) t.averaging)))
        ∧ (t.toGo = [] → HasEffect (.captureSet p pulsed listening samples) s
          (((s.setMode p .silentMode).updEngine e fun y =>
            { y with
              state := .analyze
              phaseTimer := none
              context := some (kept []) }).releaseSlot t.group)))

/-- R96, R105, R111, R149: the phase timer aborts a test with FRONT_END_TIMEOUT, giving up its slot, and
gives up a survey; a timer that does not run does not expire (log 3). RESTORE sends RELEASE, or on an
UNAVAILABLE quad completes at once (R103). (On the UNAVAILABLE quad: log 11, the model's choice.) -/
def Obligations.PhaseTimerExpires : Prop :=
  (∀ (s : State) (e : EngineId), s.ready →
    ((s.engine e).phaseTimer = none → exec (.phaseTimerExpiry e) s = .next s)
    ∧ ∀ m, (s.engine e).phaseTimer.isSome = true → (s.engine e).context = some m →
      (∀ t, (s.engine e).state = .quiesce ∨ (s.engine e).state = .capture → m.test = some t →
        HasEffect (.phaseTimerExpiry e) s
          (((s.updEngine e fun y =>
            { y with
              context := some { m with
                test := some { t with
                  abortCause := some .frontEndTimeout
                  result := some ⟨.frontEndTimeout, none⟩ } } }).releaseSlot t.group).enterRestore e))
      ∧ (∀ x, (s.engine e).state = .surveyRead → s.entry m.entry = some x →
        HasEffect (.phaseTimerExpiry e) s
          (((s.updPort m.port fun y =>
            { y with mode := .openMode, survey := y.survey.begun y.profile }).freed e).finishEntry x
            .frontEndTimeout [])))
  ∧ ∀ (s : State) (e : EngineId) (m : Measurement) (t : TestContext),
    (s.engine e).context = some m → m.test = some t →
    let entered := s.updEngine e fun y =>
      { y with
        state := .restore
        phaseTimer := none
        context := some { m with test := some { t with captures := [] } } }
    (s.quadUp m.port = true → s.enterRestore e = entered.send m.port .release)
    ∧ (s.quadUp m.port = false → s.enterRestore e = entered.completeRestore e)

/-- R87, R102, R112, R135, R140: the ANALYZE completion builds the report under the port's profile and the
geometry as they stand, numbers and stores it, selects the port's
class, raises CABLE_FAULT for a worst verdict beyond BEYOND_REACH, completes the waiting entries that
qualify, records the entry's result and enters RESTORE. The waiting entries are completed in queue order
(log 16); an engine not in ANALYZE leaves the state as it was (log 3); the result OK for an entry that is gone
is a default (log 29): the model's choices. -/
def Obligations.AnalyzeStoresReport : Prop :=
  (∀ (s : State) (e : EngineId) (m : Measurement) (t : TestContext), s.ready →
    (s.engine e).context = some m → m.test = some t → (s.engine e).state = .analyze →
    let n := if s.sequence = 0xFFFFFFFF then 1 else s.sequence + 1
    let q := s.profile m.port
    let k : ArithmeticInputs :=
      ⟨q.nvp, q.pathOffset, q.nearBlank, q.threshold, q.slope, s.signatures.geometry⟩
    let r : CableReport := { buildReport k s.signatures.entries m.port t with sequence := n }
    let stored : State := { s with sequence := n }.updPort m.port fun x =>
      { x with report := some r, cableClass := selectClass s.plan (some r) x.summary }
    let told : State := if 1 < r.worst.severity then stored.raise m.port (.cableFault n) else stored
    let code : ResultCode :=
      ((s.entry m.entry).map fun x => if x.adjusted then .okAdjusted else .ok).getD .ok
    HasEffect (.analyzeCompletion e) s
      ((((s.queue.filter fun x => x.coalesces m.port t).foldl
        (fun u x => u.finishEntry x (if x.adjusted then .okAdjusted else .ok) r.encode) told).updTest e
          fun y => { y with result := some ⟨code, some r⟩ }).enterRestore e))
  ∧ (∀ (s : State) (e : EngineId), s.ready → (s.engine e).state ≠ .analyze →
    exec (.analyzeCompletion e) s = .next s)
  ∧ ∀ (x : QueueEntry) (p : Port) (t : TestContext),
    x.coalesces p t = true ↔ ∃ o, x.kind = .test o ∧ o.sweep = none ∧ x.port = p ∧ x.state = .waiting
      ∧ (∀ y ∈ o.pairs, y ∈ t.pairs) ∧ o.averaging ≤ t.averaging ∧ (o.crossPair = true → t.crossPair = true)
      ∧ x.serial ∈ t.atGrant

/-- R53, R86, R89, R91, R104: a RESTORE completion, of a RELEASE that has left and of one that is not sent, is one
operation: the port leaves HELD by its quad and its admin, the
engine returns to IDLE, and the entry's measurement ends; a sweep appends its port result and goes on, or
with its cancel mark set ends. On the UNAVAILABLE quad see log 11; an engine not in RESTORE leaves the state as
it was (log 3): the model's choices. -/
def Obligations.RestoreReleasesPort : Prop :=
  (∀ (s : State) (e : EngineId) (m : Measurement) (t : TestContext) (r : RecordedResult),
    (s.engine e).context = some m → m.test = some t → t.result = some r →
    (s.quadUp m.port = false → s.link m.port = .held → s.completeRestore e
        = ((s.updTraining m.port fun x => x.quieted .noLine).freed e).endMeasurement m.entry m.port r)
      ∧ (s.quadUp m.port = true → (s.profile m.port).enabled = true → s.completeRestore e
        = ((s.enterListen m.port).freed e).endMeasurement m.entry m.port r)
      ∧ (s.quadUp m.port = true → (s.profile m.port).enabled = false → s.link m.port = .held →
        s.completeRestore e
          = (((s.updTraining m.port fun x => x.quieted .off).send m.port .silence).freed e).endMeasurement
            m.entry m.port r))
  ∧ (∀ (s : State) (e : EngineId), s.ready →
    ((s.engine e).state = .restore → HasEffect (.restoreCompletion e) s (s.completeRestore e))
    ∧ ((s.engine e).state ≠ .restore → exec (.restoreCompletion e) s = .next s))
  ∧ ∀ (s : State) (n : Nat) (p : Port) (r : RecordedResult) (x : QueueEntry) (o : TestOptions),
    s.entry n = some x → x.kind = .test o →
    let measured : PortResult :=
      match r.report with
      | none => ⟨p, r.code, .notTested, none⟩
      | some rep => ⟨p, r.code, .classed rep.worst, rep.length⟩
    (o.sweep = none → s.endMeasurement n p r
      = s.finishEntry x r.code ((r.report.map CableReport.encode).getD []))
    ∧ ∀ w, o.sweep = some w →
      let w' : Sweep := { w with results := w.results ++ [measured], remaining := w.remaining - 1 }
      let next : Port := if w.down then p - 1 else p + 1
      (x.cancelMark = false → s.endMeasurement n p r = s.continueSweep x o next w')
      ∧ (x.cancelMark = true → s.endMeasurement n p r = s.cancelSweep x next w')

/-- R88 to R91: a sweep at a new cursor completes when nothing remains; a port outside the disturb set or
live under protect live is finished without measurement and the cursor moves on; any other port is waited
for. A cancelled sweep ends with CANCELLED for every port that remains. -/
def Obligations.SweepSteps : Prop :=
  ∀ (s : State) (x : QueueEntry) (o : TestOptions) (p : Port) (w : Sweep),
    let next : Port := if w.down then p - 1 else p + 1
    let finished (code : ResultCode) : Sweep :=
      { w with results := w.results ++ [⟨p, code, .notTested, none⟩], remaining := w.remaining - 1 }
    let requester := s.supervision.requesters[x.requester]
    let permitted := requester.inUse = true ∧ requester.disturbSet.getLsbD p.val = true
    let live := s.link p = .up ∧ (s.profile p).protectLive = true ∧ o.force = false
    (w.remaining = 0 →
      s.continueSweep x o p w = s.finishEntry x (if x.adjusted then .okAdjusted else .ok) w.encode
      ∧ s.cancelSweep x p w = s.finishEntry x .cancelled w.encode)
    ∧ (w.remaining ≠ 0 →
      (¬ permitted → s.continueSweep x o p w = s.continueSweep x o next (finished .notPermitted))
      ∧ (permitted → live → s.continueSweep x o p w = s.continueSweep x o next (finished .livePort))
      ∧ (permitted → ¬ live → s.continueSweep x o p w
        = (s.updEntry x.serial fun y =>
          { y with
            kind := .test { o with sweep := some w }
            port := p
            state := .waiting }).oweSelection.oweReservations)
      ∧ s.cancelSweep x p w = s.cancelSweep x next (finished .cancelled))

/-- R110, R112, R125, R135, R141, R144, R148: a TAPS in SURVEY_READ stores the numbered summary, selects the port's
class, forms the baseline or checks it for drift, starts the next survey's time, and completes the entry
with the summary; a TAPS in another line mode is discarded (R13). -/
def Obligations.SurveyCompleted : Prop :=
  (∀ (s : State) (p : Port) (a b c d : Tap), s.ready →
    (s.mode p ≠ .readingTaps → exec (.taps p a b c d) s = .next s)
    ∧ ∀ e m x, s.mode p = .readingTaps → s.engineOn p = some e → (s.engine e).state = .surveyRead →
      (s.engine e).context = some m → s.entry m.entry = some x →
      let n := if s.sequence = 0xFFFFFFFF then 1 else s.sequence + 1
      let q := s.profile p
      let k : ArithmeticInputs :=
        ⟨q.nvp, q.pathOffset, q.nearBlank, q.threshold, q.slope, s.signatures.geometry⟩
      let r : SurveySummary := { surveySummary k a b c d with sequence := n }
      let stored (baseline : Option SurveySummary) : State :=
        { s with sequence := n }.updPort p fun y =>
          { y with
            mode := .openMode
            summary := some r
            cableClass := selectClass s.plan y.report (some r)
            baseline := baseline
            survey := y.survey.begun y.profile }
      ((s.port p).baseline = none → HasEffect (.taps p a b c d) s
        (((stored (some r)).freed e).finishEntry x .ok (r.encode p 1)))
      ∧ ∀ base, (s.port p).baseline = some base →
        (drifted (s.profile p) r base = false → HasEffect (.taps p a b c d) s
          (((stored (some base)).freed e).finishEntry x .ok (r.encode p 1)))
        ∧ (drifted (s.profile p) r base = true → HasEffect (.taps p a b c d) s
          ((((stored (some base)).raise p (.cableDrift n)).freed e).finishEntry x .ok (r.encode p 1))))
  ∧ ∀ (prof : Profile) (r base : SurveySummary),
    drifted prof r base = true ↔ prof.driftTolerance < ((r.length : Int) - base.length).natAbs
      ∨ ∃ i : Fin 4, prof.magnitudeTolerance < (r.healths[i] - base.healths[i]).natAbs

/-! ### The queue, grants, and timers -/

/-- R77, R79: selection for an engine answers an entry exactly when one is eligible, and then the oldest of
the highest rank: urgent entries first, quiet ones next, higher classes next. -/
def Obligations.SelectionOrder : Prop :=
  ∀ (s : State) (e : EngineId),
    (s.selection e = none ↔ ∀ x ∈ s.queue, ¬ s.mayGrant e x)
    ∧ ∀ x, s.selection e = some x → s.mayGrant e x ∧ ∃ before after, s.queue = before ++ x :: after
      ∧ (∀ y ∈ before, s.mayGrant e y → outranks (s.rank x) (s.rank y))
      ∧ ∀ y ∈ after, s.mayGrant e y → ¬ outranks (s.rank y) (s.rank x)

/-- R52, R80, R81, R97, R109: what a grant does, and to which kind an entry belongs. A TEST takes its group's slot, clears the reservation, takes
its port to HELD and begins QUIESCE with SILENCE; a SURVEY begins SURVEY_READ with READ_TAPS; the passed-over
counter moves by the engine's oldest waiting entry, the first WAITING one of the queue whose port has that
engine. -/
def Obligations.GrantsMade : Prop :=
  (∀ (s : State) (e : EngineId),
    FirstWith s.queue (fun x => x.state = .waiting ∧ engineOf x.port = e) (s.oldestWaiting e))
  ∧ (∀ x : QueueEntry, (x.waiting = true ↔ x.state = .waiting) ∧ (x.isSurvey = true ↔ x.kind = .survey)
    ∧ (x.isSingleTest = true ↔ ∃ o, x.kind = .test o ∧ o.sweep = none))
  ∧ (∀ (s : State) (e : EngineId) (x : QueueEntry),
    let marked := s.updEntry x.serial fun y => { y with state := .inFlight e, urgent := false }
    (∀ o, x.kind = .test o →
      let g := s.groupOf x.port
      let others := (marked.queue.filter fun y =>
        y.isSingleTest && y.port == x.port && y.waiting).map QueueEntry.serial
      let context : TestContext :=
        ⟨g, o.pairs, o.averaging, o.crossPair, o.force,
          [Pair.a, .b, .c, .d].filter fun p => o.pairs.contains p, [], none, others, none⟩
      s.grant e x = (((((marked.updGroup g fun y =>
        { y with slot := some ⟨x.port, e⟩, reserved := false }).enterHeld x.port).updEngine e fun y =>
          { y with
            state := .quiesce
            phaseTimer := some 10
            context := some ⟨x.serial, x.port, some context⟩ }).send x.port .silence).movePassedOver e
              (s.oldestWaiting e) x.serial))
    ∧ (x.kind = .survey → s.grant e x = ((marked.updEngine e fun y =>
        { y with
          state := .surveyRead
          phaseTimer := some 10
          context := some ⟨x.serial, x.port, none⟩ }).send x.port .readTaps).movePassedOver e
            (s.oldestWaiting e) x.serial))
  ∧ (∀ (s : State) (p : Port),
    let held (t : Training) : Training := { t.enter .held with energy := false }
    (s.link p = .up → s.enterHeld p = (s.departUp p .portBusy).updTraining p held)
    ∧ (s.link p = .verify → s.enterHeld p
      = s.updTraining p fun t => held (t.noted (t.attemptRecord .abandoned t.margin)))
    ∧ (s.link p = .train → s.enterHeld p
      = (s.updTraining p fun t => held (t.noted (t.attemptRecord .abandoned t.margin))).oweSelection)
    ∧ (s.link p ≠ .up → s.link p ≠ .verify → s.link p ≠ .train → s.enterHeld p = s.updTraining p held))
  ∧ ∀ (s : State) (e : EngineId) (x : QueueEntry) (n : Nat),
    let count (k : Nat) : State := s.updEngine e fun y => { y with passedOver := k }
    s.movePassedOver e none n = s ∧
    (x.serial = n → s.movePassedOver e (some x) n = count 0)
    ∧ (x.serial ≠ n → (s.engine e).passedOver + 1 < s.supervision.station.starvationLimit →
      s.movePassedOver e (some x) n = count ((s.engine e).passedOver + 1))
    ∧ (x.serial ≠ n → s.supervision.station.starvationLimit ≤ (s.engine e).passedOver + 1 →
      s.movePassedOver e (some x) n = (count 0).updEntry x.serial fun y => { y with urgent := true })

/-- R84, R85: the expiry of a hold timer makes a reservation (one that does not run does not expire: log 3, the
model's choice); at the close of every event (log 17: the model's reading) the hold timer of a group that has
become blocked starts at the bundle hold limit unless a reservation stands, that of a group no longer blocked
stops, and every other stands as it did; an entry is blocked by a member of its group other than its port in
TRAIN. -/
def Obligations.HoldTimers : Prop :=
  (∀ (s : State) (g : Group), s.ready →
    ((s.group g).holdTimer = none → exec (.holdTimerExpiry g) s = .next s)
    ∧ ((s.group g).holdTimer.isSome = true → exec (.holdTimerExpiry g) s
      = .next (s.updGroup g fun y => { y with reserved := true, holdTimer := none })))
  ∧ (∀ (before u : State) (g : Group),
    let t := State.closeEvent before u
    (t.groupBlocked g = true → before.groupBlocked g = false → (t.group g).reserved = false →
      (t.group g).holdTimer = some u.supervision.station.holdLimit)
    ∧ (t.groupBlocked g = false → before.groupBlocked g = true → (t.group g).holdTimer = none)
    ∧ (t.groupBlocked g = before.groupBlocked g ∨ (t.groupBlocked g = true ∧ (t.group g).reserved = true) →
      (t.group g).holdTimer = (u.group g).holdTimer))
  ∧ (∀ (before s : State) (g : Group),
    (s.groupBlocked g = true → before.groupBlocked g = false → (s.group g).reserved = false →
      State.holdTimer before s g
        = s.updGroup g fun y => { y with holdTimer := some s.supervision.station.holdLimit })
    ∧ (s.groupBlocked g = false → before.groupBlocked g = true →
      State.holdTimer before s g = s.updGroup g fun y => { y with holdTimer := none })
    ∧ (s.groupBlocked g = before.groupBlocked g → State.holdTimer before s g = s))
  ∧ ∀ (s : State) (g : Group),
    s.groupBlocked g = true ↔ ∃ x ∈ s.queue, s.groupOf x.port = g ∧ x.state = .waiting ∧ x.isSurvey = false
      ∧ s.quadUp x.port = true ∧ (∀ y ∈ s.queue, y.state ≠ .waiting → y.port ≠ x.port)
      ∧ (s.group g).slot = none ∧ ∃ q, q ≠ x.port ∧ s.groupOf q = g ∧ s.link q = .train

/-- R76, R93, R143, R145 to R147: the survey timer makes a port DUE under its grace time and offers an
internal SURVEY; the grace timer makes it OVERDUE unless its survey is in flight, and has grant selection run
for all engines, of which only the port's own can have gained an entry (log 34: the model's reading). An offer
for a port without a SURVEY entry is admitted while the queue has room, urgent for an OVERDUE port, and sets
pending otherwise; at each departure from the queue the pending surveys are offered, lowest port first,
against the queue as the departure leaves it. An expiry whose timer is stopped changes nothing (log 3: the
model's choice). -/
def Obligations.SurveyTimersExpire : Prop :=
  (∀ (s : State) (p : Port), s.ready →
    let prof := s.profile p
    let due (pending : Bool) : State := s.updSurvey p fun _ =>
      ⟨.due, none, some (max (prof.surveyInterval / 4) 5), pending⟩
    let late (st : SurveyState) : State := s.updSurvey p fun r => { r with state := st, graceTimer := none }
    ((s.survey p).surveyTimer = none → exec (.surveyTimerExpiry p) s = .next s)
    ∧ ((s.survey p).graceTimer = none → exec (.graceTimerExpiry p) s = .next s)
    ∧ ((s.survey p).state = .counting → (s.survey p).surveyTimer.isSome = true → s.surveyEntry p = none →
      (s.queue.length < 32 → HasEffect (.surveyTimerExpiry p) s
        ((due false).enqueue
          ⟨.survey, 0, none, p, false, 0, false, 0, .waiting, false⟩))
      ∧ (32 ≤ s.queue.length → exec (.surveyTimerExpiry p) s = .next (due true)))
    ∧ ((s.survey p).state = .due → (s.survey p).graceTimer.isSome = true →
      (∀ x, s.surveyEntry p = some x → x.state = .waiting →
        HasEffect (.graceTimerExpiry p) s (((late .overdue).updEntry x.serial fun y =>
          { y with urgent := true }).oweSelection))
      ∧ (∀ x e, s.surveyEntry p = some x → x.state = .inFlight e →
        exec (.graceTimerExpiry p) s = .next (late .due))
      ∧ (s.surveyEntry p = none → (s.survey p).pending = true →
        exec (.graceTimerExpiry p) s = .next (late .overdue))))
  ∧ (∀ (s : State) (p : Port),
    let pending (t : State) (b : Bool) : State := t.updSurvey p fun r => { r with pending := b }
    (∀ x, s.surveyEntry p = some x → s.offerSurvey p = s)
    ∧ (s.surveyEntry p = none →
      (s.queue.length < 32 → s.offerSurvey p = pending (s.enqueue
        ⟨.survey, 0, none, p, false, 0, (s.survey p).state == .overdue, 0, .waiting, false⟩) false)
      ∧ (32 ≤ s.queue.length → s.offerSurvey p = pending s true)))
  ∧ (∀ (s : State) (n : Nat), s.removeEntry n
    = (allPorts.foldl (fun (t : State) p => if (t.survey p).pending then t.offerSurvey p else t)
      { s with queue := s.queue.filter fun x => x.serial != n }).oweReservations)
  ∧ allPorts.Pairwise (· < ·) ∧ ∀ p : Port, p ∈ allPorts

/-- R171, R172: at the end of the holdoff the unit goes IDLE without a destination or an event; otherwise one
notice is handed over for the notice slot, with the device record first and then the ports from the scan start
on, at most twelve records, and every set reported is emptied. An expiry whose timer is stopped changes
nothing (log 3: the model's choice). -/
def Obligations.HoldoffExpires : Prop :=
  ∀ s : State, s.ready →
    let first := !(s.notice.device == ⟨none, none⟩)
    let nonempty (p : Port) : Bool :=
      !((s.port p).events == ⟨none, none, none, none, none, none, none, none⟩)
    let ports := ((allPorts.map fun i => s.notice.scanStart + i).filter nonempty).take (12 - first.toNat)
    let records := (if first then [s.notice.device.encode] else [])
      ++ ports.map fun p => (s.port p).events.encode p
    let idle : State := { s with notice := { s.notice with state := .idle, holdoffTimer := none } }
    (s.notice.holdoffTimer = none → exec .holdoffTimerExpiry s = .next s)
    ∧ (s.notice.state = .holding → s.notice.holdoffTimer.isSome = true →
      (s.supervision.station.noticeDestination = none → exec .holdoffTimerExpiry s = .next idle)
      ∧ ∀ d, s.supervision.station.noticeDestination = some d →
        (records = [] → exec .holdoffTimerExpiry s = .next idle)
        ∧ (records ≠ [] → ∃ t, exec .holdoffTimerExpiry s = .next t
          ∧ t.notice = ⟨.sending, none, ((ports.getLast?).map (· + 1)).getD s.notice.scanStart, ⟨none, none⟩⟩
          ∧ (∀ p, (t.port p).events = if p ∈ ports then ⟨none, none, none, none, none, none, none, none⟩
            else (s.port p).events)
          ∧ (∀ p, t.traffic p = if p = s.supervision.station.noticeSlot then
              (s.traffic p).place
                ⟨sealFrame (originated s.supervision.station d 3 0 records.length records.flatten),
                  false, .notice⟩
            else s.traffic p)
          ∧ (∀ p, t.training p = s.training p ∧ t.survey p = s.survey p ∧ t.mode p = s.mode p
            ∧ t.profile p = s.profile p ∧ (t.port p).report = (s.port p).report)
          ∧ t.queue = s.queue ∧ t.engines = s.engines ∧ t.groups = s.groups
          ∧ t.supervision = s.supervision ∧ t.signatures = s.signatures ∧ t.plan = s.plan))

/-! ### Traffic and frames -/

/-- R20, R21, R24: a switch-to-line frame whose two compared fields equal the station record's is diverted
in every link state; an ordinary one is handed to the line lane in UP and dropped in any other state. A body
too short to hold both compared fields is ordinary (log 27: the model's choice). -/
def Obligations.SwitchFrames : Prop :=
  (∀ ceiling n : Nat, saturating ceiling n = if n < ceiling then n + 1 else n)
  ∧ ∀ (s : State) (p : Port) (frame : List Byte), s.ready →
    let body := frame.take (frame.length - 4)
    let station := s.supervision.station
    let supervision := 14 ≤ body.length ∧ natAt body 0 6 = station.address.toNat
      ∧ natAt body 12 2 = station.ethertype.toNat
    (supervision → exec (.switchToLineFrameArrival p frame) s
      = .next ((s.updTraffic p fun t => { t with diverted := saturating 0xFFFFFFFF t.diverted }).superviseArrival
        p (checkGood frame) body))
    ∧ (¬ supervision →
      (s.link p = .up → exec (.switchToLineFrameArrival p frame) s
        = .next ((s.updTraffic p fun t => { t with toLine := saturating 0xFFFFFFFF t.toLine }).emit
          (.toLine p frame)))
      ∧ (s.link p ≠ .up → exec (.switchToLineFrameArrival p frame) s
        = .next (s.updTraffic p fun t => { t with droppedNotUp := saturating 0xFFFFFFFF t.droppedNotUp })))

/-- R154, R158 to R162, R181: which requester slot a source address matches, when a frame is malformed, and
what the checks of a diverted frame lead to; an accepted frame takes the lowest free reply slot (log 8: the
model's choice) and its entries join the requests to be executed. The worst case of a request whose
parameters are ill-formed is log 7, the bounds of a frame log 27: the model's choices. -/
def Obligations.FramesJudged : Prop :=
  (∀ (table : Vector Requester 8) (a : Address),
    let exact (i : RequesterId) : Prop := i ≠ 0 ∧ table[i].inUse = true ∧ table[i].address = some a
    let wild (i : RequesterId) : Prop := i ≠ 0 ∧ table[i].inUse = true ∧ table[i].address = none
    (∀ i, exact i → (∀ j, j < i → ¬ exact j) → matchRequester table a = some i)
    ∧ ((∀ i, ¬ exact i) →
      (∀ i, wild i → (∀ j, j < i → ¬ wild j) → matchRequester table a = some i)
      ∧ ((∀ i, ¬ wild i) → matchRequester table a = none)))
  ∧ (∀ (good : Bool) (body : List Byte) (entries : List RawEntry),
    let length := natAt body 20 2
    requestEntries good body = some entries ↔
      good = true ∧ 22 ≤ body.length ∧ byteAt body 14 = 1 ∧ byteAt body 15 = 1 ∧ byteAt body 18 ≠ 0
        ∧ byteAt body 18 ≤ 8 ∧ 22 + length ≤ body.length
        ∧ parseEntries (byteAt body 18) ((body.drop 22).take length) = some entries
        ∧ (entries.map fun e => 8 + worstData e.code.toNat e.params).sum ≤ 1480)
  ∧ (∀ (n : Nat) (b : List Byte) (e : RawEntry) (rest : List RawEntry),
    (parseEntries 0 b = some [] ↔ b = []) ∧ parseEntries 0 b ≠ some (e :: rest)
    ∧ (parseEntries (n + 1) b = some (e :: rest) ↔
      let length := natAt b 4 2
      6 + length ≤ b.length ∧ e.code.toNat = byteAt b 0 ∧ e.tag.toNat = natAt b 2 2
        ∧ e.params = (b.drop 6).take length ∧ parseEntries n (b.drop (6 + length)) = some rest))
  ∧ ∀ (s : State) (p : Port) (good : Bool) (body : List Byte),
    let source : Address := BitVec.ofNat 48 (natAt body 6 6)
    let found := matchRequester s.supervision.requesters source
    (s.supervision.accepting = false → s.superviseArrival p good body = s)
    ∧ (s.supervision.accepting = true →
      (found = none → s.superviseArrival p good body
        = s.updSupervision fun v => { v with unknownSource := saturating 65535 v.unknownSource })
      ∧ ∀ id, found = some id →
        (requestEntries good body = none → s.superviseArrival p good body
          = s.updSupervision fun v => { v with malformed := saturating 65535 v.malformed })
        ∧ ∀ entries, requestEntries good body = some entries →
          ((∀ i, s.slot i ≠ none) → s.superviseArrival p good body
            = s.updSupervision fun v => { v with noReplySlot := saturating 65535 v.noReplySlot })
          ∧ ∀ i, s.slot i = none → (∀ j, j < i → s.slot j ≠ none) →
            let r := s.supervision.requesters[id]
            s.superviseArrival p good body
              = (s.setSlot i (some
                { destination := source
                  port := p
                  tag := BitVec.ofNat 16 (natAt body 16 2)
                  requester := id
                  role := r.role
                  readSet := r.readSet
                  disturbSet := r.disturbSet
                  entries := entries.map fun e => ⟨e.code, e.tag, none⟩
                  sending := false })).updSupervision fun v =>
                  { v with
                    requests := v.requests
                      ++ entries.mapIdx fun k e => ⟨⟨i, k⟩, e.code, e.tag, e.params⟩ })

/-- R22, R23, R25, R26, R28, R163, R168, R171: frames toward the switch core. A line-to-switch frame joins the
output list, bad where its check failed, unless 64 forwarded frames wait; the end of a frame being sent
starts the next; a reply's transmission completion frees its slot or, for RESET_PART, resets the part, and a
notice's starts the holdoff timer. The straps of the SUPERVISOR reset (log 28) and the frames that it ends on
the line lanes (log 10) are the event's operand, the next frame begins before it and is cut (log 25), and an event that finds nothing being sent, a frame of another
kind, or the notice unit not SENDING changes nothing more (log 3): the model's choices. -/
def Obligations.FramesTowardSwitch : Prop :=
  (∀ (t : Traffic) (f : OutFrame),
    (t.sending = none → t.output = [] → t.place f = { t with sending := some f })
    ∧ (t.sending ≠ none ∨ t.output ≠ [] → t.place f = { t with output := t.output ++ [f] }))
  ∧ (∀ (s : State) (p : Port) (frame : List Byte), s.ready →
    let waiting := ((s.traffic p).output.filter fun f => f.source == .forwarded).length
    let listed (bad : Bool) : State :=
      if waiting < 64 then
        s.updTraffic p fun t =>
          { t.place ⟨frame, bad, .forwarded⟩ with toSwitch := saturating 0xFFFFFFFF t.toSwitch }
      else s
    let marked := (listed true).updTraffic p fun t => { t with badCheck := saturating 0xFFFFFFFF t.badCheck }
    (checkGood frame = true → exec (.lineToSwitchFrameArrival p frame) s = .next (listed false))
    ∧ (checkGood frame = false →
      (s.link p ≠ .up → exec (.lineToSwitchFrameArrival p frame) s = .next marked)
      ∧ (s.link p = .up → exec (.lineToSwitchFrameArrival p frame) s
        = .next (marked.updTraining p fun t =>
          { t with degradeCount := saturating 65535 t.degradeCount }))))
  ∧ ∀ (s : State) (p : Port) (inputs : ResetInputs), s.ready →
    (∀ bytes bad, (s.traffic p).sending = some ⟨bytes, bad, .forwarded⟩ →
      exec (.forwardedFrameSent p) s
        = .next ((s.updTraffic p fun t => { t with sending := t.output.head?, output := t.output.tail }).emit
          (.toSwitch p bytes bad false))
      ∧ exec (.transmissionCompletion p inputs) s = .next s)
    ∧ ((s.traffic p).sending = none →
      exec (.forwardedFrameSent p) s = .next s ∧ exec (.transmissionCompletion p inputs) s = .next s)
    ∧ ∀ bytes bad source, (s.traffic p).sending = some ⟨bytes, bad, source⟩ → source ≠ .forwarded →
      let sent := (s.updTraffic p fun t => { t with sending := t.output.head?, output := t.output.tail }).emit
        (.toSwitch p bytes bad true)
      exec (.forwardedFrameSent p) s = .next s
      ∧ (∀ i, source = .reply i →
        ((∃ r code a, s.slot i = some r ∧ r.entries = [⟨18, code, some ⟨.ok, a⟩⟩]) →
          ∃ t, exec (.transmissionCompletion p inputs) s = .next t
            ∧ t = State.atReset inputs.straps { s.startUp.causes with supervisor := true } .firstPass
              s.pending s.arbiter (sent.outputs ++ sent.cutFrames ++ sent.lineCuts inputs.unsent))
        ∧ ((∀ r code a, s.slot i = some r → r.entries ≠ [⟨18, code, some ⟨.ok, a⟩⟩]) →
          exec (.transmissionCompletion p inputs) s = .next (sent.setSlot i none)))
      ∧ (source = .notice →
        (s.notice.state = .sending → exec (.transmissionCompletion p inputs) s
          = .next { sent with
            notice :=
              { s.notice with
                state := .holding
                holdoffTimer := some s.supervision.station.holdoff } })
        ∧ (s.notice.state ≠ .sending → exec (.transmissionCompletion p inputs) s = .next sent))

/-! ### Requests -/

/-- R155, R162, R181: the checks common to all requests, in their order; the event of a request that is not
the oldest entry's does nothing (log 5: the model's choice). The place of the parameter-length check among
them is log 6: the model's choice. A call carries what its request and its reply slot hold. -/
def Obligations.RequestChecks : Prop :=
  (∀ (r : Request) (slot : ReplySlot), r.call slot = ⟨r.place, r.tag, r.params, slot.requester, slot.role,
    slot.readSet, slot.disturbSet, slot.entries.length == 1⟩)
  ∧ ∀ (s : State) (r : Request) (rest : List Request) (slot : ReplySlot), s.ready →
    s.supervision.requests = r :: rest → s.slot r.place.slot = some slot →
    let t := s.updSupervision fun v => { v with requests := rest }
    let answered (i : Instr) (code : ResultCode) : Prop := exec i s = .next (t.answer r.place code [])
    let p := byteAt r.params 0
    (r.code.toNat = 0 ∨ 18 < r.code.toNat → answered .unknownRequest .unknownRequest)
    ∧ (1 ≤ r.code.toNat → r.code.toNat ≤ 18 → exec .unknownRequest s = .next s)
    ∧ ∀ x ∈ requestRows,
      (r.code.toNat ≠ x.code → exec x.event s = .next s)
      ∧ (r.code.toNat = x.code →
        (slot.role.code < x.lowest.code → answered x.event .notPermitted)
        ∧ (x.lowest.code ≤ slot.role.code →
          (x.lengthFits r.params = false → answered x.event .badValue)
          ∧ (x.lengthFits r.params = true → ∀ set, x.checked slot r.params = some set →
            (48 ≤ p → answered x.event .badPort)
            ∧ (p < 48 → set.getLsbD p = false → answered x.event .notPermitted))))

/-- R86, R92, R93, R160, R163: the result of an external entry goes to its request's place in its reply slot, and
that of an internal entry goes nowhere; an entry that ends has left the queue before its result is given. A
result fills its place; the last absent result of a slot that is collecting hands its reply over to the slot's
port, with the station record as it stands, and the slot passes to SENDING. -/
def Obligations.AnswersGiven : Prop :=
  (∀ (s : State) (x : QueueEntry) (code : ResultCode) (data : List Byte),
    (x.external = none → s.answerEntry x code data = s
      ∧ s.finishEntry x code data = s.removeEntry x.serial)
    ∧ ∀ r, x.external = some r → s.answerEntry x code data = s.answer r.place code data
      ∧ s.finishEntry x code data = (s.removeEntry x.serial).answer r.place code data)
  ∧ ∀ (s : State) (place : ReplyPlace) (code : ResultCode) (data : List Byte),
    (s.slot place.slot = none → s.answer place code data = s)
    ∧ ∀ r, s.slot place.slot = some r →
      let r' : ReplySlot :=
        { r with entries := r.entries.modify place.index fun e => { e with answer := some ⟨code, data⟩ } }
      (r.sending = true ∨ (∃ e ∈ r'.entries, e.answer = none) →
        s.answer place code data = s.setSlot place.slot (some r'))
      ∧ (r.sending = false → (∀ e ∈ r'.entries, e.answer ≠ none) →
        s.answer place code data
          = (s.setSlot place.slot (some { r' with sending := true })).updTraffic r.port fun t =>
            t.place
              ⟨sealFrame (originated s.supervision.station r.destination 2 r.tag.toNat r.entries.length
                  (ReplyEntry.encodeFrom 0 r'.entries)), false, .reply place.slot⟩)

/-- R142, R164 to R166, R131, R61: the four reads answer with what stands at their execution and change
nothing, but that READ_STATUS clears the reset causes and the discard counters it has returned. The parameter
bytes of READ_TABLE that a form does not use are not read (log 37: the model's choice). -/
def Obligations.ReadsAnswered : Prop :=
  ∀ (s t : State) (c : Call),
    let told (i : Instr) (data : List Byte) : Prop := exec i s = .next (t.answer c.place .ok data)
    let record (data : Option (List Byte)) : Prop :=
      match data with
      | none => Refuses .readReport s c t .notFound
      | some d => told .readReport d
    let index := natAt c.params 1 2
    (∀ p, s.passes 1 1 .observer c t → c.names c.readSet p → told .readPort (s.portData p))
    ∧ (∀ p, s.passes 2 2 .observer c t → c.names c.readSet p →
      (byteAt c.params 1 = 0 → record ((s.port p).report.map CableReport.encode))
      ∧ (byteAt c.params 1 = 1 → record ((s.port p).summary.map (SurveySummary.encode p 1)))
      ∧ (byteAt c.params 1 = 2 → record ((s.port p).baseline.map (SurveySummary.encode p 2)))
      ∧ (2 < byteAt c.params 1 → Refuses .readReport s c t .badValue))
    ∧ (s.passes 3 4 .observer c t →
      (byteAt c.params 0 = 0 →
        (∀ i : Fin 16, index = i.val → told .readTable (byteOf index ++ (s.plan[i]).encode))
        ∧ (16 ≤ index → Refuses .readTable s c t .badValue))
      ∧ (byteAt c.params 0 = 1 →
        let count := byteAt c.params 3
        (1 ≤ count ∧ count ≤ 64 ∧ index + count ≤ 1024 →
          told .readTable (s.signatures.encodeRange index count))
        ∧ (count = 0 ∨ 64 < count ∨ 1024 < index + count → Refuses .readTable s c t .badValue))
      ∧ (byteAt c.params 0 = 2 → told .readTable s.signatures.encodeGeometry)
      ∧ (byteAt c.params 0 = 3 →
        (∀ i : RequesterId, index = i.val → i ≠ 0 →
          told .readTable ((s.supervision.requesters[i]).encode i))
        ∧ (index = 0 ∨ 8 ≤ index → Refuses .readTable s c t .badValue))
      ∧ (byteAt c.params 0 = 4 →
        (∀ p : Port, index = p.val →
          (c.readSet.getLsbD index = true → told .readTable (s.profile p).encode)
          ∧ (c.readSet.getLsbD index = false → Refuses .readTable s c t .notPermitted))
        ∧ (48 ≤ index → Refuses .readTable s c t .badPort))
      ∧ (4 < byteAt c.params 0 → Refuses .readTable s c t .badValue))
    ∧ (s.passes 4 0 .observer c t →
      exec .readStatus s = .next (({ t with
        startUp := { t.startUp with causes := ⟨false, false, false, false⟩ } }.updSupervision fun v =>
          { v with unknownSource := 0, malformed := 0, noReplySlot := 0 }).answer c.place .ok s.statusData))

/-- R71, R73 to R75: the checks of a test and of a sweep in their order, and admission with the rounded averaging
count; a sweep goes on with its step checks at once. An entry is admitted WAITING at the tail of the queue, with
the next number (log 24: the model numbers entries without a bound), and grant selection is owed. Bits 4 to 7 of the options byte are
not read (log 35: the model's choice). -/
def Obligations.TestsOffered : Prop :=
  (∀ n : Nat, (n = 0 → roundAveraging n = 1) ∧ (64 ≤ n → roundAveraging n = 64)
    ∧ ∀ k, k < 7 → 2 ^ k ≤ n → n < 2 ^ (k + 1) → roundAveraging n = 2 ^ k)
  ∧ (∀ (s : State) (x : QueueEntry), s.enqueue x
    = { s with
        queue := s.queue ++ [{ x with serial := s.admissions, state := .waiting }]
        admissions := s.admissions + 1
        due := { s.due with select := true } })
  ∧ (∀ (s : State) (r : RequesterId) (p : Port),
    FirstWith s.queue (fun x => x.requester = r ∧ x.port = p ∧ x.state = .waiting
      ∧ ∃ o, x.kind = .test o ∧ o.sweep = none) (s.singleWaiting r p))
  ∧ ∀ (s t : State) (c : Call), s.passes 5 5 .operator c t →
    let pairs := pairsOfByte (byteAt c.params 1)
    let averaging := roundAveraging (byteAt c.params 2)
    let cross := (byteAt c.params 3).testBit 0
    let force := (byteAt c.params 3).testBit 1
    let down := (byteAt c.params 3).testBit 3
    let count := byteAt c.params 4
    let entry (p : Port) (w : Option Sweep) : QueueEntry :=
      { kind := .test ⟨pairs, averaging, cross, force, w⟩
        requester := c.requester
        external := some ⟨c.tag, c.place⟩
        port := p
        adjusted := averaging != byteAt c.params 2
        priority := (s.supervision.requesters[c.requester]).priority
        urgent := false
        serial := s.admissions
        state := .waiting
        cancelMark := false }
    let refused (code : ResultCode) : Prop := Refuses .testCable s c t code
    let duplicate (tag : BitVec 16) : Prop :=
      exec .testCable s = .next (t.answer c.place .duplicate (natBytes 2 tag.toNat))
    let held : Prop := ∃ x ∈ s.queue, x.requester = c.requester ∧ ∃ y, x.external = some y ∧ y.tag = c.tag
    ((byteAt c.params 3).testBit 2 = false → ∀ p, c.names c.disturbSet p →
      let live := s.link p = .up ∧ (s.profile p).protectLive = true ∧ force = false
      (pairs = [] → refused .badValue)
      ∧ (pairs ≠ [] → held → duplicate c.tag)
      ∧ (pairs ≠ [] → ¬ held → ∀ x, s.singleWaiting c.requester p = some x → duplicate x.tag)
      ∧ (pairs ≠ [] → ¬ held → s.singleWaiting c.requester p = none →
        (live → refused .livePort)
        ∧ (¬ live → 28 ≤ s.queue.length → refused .queueFull)
        ∧ (¬ live → s.queue.length < 28 → HasEffect .testCable s (t.enqueue (entry p none)))))
    ∧ ((byteAt c.params 3).testBit 2 = true →
      let start := byteAt c.params 0
      let within := start < 48 ∧ (down = true → count ≤ start + 1) ∧ (down = false → start + count ≤ 48)
      (pairs = [] ∨ count = 0 ∨ 48 < count → refused .badValue)
      ∧ (pairs ≠ [] → 1 ≤ count → count ≤ 48 →
        (¬ within → refused .badPort)
        ∧ (within → held → duplicate c.tag)
        ∧ (within → ¬ held → 28 ≤ s.queue.length → refused .queueFull)
        ∧ ∀ p : Port, p.val = start → within → ¬ held → s.queue.length < 28 →
          let w : Sweep := ⟨p, count, down, count, []⟩
          HasEffect .testCable s
            ((t.enqueue (entry p (some w))).continueSweep (entry p (some w))
              ⟨pairs, averaging, cross, force, some w⟩ p w)))

/-- R76, R152, R90 to R92, R106: SURVEY_NOW by the port's link state and its SURVEY entry; CANCEL by the entry
that it finds and the phase of its engine. A test cancelled in QUIESCE or CAPTURE takes the cause and the
result CANCELLED, discards its captures, releases its slot and enters RESTORE with RELEASE, or on an
UNAVAILABLE quad completes it at once (log 11: the model's reading). Where a tag is in the queue twice CANCEL
takes the oldest (log 23), the cancelled request is answered before the CANCEL (log 36), and one cancelled in
QUIESCE or CAPTURE is answered at its RESTORE completion, also where it stands in the CANCEL's own frame (log
39): the model's choices. -/
def Obligations.SurveysCalledEntriesCancelled : Prop :=
  (∀ (s : State) (r : RequesterId) (tag : BitVec 16) (p : Port) (n : Nat),
    FirstWith s.queue (fun x => x.requester = r ∧ ∃ y, x.external = some y ∧ y.tag = tag) (s.tagged r tag)
    ∧ FirstWith s.queue (fun x => x.kind = .survey ∧ x.port = p) (s.surveyEntry p)
    ∧ FirstWith s.queue (fun x => x.serial = n) (s.entry n))
  ∧ (∀ (s t : State) (c : Call) (p : Port), s.passes 6 1 .operator c t → c.names c.readSet p →
    let priority := (s.supervision.requesters[c.requester]).priority
    let called (fresh : Bool) (r : SurveyRecord) : SurveyRecord :=
      if r.state = .idle ∨ r.state = .counting then
        { r with
          state := .due
          surveyTimer := none
          graceTimer := some (max ((s.profile p).surveyInterval / 4) 5) }
      else if fresh then { r with pending := false } else r
    (s.link p ≠ .up → Refuses .surveyNow s c t .portBusy)
    ∧ (s.link p = .up → s.surveyEntry p = none →
      (28 ≤ s.queue.length → Refuses .surveyNow s c t .queueFull)
      ∧ (s.queue.length < 28 → HasEffect .surveyNow s ((t.enqueue
        ⟨.survey, c.requester, some ⟨c.tag, c.place⟩, p, false, priority, false, s.admissions, .waiting,
          false⟩).updSurvey p (called true))))
    ∧ ∀ x, s.link p = .up → s.surveyEntry p = some x →
      (∀ y, x.external = some y →
        exec .surveyNow s = .next (t.answer c.place .duplicate (natBytes 2 y.tag.toNat)))
      ∧ (x.external = none → HasEffect .surveyNow s ((t.updEntry x.serial fun y =>
        { y with
          requester := c.requester
          external := some ⟨c.tag, c.place⟩
          priority := max y.priority priority }).updSurvey p (called false))))
  ∧ (∀ (s t : State) (c : Call), s.passes 7 2 .operator c t →
    let found := s.tagged c.requester (BitVec.ofNat 16 (natAt c.params 0 2))
    let marked (x : QueueEntry) (mark : Bool) : State := t.updEntry x.serial fun y => { y with cancelMark := mark }
    let done (u : State) : Prop := HasEffect .cancel s (u.answer c.place .ok [])
    (found = none → Refuses .cancel s c t .notFound)
    ∧ ∀ x, found = some x →
      (x.state = .waiting →
        (x.kind = .survey → done ((t.updEntry x.serial fun y =>
          { y with requester := 0, external := none, priority := 0 }).answerEntry x .cancelled []))
        ∧ ∀ o, x.kind = .test o →
          (o.sweep = none → done (t.finishEntry x .cancelled []))
          ∧ ∀ w, o.sweep = some w → done (t.cancelSweep x x.port w))
      ∧ ∀ e, x.state = .inFlight e →
        let early := (s.engine e).state = .quiesce ∨ (s.engine e).state = .capture
        (x.kind = .survey → Refuses .cancel s c t .tooLate)
        ∧ ∀ o, x.kind = .test o →
          (x.cancelMark = true → Refuses .cancel s c t .tooLate)
          ∧ (x.cancelMark = false → early →
            done ((marked x o.sweep.isSome).abortTest e .cancelled))
          ∧ (x.cancelMark = false → ¬ early →
            (o.sweep = none → Refuses .cancel s c t .tooLate)
            ∧ ∀ w, o.sweep = some w →
              (w.remaining ≤ 1 → Refuses .cancel s c t .tooLate)
              ∧ (1 < w.remaining → exec .cancel s = .next ((marked x true).answer c.place .ok []))))
  ∧ ∀ (s : State) (e : EngineId) (m : Measurement) (t : TestContext),
    (s.engine e).context = some m → m.test = some t →
    let cancelled : TestContext := { t with abortCause := some .cancelled, result := some ⟨.cancelled, none⟩ }
    let holding (u : State) (x : TestContext) : State := u.updEngine e fun y =>
      { y with context := some { m with test := some x } }
    let freed := (holding s cancelled).releaseSlot t.group
    let restoring := (holding freed { cancelled with captures := [] }).updEngine e fun y =>
      { y with state := .restore, phaseTimer := none }
    (freed.group t.group).slot = none
    ∧ (s.quadUp m.port = true → s.abortTest e .cancelled = restoring.send m.port .release
      ∧ (s.abortTest e .cancelled).mode m.port = .openMode)
    ∧ (s.quadUp m.port = false → s.abortTest e .cancelled = restoring.completeRestore e)

/-- R9 to R11, R55, R56: RETRAIN and SET_ADMIN by link state; a restart records the attempt running as
abandoned, leaves UP, sends STOP_TRAIN, forms the demoted set from the from rate and begins anew; a disabled
port goes to OFF with SILENCE, an enabled one from OFF to LISTEN with RELEASE. A RETRAIN from EXCHANGE sends
STOP_TRAIN (log 12: the model's reading), and a request that the restart or the change of admin ends is
answered before it (log 36: the model's choice). -/
def Obligations.PortsRestartedAndSwitched : Prop :=
  let left (s : State) (p : Port) : State :=
    match s.link p with
    | .train | .verify =>
      (s.updTraining p fun t => t.noted (t.attemptRecord .abandoned t.margin)).send p .stopTrain
    | .up => (s.departUp p .portBusy).send p .stopTrain
    | .exchange => s.send p .stopTrain
    | _ => s
  (∀ (s t : State) (c : Call) (p : Port), s.passes 8 2 .operator c t → c.names c.disturbSet p →
    let code := byteAt c.params 1
    (5 < code → Refuses .retrain s c t .badValue)
    ∧ (code ≤ 5 →
      (s.link p = .off → Refuses .retrain s c t .portDisabled)
      ∧ (s.link p = .noLine → Refuses .retrain s c t .noLine)
      ∧ (s.link p = .held → Refuses .retrain s c t .portBusy)
      ∧ (s.link p ∉ [LinkState.off, .noLine, .held] → HasEffect .retrain s
        ((((left t p).updTraining p fun x =>
          { x with demoted := Rate.all.filter fun r => decide (code ≠ 0 ∧ code < r.code) }).beginExchange
            false p).answer c.place .ok []))))
  ∧ (∀ (s t : State) (c : Call) (p : Port), s.passes 9 2 .admin c t → c.names c.disturbSet p →
    let stored (now : Bool) : State := t.updPort p fun x => { x with profile := { x.profile with enabled := now } }
    let done (u : State) : Prop := HasEffect .setAdmin s (u.answer c.place .ok [])
    (1 < byteAt c.params 1 → Refuses .setAdmin s c t .badValue)
    ∧ (byteAt c.params 1 = 0 → (s.profile p).enabled = true → done ((stored false).disablePort p))
    ∧ (byteAt c.params 1 = 1 → (s.profile p).enabled = false → done ((stored true).enablePort p))
    ∧ ((s.profile p).enabled = (byteAt c.params 1 == 1) → byteAt c.params 1 ≤ 1 →
      exec .setAdmin s = .next (t.answer c.place .ok [])))
  ∧ ∀ (s : State) (p : Port),
    (s.link p = .held ∨ s.link p = .noLine ∨ s.link p = .off → s.disablePort p = s)
    ∧ (s.link p ∉ [LinkState.off, .noLine, .held] → s.disablePort p
      = s.leavingTrain p (((left s p).updTraining p fun t => t.quieted .off).send p .silence))
    ∧ (s.link p = .off → s.enablePort p = (s.send p .release).enterListen p)
    ∧ (s.link p ≠ .off → s.enablePort p = s)

/-- R4 to R8, R10, R11, R151: WRITE_PROFILE refuses a value of the refused class and a change of group in
TRAIN, PENDING_TRAIN and HELD; it stores the record with the clamped fields clamped, and its effects follow.
The order of the effects is log 15, and that of the replies, a request ended before the WRITE_PROFILE, log 36:
the model's choices. -/
def Obligations.ProfilesWritten : Prop :=
  (∀ (s t : State) (c : Call) (p : Port), s.passes 10 33 .admin c t → c.names c.disturbSet p →
    let given := Profile.fields (c.params.drop 1)
    (given = none → Refuses .writeProfile s c t .badValue)
    ∧ ∀ g, given = some g →
      let new := g.intoRange
      (¬ g.storable → Refuses .writeProfile s c t .badValue)
      ∧ (g.storable →
        (g.group ≠ (s.profile p).group → s.link p ∈ [LinkState.train, .pendingTrain, .held] →
          Refuses .writeProfile s c t .portBusy)
        ∧ (g.group = (s.profile p).group ∨ s.link p ∉ [LinkState.train, .pendingTrain, .held] →
          HasEffect .writeProfile s
            ((t.storeProfile p new).answer c.place (if new = g then .ok else .okAdjusted) []))))
  ∧ (∀ (s : State) (p : Port) (new : Profile),
    let old := s.profile p
    let stored := (s.updPort p fun x => { x with profile := new })
    let grouped := if new.group = old.group then stored else stored.oweSelection.oweReservations
    s.storeProfile p new = (((grouped.ratesRemoved p old.allowed).adminStored p old.enabled
      new.enabled).surveyStored p old.survey new.survey))
  ∧ (∀ (s : State) (p : Port) (old : RateSet),
    let removed (r : Rate) : Prop := r ∈ old ∧ r ∉ (s.profile p).allowed
    let aborted := (s.updTraining p fun t =>
      { t.noted (t.attemptRecord .abandoned t.margin) with attempts := 0 }).send p .stopTrain
    (∀ r, s.link p = .up → (s.training p).current = some r → removed r → s.ratesRemoved p old
      = (((s.raise p .degradedProfile).departUp p .portBusy).send p .stopTrain).beginExchange false p)
    ∧ (s.link p = .exchange → (∃ r ∈ (s.training p).ability, removed r) →
      s.ratesRemoved p old = s.beginExchange true p)
    ∧ (∀ r, s.link p = .train ∨ s.link p = .verify → (s.training p).target = some r → removed r →
      s.ratesRemoved p old = aborted.beginExchange false p)
    ∧ (∀ r, s.link p = .pendingTrain → (s.training p).target = some r → removed r →
      s.ratesRemoved p old = s.beginExchange false p)
    ∧ (s.link p = .up → (∀ r, (s.training p).current = some r → ¬ removed r) → s.ratesRemoved p old = s)
    ∧ (s.link p = .exchange → (∀ r ∈ (s.training p).ability, ¬ removed r) → s.ratesRemoved p old = s)
    ∧ (s.link p ∈ [LinkState.train, .verify, .pendingTrain] →
      (∀ r, (s.training p).target = some r → ¬ removed r) → s.ratesRemoved p old = s)
    ∧ (s.link p ∈ [LinkState.off, .noLine, .listen, .held, .backoff] → s.ratesRemoved p old = s))
  ∧ (∀ (s : State) (p : Port) (b : Bool), s.adminStored p b b = s
    ∧ s.adminStored p true false = s.disablePort p ∧ s.adminStored p false true = s.enablePort p)
  ∧ ∀ (s : State) (p : Port),
    (s.surveyStored p true true = s ∧ s.surveyStored p false false = s)
    ∧ (s.link p = .up → (s.survey p).state = .idle → (s.profile p).survey = true →
      s.surveyStored p false true = s.updSurvey p fun r =>
        { r with state := .counting, surveyTimer := some (s.profile p).surveyInterval, graceTimer := none })
    ∧ (s.link p ≠ .up ∨ (s.survey p).state ≠ .idle → s.surveyStored p false true = s)
    ∧ (s.surveyEntry p = none → s.surveyStored p true false
      = s.updSurvey p fun _ => ⟨.idle, none, none, false⟩)
    ∧ ∀ x, s.surveyEntry p = some x →
      (x.external = none → x.state = .waiting → s.surveyStored p true false
        = (s.updSurvey p fun _ => ⟨.idle, none, none, false⟩).removeEntry x.serial)
      ∧ (x.external ≠ none ∨ x.state ≠ .waiting → s.surveyStored p true false
        = s.updSurvey p fun r => { r with surveyTimer := none, pending := false })

/-- R59, R60, R64, R65 (presence bytes and bits above the classes: log 19, the model's reading):
WRITE_PLAN_ENTRY refuses a record that fails a check; it stores the entry with its margins clamped and selects
every port's class anew; the class is the first entry in use whose limits the port's two inputs meet, and 0
otherwise. -/
def Obligations.PlanEntriesWritten : Prop :=
  (∀ (s t : State) (c : Call), s.passes 11 33 .admin c t →
    let b := c.params.drop 1
    let index := byteAt c.params 0
    let stored (i : Fin 16) (e : PlanEntry) : State :=
      { t with
        plan := t.plan.set i e
        ports := t.ports.map fun x => { x with cableClass := selectClass (t.plan.set i e) x.report x.summary } }
    (¬ planAcceptable index b → Refuses .writePlanEntry s c t .badValue)
    ∧ ∀ i : Fin 16, i.val = index → planAcceptable index b → ∃ e : PlanEntry, ∃ clamped : Bool,
      exec .writePlanEntry s
        = .next ((stored i e).answer c.place (if clamped then .okAdjusted else .ok) [])
      ∧ e.storedFrom index b
      ∧ (clamped = true ↔ ∃ k, k < byteAt b 7
        ∧ (intAt b (10 + 4 * k) < -100 ∨ 300 < intAt b (10 + 4 * k))))
  ∧ ∀ (plan : Vector PlanEntry 16) (report : Option CableReport) (summary : Option SurveySummary),
    let length := (report.bind CableReport.length).or (summary.map SurveySummary.length)
    let worst := (report.map CableReport.worst).getD .normal
    let fits (i : Fin 16) : Prop := i ≠ 0 ∧ plan[i].inUse = true
      ∧ ∃ n m t, length = some n ∧ plan[i].maxLength = some m ∧ n ≤ m ∧ plan[i].tolerated = some t ∧ worst ∈ t
    (∀ i, fits i → (∀ j, j < i → ¬ fits j) → selectClass plan report summary = i)
    ∧ ((∀ i, ¬ fits i) → selectClass plan report summary = 0)

/-- R127 to R130: SET_GEOMETRY, WRITE_SIGNATURES, CLEAR_BLOCK and LOWER_LOCK take their checks in order; one
that passes stores what it carries, and a refused one changes nothing. -/
def Obligations.SignatureTableWritten : Prop :=
  (∀ (s t : State) (c : Call), s.passes 14 4 .admin c t →
    let g := Geometry.ofRecord c.params
    let allowed := g.allowed
    let blank := ∀ i : Fin 1024, i.val < s.signatures.lock → s.signatures.entries[i] = none
    (¬ allowed → Refuses .setGeometry s c t .badValue)
    ∧ (allowed → s.signatures.lock < 1024 → Refuses .setGeometry s c t .locked)
    ∧ (allowed → 1024 ≤ s.signatures.lock → ¬ blank → Refuses .setGeometry s c t .notBlank)
    ∧ (allowed → 1024 ≤ s.signatures.lock → blank → exec .setGeometry s
      = .next ({ t with signatures := { t.signatures with geometry := g } }.answer c.place .ok [])))
  ∧ (∀ (s t : State) (c : Call), s.ready → s.calls 12 c t → Role.admin.code ≤ c.role.code →
    let start := natAt c.params 0 2
    let count := byteAt c.params 2
    c.params.length = 3 + count →
    let item (k : Nat) : Nat := byteAt c.params (3 + k)
    let ranged := 1 ≤ count ∧ count ≤ 16 ∧ start + count ≤ 1024
    let named := ∀ k, k < count → ∃ x : FaultClass, x.severity = item k / 16 ∧ x ≠ .normal ∧ x ≠ .beyondReach
    let blank := ∀ i : Fin 1024, start ≤ i.val → i.val < start + count → s.signatures.entries[i] = none
    (¬ (ranged ∧ named) → Refuses .writeSignatures s c t .badValue)
    ∧ (ranged → named → s.signatures.lock < start + count → Refuses .writeSignatures s c t .locked)
    ∧ (ranged → named → start + count ≤ s.signatures.lock → ¬ blank →
      Refuses .writeSignatures s c t .notBlank)
    ∧ (ranged → named → start + count ≤ s.signatures.lock → blank → ∃ entries,
      exec .writeSignatures s
        = .next ({ t with signatures := { t.signatures with entries := entries } }.answer c.place .ok [])
      ∧ (∀ i : Fin 1024, i.val < start ∨ start + count ≤ i.val → entries[i] = s.signatures.entries[i])
      ∧ ∀ (i : Fin 1024) k, k < count → i.val = start + k → ∃ x : FaultClass, x.severity = item k / 16
        ∧ entries[i] = some ⟨x, item k % 16⟩))
  ∧ (∀ (s t : State) (c : Call), s.passes 13 1 .admin c t →
    let block := byteAt c.params 0
    (63 < block → Refuses .clearBlock s c t .badValue)
    ∧ (block ≤ 63 → s.signatures.lock ≤ 16 * block → Refuses .clearBlock s c t .locked)
    ∧ (block ≤ 63 → 16 * block < s.signatures.lock → ∃ entries, exec .clearBlock s
      = .next ({ t with signatures := { t.signatures with entries := entries } }.answer c.place .ok [])
      ∧ ∀ i : Fin 1024, entries[i]
        = if 16 * block ≤ i.val ∧ i.val < 16 * block + 16 then none else s.signatures.entries[i]))
  ∧ ∀ (s t : State) (c : Call), s.passes 15 2 .admin c t →
    let new := natAt c.params 0 2
    (1024 < new ∨ new % 16 ≠ 0 ∨ s.signatures.lock < new → Refuses .lowerLock s c t .badValue)
    ∧ (new ≤ 1024 → new % 16 = 0 → new ≤ s.signatures.lock → exec .lowerLock s
      = .next ({ t with signatures := { t.signatures with lock := new } }.answer c.place .ok []))

/-- R157, R167, R168, R173: WRITE_REQUESTER replaces a slot whole; SET_STATION is stored once between two
resets and, with a destination and a pending event, starts an idle notice unit's holdoff; RESET_PART alone
in its frame is answered OK and ends the acceptance of frames. -/
def Obligations.SupervisionWritten : Prop :=
  (∀ (s t : State) (c : Call), s.passes 16 24 .admin c t →
    let b := c.params
    (¬ requesterAcceptable b → Refuses .writeRequester s c t .badValue)
    ∧ (requesterAcceptable b → ∀ (i : RequesterId) (r : Role), i.val = byteAt b 0 → r.code = byteAt b 9 →
      exec .writeRequester s = .next ((t.updSupervision fun v =>
        { v with requesters := v.requesters.set i (Requester.ofRecord b r) }).answer c.place .ok [])))
  ∧ (∀ (s t : State) (c : Call), s.passes 17 24 .admin c t →
    let b := c.params
    let idleWithEvents := s.notice.state = .idle ∧ (s.notice.device ≠ ⟨none, none⟩
      ∨ ∃ p, (s.port p).events ≠ ⟨none, none, none, none, none, none, none, none⟩)
    (s.supervision.stationSet = true → Refuses .setStation s c t .alreadySet)
    ∧ (s.supervision.stationSet = false → ¬ stationAcceptable b → Refuses .setStation s c t .badValue)
    ∧ (s.supervision.stationSet = false → stationAcceptable b → ∀ slot : Port, slot.val = byteAt b 15 →
      let stored := t.updSupervision fun v =>
        { v with station := Station.ofRecord b slot, stationSet := true }
      (byteAt b 8 = 1 → idleWithEvents → exec .setStation s = .next ({ stored with
        notice := { stored.notice with state := .holding, holdoffTimer := some (natAt b 16 2) } }.answer
          c.place .ok []))
      ∧ (byteAt b 8 = 0 ∨ ¬ idleWithEvents → exec .setStation s = .next (stored.answer c.place .ok []))))
  ∧ ∀ (s t : State) (c : Call), s.passes 18 0 .admin c t →
    (c.alone = false → Refuses .resetPart s c t .badValue)
    ∧ (c.alone = true → exec .resetPart s
      = .next ((t.updSupervision fun v => { v with accepting := false }).answer c.place .ok []))

/-! ### Arithmetic and reports -/

/-- R113 to R120, R123, R125: which ticks are peak candidates, and what the arithmetic makes of one: its
distance, reach clamp, compensated and saturated amplitude and signature index; a survey's taps take the same
steps. The candidates of a capture set are listed by tick. -/
def Obligations.ReflectionArithmetic : Prop :=
  (∀ (k : ArithmeticInputs) (pulsed listening : Pair) (tick : Nat) (sample : Int),
    let r := reflectionRecord k pulsed listening (tick, sample)
    let net := if k.pathOffset ≤ tick then tick - k.pathOffset else 0
    let dist := (net * k.nvp * 1874 + 500000) / 1000000
    let factor : Int := 1024 + k.slope * (r.distance / 10 : Nat)
    let quotient : Nat := (sample * factor).natAbs / 1024
    r.pulsed = pulsed ∧ r.listening = listening ∧ r.tick = tick
    ∧ (dist ≤ k.geometry.reach → r.distance = dist ∧ r.beyond = false)
    ∧ (k.geometry.reach < dist → r.distance = k.geometry.reach ∧ r.beyond = true ∧ r.index = none)
    ∧ (1023 < quotient → r.saturated = true ∧ r.comp = if 0 < sample * factor then 1023 else -1023)
    ∧ (quotient ≤ 1023 → r.saturated = false
      ∧ r.comp = if 0 < sample * factor then (quotient : Int) else -quotient)
    ∧ (r.beyond = false → ∃ i, r.index = some i ∧ ∀ D A : Nat, D = k.geometry.distanceBins →
      A = k.geometry.amplitudeBins →
      let relation := if pulsed = listening then 0 else 1
      let polarity := if 0 ≤ r.comp then 0 else 1
      let dbin := min (D - 1) (r.distance * D / k.geometry.reach)
      let abin := min (A - 1) (r.comp.natAbs * A / 1024)
      i = ((relation * 2 + polarity) * D + dbin) * A + abin
      ∧ (D * A = 256 → 1 ≤ D → (relation * 2 + polarity) * 256 ≤ i ∧ i < (relation * 2 + polarity + 1) * 256)))
  ∧ (∀ (start : Nat) (samples : List Int) (tick : Nat) (x : Int),
    (tick, x) ∈ peaks start samples ↔
      samples[tick]? = some x ∧ start < tick ∧ 4 ≤ x.natAbs
      ∧ (∀ left, samples[tick - 1]? = some left →
        left.natAbs ≤ x.natAbs ∧ (left = 0 ∨ (0 < left ↔ 0 < x)))
      ∧ ∀ right, samples[tick + 1]? = some right →
        right.natAbs < x.natAbs ∧ (right = 0 ∨ (0 < right ↔ 0 < x)))
  ∧ (∀ (start : Nat) (samples : List Int), (peaks start samples).Pairwise fun a b => a.1 < b.1)
  ∧ ∀ (k : ArithmeticInputs) (a b c d : Tap),
    let r := surveySummary k a b c d
    let tap (x : Tap) : ReflectionRecord := reflectionRecord k .a .a (x.position, x.magnitude)
    r.lengths = #v[(tap a).distance, (tap b).distance, (tap c).distance, (tap d).distance]
      ∧ r.healths = #v[(tap a).comp, (tap b).comp, (tap c).comp, (tap d).comp]
      ∧ (∀ i : Fin 4, r.lengths[i] ≤ r.length) ∧ ∃ i : Fin 4, r.lengths[i] = r.length

/-- R113, R114, R121, R122, R132, R133, R136 to R139: a capture set keeps at most its three strongest
reflections over the threshold, listed by distance: those of its own candidates beyond the path offset and the
near-end blank; each is classified by its index; a report has a finding for every pair, a cross finding for
every cross set that kept one, of its strongest, the smaller tick deciding a tie, the most severe class as its
worst verdict, and the greatest distance classed OPEN as its length. -/
def Obligations.ReportsBuilt : Prop :=
  (Verdict.cls .notTested = none ∧ ∀ c, Verdict.cls (.classed c) = some c) ∧
  let before (x y : ReflectionRecord) : Prop :=
    y.comp.natAbs < x.comp.natAbs ∨ (x.comp.natAbs = y.comp.natAbs ∧ x.tick < y.tick)
  (∀ (threshold : Nat) (xs : List ReflectionRecord), (xs.map ReflectionRecord.tick).Nodup →
    let kept := keepStrongest threshold xs
    kept.length = min 3 (xs.filter fun x => threshold ≤ x.comp.natAbs).length
    ∧ (∀ x ∈ kept, x ∈ xs ∧ threshold ≤ x.comp.natAbs)
    ∧ (∀ y ∈ xs, threshold ≤ y.comp.natAbs → y ∉ kept → ∀ x ∈ kept, before x y)
    ∧ kept.Pairwise fun x y => x.distance < y.distance ∨ (x.distance = y.distance ∧ x.tick < y.tick))
  ∧ (∀ (k : ArithmeticInputs) (captures : List CaptureSet) (x y : Pair),
    let labelled (c : CaptureSet) : Prop := c.pulsed = x ∧ c.listening = y
    ((∀ c ∈ captures, ¬ labelled c) → keptFor k captures x y = [])
    ∧ ∀ front c rest, captures = front ++ c :: rest → labelled c → (∀ b ∈ front, ¬ labelled b) →
      keptFor k captures x y = keepStrongest k.threshold
        ((peaks (k.pathOffset + k.nearBlank) c.samples).map (reflectionRecord k x y)))
  ∧ (∀ (entries : Vector (Option Signature) 1024) (r : ReflectionRecord),
    let as (cls : FaultClass) (confidence : Nat) : Reflection :=
      ⟨r.distance, r.comp, cls, confidence, r.saturated⟩
    (r.index = none → classify entries r = as .beyondReach 15)
    ∧ ∀ i : Fin 1024, r.index = some i.val →
      (entries[i] = none → classify entries r = as .unclassified 0)
      ∧ ∀ g, entries[i] = some g → classify entries r = as g.cls g.confidence)
  ∧ ∀ (k : ArithmeticInputs) (entries : Vector (Option Signature) 1024) (port : Port) (t : TestContext),
    let r := buildReport k entries port t
    let kept (x y : Pair) : List Reflection := (keptFor k t.captures x y).map (classify entries)
    let verdicts : List FaultClass :=
      r.findings.toList.filterMap (fun f => f.verdict.cls) ++ r.cross.map fun c => c.reflection.cls
    let reflections : List Reflection :=
      (r.findings.toList.map PairFinding.reflections).flatten ++ r.cross.map CrossFinding.reflection
    r.port = port ∧ r.pairs = t.pairs ∧ r.averaging = t.averaging ∧ r.crossPair = t.crossPair
    ∧ r.force = t.force
    ∧ (∀ p : Pair, (p ∉ t.pairs → r.findings[p.index] = ⟨.notTested, []⟩)
      ∧ (p ∈ t.pairs → kept p p = [] → r.findings[p.index] = ⟨.classed .normal, []⟩)
      ∧ (p ∈ t.pairs → kept p p ≠ [] → ∃ c, r.findings[p.index] = ⟨.classed c, kept p p⟩
        ∧ c ∈ (kept p p).map Reflection.cls ∧ ∀ x ∈ kept p p, x.cls.severity ≤ c.severity))
    ∧ (∀ c ∈ r.cross, c.pulsed ≠ c.listening
      ∧ ∃ x ∈ keptFor k t.captures c.pulsed c.listening, c.reflection = classify entries x
        ∧ ∀ y ∈ keptFor k t.captures c.pulsed c.listening, y ≠ x → before x y)
    ∧ (∀ x y : Pair, x ≠ y → kept x y ≠ [] → ∃ c ∈ r.cross, c.pulsed = x ∧ c.listening = y)
    ∧ (r.cross.Pairwise fun x y => x.pulsed.index < y.pulsed.index
      ∨ (x.pulsed = y.pulsed ∧ x.listening.index < y.listening.index))
    ∧ (verdicts ≠ [] → r.worst ∈ verdicts) ∧ (∀ c ∈ verdicts, c.severity ≤ r.worst.severity)
    ∧ (∀ d, r.length = some d ↔ (∃ x ∈ reflections, x.cls = .openEnd ∧ x.distance = d)
      ∧ ∀ x ∈ reflections, x.cls = .openEnd → x.distance ≤ d)

/-! ### What the part shows, and its formats -/

/-- R161: the greatest reply data that a request's code and parameters could produce, row by row. An undefined
selector or form counts 0, and the count and selector bytes are read whatever the parameter length (log 7: the
model's choice). Eight single tests fit one frame, and four READ_PORTs do not. -/
def Obligations.WorstCaseReplies : Prop :=
  (∀ b : List Byte,
    worstData 1 b = 448
    ∧ (byteAt b 1 = 0 → worstData 2 b = 176)
    ∧ (byteAt b 1 = 1 ∨ byteAt b 1 = 2 → worstData 2 b = 24)
    ∧ (2 < byteAt b 1 → worstData 2 b = 0)
    ∧ (byteAt b 0 = 0 → worstData 3 b = 33)
    ∧ (byteAt b 0 = 1 → worstData 3 b = 4 + 2 * byteAt b 3)
    ∧ (byteAt b 0 = 2 → worstData 3 b = 8)
    ∧ (byteAt b 0 = 3 → worstData 3 b = 24)
    ∧ (byteAt b 0 = 4 → worstData 3 b = 32)
    ∧ (4 < byteAt b 0 → worstData 3 b = 0)
    ∧ worstData 4 b = 48
    ∧ ((byteAt b 3).testBit 2 = false → worstData 5 b = 176)
    ∧ ((byteAt b 3).testBit 2 = true → worstData 5 b = 8 + 8 * byteAt b 4)
    ∧ worstData 6 b = 24
    ∧ ∀ code, code = 0 ∨ 6 < code → worstData code b = 0)
  ∧ (worstSize [] = 0 ∧ ∀ (e : RawEntry) (rest : List RawEntry),
    worstSize (e :: rest) = 8 + worstData e.code.toNat e.params + worstSize rest)
  ∧ ∀ (e : RawEntry), (e.code = 5 → (byteAt e.params 3).testBit 2 = false → worstSize (List.replicate 8 e) ≤ 1480)
    ∧ (e.code = 1 → worstSize (List.replicate 3 e) ≤ 1480 ∧ 1480 < worstSize (List.replicate 4 e))

/-- R19, R164, R166, section 13.3: the status word of a port, also right after a reset; what READ_PORT returns,
160 bytes and a record for each queue entry of the port, and what READ_STATUS returns, 48 bytes, each field at
its offset. The records of the history, the queue and the pending events stand here too. -/
def Obligations.StateShown : Prop :=
  (∀ (s : State) (p : Port), let w := s.statusWord p
    (w.linkUp = true ↔ s.link p = .up) ∧ (w.held = true ↔ s.link p = .held)
    ∧ (s.link p = .up → w.rate = (s.training p).current) ∧ (s.link p ≠ .up → w.rate = none)
    ∧ (s.justReset → w = ⟨false, none, false⟩))
  ∧ (∀ (s : State) (p : Port), (s.training p).bounded →
    let d := s.portData p
    let t := s.training p
    let c := s.traffic p
    let entries := s.queue.filter fun x => x.port == p
    d.length = 160 + 8 * entries.length
    ∧ Holds d
      [(0, byteOf p.val), (1, byteOf t.link.code), (2, RateSet.byte t.ability), (3, RateSet.byte t.demoted),
        (4, optionalRateByte t.target), (5, byteOf t.attempts), (6, optionalRateByte t.current),
        (7, flagByte t.energy), (8, flagByte t.margin.isSome), (9, intBytes 2 (t.margin.getD 0)),
        (11, natBytes 2 t.degradeCount), (13, byteOf (s.port p).cableClass.val),
        (14, flagByte t.snapshot.isSome), (48, byteOf t.history.length), (49, fill 1),
        (50, (t.history.map HistoryRecord.encode).flatten),
        (50 + 8 * t.history.length, fill (64 - 8 * t.history.length))]
    ∧ Holds d
      [(114, natBytes 4 c.toLine), (118, natBytes 4 c.toSwitch), (122, natBytes 4 c.droppedNotUp),
        (126, natBytes 4 c.badCheck), (130, natBytes 4 c.diverted), (134, flagByte (s.quadUp p)),
        (135, byteOf (s.mode p).code), (136, byteOf (s.survey p).state.code),
        (137, flagByte (s.survey p).pending), (141, fill 1), (142, (s.port p).events.encode p),
        (158, byteOf entries.length), (159, fill 1), (160, (entries.map QueueEntry.encode).flatten)]
    ∧ (t.snapshot = none → Holds d [(15, fill 33)])
    ∧ (∀ x, t.snapshot = some x → Holds d [(15, byteOf x.index.val), (16, x.entry.encode)])
    ∧ (s.engineOn p = none → Holds d [(138, byteOf 0xFF), (139, byteOf 0), (140, byteOf 0)])
    ∧ ∀ e m, s.engineOn p = some e → (s.engine e).context = some m →
      Holds d [(138, byteOf e.val), (139, byteOf (s.engine e).state.code)]
      ∧ (m.test = none → Holds d [(140, byteOf 0)])
      ∧ ∀ x, m.test = some x → Holds d [(140, byteOf x.captures.length)])
  ∧ (∀ s : State,
    let d := s.statusData
    let u := s.startUp
    let v := s.supervision
    d.length = 48
    ∧ (∀ k, (byteAt d 0).testBit k = (if k = 0 then u.causes.powerOn else if k = 1 then u.causes.pin
      else if k = 2 then u.causes.supervisor else if k = 3 then u.causes.imageRejected else false))
    ∧ Holds d
      [(1, fill 1), (2, natBytes 2 v.unknownSource), (4, natBytes 2 v.malformed), (6, natBytes 2 v.noReplySlot),
        (8, flagByte (!s.loading)), (12, flagByte v.stationSet), (13, fill 3), (16, v.station.encode), (40, fill 8)]
    ∧ (u.outcome = none → Holds d [(9, byteOf 0), (10, byteOf 0)])
    ∧ (u.outcome = some .accepted → Holds d [(9, byteOf 1), (10, byteOf 0)])
    ∧ (∀ reason, u.outcome = some (.rejected reason) → Holds d [(9, byteOf 2), (10, byteOf reason.code)])
    ∧ (u.applied.Nodup → ∀ k : SectionKind, (byteAt d 11).testBit (k.code - 1) = true ↔ k ∈ u.applied))
  ∧ (∀ h : HistoryRecord, h.encode.length = 8 ∧ Holds h.encode
      [(0, optionalRateByte h.rate), (1, byteOf h.outcome.code), (2, flagByte h.margin.isSome),
        (3, intBytes 2 (h.margin.getD 0)), (5, byteOf h.attempt), (6, byteOf h.planIndex), (7, fill 1)])
  ∧ (∀ x : QueueEntry, x.encode.length = 8
    ∧ (∀ k, (byteAt x.encode 0).testBit k = (if k = 0 then x.isSurvey else if k = 1 then x.state != .waiting
      else if k = 2 then x.urgent else false))
    ∧ Holds x.encode [(1, byteOf x.requester.val), (4, natBytes 4 (x.serial % 2 ^ 32))]
    ∧ (x.external = none → Holds x.encode [(2, fill 2)])
    ∧ ∀ y, x.external = some y → Holds x.encode [(2, natBytes 2 y.tag.toNat)])
  ∧ (∀ (p : Port) (e : PortEvents), e.countsFit →
    let b := e.encode p
    let count (k : Nat) : Nat := byteAt b (2 + k / 2) / 16 ^ (1 - k % 2) % 16
    let flag (k : Nat) : Bool := (byteAt b 1).testBit k
    b.length = 16 ∧ Holds b [(0, byteOf p.val), (15, fill 1)]
    ∧ count 0 = e.linkUp.getD 0 ∧ count 1 = e.linkDown.getD 0 ∧ count 3 = e.noCommonRate.getD 0
    ∧ count 7 = e.frontEndFault.getD 0 ∧ count 8 = 0 ∧ count 9 = 0
    ∧ (e.trainExhausted = none → count 2 = 0 ∧ flag 0 = false)
    ∧ (∀ x, e.trainExhausted = some x → count 2 = x.count ∧ flag 0 = x.notQueued)
    ∧ (e.degraded = none → count 4 = 0 ∧ flag 1 = false ∧ flag 2 = false)
    ∧ (∀ x, e.degraded = some x → count 4 = x.count ∧ flag 1 = x.errors ∧ flag 2 = x.profile)
    ∧ (e.cableFault = none → count 5 = 0 ∧ Holds b [(7, fill 4)])
    ∧ (∀ x, e.cableFault = some x → count 5 = x.count ∧ Holds b [(7, natBytes 4 x.sequence.toNat)])
    ∧ (e.cableDrift = none → count 6 = 0 ∧ Holds b [(11, fill 4)])
    ∧ (∀ x, e.cableDrift = some x → count 6 = x.count ∧ Holds b [(11, natBytes 4 x.sequence.toNat)])
    ∧ ∀ k, 2 < k → flag k = false)
  ∧ ∀ e : DeviceEvents, e.countsFit →
    let b := e.encode
    b.length = 16 ∧ Holds b [(0, byteOf 0xFF), (1, fill 5), (7, fill 9)]
    ∧ byteAt b 6 / 16 = e.startUp.getD 0 ∧ byteAt b 6 % 16 = e.imageRejected.getD 0

/-- R180, R182, section 13.2: how numbers stand in bytes, most significant first, and are read back; the head
of a frame that the part builds, its padding to 64 bytes with zero bytes, and its check sequence; the entries
of a reply, one after another. The register form of the check, its polynomial reflected, is log 18: the model's
reading. -/
def Obligations.FramesLaidOut : Prop :=
  (∀ k n : Nat, (natBytes k n).length = k
    ∧ (∀ i, i < k → byteAt (natBytes k n) i = n / 256 ^ (k - 1 - i) % 256)
    ∧ bytesNat (natBytes k n) = n % 256 ^ k)
  ∧ (bytesNat [] = 0 ∧ ∀ (b : List Byte) (x : Byte), bytesNat (b ++ [x]) = 256 * bytesNat b + x.toNat)
  ∧ (∀ (b : List Byte) (offset width : Nat), byteAt b offset = ((b[offset]?).getD 0).toNat
    ∧ natAt b offset width = bytesNat ((b.drop offset).take width)
    ∧ intAt b offset = if natAt b offset 2 < 32768 then (natAt b offset 2 : Int) else natAt b offset 2 - 65536)
  ∧ (∀ n : Nat, byteOf n = [BitVec.ofNat 8 n] ∧ fill n = List.replicate n 0)
  ∧ flagByte false = [0] ∧ flagByte true = [1]
  ∧ (∀ x : Int, -32768 ≤ x → x < 32768 → intAt (intBytes 2 x) 0 = x
    ∧ intBytes 2 x = natBytes 2 (if 0 ≤ x then x.toNat else (x + 65536).toNat))
  ∧ (∀ (station : Station) (destination : Address) (kind tag count : Nat) (payload : List Byte),
    let f := originated station destination kind tag count payload
    f.length = 22 + payload.length
    ∧ Holds f
      [(0, natBytes 6 destination.toNat), (6, natBytes 6 station.address.toNat),
        (12, natBytes 2 station.ethertype.toNat), (14, byteOf 1), (15, byteOf kind), (16, natBytes 2 tag),
        (18, byteOf count), (19, fill 1), (20, natBytes 2 payload.length), (22, payload)])
  ∧ (∀ body : List Byte, let f := sealFrame body
    f.length = max 64 (body.length + 4) ∧ checkGood f = true
    ∧ Holds f
      [(0, body), (body.length, fill (60 - body.length)), (f.length - 4, checkBytes (f.take (f.length - 4)))])
  ∧ (∀ i : Nat, ReplyEntry.encodeFrom i [] = [] ∧ ∀ (e : ReplyEntry) (rest : List ReplyEntry),
    ReplyEntry.encodeFrom i (e :: rest) = e.encode i ++ ReplyEntry.encodeFrom (i + 1) rest
    ∧ ∀ a, e.answer = some a → (e.encode i).length = 8 + a.data.length
      ∧ Holds (e.encode i)
        [(0, [e.code]), (1, byteOf a.code.code), (2, natBytes 2 e.tag.toNat), (4, natBytes 2 a.data.length),
          (6, byteOf i), (7, fill 1), (8, a.data)])
  ∧ (∀ frame : List Byte, checkGood frame = true ↔
    4 ≤ frame.length ∧ frame.drop (frame.length - 4) = checkBytes (frame.take (frame.length - 4)))
  ∧ (∀ b : List Byte, (checkBytes b).length = 4
    ∧ ∀ i, i < 4 → byteAt (checkBytes b) i = (checkValue b).toNat / 256 ^ i % 256)
  ∧ (checkValue [] = ~~~ 0xFFFFFFFF#32 ∧ ∀ (b : List Byte) (x : Byte),
    checkValue (b ++ [x]) = ~~~ checkShift 8 (~~~ checkValue b ^^^ x.setWidth 32))
  ∧ ∃ reflected : BitVec 32, (∀ i, i < 32 → reflected.getLsbD i = (0x04C11DB7#32).getLsbD (31 - i))
    ∧ ∀ (n : Nat) (c : BitVec 32), checkShift 0 c = c
      ∧ checkShift (n + 1) c = checkShift n (if c.getLsbD 0 then (c >>> 1) ^^^ reflected else c >>> 1)

/-- R180, section 13.3: the codes by which named values travel; sets in bytes; the records of a profile (read
and written), a plan entry, a requester slot and the station; the forms of the signature table; the cable
report, the survey summary and a sweep's data. -/
def Obligations.RecordsLaidOut : Prop :=
  ([LinkState.off, .noLine, .listen, .exchange, .pendingTrain, .train, .verify, .up, .held, .backoff].map
      LinkState.code = List.range 10
    ∧ (∀ pulsed expected, [LineMode.openMode, .silencing, .silentMode, .capturing pulsed expected,
      .readingTaps].map LineMode.code = List.range 5)
    ∧ [EngineState.idle, .quiesce, .capture, .analyze, .restore, .surveyRead].map EngineState.code = List.range 6
    ∧ [SurveyState.idle, .counting, .due, .overdue].map SurveyState.code = List.range 4
    ∧ [HistoryOutcome.success, .lowMargin, .timeout, .verifyLost, .abandoned, .noCommonRate, .exhausted].map
      HistoryOutcome.code = List.range 7
    ∧ [ResultCode.ok, .okAdjusted, .badPort, .badValue, .notPermitted, .unknownRequest, .queueFull, .duplicate,
      .livePort, .portBusy, .portDisabled, .noLine, .locked, .notBlank, .alreadySet, .notFound, .tooLate,
      .cancelled, .frontEndTimeout, .frontEndFault].map ResultCode.code = List.range 20
    ∧ [FaultClass.normal, .beyondReach, .highImpedance, .lowImpedance, .crossCoupled, .unclassified, .openEnd,
      .shorted, .crossShort].map FaultClass.severity = List.range 9
    ∧ Verdict.notTested.code = 15 ∧ (∀ c : FaultClass, (Verdict.classed c).code = c.severity)
    ∧ [Role.observer, .operator, .admin].map Role.code = List.range 3
    ∧ [RejectReason.noAcknowledge, .badMagic, .badVersion, .badLength, .badSum, .badRecord].map
      RejectReason.code = [1, 2, 3, 4, 5, 6]
    ∧ [Pair.a, .b, .c, .d].map Pair.index = [0, 1, 2, 3]
    ∧ Rate.all = [Rate.r10, .r100, .r1000, .r2500, .r5000] ∧ Rate.all.map Rate.code = [1, 2, 3, 4, 5]
    ∧ FaultClass.all.map FaultClass.severity = List.range 9
    ∧ [Rate.r10, .r100, .r1000, .r2500, .r5000].map Rate.mbps = [10, 100, 1000, 2500, 5000])
  ∧ ((∀ (set : RateSet) (r : Rate), set.Nodup →
      (RateSet.byte set).length = 1 ∧ ((byteAt (RateSet.byte set) 0).testBit (r.code - 1) = true ↔ r ∈ set))
    ∧ (∀ (set : List Pair) (x : Pair), set.Nodup →
      (pairsByte set).length = 1 ∧ ((byteAt (pairsByte set) 0).testBit x.index.val = true ↔ x ∈ set))
    ∧ (∀ (n : Nat) (x : Pair), x ∈ pairsOfByte n ↔ n.testBit x.index.val = true)
    ∧ (∀ (set : List FaultClass) (c : FaultClass), set.Nodup →
      ((set.map fun x : FaultClass => 2 ^ x.severity).sum.testBit c.severity = true ↔ c ∈ set))
    ∧ (∀ (set : PortSet) (p : Port), (portSetBytes set).length = 6
      ∧ (byteAt (portSetBytes set) (p.val / 8)).testBit (p.val % 8) = set.getLsbD p.val)
    ∧ (∀ (b : List Byte) (offset : Nat) (p : Port), offset + 6 ≤ b.length →
      (portSetAt b offset).getLsbD p.val = (byteAt b (offset + p.val / 8)).testBit (p.val % 8))
    ∧ optionalRateByte none = byteOf 0 ∧ (∀ r : Rate, optionalRateByte (some r) = byteOf r.code)
    ∧ optionalDistance none = [0xFF, 0xFF] ∧ ∀ d, optionalDistance (some d) = natBytes 2 d)
  ∧ ((∀ g : Profile, g.encode.length = 32 ∧ Holds g.encode
      [(0, flagByte g.enabled), (1, byteOf g.group.val), (2, RateSet.byte g.allowed),
        (3, optionalRateByte g.forced), (4, natBytes 2 g.nvp), (6, byteOf g.pathOffset), (7, byteOf g.nearBlank),
        (8, natBytes 2 g.threshold), (10, byteOf g.slope), (11, natBytes 2 g.verifyWindow),
        (13, natBytes 2 g.degradeThreshold), (15, natBytes 2 g.backoffTime), (17, flagByte g.autoDiagnosis),
        (18, byteOf g.internalPriority), (19, flagByte g.survey), (20, natBytes 2 g.surveyInterval),
        (22, natBytes 2 g.driftTolerance), (24, natBytes 2 g.magnitudeTolerance), (26, flagByte g.protectLive),
        (27, fill 5)])
    ∧ (∀ (b : List Byte) (g : Profile), Profile.fields b = some g ↔
      byteAt b 0 = g.enabled.toNat ∧ byteAt b 1 = g.group.val
        ∧ (byteAt b 2 < 32 ∧ g.allowed = Rate.all.filter fun r => (byteAt b 2).testBit (r.code - 1))
        ∧ byteAt b 3 = (g.forced.map Rate.code).getD 0 ∧ g.nvp = natAt b 4 2 ∧ g.pathOffset = byteAt b 6
        ∧ g.nearBlank = byteAt b 7 ∧ g.threshold = natAt b 8 2 ∧ g.slope = byteAt b 10
        ∧ g.verifyWindow = natAt b 11 2 ∧ g.degradeThreshold = natAt b 13 2 ∧ g.backoffTime = natAt b 15 2
        ∧ byteAt b 17 = g.autoDiagnosis.toNat ∧ g.internalPriority = byteAt b 18
        ∧ byteAt b 19 = g.survey.toNat ∧ g.surveyInterval = natAt b 20 2 ∧ g.driftTolerance = natAt b 22 2
        ∧ g.magnitudeTolerance = natAt b 24 2 ∧ byteAt b 26 = g.protectLive.toNat)
    ∧ (∀ e : PlanEntry, e.limitsFit → e.encode.length = 32 ∧ Holds e.encode
      [(0, flagByte e.inUse), (1, flagByte e.maxLength.isSome), (2, natBytes 2 (e.maxLength.getD 0)),
        (4, flagByte e.tolerated.isSome),
        (5, natBytes 2 ((e.tolerated.getD []).map fun c => 2 ^ c.severity).sum), (7, byteOf e.rates.length),
        (8 + 4 * e.rates.length, fill (24 - 4 * e.rates.length))]
      ∧ ∀ k x, e.rates[k]? = some x → Holds e.encode
        [(8 + 4 * k, byteOf x.rate.code), (9 + 4 * k, byteOf x.limit), (10 + 4 * k, intBytes 2 x.margin)])
    ∧ (∀ (i : RequesterId) (r : Requester), (r.encode i).length = 24 ∧ Holds (r.encode i)
      [(0, byteOf i.val), (1, flagByte r.inUse), (2, flagByte r.address.isNone),
        (3, natBytes 6 (r.address.getD 0).toNat), (9, byteOf r.role.code), (10, portSetBytes r.readSet),
        (16, portSetBytes r.disturbSet), (22, byteOf r.priority), (23, fill 1)])
    ∧ ∀ x : Station, x.encode.length = 24 ∧ Holds x.encode
      [(0, natBytes 6 x.address.toNat), (6, natBytes 2 x.ethertype.toNat), (8, flagByte x.noticeDestination.isSome),
        (9, natBytes 6 (x.noticeDestination.getD 0).toNat), (15, byteOf x.noticeSlot.val),
        (16, natBytes 2 x.holdoff), (18, byteOf x.starvationLimit), (19, natBytes 2 x.holdLimit), (21, fill 3)])
  ∧ ((∀ (t : SignatureTable) (start count : Nat), start + count ≤ 1024 →
      let b := t.encodeRange start count
      b.length = 4 + 2 * count ∧ Holds b [(0, natBytes 2 start), (2, byteOf count), (3, fill 1)]
      ∧ ∀ (i : Fin 1024) k, k < count → i.val = start + k →
        (t.entries[i] = none → Holds b [(4 + 2 * k, [0, 0])])
        ∧ ∀ x, t.entries[i] = some x →
          Holds b [(4 + 2 * k, byteOf 1), (5 + 2 * k, byteOf (x.cls.severity * 16 + x.confidence))])
    ∧ ∀ t : SignatureTable, t.encodeGeometry.length = 8 ∧ Holds t.encodeGeometry
      [(0, byteOf t.geometry.distanceBins), (1, byteOf t.geometry.amplitudeBins), (2, natBytes 2 t.geometry.reach),
        (4, natBytes 2 t.lock), (6, fill 2)])
  ∧ (∀ r : Reflection, r.encode.length = 6
    ∧ Holds r.encode [(0, natBytes 2 r.distance), (2, intBytes 2 r.comp), (4, byteOf r.cls.severity)]
    ∧ byteAt r.encode 5 % 16 = r.confidence % 16 ∧ (byteAt r.encode 5).testBit 7 = r.saturated)
  ∧ (∀ f : PairFinding, f.encode.length = 2 + 6 * f.reflections.length ∧ Holds f.encode
      [(0, byteOf f.verdict.code), (1, byteOf f.reflections.length), (2, (f.reflections.map Reflection.encode).flatten)])
  ∧ (∀ f : CrossFinding, f.encode.length = 7
    ∧ Holds f.encode [(0, byteOf (f.pulsed.index.val * 16 + f.listening.index.val)), (1, f.reflection.encode)])
  ∧ (∀ r : CableReport, Holds r.encode
      [(0, natBytes 4 r.sequence.toNat), (4, byteOf r.port.val), (5, pairsByte r.pairs), (7, byteOf r.averaging),
        (8, byteOf r.worst.severity), (9, optionalDistance r.length), (11, byteOf r.cross.length)]
    ∧ (byteAt r.encode 6).testBit 0 = r.crossPair ∧ (byteAt r.encode 6).testBit 1 = r.force
    ∧ r.encode.drop 12 = r.findings[0].encode ++ r.findings[1].encode ++ r.findings[2].encode
      ++ r.findings[3].encode ++ (r.cross.map CrossFinding.encode).flatten)
  ∧ (∀ (p : Port) (kind : Nat) (x : SurveySummary), let b := x.encode p kind
    b.length = 24 ∧ Holds b
      [(0, byteOf p.val), (1, byteOf kind), (2, natBytes 4 x.sequence.toNat), (6, natBytes 2 x.length)]
    ∧ ∀ i : Fin 4, Holds b [(8 + 2 * i.val, natBytes 2 x.lengths[i]), (16 + 2 * i.val, intBytes 2 x.healths[i])])
  ∧ (∀ r : PortResult, r.encode.length = 8 ∧ Holds r.encode
      [(0, byteOf r.port.val), (1, byteOf r.code.code), (2, byteOf r.worst.code), (3, fill 1),
        (4, optionalDistance r.length), (6, fill 2)])
  ∧ ∀ w : Sweep, w.encode.length = 8 + 8 * w.results.length ∧ Holds w.encode
      [(0, byteOf w.start.val), (1, flagByte w.down), (2, byteOf w.count), (3, byteOf w.results.length),
        (4, fill 4), (8, (w.results.map PortResult.encode).flatten)]

end Statements
end

