-- ==== Sys2Proof/Laws/State.lean ====
section
/-! SUPPORT. One lemma for each field that a primitive update leaves as it was, and what each update makes
of the field it writes. -/

namespace Sys2Proof.Machine

/-! ### `State.updPort` -/

@[simp] theorem State.updPort_pending (s : State) (p : Port) (f : PortState → PortState) : (s.updPort p f).pending = s.pending := rfl
@[simp] theorem State.updPort_startUp (s : State) (p : Port) (f : PortState → PortState) : (s.updPort p f).startUp = s.startUp := rfl
@[simp] theorem State.updPort_quads (s : State) (p : Port) (f : PortState → PortState) : (s.updPort p f).quads = s.quads := rfl
@[simp] theorem State.updPort_plan (s : State) (p : Port) (f : PortState → PortState) : (s.updPort p f).plan = s.plan := rfl
@[simp] theorem State.updPort_queue (s : State) (p : Port) (f : PortState → PortState) : (s.updPort p f).queue = s.queue := rfl
@[simp] theorem State.updPort_admissions (s : State) (p : Port) (f : PortState → PortState) : (s.updPort p f).admissions = s.admissions := rfl
@[simp] theorem State.updPort_groups (s : State) (p : Port) (f : PortState → PortState) : (s.updPort p f).groups = s.groups := rfl
@[simp] theorem State.updPort_engines (s : State) (p : Port) (f : PortState → PortState) : (s.updPort p f).engines = s.engines := rfl
@[simp] theorem State.updPort_signatures (s : State) (p : Port) (f : PortState → PortState) : (s.updPort p f).signatures = s.signatures := rfl
@[simp] theorem State.updPort_sequence (s : State) (p : Port) (f : PortState → PortState) : (s.updPort p f).sequence = s.sequence := rfl
@[simp] theorem State.updPort_supervision (s : State) (p : Port) (f : PortState → PortState) : (s.updPort p f).supervision = s.supervision := rfl
@[simp] theorem State.updPort_notice (s : State) (p : Port) (f : PortState → PortState) : (s.updPort p f).notice = s.notice := rfl
@[simp] theorem State.updPort_due (s : State) (p : Port) (f : PortState → PortState) : (s.updPort p f).due = s.due := rfl
@[simp] theorem State.updPort_arbiter (s : State) (p : Port) (f : PortState → PortState) : (s.updPort p f).arbiter = s.arbiter := rfl
@[simp] theorem State.updPort_outputs (s : State) (p : Port) (f : PortState → PortState) : (s.updPort p f).outputs = s.outputs := rfl

/-! ### `State.updEngine` -/

@[simp] theorem State.updEngine_pending (s : State) (e : EngineId) (f : Engine → Engine) : (s.updEngine e f).pending = s.pending := rfl
@[simp] theorem State.updEngine_startUp (s : State) (e : EngineId) (f : Engine → Engine) : (s.updEngine e f).startUp = s.startUp := rfl
@[simp] theorem State.updEngine_quads (s : State) (e : EngineId) (f : Engine → Engine) : (s.updEngine e f).quads = s.quads := rfl
@[simp] theorem State.updEngine_ports (s : State) (e : EngineId) (f : Engine → Engine) : (s.updEngine e f).ports = s.ports := rfl
@[simp] theorem State.updEngine_plan (s : State) (e : EngineId) (f : Engine → Engine) : (s.updEngine e f).plan = s.plan := rfl
@[simp] theorem State.updEngine_queue (s : State) (e : EngineId) (f : Engine → Engine) : (s.updEngine e f).queue = s.queue := rfl
@[simp] theorem State.updEngine_admissions (s : State) (e : EngineId) (f : Engine → Engine) : (s.updEngine e f).admissions = s.admissions := rfl
@[simp] theorem State.updEngine_groups (s : State) (e : EngineId) (f : Engine → Engine) : (s.updEngine e f).groups = s.groups := rfl
@[simp] theorem State.updEngine_signatures (s : State) (e : EngineId) (f : Engine → Engine) : (s.updEngine e f).signatures = s.signatures := rfl
@[simp] theorem State.updEngine_sequence (s : State) (e : EngineId) (f : Engine → Engine) : (s.updEngine e f).sequence = s.sequence := rfl
@[simp] theorem State.updEngine_supervision (s : State) (e : EngineId) (f : Engine → Engine) : (s.updEngine e f).supervision = s.supervision := rfl
@[simp] theorem State.updEngine_notice (s : State) (e : EngineId) (f : Engine → Engine) : (s.updEngine e f).notice = s.notice := rfl
@[simp] theorem State.updEngine_due (s : State) (e : EngineId) (f : Engine → Engine) : (s.updEngine e f).due = s.due := rfl
@[simp] theorem State.updEngine_arbiter (s : State) (e : EngineId) (f : Engine → Engine) : (s.updEngine e f).arbiter = s.arbiter := rfl
@[simp] theorem State.updEngine_outputs (s : State) (e : EngineId) (f : Engine → Engine) : (s.updEngine e f).outputs = s.outputs := rfl

/-! ### `State.updGroup` -/

@[simp] theorem State.updGroup_pending (s : State) (g : Group) (f : BundleGroup → BundleGroup) : (s.updGroup g f).pending = s.pending := rfl
@[simp] theorem State.updGroup_startUp (s : State) (g : Group) (f : BundleGroup → BundleGroup) : (s.updGroup g f).startUp = s.startUp := rfl
@[simp] theorem State.updGroup_quads (s : State) (g : Group) (f : BundleGroup → BundleGroup) : (s.updGroup g f).quads = s.quads := rfl
@[simp] theorem State.updGroup_ports (s : State) (g : Group) (f : BundleGroup → BundleGroup) : (s.updGroup g f).ports = s.ports := rfl
@[simp] theorem State.updGroup_plan (s : State) (g : Group) (f : BundleGroup → BundleGroup) : (s.updGroup g f).plan = s.plan := rfl
@[simp] theorem State.updGroup_queue (s : State) (g : Group) (f : BundleGroup → BundleGroup) : (s.updGroup g f).queue = s.queue := rfl
@[simp] theorem State.updGroup_admissions (s : State) (g : Group) (f : BundleGroup → BundleGroup) : (s.updGroup g f).admissions = s.admissions := rfl
@[simp] theorem State.updGroup_engines (s : State) (g : Group) (f : BundleGroup → BundleGroup) : (s.updGroup g f).engines = s.engines := rfl
@[simp] theorem State.updGroup_signatures (s : State) (g : Group) (f : BundleGroup → BundleGroup) : (s.updGroup g f).signatures = s.signatures := rfl
@[simp] theorem State.updGroup_sequence (s : State) (g : Group) (f : BundleGroup → BundleGroup) : (s.updGroup g f).sequence = s.sequence := rfl
@[simp] theorem State.updGroup_supervision (s : State) (g : Group) (f : BundleGroup → BundleGroup) : (s.updGroup g f).supervision = s.supervision := rfl
@[simp] theorem State.updGroup_notice (s : State) (g : Group) (f : BundleGroup → BundleGroup) : (s.updGroup g f).notice = s.notice := rfl
@[simp] theorem State.updGroup_due (s : State) (g : Group) (f : BundleGroup → BundleGroup) : (s.updGroup g f).due = s.due := rfl
@[simp] theorem State.updGroup_arbiter (s : State) (g : Group) (f : BundleGroup → BundleGroup) : (s.updGroup g f).arbiter = s.arbiter := rfl
@[simp] theorem State.updGroup_outputs (s : State) (g : Group) (f : BundleGroup → BundleGroup) : (s.updGroup g f).outputs = s.outputs := rfl

/-! ### `State.updEntry` -/

@[simp] theorem State.updEntry_pending (s : State) (n : Nat) (f : QueueEntry → QueueEntry) : (s.updEntry n f).pending = s.pending := rfl
@[simp] theorem State.updEntry_startUp (s : State) (n : Nat) (f : QueueEntry → QueueEntry) : (s.updEntry n f).startUp = s.startUp := rfl
@[simp] theorem State.updEntry_quads (s : State) (n : Nat) (f : QueueEntry → QueueEntry) : (s.updEntry n f).quads = s.quads := rfl
@[simp] theorem State.updEntry_ports (s : State) (n : Nat) (f : QueueEntry → QueueEntry) : (s.updEntry n f).ports = s.ports := rfl
@[simp] theorem State.updEntry_plan (s : State) (n : Nat) (f : QueueEntry → QueueEntry) : (s.updEntry n f).plan = s.plan := rfl
@[simp] theorem State.updEntry_admissions (s : State) (n : Nat) (f : QueueEntry → QueueEntry) : (s.updEntry n f).admissions = s.admissions := rfl
@[simp] theorem State.updEntry_groups (s : State) (n : Nat) (f : QueueEntry → QueueEntry) : (s.updEntry n f).groups = s.groups := rfl
@[simp] theorem State.updEntry_engines (s : State) (n : Nat) (f : QueueEntry → QueueEntry) : (s.updEntry n f).engines = s.engines := rfl
@[simp] theorem State.updEntry_signatures (s : State) (n : Nat) (f : QueueEntry → QueueEntry) : (s.updEntry n f).signatures = s.signatures := rfl
@[simp] theorem State.updEntry_sequence (s : State) (n : Nat) (f : QueueEntry → QueueEntry) : (s.updEntry n f).sequence = s.sequence := rfl
@[simp] theorem State.updEntry_supervision (s : State) (n : Nat) (f : QueueEntry → QueueEntry) : (s.updEntry n f).supervision = s.supervision := rfl
@[simp] theorem State.updEntry_notice (s : State) (n : Nat) (f : QueueEntry → QueueEntry) : (s.updEntry n f).notice = s.notice := rfl
@[simp] theorem State.updEntry_due (s : State) (n : Nat) (f : QueueEntry → QueueEntry) : (s.updEntry n f).due = s.due := rfl
@[simp] theorem State.updEntry_arbiter (s : State) (n : Nat) (f : QueueEntry → QueueEntry) : (s.updEntry n f).arbiter = s.arbiter := rfl
@[simp] theorem State.updEntry_outputs (s : State) (n : Nat) (f : QueueEntry → QueueEntry) : (s.updEntry n f).outputs = s.outputs := rfl

/-! ### `State.updSupervision` -/

@[simp] theorem State.updSupervision_pending (s : State) (f : Supervision → Supervision) : (s.updSupervision f).pending = s.pending := rfl
@[simp] theorem State.updSupervision_startUp (s : State) (f : Supervision → Supervision) : (s.updSupervision f).startUp = s.startUp := rfl
@[simp] theorem State.updSupervision_quads (s : State) (f : Supervision → Supervision) : (s.updSupervision f).quads = s.quads := rfl
@[simp] theorem State.updSupervision_ports (s : State) (f : Supervision → Supervision) : (s.updSupervision f).ports = s.ports := rfl
@[simp] theorem State.updSupervision_plan (s : State) (f : Supervision → Supervision) : (s.updSupervision f).plan = s.plan := rfl
@[simp] theorem State.updSupervision_queue (s : State) (f : Supervision → Supervision) : (s.updSupervision f).queue = s.queue := rfl
@[simp] theorem State.updSupervision_admissions (s : State) (f : Supervision → Supervision) : (s.updSupervision f).admissions = s.admissions := rfl
@[simp] theorem State.updSupervision_groups (s : State) (f : Supervision → Supervision) : (s.updSupervision f).groups = s.groups := rfl
@[simp] theorem State.updSupervision_engines (s : State) (f : Supervision → Supervision) : (s.updSupervision f).engines = s.engines := rfl
@[simp] theorem State.updSupervision_signatures (s : State) (f : Supervision → Supervision) : (s.updSupervision f).signatures = s.signatures := rfl
@[simp] theorem State.updSupervision_sequence (s : State) (f : Supervision → Supervision) : (s.updSupervision f).sequence = s.sequence := rfl
@[simp] theorem State.updSupervision_notice (s : State) (f : Supervision → Supervision) : (s.updSupervision f).notice = s.notice := rfl
@[simp] theorem State.updSupervision_due (s : State) (f : Supervision → Supervision) : (s.updSupervision f).due = s.due := rfl
@[simp] theorem State.updSupervision_arbiter (s : State) (f : Supervision → Supervision) : (s.updSupervision f).arbiter = s.arbiter := rfl
@[simp] theorem State.updSupervision_outputs (s : State) (f : Supervision → Supervision) : (s.updSupervision f).outputs = s.outputs := rfl

/-! ### `State.emit` -/

@[simp] theorem State.emit_pending (s : State) (o : Output) : (s.emit o).pending = s.pending := rfl
@[simp] theorem State.emit_startUp (s : State) (o : Output) : (s.emit o).startUp = s.startUp := rfl
@[simp] theorem State.emit_quads (s : State) (o : Output) : (s.emit o).quads = s.quads := rfl
@[simp] theorem State.emit_ports (s : State) (o : Output) : (s.emit o).ports = s.ports := rfl
@[simp] theorem State.emit_plan (s : State) (o : Output) : (s.emit o).plan = s.plan := rfl
@[simp] theorem State.emit_queue (s : State) (o : Output) : (s.emit o).queue = s.queue := rfl
@[simp] theorem State.emit_admissions (s : State) (o : Output) : (s.emit o).admissions = s.admissions := rfl
@[simp] theorem State.emit_groups (s : State) (o : Output) : (s.emit o).groups = s.groups := rfl
@[simp] theorem State.emit_engines (s : State) (o : Output) : (s.emit o).engines = s.engines := rfl
@[simp] theorem State.emit_signatures (s : State) (o : Output) : (s.emit o).signatures = s.signatures := rfl
@[simp] theorem State.emit_sequence (s : State) (o : Output) : (s.emit o).sequence = s.sequence := rfl
@[simp] theorem State.emit_supervision (s : State) (o : Output) : (s.emit o).supervision = s.supervision := rfl
@[simp] theorem State.emit_notice (s : State) (o : Output) : (s.emit o).notice = s.notice := rfl
@[simp] theorem State.emit_due (s : State) (o : Output) : (s.emit o).due = s.due := rfl
@[simp] theorem State.emit_arbiter (s : State) (o : Output) : (s.emit o).arbiter = s.arbiter := rfl

/-! ### `State.oweSelection` -/

@[simp] theorem State.oweSelection_pending (s : State) : (s.oweSelection).pending = s.pending := rfl
@[simp] theorem State.oweSelection_startUp (s : State) : (s.oweSelection).startUp = s.startUp := rfl
@[simp] theorem State.oweSelection_quads (s : State) : (s.oweSelection).quads = s.quads := rfl
@[simp] theorem State.oweSelection_ports (s : State) : (s.oweSelection).ports = s.ports := rfl
@[simp] theorem State.oweSelection_plan (s : State) : (s.oweSelection).plan = s.plan := rfl
@[simp] theorem State.oweSelection_queue (s : State) : (s.oweSelection).queue = s.queue := rfl
@[simp] theorem State.oweSelection_admissions (s : State) : (s.oweSelection).admissions = s.admissions := rfl
@[simp] theorem State.oweSelection_groups (s : State) : (s.oweSelection).groups = s.groups := rfl
@[simp] theorem State.oweSelection_engines (s : State) : (s.oweSelection).engines = s.engines := rfl
@[simp] theorem State.oweSelection_signatures (s : State) : (s.oweSelection).signatures = s.signatures := rfl
@[simp] theorem State.oweSelection_sequence (s : State) : (s.oweSelection).sequence = s.sequence := rfl
@[simp] theorem State.oweSelection_supervision (s : State) : (s.oweSelection).supervision = s.supervision := rfl
@[simp] theorem State.oweSelection_notice (s : State) : (s.oweSelection).notice = s.notice := rfl
@[simp] theorem State.oweSelection_arbiter (s : State) : (s.oweSelection).arbiter = s.arbiter := rfl
@[simp] theorem State.oweSelection_outputs (s : State) : (s.oweSelection).outputs = s.outputs := rfl

/-! ### `State.oweReservations` -/

@[simp] theorem State.oweReservations_pending (s : State) : (s.oweReservations).pending = s.pending := rfl
@[simp] theorem State.oweReservations_startUp (s : State) : (s.oweReservations).startUp = s.startUp := rfl
@[simp] theorem State.oweReservations_quads (s : State) : (s.oweReservations).quads = s.quads := rfl
@[simp] theorem State.oweReservations_ports (s : State) : (s.oweReservations).ports = s.ports := rfl
@[simp] theorem State.oweReservations_plan (s : State) : (s.oweReservations).plan = s.plan := rfl
@[simp] theorem State.oweReservations_queue (s : State) : (s.oweReservations).queue = s.queue := rfl
@[simp] theorem State.oweReservations_admissions (s : State) : (s.oweReservations).admissions = s.admissions := rfl
@[simp] theorem State.oweReservations_groups (s : State) : (s.oweReservations).groups = s.groups := rfl
@[simp] theorem State.oweReservations_engines (s : State) : (s.oweReservations).engines = s.engines := rfl
@[simp] theorem State.oweReservations_signatures (s : State) : (s.oweReservations).signatures = s.signatures := rfl
@[simp] theorem State.oweReservations_sequence (s : State) : (s.oweReservations).sequence = s.sequence := rfl
@[simp] theorem State.oweReservations_supervision (s : State) : (s.oweReservations).supervision = s.supervision := rfl
@[simp] theorem State.oweReservations_notice (s : State) : (s.oweReservations).notice = s.notice := rfl
@[simp] theorem State.oweReservations_arbiter (s : State) : (s.oweReservations).arbiter = s.arbiter := rfl
@[simp] theorem State.oweReservations_outputs (s : State) : (s.oweReservations).outputs = s.outputs := rfl

/-! ### `State.oweReentry` -/

@[simp] theorem State.oweReentry_pending (s : State) (l : List Port) : (s.oweReentry l).pending = s.pending := rfl
@[simp] theorem State.oweReentry_startUp (s : State) (l : List Port) : (s.oweReentry l).startUp = s.startUp := rfl
@[simp] theorem State.oweReentry_quads (s : State) (l : List Port) : (s.oweReentry l).quads = s.quads := rfl
@[simp] theorem State.oweReentry_ports (s : State) (l : List Port) : (s.oweReentry l).ports = s.ports := rfl
@[simp] theorem State.oweReentry_plan (s : State) (l : List Port) : (s.oweReentry l).plan = s.plan := rfl
@[simp] theorem State.oweReentry_queue (s : State) (l : List Port) : (s.oweReentry l).queue = s.queue := rfl
@[simp] theorem State.oweReentry_admissions (s : State) (l : List Port) : (s.oweReentry l).admissions = s.admissions := rfl
@[simp] theorem State.oweReentry_groups (s : State) (l : List Port) : (s.oweReentry l).groups = s.groups := rfl
@[simp] theorem State.oweReentry_engines (s : State) (l : List Port) : (s.oweReentry l).engines = s.engines := rfl
@[simp] theorem State.oweReentry_signatures (s : State) (l : List Port) : (s.oweReentry l).signatures = s.signatures := rfl
@[simp] theorem State.oweReentry_sequence (s : State) (l : List Port) : (s.oweReentry l).sequence = s.sequence := rfl
@[simp] theorem State.oweReentry_supervision (s : State) (l : List Port) : (s.oweReentry l).supervision = s.supervision := rfl
@[simp] theorem State.oweReentry_notice (s : State) (l : List Port) : (s.oweReentry l).notice = s.notice := rfl
@[simp] theorem State.oweReentry_arbiter (s : State) (l : List Port) : (s.oweReentry l).arbiter = s.arbiter := rfl
@[simp] theorem State.oweReentry_outputs (s : State) (l : List Port) : (s.oweReentry l).outputs = s.outputs := rfl

/-! ### `State.selectAllClasses` -/

@[simp] theorem State.selectAllClasses_pending (s : State) : (s.selectAllClasses).pending = s.pending := rfl
@[simp] theorem State.selectAllClasses_startUp (s : State) : (s.selectAllClasses).startUp = s.startUp := rfl
@[simp] theorem State.selectAllClasses_quads (s : State) : (s.selectAllClasses).quads = s.quads := rfl
@[simp] theorem State.selectAllClasses_plan (s : State) : (s.selectAllClasses).plan = s.plan := rfl
@[simp] theorem State.selectAllClasses_queue (s : State) : (s.selectAllClasses).queue = s.queue := rfl
@[simp] theorem State.selectAllClasses_admissions (s : State) : (s.selectAllClasses).admissions = s.admissions := rfl
@[simp] theorem State.selectAllClasses_groups (s : State) : (s.selectAllClasses).groups = s.groups := rfl
@[simp] theorem State.selectAllClasses_engines (s : State) : (s.selectAllClasses).engines = s.engines := rfl
@[simp] theorem State.selectAllClasses_signatures (s : State) : (s.selectAllClasses).signatures = s.signatures := rfl
@[simp] theorem State.selectAllClasses_sequence (s : State) : (s.selectAllClasses).sequence = s.sequence := rfl
@[simp] theorem State.selectAllClasses_supervision (s : State) : (s.selectAllClasses).supervision = s.supervision := rfl
@[simp] theorem State.selectAllClasses_notice (s : State) : (s.selectAllClasses).notice = s.notice := rfl
@[simp] theorem State.selectAllClasses_due (s : State) : (s.selectAllClasses).due = s.due := rfl
@[simp] theorem State.selectAllClasses_arbiter (s : State) : (s.selectAllClasses).arbiter = s.arbiter := rfl
@[simp] theorem State.selectAllClasses_outputs (s : State) : (s.selectAllClasses).outputs = s.outputs := rfl

/-! ### Reading what was written -/

theorem State.port_updPort (s : State) (p q : Port) (f : PortState → PortState) :
    (s.updPort p f).port q = if q = p then f (s.port p) else s.port q := by
  simp only [State.port, State.updPort, Fin.getElem_fin, Vector.getElem_set, Fin.ext_iff, eq_comm]

@[simp] theorem State.port_updPort_self (s : State) (p : Port) (f : PortState → PortState) :
    (s.updPort p f).port p = f (s.port p) := by
  simp [State.port_updPort]

theorem State.updPort_twice (s : State) (p : Port) (f g : PortState → PortState) :
    (s.updPort p f).updPort p g = s.updPort p fun x => g (f x) := by
  show { s with ports := (s.ports.set p (f (s.port p))).set p (g ((s.updPort p f).port p)) } = _
  rw [State.port_updPort_self, Vector.set_set]
  rfl

theorem State.port_updPort_other (s : State) {p q : Port} (f : PortState → PortState) (h : q ≠ p) :
    (s.updPort p f).port q = s.port q := by
  simp [State.port_updPort, h]

theorem State.engine_updEngine (s : State) (e d : EngineId) (f : Engine → Engine) :
    (s.updEngine e f).engine d = if d = e then f (s.engine e) else s.engine d := by
  simp only [State.engine, State.updEngine, Fin.getElem_fin, Vector.getElem_set, Fin.ext_iff, eq_comm]

@[simp] theorem State.engine_updEngine_self (s : State) (e : EngineId) (f : Engine → Engine) :
    (s.updEngine e f).engine e = f (s.engine e) := by
  simp [State.engine_updEngine]

theorem State.group_updGroup (s : State) (g k : Group) (f : BundleGroup → BundleGroup) :
    (s.updGroup g f).group k = if k = g then f (s.group g) else s.group k := by
  simp only [State.group, State.updGroup, Fin.getElem_fin, Vector.getElem_set, Fin.ext_iff, eq_comm]

@[simp] theorem State.group_updGroup_self (s : State) (g : Group) (f : BundleGroup → BundleGroup) :
    (s.updGroup g f).group g = f (s.group g) := by
  simp [State.group_updGroup]

theorem State.slot_setSlot (s : State) (i j : SlotId) (r : Option ReplySlot) :
    (s.setSlot i r).slot j = if j = i then r else s.slot j := by
  simp only [State.slot, State.setSlot, State.updSupervision, Fin.getElem_fin, Vector.getElem_set,
    Fin.ext_iff, eq_comm]

@[simp] theorem State.slot_setSlot_self (s : State) (i : SlotId) (r : Option ReplySlot) :
    (s.setSlot i r).slot i = r := by
  simp [State.slot_setSlot]

theorem State.port_selectAllClasses (s : State) (p : Port) :
    s.selectAllClasses.port p = (s.port p).reclassified s.plan := by
  simp [State.port, State.selectAllClasses]

/-! ### Views that an update leaves alone -/

@[simp] theorem State.engine_updPort (s : State) (p : Port) (f : PortState → PortState) (d : EngineId) : (s.updPort p f).engine d = s.engine d := rfl
@[simp] theorem State.group_updPort (s : State) (p : Port) (f : PortState → PortState) (k : Group) : (s.updPort p f).group k = s.group k := rfl
@[simp] theorem State.slot_updPort (s : State) (p : Port) (f : PortState → PortState) (j : SlotId) : (s.updPort p f).slot j = s.slot j := rfl
@[simp] theorem State.quadUp_updPort (s : State) (p : Port) (f : PortState → PortState) (q : Port) : (s.updPort p f).quadUp q = s.quadUp q := rfl
@[simp] theorem State.loading_updPort (s : State) (p : Port) (f : PortState → PortState) : (s.updPort p f).loading = s.loading := rfl
@[simp] theorem State.pinHeld_updPort (s : State) (p : Port) (f : PortState → PortState) : (s.updPort p f).pinHeld = s.pinHeld := rfl
@[simp] theorem State.port_updEngine (s : State) (e : EngineId) (f : Engine → Engine) (q : Port) : (s.updEngine e f).port q = s.port q := rfl
@[simp] theorem State.group_updEngine (s : State) (e : EngineId) (f : Engine → Engine) (k : Group) : (s.updEngine e f).group k = s.group k := rfl
@[simp] theorem State.slot_updEngine (s : State) (e : EngineId) (f : Engine → Engine) (j : SlotId) : (s.updEngine e f).slot j = s.slot j := rfl
@[simp] theorem State.quadUp_updEngine (s : State) (e : EngineId) (f : Engine → Engine) (q : Port) : (s.updEngine e f).quadUp q = s.quadUp q := rfl
@[simp] theorem State.loading_updEngine (s : State) (e : EngineId) (f : Engine → Engine) : (s.updEngine e f).loading = s.loading := rfl
@[simp] theorem State.pinHeld_updEngine (s : State) (e : EngineId) (f : Engine → Engine) : (s.updEngine e f).pinHeld = s.pinHeld := rfl
@[simp] theorem State.port_updGroup (s : State) (g : Group) (f : BundleGroup → BundleGroup) (q : Port) : (s.updGroup g f).port q = s.port q := rfl
@[simp] theorem State.engine_updGroup (s : State) (g : Group) (f : BundleGroup → BundleGroup) (d : EngineId) : (s.updGroup g f).engine d = s.engine d := rfl
@[simp] theorem State.slot_updGroup (s : State) (g : Group) (f : BundleGroup → BundleGroup) (j : SlotId) : (s.updGroup g f).slot j = s.slot j := rfl
@[simp] theorem State.quadUp_updGroup (s : State) (g : Group) (f : BundleGroup → BundleGroup) (q : Port) : (s.updGroup g f).quadUp q = s.quadUp q := rfl
@[simp] theorem State.loading_updGroup (s : State) (g : Group) (f : BundleGroup → BundleGroup) : (s.updGroup g f).loading = s.loading := rfl
@[simp] theorem State.pinHeld_updGroup (s : State) (g : Group) (f : BundleGroup → BundleGroup) : (s.updGroup g f).pinHeld = s.pinHeld := rfl
@[simp] theorem State.port_updEntry (s : State) (n : Nat) (f : QueueEntry → QueueEntry) (q : Port) : (s.updEntry n f).port q = s.port q := rfl
@[simp] theorem State.engine_updEntry (s : State) (n : Nat) (f : QueueEntry → QueueEntry) (d : EngineId) : (s.updEntry n f).engine d = s.engine d := rfl
@[simp] theorem State.group_updEntry (s : State) (n : Nat) (f : QueueEntry → QueueEntry) (k : Group) : (s.updEntry n f).group k = s.group k := rfl
@[simp] theorem State.slot_updEntry (s : State) (n : Nat) (f : QueueEntry → QueueEntry) (j : SlotId) : (s.updEntry n f).slot j = s.slot j := rfl
@[simp] theorem State.quadUp_updEntry (s : State) (n : Nat) (f : QueueEntry → QueueEntry) (q : Port) : (s.updEntry n f).quadUp q = s.quadUp q := rfl
@[simp] theorem State.loading_updEntry (s : State) (n : Nat) (f : QueueEntry → QueueEntry) : (s.updEntry n f).loading = s.loading := rfl
@[simp] theorem State.pinHeld_updEntry (s : State) (n : Nat) (f : QueueEntry → QueueEntry) : (s.updEntry n f).pinHeld = s.pinHeld := rfl
@[simp] theorem State.port_updSupervision (s : State) (f : Supervision → Supervision) (q : Port) : (s.updSupervision f).port q = s.port q := rfl
@[simp] theorem State.engine_updSupervision (s : State) (f : Supervision → Supervision) (d : EngineId) : (s.updSupervision f).engine d = s.engine d := rfl
@[simp] theorem State.group_updSupervision (s : State) (f : Supervision → Supervision) (k : Group) : (s.updSupervision f).group k = s.group k := rfl
@[simp] theorem State.quadUp_updSupervision (s : State) (f : Supervision → Supervision) (q : Port) : (s.updSupervision f).quadUp q = s.quadUp q := rfl
@[simp] theorem State.loading_updSupervision (s : State) (f : Supervision → Supervision) : (s.updSupervision f).loading = s.loading := rfl
@[simp] theorem State.pinHeld_updSupervision (s : State) (f : Supervision → Supervision) : (s.updSupervision f).pinHeld = s.pinHeld := rfl
@[simp] theorem State.port_emit (s : State) (o : Output) (q : Port) : (s.emit o).port q = s.port q := rfl
@[simp] theorem State.engine_emit (s : State) (o : Output) (d : EngineId) : (s.emit o).engine d = s.engine d := rfl
@[simp] theorem State.group_emit (s : State) (o : Output) (k : Group) : (s.emit o).group k = s.group k := rfl
@[simp] theorem State.slot_emit (s : State) (o : Output) (j : SlotId) : (s.emit o).slot j = s.slot j := rfl
@[simp] theorem State.quadUp_emit (s : State) (o : Output) (q : Port) : (s.emit o).quadUp q = s.quadUp q := rfl
@[simp] theorem State.loading_emit (s : State) (o : Output) : (s.emit o).loading = s.loading := rfl
@[simp] theorem State.pinHeld_emit (s : State) (o : Output) : (s.emit o).pinHeld = s.pinHeld := rfl
@[simp] theorem State.port_oweSelection (s : State) (q : Port) : (s.oweSelection).port q = s.port q := rfl
@[simp] theorem State.engine_oweSelection (s : State) (d : EngineId) : (s.oweSelection).engine d = s.engine d := rfl
@[simp] theorem State.group_oweSelection (s : State) (k : Group) : (s.oweSelection).group k = s.group k := rfl
@[simp] theorem State.slot_oweSelection (s : State) (j : SlotId) : (s.oweSelection).slot j = s.slot j := rfl
@[simp] theorem State.quadUp_oweSelection (s : State) (q : Port) : (s.oweSelection).quadUp q = s.quadUp q := rfl
@[simp] theorem State.loading_oweSelection (s : State) : (s.oweSelection).loading = s.loading := rfl
@[simp] theorem State.pinHeld_oweSelection (s : State) : (s.oweSelection).pinHeld = s.pinHeld := rfl
@[simp] theorem State.port_oweReservations (s : State) (q : Port) : (s.oweReservations).port q = s.port q := rfl
@[simp] theorem State.engine_oweReservations (s : State) (d : EngineId) : (s.oweReservations).engine d = s.engine d := rfl
@[simp] theorem State.group_oweReservations (s : State) (k : Group) : (s.oweReservations).group k = s.group k := rfl
@[simp] theorem State.slot_oweReservations (s : State) (j : SlotId) : (s.oweReservations).slot j = s.slot j := rfl
@[simp] theorem State.quadUp_oweReservations (s : State) (q : Port) : (s.oweReservations).quadUp q = s.quadUp q := rfl
@[simp] theorem State.loading_oweReservations (s : State) : (s.oweReservations).loading = s.loading := rfl
@[simp] theorem State.pinHeld_oweReservations (s : State) : (s.oweReservations).pinHeld = s.pinHeld := rfl
@[simp] theorem State.port_oweReentry (s : State) (l : List Port) (q : Port) : (s.oweReentry l).port q = s.port q := rfl
@[simp] theorem State.engine_oweReentry (s : State) (l : List Port) (d : EngineId) : (s.oweReentry l).engine d = s.engine d := rfl
@[simp] theorem State.group_oweReentry (s : State) (l : List Port) (k : Group) : (s.oweReentry l).group k = s.group k := rfl
@[simp] theorem State.slot_oweReentry (s : State) (l : List Port) (j : SlotId) : (s.oweReentry l).slot j = s.slot j := rfl
@[simp] theorem State.quadUp_oweReentry (s : State) (l : List Port) (q : Port) : (s.oweReentry l).quadUp q = s.quadUp q := rfl
@[simp] theorem State.loading_oweReentry (s : State) (l : List Port) : (s.oweReentry l).loading = s.loading := rfl
@[simp] theorem State.pinHeld_oweReentry (s : State) (l : List Port) : (s.oweReentry l).pinHeld = s.pinHeld := rfl

end Sys2Proof.Machine
end

