-- ==== Sys2Proof/Laws/Moves.lean ====
section
/-! SUPPORT. What one event can do, said once: every operation of the part is a chain of the moves below,
each with the guard under which the operations make it. An invariant is proved over the moves. -/

namespace Sys2Proof.Machine

/-- One primitive change of the state, with its guard. -/
inductive Move : State → State → Prop where
  /-- A training context changes within its link state. -/
  | training (s : State) (p : Port) (f : Training → Training)
      (hl : ∀ t, (f t).link = t.link) (ht : ∀ t, t.timersFit → (f t).timersFit)
      (hb : s.limitsFit → (s.training p).bounded → (f (s.training p)).bounded) : Move s (s.updTraining p f)
  /-- A port enters a link state other than TRAIN. -/
  | link (s : State) (p : Port) (l : LinkState) (f : Training → Training) (hn : l ≠ .train)
      (hl : ∀ t, (f t).link = l) (ht : ∀ t, (f t).timersFit)
      (hb : s.limitsFit → (s.training p).bounded → (f (s.training p)).bounded) :
      Move s (s.updTraining p f)
  /-- A port enters TRAIN: its group's capture slot is free, or it is in TRAIN already. -/
  | train (s : State) (p : Port) (f : Training → Training)
      (hg : (s.group (s.groupOf p)).slot = none ∨ s.link p = .train)
      (hl : ∀ t, (f t).link = .train) (ht : ∀ t, (f t).timersFit)
      (hb : s.limitsFit → (s.training p).bounded → (f (s.training p)).bounded) :
      Move s (s.updTraining p f)
  /-- A port's frames or counters change. -/
  | traffic (s : State) (p : Port) (f : Traffic → Traffic) (hb : ∀ t, t.bounded → (f t).bounded) :
      Move s (s.updTraffic p f)
  /-- A port's pending event set changes. -/
  | events (s : State) (p : Port) (f : PortEvents → PortEvents)
      (hb : ∀ e, e.countsFit → (f e).countsFit) :
      Move s (s.updPort p fun x => { x with events := f x.events })
  /-- A port's line mode, stored results or survey record change. -/
  | plain (s : State) (p : Port) (f : PortState → PortState)
      (h : ∀ x, (f x).training = x.training ∧ (f x).traffic = x.traffic ∧ (f x).events = x.events
        ∧ (f x).profile = x.profile ∧ (f x).cableClass = x.cableClass) : Move s (s.updPort p f)
  /-- A port's profile is stored: its bundle group stays, or the port is not in TRAIN. -/
  | profile (s : State) (p : Port) (new : Profile) (hg : new.group = s.groupOf p ∨ s.link p ≠ .train) :
      Move s (s.updPort p fun x => { x with profile := new })
  /-- Class selection for a port. -/
  | classOf (s : State) (p : Port) : Move s (s.selectClassOf p)
  /-- A plan entry is stored, and class selection runs for all ports. -/
  | plan (s : State) (i : Fin 16) (e : PlanEntry) (hu : i = 0 → e.inUse = true)
      (hb : s.limitsFit → e.limitsFit) :
      Move s ({ s with plan := s.plan.set i e }.selectAllClasses)
  /-- An entry is admitted under the queue's capacity. -/
  | enqueue (s : State) (x : QueueEntry) (h : s.queue.length < Config.queuePlaces) : Move s (s.enqueue x)
  /-- An entry changes in its place. -/
  | entry (s : State) (n : Nat) (f : QueueEntry → QueueEntry) (hn : ∀ x, (f x).serial = x.serial) :
      Move s (s.updEntry n f)
  /-- An entry leaves the queue. -/
  | remove (s : State) (n : Nat) : Move s (s.dropEntry n)
  /-- An engine changes. -/
  | engine (s : State) (e : EngineId) (f : Engine → Engine)
      (hb : s.supervision.bounded → (s.engine e).passedOver ≤ 64 → (f (s.engine e)).passedOver ≤ 64) :
      Move s (s.updEngine e f)
  /-- A capture slot is taken: no other member of the group is in TRAIN. -/
  | take (s : State) (g : Group) (h : SlotHolder)
      (hg : ∀ q, q ≠ h.port → s.groupOf q = g → s.link q ≠ .train) :
      Move s (s.updGroup g fun x => { x with slot := some h, reserved := false })
  /-- A bundle group's row changes, its slot kept or freed. -/
  | group (s : State) (g : Group) (f : BundleGroup → BundleGroup)
      (h : ∀ x, (f x).slot = x.slot ∨ (f x).slot = none) : Move s (s.updGroup g f)
  /-- The supervision unit changes. -/
  | supervision (s : State) (f : Supervision → Supervision) (hb : ∀ v, v.bounded → (f v).bounded) :
      Move s (s.updSupervision f)
  /-- The notice unit changes. -/
  | notice (s : State) (n : NoticeUnit) (hb : s.notice.device.countsFit → n.device.countsFit) :
      Move s { s with notice := n }
  /-- The signature table is written below the lock index, or the lock index is lowered. -/
  | signatures (s : State) (t : SignatureTable)
      (h : s.lockFits → (t.lock ≤ s.signatures.lock ∧ t.lock % 16 = 0)
        ∧ ∀ i : Fin 1024, s.signatures.lock ≤ i.val → t.entries[i] = s.signatures.entries[i]) :
      Move s { s with signatures := t }
  /-- The availability of a quad changes. -/
  | quads (s : State) (q : Vector Bool 12) : Move s { s with quads := q }
  /-- The reset cause record changes. -/
  | causes (s : State) (c : ResetCauses) : Move s { s with startUp := { s.startUp with causes := c } }
  /-- A result is numbered. -/
  | sequence (s : State) (n : BitVec 32) : Move s { s with sequence := n }
  /-- The model's own records change. -/
  | own (s : State) (due : Due) (arbiter : Nat) (outputs : List Output) :
      Move s { s with due := due, arbiter := arbiter, outputs := outputs }

/-- A chain of moves. -/
inductive Moves : State → State → Prop where
  | refl (s : State) : Moves s s
  | tail {s t u : State} : Moves s t → Move t u → Moves s u

theorem Moves.trans {s t u : State} (a : Moves s t) (b : Moves t u) : Moves s u := by
  induction b with
  | refl => exact a
  | tail _ m ih => exact ih.tail m

theorem Move.one {s t : State} (m : Move s t) : Moves s t := (Moves.refl s).tail m

/-- What every move keeps, every chain keeps. -/
theorem Moves.keep {P : State → Prop} (h : ∀ {s t}, Move s t → P s → P t) {s t : State} (m : Moves s t)
    (hs : P s) : P t := by
  induction m with
  | refl => exact hs
  | tail _ m ih => exact h m ih

/-- A chain over a list. -/
theorem Moves.foldl {α : Type} {f : State → α → State} (h : ∀ s x, Moves s (f s x)) (xs : List α)
    (s : State) : Moves s (xs.foldl f s) := by
  induction xs generalizing s with
  | nil => exact .refl s
  | cons x rest ih => exact (h s x).trans (ih _)

/-! ### Lanes, notices, replies -/

theorem Moves.owes (s : State) (d : Due) : Moves s { s with due := d } :=
  (Move.own s d s.arbiter s.outputs).one

theorem Moves.oweSelection (s : State) : Moves s s.oweSelection := .owes s _
theorem Moves.oweReservations (s : State) : Moves s s.oweReservations := .owes s _
theorem Moves.oweReentry (s : State) (l : List Port) : Moves s (s.oweReentry l) := .owes s _
theorem Moves.discharge (s : State) : Moves s s.discharge := .owes s _

theorem Moves.emit (s : State) (o : Output) : Moves s (s.emit o) :=
  (Move.own s s.due s.arbiter _).one

theorem Moves.setMode (s : State) (p : Port) (m : LineMode) : Moves s (s.setMode p m) :=
  (Move.plain s p (fun x => { x with mode := m }) fun _ => ⟨rfl, rfl, rfl, rfl, rfl⟩).one

theorem Moves.updSurvey (s : State) (p : Port) (f : SurveyRecord → SurveyRecord) : Moves s (s.updSurvey p f) :=
  (Move.plain s p (fun x => { x with survey := f x.survey }) fun _ => ⟨rfl, rfl, rfl, rfl, rfl⟩).one

theorem Moves.send (s : State) (p : Port) (c : LaneCommand) : Moves s (s.send p c) := by
  unfold State.send
  split
  · exact (Moves.setMode s p _).trans (.emit _ _)
  · exact .refl s

theorem Moves.startHoldoff (s : State) : Moves s s.startHoldoff :=
  (Move.notice s
    { s.notice with state := .holding, holdoffTimer := some s.supervision.station.holdoff } fun h => h).one

theorem Moves.noticeRaised (s : State) : Moves s s.noticeRaised := by
  unfold State.noticeRaised
  split
  · exact .startHoldoff s
  · exact .refl s

theorem countFits_occurrence {n : Option Nat} (h : countFits n) : countFits (occurrence n) := by
  intro k hk
  cases n with
  | none => simp [occurrence] at hk; subst hk; decide
  | some j =>
    have := h j rfl
    simp [occurrence] at hk
    subst hk
    constructor <;> simp [Config.occurrenceCeiling] at * <;> omega

theorem ExhaustedCount.count_more (x : Option ExhaustedCount) (q : Bool) :
    (ExhaustedCount.more x q).map ExhaustedCount.count = occurrence (x.map ExhaustedCount.count) := by
  cases x <;> rfl

theorem DegradedCount.count_more (x : Option DegradedCount) (a b : Bool) :
    (DegradedCount.more x a b).map DegradedCount.count = occurrence (x.map DegradedCount.count) := by
  cases x <;> rfl

theorem SequencedCount.count_more (x : Option SequencedCount) (n : BitVec 32) :
    (SequencedCount.more x n).map SequencedCount.count = occurrence (x.map SequencedCount.count) := by
  cases x <;> rfl

theorem PortEvents.countsFit_record {e : PortEvents} (x : PortEvent) (h : e.countsFit) :
    (e.record x).countsFit := by
  obtain ⟨h1, h2, h3, h4, h5, h6, h7, h8⟩ := h
  cases x <;> refine ⟨?_, ?_, ?_, ?_, ?_, ?_, ?_, ?_⟩ <;>
    simp only [PortEvents.record, ExhaustedCount.count_more, DegradedCount.count_more,
      SequencedCount.count_more] <;>
    first
      | assumption
      | exact countFits_occurrence ‹_›

theorem DeviceEvents.countsFit_record {e : DeviceEvents} (x : DeviceEvent) (h : e.countsFit) :
    (e.record x).countsFit := by
  cases x
  · exact ⟨countFits_occurrence h.1, h.2⟩
  · exact ⟨h.1, countFits_occurrence h.2⟩

theorem Moves.raise (s : State) (p : Port) (e : PortEvent) : Moves s (s.raise p e) :=
  (Move.events s p (fun x => x.record e) fun _ h => PortEvents.countsFit_record e h).one.trans
    (.noticeRaised _)

theorem Moves.raiseDevice (s : State) (e : DeviceEvent) : Moves s (s.raiseDevice e) :=
  (Move.notice s { s.notice with device := s.notice.device.record e }
    fun h => DeviceEvents.countsFit_record e h).one.trans (.noticeRaised _)

theorem Traffic.bounded_place {t : Traffic} (f : OutFrame) (hf : f.source ≠ .forwarded) (h : t.bounded) :
    (t.place f).bounded := by
  unfold Traffic.place
  split
  · exact h
  · obtain ⟨a, b, c, d, e, g⟩ := h
    exact ⟨a, b, c, d, e, by simpa [Traffic.forwardedWaiting, List.filter_append, hf] using g⟩

theorem Traffic.bounded_advance {t : Traffic} (h : t.bounded) : t.advance.bounded := by
  obtain ⟨a, b, c, d, e, g⟩ := h
  unfold Traffic.advance
  split
  · exact ⟨a, b, c, d, e, g⟩
  · rename_i hd
    refine ⟨a, b, c, d, e, ?_⟩
    simp only [Traffic.forwardedWaiting, hd, List.filter_cons] at g ⊢
    split at g
    · simp at g; omega
    · exact g

theorem Moves.insertFrame (s : State) (p : Port) (b : List Byte) (src : FrameSource)
    (h : src ≠ .forwarded) : Moves s (s.insertFrame p b src) :=
  (Move.traffic s p _ fun _ ht => Traffic.bounded_place _ h ht).one

theorem Moves.setSlot (s : State) (i : SlotId) (r : Option ReplySlot) : Moves s (s.setSlot i r) :=
  (Move.supervision s (fun v => { v with slots := v.slots.set i r }) fun _ h => h).one

theorem Moves.answer (s : State) (a : ReplyPlace) (c : ResultCode) (d : List Byte) :
    Moves s (s.answer a c d) := by
  unfold State.answer
  split
  · exact .refl s
  · simp only []
    split
    · exact (Moves.setSlot s _ _).trans (.insertFrame _ _ _ _ (by simp))
    · exact .setSlot s _ _

/-! ### The queue -/

theorem Moves.enqueue {s : State} (x : QueueEntry) (h : s.queue.length < Config.queuePlaces) :
    Moves s (s.enqueue x) := (Move.enqueue s x h).one

theorem Moves.updEntry (s : State) (n : Nat) (f : QueueEntry → QueueEntry)
    (hn : ∀ x, (f x).serial = x.serial := by intro _; rfl) : Moves s (s.updEntry n f) :=
  (Move.entry s n f hn).one

theorem Moves.updEngine (s : State) (e : EngineId) (f : Engine → Engine)
    (hb : s.supervision.bounded → (s.engine e).passedOver ≤ 64 → (f (s.engine e)).passedOver ≤ 64 := by
      intro _ h; first | exact h | exact Nat.zero_le _) : Moves s (s.updEngine e f) :=
  (Move.engine s e f hb).one

theorem Moves.answerEntry (s : State) (x : QueueEntry) (c : ResultCode) (d : List Byte) :
    Moves s (s.answerEntry x c d) := by
  unfold State.answerEntry
  split
  · exact .refl s
  · exact .answer s _ _ _

theorem Moves.offerSurvey (s : State) (p : Port) : Moves s (s.offerSurvey p) := by
  unfold State.offerSurvey
  split
  · exact .refl s
  · split
    · rename_i h
      exact (Moves.enqueue _ (by simpa [State.roomInternal] using h)).trans (.updSurvey _ p _)
    · exact .updSurvey s p _

theorem Moves.offerPending (s : State) : Moves s s.offerPending := by
  refine Moves.foldl (fun t p => ?_) _ s
  split
  · exact .offerSurvey t p
  · exact .refl t

theorem Moves.removeEntry (s : State) (n : Nat) : Moves s (s.removeEntry n) :=
  ((Move.remove s n).one.trans (.offerPending _)).trans (.oweReservations _)

theorem Moves.finishEntry (s : State) (x : QueueEntry) (c : ResultCode) (d : List Byte) :
    Moves s (s.finishEntry x c d) :=
  (Moves.removeEntry s x.serial).trans (.answerEntry _ _ _ _)

/-! ### Bundle groups -/

theorem Moves.updGroup (s : State) (g : Group) (f : BundleGroup → BundleGroup)
    (h : ∀ x, (f x).slot = x.slot ∨ (f x).slot = none := by intro _; first | exact .inl rfl | exact .inr rfl) :
    Moves s (s.updGroup g f) := (Move.group s g f h).one

theorem Moves.releaseEvent (s : State) (g : Group) : Moves s (s.releaseEvent g) :=
  (Moves.oweReentry s _).trans (.oweSelection _)

theorem Moves.releaseSlot (s : State) (g : Group) : Moves s (s.releaseSlot g) := by
  unfold State.releaseSlot
  have m : Moves s (s.updGroup g fun x => { x with slot := none }).oweSelection :=
    (Moves.updGroup s g _).trans (.oweSelection _)
  simp only []
  split
  · exact m
  · exact m.trans (.releaseEvent _ _)

theorem Moves.dropReservation (s : State) (g : Group) : Moves s (s.dropReservation g) := by
  unfold State.dropReservation
  have m : Moves s (s.updGroup g fun x => { x with reserved := false }).oweSelection :=
    (Moves.updGroup s g _).trans (.oweSelection _)
  split
  · simp only []
    split
    · exact m.trans (.releaseEvent _ _)
    · exact m
  · exact .refl s

theorem Moves.dropReservations (s : State) : Moves s s.dropReservations :=
  Moves.foldl Moves.dropReservation _ s

theorem Moves.holdTimer (b s : State) (g : Group) : Moves s (State.holdTimer b s g) := by
  unfold State.holdTimer
  split
  · exact .updGroup s g _
  · split
    · exact .updGroup s g _
    · exact .refl s

theorem Moves.holdTimers (b s : State) : Moves s (State.holdTimers b s) :=
  Moves.foldl (Moves.holdTimer b) _ s

/-! ### Surveillance -/

theorem Moves.restartSurvey (s : State) (p : Port) : Moves s (s.restartSurvey p) := .updSurvey s p _

theorem Moves.surveyEntersUp (s : State) (p : Port) : Moves s (s.surveyEntersUp p) :=
  (Move.plain s p (fun x => { x with baseline := none }) fun _ => ⟨rfl, rfl, rfl, rfl, rfl⟩).one.trans
    (.restartSurvey _ p)

theorem Moves.idleEngine (s : State) (e : EngineId) : Moves s (s.idleEngine e) :=
  (Moves.updEngine s e _).trans (.oweSelection _)

theorem Moves.endSurvey (s : State) (p : Port) (c : ResultCode) : Moves s (s.endSurvey p c) := by
  unfold State.endSurvey
  split
  · exact .refl s
  · split
    · exact .finishEntry s _ _ _
    · exact ((Moves.setMode s p _).trans (.idleEngine _ _)).trans (.finishEntry _ _ _ _)

theorem Moves.surveyLeavesUp (s : State) (p : Port) (c : ResultCode) : Moves s (s.surveyLeavesUp p c) :=
  (Moves.updSurvey s p _).trans (.endSurvey _ p c)

/-! ### Training -/

theorem Training.timersFit_enter (t : Training) (l : LinkState) : (t.enter l).timersFit := by
  simp [Training.enter, Training.timersFit]

theorem Training.bounded_push {t : Training} (r : HistoryRecord) (h : t.bounded) :
    { t with history := pushHistory t.history r }.bounded := by
  obtain ⟨a, b⟩ := h
  refine ⟨?_, b⟩
  simp [pushHistory]
  omega

theorem Training.bounded_abandon {t : Training} (h : t.bounded) : t.abandonAttempt.bounded := by
  unfold Training.abandonAttempt
  split
  · exact Training.bounded_push _ h
  · exact h

theorem Training.abandonAttempt_link (t : Training) : t.abandonAttempt.link = t.link := by
  unfold Training.abandonAttempt
  split <;> rfl

theorem Training.timersFit_abandon {t : Training} (h : t.timersFit) : t.abandonAttempt.timersFit := by
  unfold Training.abandonAttempt
  split <;> exact h

/-- A change of a training context that keeps its link state and timers. -/
theorem Moves.note (s : State) (p : Port) (f : Training → Training)
    (hl : ∀ t, (f t).link = t.link := by intro _; rfl)
    (ht : ∀ t, t.timersFit → (f t).timersFit := by intro _ h; exact h)
    (hb : ∀ t, t.bounded → (f t).bounded := by
      intro _ h
      first
        | exact h
        | exact ⟨h.1, h.2.1, Nat.zero_le _, h.2.2.2⟩
        | exact ⟨h.1, h.2.1, h.2.2.1, nofun⟩
        | exact ⟨h.1, h.2.1, Nat.zero_le _, nofun⟩) :
    Moves s (s.updTraining p f) :=
  (Move.training s p f hl ht fun _ h => hb _ h).one

theorem Moves.recordAttempt (s : State) (p : Port) (o : HistoryOutcome) (m : Training → Option Int) :
    Moves s (s.updTraining p fun t => t.recordAttempt o (m t)) :=
  .note s p _ (hb := fun _ h => Training.bounded_push _ h)

theorem Moves.recordCycle (s : State) (p : Port) (o : HistoryOutcome) :
    Moves s (s.updTraining p fun t => t.recordCycle o) :=
  .note s p _ (hb := fun _ h => Training.bounded_push _ h)

theorem Moves.abandonAttempt (s : State) (p : Port) : Moves s (s.abandonAttempt p) :=
  .note s p _ Training.abandonAttempt_link (fun _ h => Training.timersFit_abandon h)
    fun _ h => Training.bounded_abandon h

theorem State.updTraining_twice (s : State) (p : Port) (f g : Training → Training) :
    (s.updTraining p f).updTraining p g = s.updTraining p fun t => g (f t) := by
  simp only [State.updTraining, State.updPort_twice]

theorem State.updTraining_oweSelection (s : State) (p : Port) (f : Training → Training) :
    s.oweSelection.updTraining p f = (s.updTraining p f).oweSelection := rfl

theorem Moves.setLink (s : State) (p : Port) (l : LinkState) (hn : l ≠ .train) : Moves s (s.setLink p l) := by
  have m : Moves s (s.updTraining p fun t => t.enter l) :=
    (Move.link s p l _ hn (fun _ => rfl) (fun t => Training.timersFit_enter t l) fun _ h => h).one
  unfold State.setLink
  simp only []
  split
  · exact m.trans (.oweSelection _)
  · exact m

theorem Moves.departUp (s : State) (p : Port) (c : ResultCode) : Moves s (s.departUp p c) :=
  ((Moves.raise s p .linkDown).trans
    (.note _ p (fun t => { t with current := none, degradeTimer := none })
      (ht := fun _ h => ⟨h.1, h.2.1, h.2.2.1, nofun, h.2.2.2.2⟩))).trans (.surveyLeavesUp _ p c)

theorem Moves.departIfUp (s : State) (p : Port) (c : ResultCode) : Moves s (s.departIfUp p c) := by
  unfold State.departIfUp
  split
  · exact .departUp s p c
  · exact .refl s

/-- A link state entered with its timer started. -/
theorem Moves.setLinkThen (s : State) (p : Port) (l : LinkState) (f : Training → Training) (hn : l ≠ .train)
    (hl : ∀ t : Training, (f (t.enter l)).link = l := by intro _; rfl)
    (ht : ∀ t : Training, (f (t.enter l)).timersFit := by intro _; simp [Training.enter, Training.timersFit])
    (hb : ∀ t, t.bounded → (f t).bounded := by
      intro _ h
      first
        | exact h
        | exact ⟨h.1, h.2.1, Nat.zero_le _, h.2.2.2⟩
        | exact ⟨h.1, h.2.1, h.2.2.1, nofun⟩
        | exact ⟨h.1, h.2.1, Nat.zero_le _, nofun⟩) :
    Moves s ((s.setLink p l).updTraining p f) := by
  have m : Moves s (s.updTraining p fun t => f (t.enter l)) :=
    (Move.link s p l _ hn hl ht fun t h => hb _ h).one
  unfold State.setLink
  simp only []
  split
  · rw [State.updTraining_oweSelection, State.updTraining_twice]
    exact m.trans (.oweSelection _)
  · rw [State.updTraining_twice]
    exact m

/-- TRAIN is entered with the slot free, or from TRAIN. -/
theorem Moves.enterTrain (s : State) (p : Port)
    (hg : (s.group (s.groupOf p)).slot = none ∨ s.link p = .train) : Moves s (s.enterTrain p) := by
  have m : Moves s ((s.setLink p .train).updTraining p fun t =>
      { t with margin := none, attemptTimer := some Config.attemptTime }) := by
    have m : Moves s (s.updTraining p fun t =>
        { t.enter .train with margin := none, attemptTimer := some Config.attemptTime }) :=
      (Move.train s p
        (fun t => { t.enter .train with margin := none, attemptTimer := some Config.attemptTime }) hg
        (fun _ => rfl) (fun t => by simp [Training.enter, Training.timersFit]) fun _ h => h).one
    unfold State.setLink
    simp only []
    split
    · rw [State.updTraining_oweSelection, State.updTraining_twice]
      exact m.trans (.oweSelection _)
    · rw [State.updTraining_twice]
      exact m
  unfold State.enterTrain
  simp only []
  split
  · exact m
  · exact m.trans (.send _ _ _)

theorem Moves.stopIf (s : State) (b : Bool) (p : Port) : Moves s (s.stopIf b p) := by
  unfold State.stopIf
  split
  · exact .send s p _
  · exact .refl s

theorem Moves.trainingEntry (s : State) (b : Bool) (p : Port) : Moves s (s.trainingEntry b p) := by
  unfold State.trainingEntry
  simp only []
  split
  · rename_i h
    exact .enterTrain s p (.inl (by simpa using (Bool.and_eq_true_iff.mp h).1))
  · exact (Moves.stopIf s b p).trans (.setLink _ p _ (by simp))

theorem Moves.exhaust (s : State) (b : Bool) (p : Port) : Moves s (s.exhaust b p) := by
  unfold State.exhaust
  simp only []
  have m := ((Moves.recordCycle s p .exhausted).trans (.stopIf _ b p)).trans
    (.setLinkThen _ p .backoff (fun t => { t with backoffTimer := some (s.profile p).backoffTime })
      (by simp))
  split
  · split
    · rename_i h
      exact (m.trans (.enqueue _ (by simpa [State.roomInternal] using h))).trans (.raise _ _ _)
    · exact m.trans (.raise _ _ _)
  · exact m.trans (.raise _ _ _)

theorem State.takeSnapshot_eq (s : State) (p : Port) :
    s.takeSnapshot p = s.updTraining p fun t =>
      { t with snapshot := some ⟨(s.port p).cableClass, s.plan[(s.port p).cableClass]⟩ } := by
  rfl

theorem Moves.takeSnapshot (s : State) (p : Port) : Moves s (s.takeSnapshot p) := by
  rw [State.takeSnapshot_eq]
  exact (Move.training s p
    (fun t => { t with snapshot := some ⟨(s.port p).cableClass, s.plan[(s.port p).cableClass]⟩ })
    (fun _ => rfl) (fun _ h => h) fun hl h => ⟨h.1, h.2.1, h.2.2.1, fun x hx => Option.some.inj hx ▸ hl _⟩).one

theorem Moves.forcedStart (s : State) (b : Bool) (p : Port) (r : Rate) : Moves s (s.forcedStart b p r) := by
  unfold State.forcedStart
  simp only []
  have m := (Moves.takeSnapshot s p).trans
    (.note _ p (fun t => { t with attempts := 0, target := some r }))
  split
  · exact m.trans (.exhaust _ b p)
  · exact m.trans (.trainingEntry _ b p)

theorem Moves.enterExchange (s : State) (b : Bool) (p : Port) : Moves s (s.enterExchange b p) := by
  unfold State.enterExchange
  simp only []
  have m := fun a => (Moves.takeSnapshot s p).trans
    (.note _ p (fun t => { t with attempts := 0, target := none, ability := a }))
  split
  · exact (m _).trans (.exhaust _ b p)
  · exact ((m _).trans (.setLinkThen _ p .exchange
      (fun t => { t with exchangeTimer := some Config.exchangeTime }) (by simp))).trans (.send _ _ _)

theorem Moves.beginExchange (s : State) (b : Bool) (p : Port) : Moves s (s.beginExchange b p) := by
  unfold State.beginExchange
  split
  · exact .enterExchange s b p
  · exact .forcedStart s b p _

theorem Moves.enterListen (s : State) (p : Port) : Moves s (s.enterListen p) := by
  unfold State.enterListen
  simp only []
  have m := Moves.setLinkThen s p .listen
    (fun t => { t with demoted := [], attempts := 0, target := none, snapshot := none, margin := none })
    (by simp)
  split
  · exact m.trans (.beginExchange _ _ _)
  · exact m

theorem Moves.enterOff (s : State) (p : Port) : Moves s (s.enterOff p) :=
  (Moves.setLinkThen s p .off Training.silenced (by simp)
    (ht := fun t => by simp [Training.silenced, Training.enter, Training.timersFit])).trans
    (.send _ _ _)

theorem Moves.enterNoLine (s : State) (p : Port) : Moves s (s.enterNoLine p) :=
  .setLinkThen s p .noLine Training.silenced (by simp)
    (ht := fun t => by simp [Training.silenced, Training.enter, Training.timersFit])

theorem Moves.enterHeld (s : State) (p : Port) : Moves s (s.enterHeld p) :=
  ((Moves.abandonAttempt s p).trans (.departIfUp _ p _)).trans
    (.setLinkThen _ p .held (fun t => { t with energy := false }) (by simp))

theorem Moves.demote (s : State) (p : Port) : Moves s (s.demote p) :=
  ((Moves.note s p _).trans (.send _ _ _)).trans
    (.beginExchange _ _ _)

/-- The limit by which an attempt is judged is at most 8. -/
theorem Training.figures_limit {t : Training} (h : t.bounded) : t.figures.1 ≤ 8 := by
  unfold Training.figures
  split
  · decide
  · rename_i r hr
    cases hs : t.snapshot with
    | none => rw [hs] at hr; cases hr
    | some x => rw [hs] at hr; exact (h.2.2.2 x hs).2 r (List.mem_of_find?_eq_some hr)

/-- An attempt is counted that leaves the counter below its limit. -/
theorem Moves.countAttempt (s : State) (p : Port) (f : Training → Training) (hl : ∀ t, (f t).link = t.link)
    (ht : ∀ t, t.timersFit → (f t).timersFit) (h : (s.training p).attempts + 1 < (s.training p).figures.1)
    (hb : ∀ t : Training, t.bounded → t.attempts + 1 ≤ 8 → (f t).bounded) : Moves s (s.updTraining p f) :=
  (Move.training s p f hl ht fun _ b =>
    hb _ b (Nat.le_trans (Nat.le_of_lt h) (Training.figures_limit b))).one

/-- An attempt is counted, and the rate demoted: the counter is cleared. -/
theorem Moves.countedDemote (s : State) (p : Port) (f : Training → Training)
    (hl : ∀ t, (f t).link = t.link := by intro _; rfl)
    (ht : ∀ t, t.timersFit → (f t).timersFit := by intro _ h; exact h)
    (hb : ∀ t, t.bounded → { f t with attempts := 0 }.bounded := by
      intro _ h; exact ⟨h.1, h.2.1, Nat.zero_le _, h.2.2.2⟩) : Moves s ((s.updTraining p f).demote p) := by
  unfold State.demote
  rw [State.updTraining_twice]
  refine ((Moves.note s p _ ?_ ?_ ?_).trans (.send _ _ _)).trans (.beginExchange _ _ _)
  · exact hl
  · exact ht
  · exact hb

theorem Moves.failAttempt (s : State) (p : Port) (ht : s.link p = .train) : Moves s (s.failAttempt p) := by
  unfold State.failAttempt
  simp only []
  split
  · rename_i h
    refine (Moves.countAttempt s p (fun t => { t with attempts := t.attempts + 1 }) (fun _ => rfl)
      (fun _ h => h) h fun _ b hc => ⟨b.1, b.2.1, hc, b.2.2.2⟩).trans (.enterTrain _ p (.inr ?_))
    simpa [State.link, State.training, State.updTraining] using ht
  · exact .countedDemote s p _

theorem Moves.stopTraining (s : State) (p : Port) (l : LinkState) : Moves s (s.stopTraining p l) := by
  unfold State.stopTraining
  split
  · exact .send s p _
  · exact .refl s

theorem Moves.disablePort (s : State) (p : Port) : Moves s (s.disablePort p) := by
  unfold State.disablePort
  split <;>
    first
      | exact .refl s
      | exact (((Moves.abandonAttempt s p).trans (.departIfUp _ p _)).trans (.stopTraining _ p _)).trans
          (.enterOff _ p)

theorem Moves.enablePort (s : State) (p : Port) : Moves s (s.enablePort p) := by
  unfold State.enablePort
  split
  · exact (Moves.send s p _).trans (.enterListen _ p)
  · exact .refl s

theorem Moves.adminStored (s : State) (p : Port) (a b : Bool) : Moves s (s.adminStored p a b) := by
  unfold State.adminStored
  split
  · exact .disablePort s p
  · split
    · exact .enablePort s p
    · exact .refl s

theorem Moves.restart (s : State) (p : Port) (r : Option Rate) : Moves s (s.restart p r) :=
  ((((Moves.abandonAttempt s p).trans (.departIfUp _ p _)).trans (.stopTraining _ p _)).trans
    (.note _ p _)).trans (.beginExchange _ _ _)

theorem Moves.ratesRemoved (s : State) (p : Port) (old : RateSet) : Moves s (s.ratesRemoved p old) := by
  have leave : Moves s ((((s.raise p .degradedProfile).departUp p .portBusy).send p
      .stopTrain).beginExchange false p) :=
    (((Moves.raise s p _).trans (.departUp _ p _)).trans (.send _ _ _)).trans (.beginExchange _ _ _)
  have drop : Moves s ((((s.abandonAttempt p).updTraining p fun x => { x with attempts := 0 }).send p
      .stopTrain).beginExchange false p) :=
    (((Moves.abandonAttempt s p).trans (.note _ p _)).trans (.send _ _ _)).trans (.beginExchange _ _ _)
  unfold State.ratesRemoved
  simp only []
  split
  · split
    · exact leave
    · exact .refl s
  · split
    · exact .beginExchange s _ p
    · exact .refl s
  · split
    · exact drop
    · exact .refl s
  · split
    · exact drop
    · exact .refl s
  · split
    · exact .beginExchange s _ p
    · exact .refl s
  all_goals exact .refl s

end Sys2Proof.Machine
end

