-- ==== Sys2Proof/Laws/EngineMoves.lean ====
section
/-! SUPPORT. The reports, the engines, the scheduler and the close of an event as chains of moves. -/

namespace Sys2Proof.Machine

/-! ### Reports -/

theorem Moves.sequence (s : State) (n : BitVec 32) : Moves s { s with sequence := n } := (Move.sequence s n).one

theorem Moves.storeReport (s : State) (p : Port) (r : CableReport) : Moves s (s.storeReport p r) := by
  have m : Moves s ((({ s with sequence := nextSequence s.sequence }.updPort p fun x =>
      { x with report := some { r with sequence := nextSequence s.sequence } }).selectClassOf p)) :=
    ((Moves.sequence s _).trans (Move.plain _ p
      (fun x => { x with report := some { r with sequence := nextSequence s.sequence } })
      fun _ => ⟨rfl, rfl, rfl, rfl, rfl⟩).one).trans (Move.classOf _ p).one
  unfold State.storeReport
  simp only []
  split
  · exact m.trans (.raise _ _ _)
  · exact m

theorem Moves.storeSummary (s : State) (p : Port) (r : SurveySummary) : Moves s (s.storeSummary p r) :=
  ((Moves.sequence s _).trans (Move.plain _ p
    (fun x => { x with summary := some { r with sequence := nextSequence s.sequence } })
    fun _ => ⟨rfl, rfl, rfl, rfl, rfl⟩).one).trans (Move.classOf _ p).one

theorem Moves.checkDrift (s : State) (p : Port) (r : SurveySummary) : Moves s (s.checkDrift p r) := by
  unfold State.checkDrift
  split
  · exact (Move.plain s p (fun x => { x with baseline := some r }) fun _ => ⟨rfl, rfl, rfl, rfl, rfl⟩).one
  · split
    · exact .raise s p _
    · exact .refl s

/-! ### Sweeps and the end of a measurement -/

theorem Moves.continueSweep (s : State) (x : QueueEntry) (o : TestOptions) (p : Port) (w : Sweep) :
    Moves s (s.continueSweep x o p w) := by
  unfold State.continueSweep
  simp only []
  split
  · exact .finishEntry s x _ _
  · exact ((Moves.updEntry s _ _).trans (.oweSelection _)).trans (.oweReservations _)

theorem Moves.cancelSweep (s : State) (x : QueueEntry) (p : Port) (w : Sweep) :
    Moves s (s.cancelSweep x p w) := .finishEntry s x _ _

theorem Moves.endMeasurement (s : State) (n : Nat) (p : Port) (r : RecordedResult) :
    Moves s (s.endMeasurement n p r) := by
  unfold State.endMeasurement
  split
  · exact .refl s
  · split
    · simp only []
      split
      · exact .cancelSweep s _ _ _
      · exact .continueSweep s _ _ _ _
    · exact .finishEntry s _ _ _

/-! ### The phases of a test -/

theorem Moves.updTest (s : State) (e : EngineId) (f : TestContext → TestContext) :
    Moves s (s.updTest e f) := .updEngine s e _

theorem Moves.enterUntimed (s : State) (e : EngineId) (st : EngineState) : Moves s (s.enterUntimed e st) :=
  .updEngine s e _

theorem Moves.pulseNext (s : State) (e : EngineId) : Moves s (s.pulseNext e) := by
  unfold State.pulseNext
  split
  · exact .refl s
  · split
    · exact .refl s
    · split
      · exact .refl s
      · exact (Moves.updTest s e _).trans (.send _ _ _)

theorem Moves.beginCapture (s : State) (e : EngineId) : Moves s (s.beginCapture e) :=
  (Moves.updEngine s e _).trans (.pulseNext _ e)

theorem Moves.pairCaptured (s : State) (e : EngineId) : Moves s (s.pairCaptured e) := by
  unfold State.pairCaptured
  split
  · exact .refl s
  · split
    · exact (Moves.enterUntimed s e _).trans (.releaseSlot _ _)
    · exact .pulseNext s e

theorem Moves.leaveHeld (s : State) (p : Port) : Moves s (s.leaveHeld p) := by
  unfold State.leaveHeld
  split
  · exact .enterNoLine s p
  · split
    · exact .enterListen s p
    · exact .enterOff s p

theorem Moves.completeRestore (s : State) (e : EngineId) : Moves s (s.completeRestore e) := by
  unfold State.completeRestore
  split
  · exact .refl s
  · exact ((Moves.leaveHeld s _).trans (.idleEngine _ e)).trans (.endMeasurement _ _ _ _)

theorem Moves.enterRestore (s : State) (e : EngineId) : Moves s (s.enterRestore e) := by
  unfold State.enterRestore
  split
  · exact .refl s
  · have m := fun f => (Moves.enterUntimed s e .restore).trans (.updTest _ e f)
    simp only []
    split
    · exact (m _).trans (.send _ _ _)
    · exact (m _).trans (.completeRestore _ e)

theorem Moves.abortTest (s : State) (e : EngineId) (c : AbortCause) : Moves s (s.abortTest e c) := by
  unfold State.abortTest
  split
  · exact .refl s
  · exact ((Moves.updTest s e _).trans (.releaseSlot _ _)).trans (.enterRestore _ e)

theorem Moves.abortLost (s : State) (e : EngineId) (m : Measurement) (t : TestContext) :
    Moves s (s.abortLost e m t) :=
  (((Moves.releaseSlot s _).trans (.enterNoLine _ _)).trans (.idleEngine _ e)).trans (.endMeasurement _ _ _ _)

theorem Moves.coalesce (s : State) (p : Port) (t : TestContext) (r : CableReport) :
    Moves s (s.coalesce p t r) :=
  Moves.foldl (f := fun u (x : QueueEntry) => u.finishEntry x x.okCode r.encode)
    (fun u x => .finishEntry u x _ _) _ s

theorem Moves.completeAnalyze (s : State) (e : EngineId) : Moves s (s.completeAnalyze e) := by
  unfold State.completeAnalyze
  split
  · exact .refl s
  · split
    · exact .refl s
    · simp only []
      split
      · exact .refl s
      · exact (((Moves.storeReport s _ _).trans (.coalesce _ _ _ _)).trans (.updTest _ e _)).trans
          (.enterRestore _ e)

theorem Moves.completeSurvey (s : State) (e : EngineId) (m : Measurement) (a b c d : Tap) :
    Moves s (s.completeSurvey e m a b c d) := by
  unfold State.completeSurvey
  simp only []
  split
  · exact .refl s
  · have h := fun r d => ((((Moves.storeSummary s m.port r).trans (.checkDrift _ m.port d)).trans
      (.restartSurvey _ m.port)).trans (.idleEngine _ e))
    split
    · exact h _ _
    · exact (h _ _).trans (.finishEntry _ _ _ _)

theorem Moves.timeOutSurvey (s : State) (e : EngineId) (m : Measurement) : Moves s (s.timeOutSurvey e m) := by
  have h := (((Moves.setMode s m.port .openMode).trans (.restartSurvey _ m.port)).trans (.idleEngine _ e))
  unfold State.timeOutSurvey
  simp only []
  split
  · exact h
  · exact h.trans (.finishEntry _ _ _ _)

/-! ### Grants -/

theorem Moves.movePassedOver (s : State) (e : EngineId) (o : Option QueueEntry) (n : Nat) :
    Moves s (s.movePassedOver e o n) := by
  unfold State.movePassedOver
  split
  · exact .refl s
  · split
    · exact .updEngine s e _
    · split
      · rename_i h
        exact .updEngine s e _ fun b _ => Nat.le_trans (Nat.le_of_lt h) b.2.2.2
      · exact (Moves.updEngine s e _).trans (.updEntry _ _ _)

theorem Moves.grantTest (s : State) (e : EngineId) (x : QueueEntry) (o : TestOptions)
    (h : ∀ q, q ≠ x.port → s.groupOf q = s.groupOf x.port → s.link q ≠ .train) :
    Moves s (s.grantTest e x o) :=
  ((((Move.take s (s.groupOf x.port) ⟨x.port, e⟩ h).one.trans (.enterHeld _ _)).trans
    (.updEngine _ e _)).trans (.send _ _ _))

theorem Moves.grantSurvey (s : State) (e : EngineId) (x : QueueEntry) : Moves s (s.grantSurvey e x) :=
  (Moves.updEngine s e _).trans (.send _ _ _)

/-- No member of a group but one port is in TRAIN. -/
theorem State.otherInTrain_false {s : State} {g : Group} {p : Port} (h : s.otherInTrain g p = false)
    (q : Port) (hq : q ≠ p) (hg : s.groupOf q = g) : s.link q ≠ .train := by
  intro ht
  have : s.otherInTrain g p = true := by
    simp only [State.otherInTrain, List.any_eq_true]
    exact ⟨q, by simp [allPorts], by simp [hq, hg, ht]⟩
  simp [h] at this

/-- What eligibility says of a TEST (R77). -/
theorem State.eligible_test {s : State} {x : QueueEntry} (h : s.eligible x = true) (ht : x.isSurvey = false) :
    (s.group (s.groupOf x.port)).slot = none ∧ s.otherInTrain (s.groupOf x.port) x.port = false := by
  simp [State.eligible, ht] at h
  exact h.2

theorem Moves.grant (s : State) (e : EngineId) (x : QueueEntry) (h : s.eligible x = true) :
    Moves s (s.grant e x) := by
  have m : Moves s (s.updEntry x.serial fun y => { y with state := .inFlight e, urgent := false }) :=
    .updEntry s _ _
  unfold State.grant
  simp only []
  split
  · exact (m.trans (.grantSurvey _ e x)).trans (.movePassedOver _ _ _ _)
  · rename_i o hk
    have ht : x.isSurvey = false := by simp [QueueEntry.isSurvey, hk]
    refine (m.trans (.grantTest _ e x o ?_)).trans (.movePassedOver _ _ _ _)
    exact State.otherInTrain_false (State.eligible_test h ht).2

/-! ### Choice -/

theorem highestClass_mem {xs : List QueueEntry} {x : QueueEntry} (h : highestClass xs = some x) : x ∈ xs := by
  induction xs generalizing x with
  | nil => simp [highestClass] at h
  | cons y rest ih =>
    simp only [highestClass] at h
    split at h
    · simp_all
    · rename_i z hz
      split at h
      · simp at h; subst h; exact List.mem_cons_of_mem _ (ih hz)
      · simp at h; subst h; exact List.mem_cons_self

theorem State.choose_mem {s : State} {xs : List QueueEntry} {x : QueueEntry} (h : s.choose xs = some x) :
    x ∈ xs := by
  simp only [State.choose] at h
  split at h
  · rename_i y hy
    simp at h; subst h
    exact List.mem_of_find?_eq_some hy
  · have m := highestClass_mem h
    split at m
    · exact m
    · exact (List.mem_filter.mp m).1

/-- A selection's entry is WAITING in the queue, eligible, and of the engine (R77 to R79). -/
theorem State.selection_eligible {s : State} {e : EngineId} {x : QueueEntry} (h : s.selection e = some x) :
    x ∈ s.queue ∧ engineOf x.port = e ∧ s.eligible x = true := by
  have m := List.mem_filter.mp (State.choose_mem h)
  exact ⟨m.1, by simpa using (Bool.and_eq_true_iff.mp m.2).1, (Bool.and_eq_true_iff.mp m.2).2⟩

/-! ### The close of an event -/

theorem State.consequences_grant {s : State} {e : EngineId} {x : QueueEntry}
    (h : Consequence.grant e x ∈ s.consequences) : s.selection e = some x := by
  simp only [State.consequences, List.mem_append, List.mem_map] at h
  rcases h with ⟨_, _, h⟩ | h
  · exact absurd h (by simp)
  · split at h
    · simp only [List.mem_filterMap, Option.map_eq_some_iff] at h
      obtain ⟨_, _, _, hs, hc⟩ := h
      simp at hc
      rw [← hc.1, ← hc.2]
      exact hs
    · simp at h

theorem Moves.carryOut (s : State) (c : Consequence) (h : c ∈ s.consequences) : Moves s (s.carryOut c) := by
  cases c with
  | reenter p => exact (Moves.owes s _).trans (.trainingEntry _ _ p)
  | grant e x => exact .grant s e x (State.selection_eligible (State.consequences_grant h)).2.2

theorem Moves.reservationsDue (s : State) : Moves s s.reservationsDue := by
  unfold State.reservationsDue
  split
  · exact (Moves.owes s _).trans (.dropReservations _)
  · exact .refl s

theorem getD_mem {α : Type} (xs : List α) (n : Nat) (d : α) (hd : d ∈ xs) : xs.getD n d ∈ xs := by
  rw [List.getD_eq_getElem?_getD]
  cases h : xs[n]? with
  | none => simpa using hd
  | some y => simpa using List.mem_of_getElem? h

theorem Moves.settle (n : Nat) (s : State) : Moves s (State.settle n s) := by
  induction n generalizing s with
  | zero => exact .discharge s
  | succ n ih =>
    unfold State.settle
    simp only []
    have m := Moves.reservationsDue s
    split
    · exact m.trans (.discharge _)
    · rename_i c hc
      exact (m.trans (.carryOut _ c (by rw [hc]; simp))).trans (ih _)
    · rename_i c rest _ hc
      have m2 := m.trans (Move.own _ s.reservationsDue.due (s.reservationsDue.arbiter + 1)
        s.reservationsDue.outputs).one
      refine (m2.trans (.carryOut _ _ ?_)).trans (ih _)
      have e : State.consequences { s.reservationsDue with
          arbiter := s.reservationsDue.arbiter + 1 } = c :: rest := hc
      rw [e]
      exact getD_mem _ _ _ List.mem_cons_self

theorem Moves.closeEvent (b s : State) : Moves s (State.closeEvent b s) :=
  (Moves.settle _ s).trans (.holdTimers b _)

/-- An event taken whole is a chain of moves if its own effect is one. -/
theorem Moves.takeEvent {f : State → State} {s t : State} (ht : takeEvent f s = .next t) (h : Moves s (f s)) :
    Moves s t := by
  unfold Sys2Proof.Machine.takeEvent at ht
  split at ht
  · exact Host.Outcome.next.inj ht ▸ .refl s
  · exact Host.Outcome.next.inj ht ▸ h.trans (.closeEvent s _)

/-- An event that goes on changes the state by its own effect and the close. -/
theorem takeEvent_next {f : State → State} {s : State} (h : s.pinHeld = false) :
    takeEvent f s = .next (State.closeEvent s (f s)) := by
  simp [takeEvent, h]

end Sys2Proof.Machine
end

