-- ==== Sys2Proof/Laws/Close.lean ====
section
/-! SUPPORT. When closing an event changes nothing, and what executing a request entry comes to once the
common checks are passed. -/

namespace Sys2Proof.Machine

/-! ### The close of an event that owes nothing -/

theorem State.settle_calm {s : State} (h : s.due = Due.none) : State.settle settleFuel s = s := by
  have h1 : s.reservationsDue = s := by
    simp [State.reservationsDue, h, Due.none]
  have h2 : s.consequences = [] := by simp [State.consequences, h, Due.none]
  unfold settleFuel State.settle
  simp only [h1, h2]
  unfold State.discharge
  rw [← h]

theorem State.holdTimer_calm {b s : State} {g : Group} (h : s.groupBlocked g = b.groupBlocked g) :
    State.holdTimer b s g = s := by
  unfold State.holdTimer
  rw [h]
  cases b.groupBlocked g <;> simp

theorem State.holdTimers_calm {b s : State} (h : ∀ g, s.groupBlocked g = b.groupBlocked g) :
    State.holdTimers b s = s := by
  unfold State.holdTimers
  generalize allGroups = l
  induction l with
  | nil => rfl
  | cons g rest ih => rw [List.foldl_cons, State.holdTimer_calm (h g)]; exact ih

/-- Nothing is owed and no group's blocking has changed: the close changes nothing. -/
theorem State.closeEvent_calm {b s : State} (hd : s.due = Due.none)
    (h : ∀ g, s.groupBlocked g = b.groupBlocked g) : State.closeEvent b s = s := by
  unfold State.closeEvent
  rw [State.settle_calm hd, State.holdTimers_calm h]

/-- What blocking reads is the same in both states (R84). -/
structure State.SameBlocking (s t : State) : Prop where
  queue : t.queue = s.queue
  quads : t.quads = s.quads
  slots : ∀ g, (t.group g).slot = (s.group g).slot
  groupOf : ∀ p, t.groupOf p = s.groupOf p
  train : ∀ p, (t.link p == .train) = (s.link p == .train)

theorem State.SameBlocking.groupBlocked {s t : State} (h : s.SameBlocking t) (g : Group) :
    t.groupBlocked g = s.groupBlocked g := by
  unfold State.groupBlocked State.blockedByTraining State.otherInTrain State.portInFlight State.quadUp
  simp only [h.queue, h.quads, h.slots, h.groupOf, h.train]

theorem State.SameBlocking.close {s t : State} (h : s.SameBlocking t) (hd : t.due = Due.none) :
    State.closeEvent s t = t := State.closeEvent_calm hd h.groupBlocked

theorem State.SameBlocking.refl (s : State) : s.SameBlocking s := ⟨rfl, rfl, fun _ => rfl, fun _ => rfl, fun _ => rfl⟩

theorem State.SameBlocking.trans {s t u : State} (a : s.SameBlocking t) (b : t.SameBlocking u) :
    s.SameBlocking u :=
  ⟨b.queue.trans a.queue, b.quads.trans a.quads, fun g => (b.slots g).trans (a.slots g),
    fun p => (b.groupOf p).trans (a.groupOf p), fun p => (b.train p).trans (a.train p)⟩

/-- A port changes, but neither its group nor whether it is in TRAIN. -/
theorem State.SameBlocking.updPort (s : State) (p : Port) (f : PortState → PortState)
    (hg : (f (s.port p)).profile.group = (s.port p).profile.group)
    (ht : ((f (s.port p)).training.link == .train) = ((s.port p).training.link == .train)) :
    s.SameBlocking (s.updPort p f) := by
  refine ⟨rfl, rfl, fun _ => rfl, fun q => ?_, fun q => ?_⟩
  · show ((s.updPort p f).port q).profile.group = _
    rw [State.port_updPort]
    split
    · rename_i h; rw [hg, h]; rfl
    · rfl
  · show (((s.updPort p f).port q).training.link == .train) = _
    rw [State.port_updPort]
    split
    · rename_i h; rw [ht, h]; rfl
    · rfl

/-! ### Requests (R155, R162) -/

/-- A call whose role and parameter length pass is executed. -/
theorem State.serve_passed {s t : State} {code : Nat} {lowest : Role} {fits : List Byte → Bool}
    {body : Call → State → State} {c : Call} (h : s.calls code c t) (hr : lowest.code ≤ c.role.code)
    (hl : fits c.params = true) : s.serve code lowest fits body = body c t := by
  obtain ⟨r, rest, slot, h1, h2, h3, rfl, rfl⟩ := h
  unfold State.serve
  rw [h1]
  simp only [h2, ne_eq, not_true_eq_false, if_false]
  split
  · rename_i hn
    exact absurd (h3.symm.trans hn) (by simp)
  · rename_i slot' hs
    have : slot' = slot := by
      have := hs.symm.trans h3
      simpa using this
    subst this
    rw [if_neg (Nat.not_lt.mpr hr), if_neg (by simp [hl])]

end Sys2Proof.Machine
end

