-- ==== Sys2Proof/Laws/Effects.lean ====
section
/-! SUPPORT. How the shared operations meet: commands, notices, link states and snapshots in the terms of the
statements, and the orders in which they may be taken. -/

namespace Sys2Proof.Machine

/-- A search through a list looks first place first. -/
theorem FirstWith.of_find? {α : Type} {meets : α → Prop} (xs : List α) (f : α → Bool)
    (h : ∀ x, f x = true ↔ meets x) : FirstWith xs meets (xs.find? f) := by
  have miss : ∀ x, (!f x) = true ↔ ¬ meets x := fun x => by rw [← h]; simp
  refine ⟨fun x => ?_, by simp [List.find?_eq_none, h]⟩
  simp only [List.find?_eq_some_iff_append, h, miss]

theorem State.noticeRaised_woken (s : State) : s.noticeRaised = s.woken := by
  unfold State.noticeRaised State.woken
  by_cases h : s.notice.state = NoticeState.idle ∧ s.supervision.station.noticeDestination.isSome = true
  · rw [if_pos h, if_pos (by simp [h])]; rfl
  · rw [if_neg h, if_neg (by simpa using h)]

theorem State.send_quadUp (s : State) (p q : Port) (c) : (s.send p c).quadUp q = s.quadUp q := by
  unfold State.send; split <;> rfl

theorem State.send_training (s : State) (p q : Port) (c) : (s.send p c).training q = s.training q := by
  unfold State.send; split
  · show ((s.setMode p _).port q).training = _
    unfold State.setMode; rw [State.port_updPort]; split
    · rename_i h; rw [h]; rfl
    · rfl
  · rfl

theorem State.send_updTraining (s : State) (p : Port) (f : Training → Training) (c) :
    (s.updTraining p f).send p c = (s.send p c).updTraining p f := by
  unfold State.send
  have : (s.updTraining p f).quadUp p = s.quadUp p := rfl
  rw [this]
  split
  · have hm : (s.updTraining p f).mode p = s.mode p := by
      unfold State.mode State.updTraining; rw [State.port_updPort]; simp
    rw [hm]
    show ((s.updTraining p f).setMode p _).emit _ = ((s.setMode p _).updTraining p f).emit _
    congr 1
    simp only [State.updTraining, State.setMode, State.updPort_twice]
  · rfl

theorem State.send_oweSelection (s : State) (p : Port) (c) : s.oweSelection.send p c = (s.send p c).oweSelection := by
  unfold State.send
  have : s.oweSelection.quadUp p = s.quadUp p := rfl
  rw [this]; split <;> rfl

theorem State.send_leavingTrain (b s : State) (p : Port) (c) : (b.leavingTrain p s).send p c = b.leavingTrain p (s.send p c) := by
  unfold State.leavingTrain; split
  · exact State.send_oweSelection _ _ _
  · rfl

theorem State.updTraining_leavingTrain (b s : State) (p q : Port) (f) : (b.leavingTrain p s).updTraining q f = b.leavingTrain p (s.updTraining q f) := by
  unfold State.leavingTrain; split
  · rfl
  · rfl

theorem State.stopping_updTraining (s : State) (b : Bool) (p : Port) (f) : (s.updTraining p f).stopping b p = (s.stopping b p).updTraining p f := by
  unfold State.stopping; split
  · exact State.send_updTraining _ _ _ _
  · rfl

theorem State.link_updTraining_same (s : State) (p : Port) (f : Training → Training) :
    (s.updTraining p f).link p = (f (s.training p)).link := by
  unfold State.link State.training State.updTraining; rw [State.port_updPort]; simp

theorem State.training_updTraining_same (s : State) (p : Port) (f : Training → Training) :
    (s.updTraining p f).training p = f (s.training p) := by
  unfold State.training State.updTraining; rw [State.port_updPort]; simp

theorem State.setLink_leavingTrain (s : State) (p : Port) (l : LinkState) (h1 : l ≠ .train) (h2 : l ≠ .up) :
    s.setLink p l = s.leavingTrain p (s.updTraining p fun t => t.enter l) := by
  unfold State.setLink State.leavingTrain
  by_cases h : s.link p = .train <;> simp [h, h1, h2]

theorem State.leavingTrain_congr (a b s : State) (p) (h : a.link p = b.link p) : a.leavingTrain p s = b.leavingTrain p s := by
  unfold State.leavingTrain; rw [h]

theorem State.takeSnapshot_next (s : State) (p : Port) : s.takeSnapshot p = s.updTraining p fun t => { t with snapshot := some (s.nextSnapshot p) } := by
  unfold State.takeSnapshot State.updTraining State.updPort State.nextSnapshot; rfl

theorem State.localAbility_triable (s : State) (p : Port) (d : RateSet) :
    localAbility (s.profile p).allowed (s.plan[(s.port p).cableClass]) d = s.triable p d := by
  unfold localAbility State.triable RateSet.ofPred State.nextSnapshot
  congr 1
  funext r
  rw [Bool.eq_iff_iff]
  simp [and_assoc]
theorem State.woken_updPort (s : State) (p) (f) : s.woken.updPort p f = (s.updPort p f).woken := by
  unfold State.woken
  split
  · rw [if_pos ‹_›]; rfl
  · rw [if_neg ‹_›]

theorem State.woken_queue (s : State) : s.woken.queue = s.queue := by
  unfold State.woken; split <;> rfl

theorem State.woken_oweSelection (s : State) : s.oweSelection.woken = s.woken.oweSelection := by
  unfold State.woken
  by_cases h : s.notice.state = .idle ∧ s.supervision.station.noticeDestination.isSome = true
  · rw [if_pos h]; exact (if_pos h).trans rfl
  · rw [if_neg h]; exact if_neg h

theorem State.port_woken (s : State) (p : Port) : s.woken.port p = s.port p := by
  unfold State.woken; split <;> rfl

theorem State.raise_woken (s : State) (p) (e) : s.raise p e = (s.updPort p fun x => { x with events := x.events.record e }).woken := by
  simp only [State.raise, State.noticeRaised_woken]


/-! ### What leaves blocking as it is (R84), and owes nothing -/

theorem State.SameBlocking.updTraining (s : State) (p : Port) (f : Training → Training)
    (h : ((f (s.training p)).link == .train) = (s.link p == .train)) : s.SameBlocking (s.updTraining p f) :=
  .updPort s p _ rfl h

theorem State.SameBlocking.emit (s : State) (o : Output) : s.SameBlocking (s.emit o) :=
  ⟨rfl, rfl, fun _ => rfl, fun _ => rfl, fun _ => rfl⟩

theorem State.SameBlocking.send (s : State) (p : Port) (c : LaneCommand) : s.SameBlocking (s.send p c) := by
  unfold State.send
  split
  · exact (State.SameBlocking.updPort s p _ rfl rfl).trans (.emit _ _)
  · exact .refl s

theorem State.SameBlocking.woken (s : State) : s.SameBlocking s.woken := by
  unfold State.woken
  split
  · exact ⟨rfl, rfl, fun _ => rfl, fun _ => rfl, fun _ => rfl⟩
  · exact .refl s

theorem State.SameBlocking.raise (s : State) (p : Port) (e : PortEvent) : s.SameBlocking (s.raise p e) := by
  rw [State.raise_woken]
  exact (State.SameBlocking.updPort s p _ rfl rfl).trans (.woken _)

theorem State.SameBlocking.updSupervision (s : State) (f : Supervision → Supervision) :
    s.SameBlocking (s.updSupervision f) := ⟨rfl, rfl, fun _ => rfl, fun _ => rfl, fun _ => rfl⟩

theorem State.SameBlocking.answer (s : State) (a : ReplyPlace) (c : ResultCode) (d : List Byte) :
    s.SameBlocking (s.answer a c d) := by
  unfold State.answer
  split
  · exact .refl s
  · simp only []
    split
    · unfold State.insertFrame State.updTraffic State.setSlot
      exact (State.SameBlocking.updSupervision s _).trans (.updPort _ _ _ rfl rfl)
    · exact .updSupervision s _

theorem State.send_due (s : State) (p : Port) (c : LaneCommand) : (s.send p c).due = s.due := by
  unfold State.send; split <;> rfl

theorem State.woken_due (s : State) : s.woken.due = s.due := by
  unfold State.woken; split <;> rfl

theorem State.raise_due (s : State) (p : Port) (e : PortEvent) : (s.raise p e).due = s.due := by
  rw [State.raise_woken, State.woken_due]; rfl

theorem State.answer_due (s : State) (a : ReplyPlace) (c : ResultCode) (d : List Byte) :
    (s.answer a c d).due = s.due := by
  unfold State.answer
  split
  · rfl
  · simp only []
    split <;> rfl

/-! ### Completion -/

/-- An event whose own effect is `u`. -/
theorem takeEvent_effect {f : State → State} {s u : State} (h : s.pinHeld = false) (hu : f s = u) :
    takeEvent f s = .next (State.closeEvent s u) := by rw [takeEvent_next h, hu]

/-- An event whose own effect is `u`, which owes nothing and leaves blocking as it is. -/
theorem takeEvent_exact {f : State → State} {s u : State} (h : s.pinHeld = false) (hu : f s = u)
    (hb : s.SameBlocking u) (hd : u.due = Due.none) : takeEvent f s = .next u := by
  rw [takeEvent_effect h hu, hb.close hd]

theorem State.pinHeld_of_loaded {s : State} (h : s.loading = false) : s.pinHeld = false := by
  unfold State.loading at h
  unfold State.pinHeld
  cases hp : s.startUp.progress <;> simp [hp] at h ⊢

theorem State.hears.loaded {s : State} {p : Port} (h : s.hears p) : s.loading = false := by
  have := h.2
  simp [State.reportReaches] at this
  exact this.1.1

theorem State.hears.awake {s : State} {p : Port} (h : s.hears p) : s.pinHeld = false :=
  State.pinHeld_of_loaded h.loaded

theorem State.hears.report {s : State} {p : Port} (h : s.hears p) (f : State → State) : s.report p f = f s := by
  unfold State.report; rw [if_pos h.2]

/-! ### A port rewritten, by what it holds -/

theorem State.updPort_congr {s : State} {p : Port} {f g : PortState → PortState} (h : f (s.port p) = g (s.port p)) :
    s.updPort p f = s.updPort p g := by unfold State.updPort; rw [h]

theorem State.updPort_unchanged {s : State} {p : Port} {f : PortState → PortState} (h : f (s.port p) = s.port p) :
    s.updPort p f = s := by
  unfold State.updPort
  rw [h]
  have : s.ports.set p (s.port p) = s.ports := Vector.set_getElem_self _
  rw [this]

theorem State.updTraining_congr {s : State} {p : Port} {f g : Training → Training}
    (h : f (s.training p) = g (s.training p)) : s.updTraining p f = s.updTraining p g :=
  State.updPort_congr (by rw [show f (s.port p).training = g (s.port p).training from h])

theorem State.updTraining_unchanged {s : State} {p : Port} {f : Training → Training}
    (h : f (s.training p) = s.training p) : s.updTraining p f = s :=
  State.updPort_unchanged (by
    rw [show f (s.port p).training = (s.port p).training from h])

/-- No attempt runs, so none is recorded ABANDONED. -/
theorem State.abandonAttempt_none {s : State} {p : Port} (h1 : s.link p ≠ .train) (h2 : s.link p ≠ .verify) :
    s.abandonAttempt p = s :=
  State.updTraining_unchanged (by
    unfold Training.abandonAttempt
    rw [if_neg]
    rintro (h | h)
    · exact h1 h
    · exact h2 h)

/-- The attempt running is recorded ABANDONED. -/
theorem State.abandonAttempt_running {s : State} {p : Port} (h : s.link p = .train ∨ s.link p = .verify) :
    s.abandonAttempt p = s.updTraining p fun t => t.noted (t.attemptRecord .abandoned t.margin) :=
  State.updTraining_congr (by
    unfold Training.abandonAttempt
    exact if_pos h)

theorem State.departIfUp_down {s : State} {p : Port} {c : ResultCode} (h : s.link p ≠ .up) :
    s.departIfUp p c = s := by unfold State.departIfUp; rw [if_neg h]

theorem State.link_send (s : State) (p q : Port) (c : LaneCommand) : (s.send p c).link q = s.link q := by
  unfold State.link; rw [State.send_training]

/-- An entry to LISTEN without energy, from a state other than TRAIN and from TRAIN. -/
theorem State.enterListen_quiet {s : State} {p : Port} (he : (s.training p).energy = false) :
    s.enterListen p = s.leavingTrain p (s.updTraining p Training.listening) := by
  unfold State.enterListen
  simp only []
  rw [he, State.setLink_leavingTrain _ _ _ (by decide) (by decide), State.updTraining_leavingTrain,
    State.updTraining_twice]
  rfl

theorem State.leavingTrain_other {s : State} {p : Port} (u : State) (h : s.link p ≠ .train) :
    s.leavingTrain p u = u := by unfold State.leavingTrain; rw [if_neg h]

theorem State.leavingTrain_train {s : State} {p : Port} (u : State) (h : s.link p = .train) :
    s.leavingTrain p u = u.oweSelection := by unfold State.leavingTrain; rw [if_pos h]

/-! ### What keeps the training contexts -/

theorem State.training_updPort (s : State) (p q : Port) (f : PortState → PortState)
    (h : (f (s.port p)).training = (s.port p).training) : (s.updPort p f).training q = s.training q := by
  unfold State.training
  rw [State.port_updPort]
  split
  · rename_i hq; rw [h, hq]
  · rfl

theorem State.training_answer (s : State) (a : ReplyPlace) (c : ResultCode) (d : List Byte) (q : Port) :
    (s.answer a c d).training q = s.training q := by
  unfold State.answer
  split
  · rfl
  · simp only []
    split
    · unfold State.insertFrame State.updTraffic
      exact State.training_updPort _ _ _ _ rfl
    · rfl

theorem State.training_offerSurvey (s : State) (p q : Port) : (s.offerSurvey p).training q = s.training q := by
  unfold State.offerSurvey
  split
  · rfl
  · split
    · unfold State.updSurvey; rw [State.training_updPort _ _ _ _ rfl]; rfl
    · unfold State.updSurvey; rw [State.training_updPort _ _ _ _ rfl]

/-- Whatever no offer of a survey changes, the offers at a departure do not change. -/
theorem State.offerPending_keeps {A : Type} (f : State → A) (h : ∀ s p, f (State.offerSurvey s p) = f s)
    (s : State) : f s.offerPending = f s := by
  unfold State.offerPending
  generalize allPorts = l
  induction l generalizing s with
  | nil => rfl
  | cons p rest ih =>
    rw [List.foldl_cons, ih]
    split
    · exact h s p
    · rfl

theorem State.training_removeEntry (s : State) (n : Nat) (q : Port) :
    (s.removeEntry n).training q = s.training q := by
  unfold State.removeEntry
  exact Eq.trans (b := (s.dropEntry n).offerPending.training q)
    (congrArg PortState.training (State.port_oweReservations (s.dropEntry n).offerPending q))
    (State.offerPending_keeps (fun t => t.training q) (fun t p => State.training_offerSurvey t p q) _)

theorem State.training_finishEntry (s : State) (x : QueueEntry) (c : ResultCode) (d : List Byte) (q : Port) :
    (s.finishEntry x c d).training q = s.training q := by
  unfold State.finishEntry State.answerEntry
  split
  · exact State.training_removeEntry s _ q
  · rw [State.training_answer]; exact State.training_removeEntry s _ q

theorem State.training_endSurvey (s : State) (p q : Port) (c : ResultCode) :
    (s.endSurvey p c).training q = s.training q := by
  unfold State.endSurvey
  split
  · rfl
  · split
    · rw [State.training_finishEntry]
    · rw [State.training_finishEntry]
      exact State.training_updPort s p q (fun x => { x with mode := .openMode }) rfl

theorem State.training_raise (s : State) (p q : Port) (e : PortEvent) : (s.raise p e).training q = s.training q := by
  rw [State.raise_woken, ← State.woken_updPort]
  rw [State.training_updPort _ _ _ _ rfl]
  unfold State.woken
  split <;> rfl

theorem State.training_departUp (s : State) (p : Port) (c : ResultCode) :
    (s.departUp p c).training p = { s.training p with current := none, degradeTimer := none } := by
  unfold State.departUp State.surveyLeavesUp
  rw [State.training_endSurvey]
  unfold State.updSurvey
  rw [State.training_updPort _ _ _ _ rfl, State.training_updTraining_same, State.training_raise]

theorem State.hears.exact {s u : State} {p : Port} {f : State → State} (h : s.hears p) (hu : f s = u)
    (hb : s.SameBlocking u) (hd : u.due = s.due) : takeEvent (fun t => t.report p f) s = .next u :=
  takeEvent_exact h.awake (by rw [h.report]; exact hu) hb (by rw [hd]; exact h.1)

theorem State.hears.effect {s u : State} {p : Port} {f : State → State} (h : s.hears p) (hu : f s = u) :
    takeEvent (fun t => t.report p f) s = .next (State.closeEvent s u) :=
  takeEvent_effect h.awake (by rw [h.report]; exact hu)

theorem State.ready.exact {s u : State} {f : State → State} (h : s.ready) (hu : f s = u)
    (hb : s.SameBlocking u) (hd : u.due = s.due) : takeEvent f s = .next u :=
  takeEvent_exact h.1 hu hb (by rw [hd]; exact h.2)

theorem State.ready.effect {s u : State} {f : State → State} (h : s.ready) (hu : f s = u) :
    takeEvent f s = .next (State.closeEvent s u) := takeEvent_effect h.1 hu

theorem State.raise_oweSelection (s : State) (p : Port) (e : PortEvent) :
    s.oweSelection.raise p e = (s.raise p e).oweSelection := by
  rw [State.raise_woken, State.raise_woken, ← State.woken_oweSelection]; rfl

theorem State.raise_updTraining (s : State) (p : Port) (e : PortEvent) (f : Training → Training) :
    (s.raise p e).updTraining p f = (s.updTraining p f).raise p e := by
  rw [State.raise_woken, State.raise_woken]
  simp only [State.updTraining, State.woken_updPort, State.updPort_twice]
theorem State.raise_send (s : State) (p : Port) (e : PortEvent) (c : LaneCommand) :
    (s.raise p e).send p c = (s.send p c).raise p e := by
  rw [State.raise_woken, State.raise_woken]
  unfold State.send
  have h1 : ∀ u : State, u.woken.quadUp p = u.quadUp p := by intro u; unfold State.woken; split <;> rfl
  rw [h1]
  show (if s.quadUp p = true then _ else _) = _
  split
  · have hm : ∀ u : State, u.woken.mode p = u.mode p := by intro u; unfold State.woken; split <;> rfl
    have h2 : ∀ u : State, ∀ o, u.woken.emit o = (u.emit o).woken := by
      intro u o; unfold State.woken; split
      · rw [if_pos ‹_›]; rfl
      · rw [if_neg ‹_›]
    rw [hm]
    have h3 : (s.updPort p fun x => { x with events := x.events.record e }).mode p = s.mode p := by
      unfold State.mode; rw [State.port_updPort_self]
    rw [h3]
    unfold State.setMode
    rw [State.woken_updPort, h2, State.updPort_twice]
    show _ = (State.updPort ((s.updPort p _).emit _) _ _).woken
    congr 1
    rw [show ∀ (u : State) f o, (u.emit o).updPort p f = (u.updPort p f).emit o from fun _ _ _ => rfl,
      State.updPort_twice]
  · rfl

end Sys2Proof.Machine
end

