-- ==== Sys2Proof/Laws/EventMoves.lean ====
section
/-! SUPPORT. Every event but the resets and the two passes over the image is a chain of moves, or resets
the part. -/

namespace Sys2Proof.Machine

/-! ### Line lanes -/

theorem Moves.setQuad (s : State) (q : Quad) (b : Bool) : Moves s (s.setQuad q b) := (Move.quads s _).one

theorem Moves.testLost (s : State) (l : List Port) (p : Port) : Moves s (s.testLost l p) := by
  unfold State.testLost
  split
  · exact .refl s
  · split
    · exact .refl s
    · split
      · exact .abortLost s _ _ _
      · exact .abortLost s _ _ _
      · split
        · exact .refl s
        · exact (Moves.emit s _).trans (.completeRestore _ _)
      · exact .refl s

theorem Moves.portLost (l : List Port) (s : State) (p : Port) : Moves s (State.portLost l s p) := by
  have m : Moves s (((s.abandonAttempt p).departIfUp p .frontEndFault).enterNoLine p) :=
    ((Moves.abandonAttempt s p).trans (.departIfUp _ p _)).trans (.enterNoLine _ p)
  unfold State.portLost
  split
  · exact .refl s
  · exact .testLost s l p
  all_goals exact m

theorem Moves.frontEndFaults (s : State) (l : List Port) : Moves s (s.frontEndFaults l) :=
  Moves.foldl (f := fun t p => (t.setMode p .openMode).raise p .frontEndFault)
    (fun t p => (Moves.setMode t p _).trans (.raise _ p _)) l s

theorem Moves.quadLost (s : State) (q : Quad) (l : List Port) : Moves s (s.quadLost q l) := by
  unfold State.quadLost
  split
  · exact .refl s
  · split
    · exact .setQuad s q _
    · exact ((Moves.setQuad s q _).trans (.frontEndFaults _ _)).trans (Moves.foldl (Moves.portLost l) _ _)

theorem Moves.portRecovered (s : State) (p : Port) : Moves s (s.portRecovered p) := by
  unfold State.portRecovered
  split
  · split
    · exact .enterListen s p
    · exact .enterOff s p
  · exact .refl s

theorem Moves.quadRecovered (s : State) (q : Quad) : Moves s (s.quadRecovered q) := by
  unfold State.quadRecovered
  split
  · exact .refl s
  · split
    · exact .setQuad s q _
    · exact ((Moves.setQuad s q _).trans (Moves.foldl Moves.portRecovered _ _)).trans (.oweSelection _)

theorem Moves.report {s : State} {p : Port} {f : State → State} (h : Moves s (f s)) :
    Moves s (s.report p f) := by
  unfold State.report
  split
  · exact h
  · exact .refl s

theorem Moves.energyRises (s : State) (p : Port) : Moves s (s.energyRises p) := by
  have m : Moves s (s.updTraining p fun t => { t with energy := true }) := .note s p _
  unfold State.energyRises
  simp only []
  split
  · exact m.trans (.beginExchange _ _ _)
  · exact m

theorem Moves.energyFalls (s : State) (p : Port) : Moves s (s.energyFalls p) := by
  have m : Moves s (s.updTraining p fun t => { t with energy := false }) := .note s p _
  have leave := (((m.trans (.abandonAttempt _ p)).trans (.departIfUp _ p .portBusy)).trans
    (.send _ p .stopTrain)).trans (.enterListen _ p)
  unfold State.energyFalls
  simp only []
  split
  case h_1 | h_2 | h_3 | h_4 => exact leave
  case h_5 => exact m.trans (.enterListen _ p)
  all_goals exact m

theorem Moves.noCommonRate (s : State) (p : Port) : Moves s (s.noCommonRate p) := by
  have m := ((Moves.recordCycle s p .noCommonRate).trans (.raise _ p .noCommonRate)).trans
    (.send _ p .stopTrain)
  exact m.trans (.setLinkThen _ p .backoff
    (fun t => { t with backoffTimer := some (s.profile p).backoffTime }) (by simp))

theorem Moves.partnerAnswers (s : State) (p : Port) (r : List Nat) : Moves s (s.partnerAnswers p r) := by
  unfold State.partnerAnswers
  split
  · split
    · exact .noCommonRate s p
    · exact (Moves.note s p _).trans (.trainingEntry _ _ p)
  · exact .refl s

theorem State.link_updTraining (s : State) (p : Port) (f : Training → Training) :
    (s.updTraining p f).link p = (f (s.training p)).link := by
  simp [State.link, State.training, State.updTraining]

theorem Moves.enterVerify (s : State) (p : Port) : Moves s (s.enterVerify p) :=
  .setLinkThen s p .verify (fun t => { t with verifyTimer := some (s.profile p).verifyWindow }) (by simp)

theorem Moves.attemptTrained (s : State) (p : Port) (m : Int) : Moves s (s.attemptTrained p m) := by
  unfold State.attemptTrained
  split
  · rename_i h
    have n : Moves s (s.updTraining p fun t => { t with attemptTimer := none, margin := some m }) :=
      .note s p _ (ht := fun _ h => ⟨h.1, nofun, h.2.2.1, h.2.2.2.1, h.2.2.2.2⟩)
    simp only []
    split
    · exact n.trans (.enterVerify _ p)
    · refine (n.trans (.recordAttempt _ p _ fun _ => some m)).trans (.failAttempt _ p ?_)
      rw [State.updTraining_twice, State.link_updTraining]
      exact h
  · exact .refl s

theorem Moves.attemptFailed (s : State) (p : Port) : Moves s (s.attemptFailed p) := by
  unfold State.attemptFailed
  split
  · rename_i h
    refine (Moves.recordAttempt s p _ fun _ => none).trans (.failAttempt _ p ?_)
    rw [State.link_updTraining]
    exact h
  · exact .refl s

theorem Moves.verifyLost (s : State) (p : Port) (m : Int) : Moves s (s.verifyLost p m) := by
  unfold State.verifyLost
  simp only []
  split
  · rename_i h
    exact ((Moves.countAttempt s p
      (fun t => { t.recordAttempt .verifyLost (some m) with attempts := t.attempts + 1 }) (fun _ => rfl)
      (fun _ h => h) h fun _ b hc => ⟨(Training.bounded_push _ b).1, b.2.1, hc, b.2.2.2⟩).trans
      (.send _ p _)).trans (.trainingEntry _ _ p)
  · exact .countedDemote s p
      (fun t => { t.recordAttempt .verifyLost (some m) with attempts := t.attempts + 1 })
      (hb := fun _ b => ⟨(Training.bounded_push _ b).1, b.2.1, Nat.zero_le _, b.2.2.2⟩)

theorem Moves.marginReported (s : State) (p : Port) (m : Int) : Moves s (s.marginReported p m) := by
  have n : Moves s (s.updTraining p fun t => { t with margin := some m }) := .note s p _
  unfold State.marginReported
  simp only []
  split
  · split
    · exact n
    · exact n.trans (.verifyLost _ p m)
  · exact n
  all_goals exact .refl s

theorem Moves.errorsReported (s : State) (p : Port) (n : Nat) : Moves s (s.errorsReported p n) := by
  unfold State.errorsReported
  split
  · refine .note s p _ (hb := ?_)
    exact fun _ h => ⟨h.1, Nat.min_le_right _ _, h.2.2⟩
  · exact .refl s

theorem Moves.silentReported (s : State) (p : Port) : Moves s (s.silentReported p) := by
  unfold State.silentReported
  split
  · simp only []
    split
    · exact .setMode s p _
    · split
      · exact (Moves.setMode s p _).trans (.beginCapture _ _)
      · exact .setMode s p _
  · exact .refl s

theorem Moves.captureReported (s : State) (p : Port) (c : CaptureSet) : Moves s (s.captureReported p c) := by
  unfold State.captureReported
  split
  · split
    · simp only []
      split
      · have m := fun md e f => (Moves.setMode s p md).trans (.updTest _ e f)
        split
        · exact (m _ _ _).trans (.pairCaptured _ _)
        · exact m _ _ _
      · exact .setMode s p _
    · exact .refl s
  · exact .refl s

theorem Moves.tapsReported (s : State) (p : Port) (a b c d : Tap) : Moves s (s.tapsReported p a b c d) := by
  unfold State.tapsReported
  split
  · simp only []
    split
    · exact (Moves.setMode s p _).trans (.completeSurvey _ _ _ _ _ _ _)
    · exact .setMode s p _
  · exact .refl s

/-! ### Traffic -/

theorem saturating_le {c n : Nat} (h : n ≤ c) : saturating c n ≤ c := by
  unfold saturating
  split <;> omega

theorem Moves.supervise (s : State) (f : Supervision → Supervision)
    (hb : ∀ v, v.bounded → (f v).bounded := by intro _ h; exact h) : Moves s (s.updSupervision f) :=
  (Move.supervision s f hb).one

theorem Moves.frames (s : State) (p : Port) (f : Traffic → Traffic) (hb : ∀ t, t.bounded → (f t).bounded) :
    Moves s (s.updTraffic p f) := (Move.traffic s p f hb).one

theorem Moves.superviseArrival (s : State) (p : Port) (g : Bool) (b : List Byte) :
    Moves s (s.superviseArrival p g b) := by
  unfold State.superviseArrival
  simp only []
  split
  · exact .refl s
  · split
    · refine .supervise s _ ?_
      exact fun _ h => ⟨saturating_le h.1, h.2.1, h.2.2⟩
    · split
      · refine .supervise s _ ?_
        exact fun _ h => ⟨h.1, saturating_le h.2.1, h.2.2⟩
      · split
        · refine .supervise s _ ?_
          exact fun _ h => ⟨h.1, h.2.1, saturating_le h.2.2.1, h.2.2.2⟩
        · exact (Moves.setSlot s _ _).trans (.supervise _ _)

theorem Moves.fromSwitch (s : State) (p : Port) (f : List Byte) : Moves s (s.fromSwitch p f) := by
  unfold State.fromSwitch
  split
  · refine (Moves.frames s p _ ?_).trans (.superviseArrival _ _ _ _)
    exact fun _ h => ⟨h.1, h.2.1, h.2.2.1, h.2.2.2.1, saturating_le h.2.2.2.2.1, h.2.2.2.2.2⟩
  · split
    · refine (Moves.frames s p _ ?_).trans (.emit _ _)
      exact fun _ h => ⟨saturating_le h.1, h.2.1, h.2.2.1, h.2.2.2.1, h.2.2.2.2.1, h.2.2.2.2.2⟩
    · refine .frames s p _ ?_
      exact fun _ h => ⟨h.1, h.2.1, saturating_le h.2.2.1, h.2.2.2.1, h.2.2.2.2.1, h.2.2.2.2.2⟩

theorem Traffic.bounded_forward {t : Traffic} (f : List Byte) (bad : Bool) (h : t.bounded) :
    (t.forward f bad).bounded := by
  unfold Traffic.forward
  split
  · rename_i hw
    obtain ⟨a, b, c, d, e, g⟩ := h
    unfold Traffic.place
    split
    · exact ⟨a, saturating_le b, c, d, e, g⟩
    · refine ⟨a, saturating_le b, c, d, e, ?_⟩
      simp [Traffic.forwardedWaiting, List.filter_append] at hw ⊢
      omega
  · exact h

theorem Moves.badFrame (s : State) (p : Port) : Moves s (s.badFrame p) := by
  have m : Moves s (s.updTraffic p fun t =>
      { t with badCheck := saturating Config.trafficCeiling t.badCheck }) := by
    refine .frames s p _ ?_
    exact fun _ h => ⟨h.1, h.2.1, h.2.2.1, saturating_le h.2.2.2.1, h.2.2.2.2.1, h.2.2.2.2.2⟩
  unfold State.badFrame
  simp only []
  split
  · refine m.trans (.note _ p _ (hb := ?_))
    exact fun _ h => ⟨h.1, saturating_le h.2.1, h.2.2⟩
  · exact m

theorem Moves.fromLine (s : State) (p : Port) (f : List Byte) : Moves s (s.fromLine p f) := by
  have m : Moves s (s.updTraffic p fun t => t.forward f (!checkGood f)) :=
    (Move.traffic s p _ fun _ h => Traffic.bounded_forward f _ h).one
  unfold State.fromLine
  simp only []
  split
  · exact m
  · exact m.trans (.badFrame _ p)

theorem Moves.sendingEnds (s : State) (p : Port) (f : OutFrame) : Moves s (s.sendingEnds p f) :=
  (Move.traffic s p _ fun _ h => Traffic.bounded_advance h).one.trans (.emit _ _)

theorem Moves.forwardedSent (s : State) (p : Port) : Moves s (s.forwardedSent p) := by
  unfold State.forwardedSent
  split
  · exact .refl s
  · split
    · exact .sendingEnds s p _
    · exact .refl s

theorem Moves.inserted (s : State) (f : FrameSource) : Moves s (s.inserted f) := by
  unfold State.inserted
  split
  · exact .refl s
  · exact .setSlot s _ _
  · split
    · exact .startHoldoff s
    · exact .refl s

theorem Moves.transmissionCompleted (s : State) (p : Port) : Moves s (s.transmissionCompleted p) := by
  unfold State.transmissionCompleted
  split
  · exact .refl s
  · split
    · exact .refl s
    · exact (Moves.sendingEnds s p _).trans (.inserted _ _)

/-! ### Requests -/

theorem Moves.give (c : Call) (r : ResultCode) (s : State) : Moves s (c.give r s) := .answer s _ _ _

theorem Moves.data (c : Call) (b : List Byte) (s : State) : Moves s (c.data b s) := .answer s _ _ _

theorem Moves.stored (c : Call) (a : Bool) (s : State) : Moves s (c.stored a s) := .answer s _ _ _

theorem Moves.onPort {c : Call} {set : PortSet} {body : Port → State → State} {s : State}
    (h : ∀ p, Moves s (body p s)) : Moves s (c.onPort set body s) := by
  unfold Call.onPort
  split
  · exact .give c _ s
  · split
    · exact h _
    · exact .give c _ s

theorem Moves.serve (code : Nat) (low : Role) (fits : List Byte → Bool) {body : Call → State → State}
    (s : State) (h : ∀ c u, Moves u (body c u)) : Moves s (s.serve code low fits body) := by
  unfold State.serve
  split
  · exact .refl s
  · split
    · exact .refl s
    · have m := fun l => Moves.supervise s (fun v => { v with requests := l })
      simp only []
      split
      · exact m _
      · split
        · exact (m _).trans (.give _ _ _)
        · split
          · exact (m _).trans (.give _ _ _)
          · exact (m _).trans (h _ _)

theorem Moves.record (c : Call) (r : Option (List Byte)) (s : State) : Moves s (c.record r s) := by
  unfold Call.record
  split
  · exact .give c _ s
  · exact .data c _ s

theorem Moves.readReport (c : Call) (p : Port) (s : State) : Moves s (c.readReport p s) := by
  unfold Call.readReport
  split <;>
    first
      | exact .record c _ s
      | exact .give c _ s

theorem Moves.readTable (c : Call) (s : State) : Moves s (c.readTable s) := by
  unfold Call.readTable
  split
  · unfold Call.readPlan
    split
    · exact .give c _ s
    · exact .data c _ s
  · unfold Call.readSignatures
    simp only []
    split
    · exact .data c _ s
    · exact .give c _ s
  · exact .data c _ s
  · unfold Call.readRequester
    split
    · exact .give c _ s
    · split
      · exact .give c _ s
      · exact .data c _ s
  · unfold Call.readProfile
    split
    · exact .give c _ s
    · split
      · exact .data c _ s
      · exact .give c _ s
  · exact .give c _ s

theorem Moves.statusCleared (s : State) : Moves s s.statusCleared :=
  (Move.causes s _).one.trans
    (.supervise _ _ (fun _ h => ⟨Nat.zero_le _, Nat.zero_le _, Nat.zero_le _, h.2.2.2⟩))

theorem Moves.duplicate (c : Call) (t : BitVec 16) (s : State) : Moves s (c.duplicate t s) := .answer s _ _ _

theorem State.admit_room {s : State} (h : ¬(!s.roomExternal) = true) :
    s.queue.length < Config.queuePlaces := by
  simp only [State.roomExternal, Bool.not_eq_true, Bool.not_eq_false', decide_eq_true_eq] at h
  exact Nat.lt_of_lt_of_le h (by decide)

theorem Moves.singleTest (c : Call) (p : Port) (s : State) : Moves s (c.singleTest p s) := by
  unfold Call.singleTest
  split
  · exact .give c _ s
  · split
    · exact .duplicate c _ s
    · split
      · exact .duplicate c _ s
      · split
        · exact .give c _ s
        · split
          · exact .give c _ s
          · rename_i h
            exact .enqueue _ (State.admit_room h)

theorem Moves.sweepTest (c : Call) (s : State) : Moves s (c.sweepTest s) := by
  unfold Call.sweepTest
  split
  · exact .give c _ s
  · split
    · exact .give c _ s
    · split
      · exact .duplicate c _ s
      · split
        · exact .give c _ s
        · rename_i h
          split
          · exact .give c _ s
          · exact (Moves.enqueue _ (State.admit_room h)).trans (.continueSweep _ _ _ _ _)

theorem Moves.testCable (c : Call) (s : State) : Moves s (c.testCable s) := by
  unfold Call.testCable
  split
  · exact .sweepTest c s
  · exact .onPort fun p => .singleTest c p s

theorem Moves.surveyNow (c : Call) (p : Port) (s : State) : Moves s (c.surveyNow p s) := by
  unfold Call.surveyNow
  split
  · exact .give c _ s
  · split
    · split
      · rename_i h
        exact (Moves.enqueue _ (State.admit_room (by simp [h]))).trans (.updSurvey _ p _)
      · exact .give c _ s
    · split
      · exact .duplicate c _ s
      · exact (Moves.updEntry s _ _).trans (.updSurvey _ p _)

theorem Moves.cancelInFlight (c : Call) (x : QueueEntry) (e : EngineId) (s : State) :
    Moves s (c.cancelInFlight x e s) := by
  have run : Moves s (s.cancelRunning x e) := (Moves.updEntry s _ _).trans (.abortTest _ e _)
  unfold Call.cancelInFlight
  split
  · exact .give c _ s
  · split <;>
      first
        | exact run.trans (.give c _ _)
        | (split
           · exact .give c _ s
           · split
             · exact (Moves.updEntry s _ _).trans (.give c _ _)
             · exact .give c _ s)

theorem Moves.cancelWaiting (c : Call) (x : QueueEntry) (s : State) : Moves s (c.cancelWaiting x s) := by
  unfold Call.cancelWaiting
  split
  · exact ((Moves.updEntry s _ _).trans (.answerEntry _ _ _ _)).trans (.give c _ _)
  · split
    · exact (Moves.finishEntry s x _ _).trans (.give c _ _)
    · exact (Moves.cancelSweep s x _ _).trans (.give c _ _)

theorem Moves.cancel (c : Call) (s : State) : Moves s (c.cancel s) := by
  unfold Call.cancel
  split
  · exact .give c _ s
  · split
    · exact .cancelWaiting c _ s
    · split
      · exact .give c _ s
      · exact .cancelInFlight c _ _ s

theorem Moves.retrain (c : Call) (p : Port) (s : State) : Moves s (c.retrain p s) := by
  unfold Call.retrain
  split
  · exact .give c _ s
  · split <;>
      first
        | exact .give c _ s
        | exact (Moves.restart s p _).trans (.give c _ _)

theorem Moves.storeAdmin (s : State) (p : Port) (b : Bool) : Moves s (s.storeAdmin p b) := by
  have e : (s.updPort p fun x => { x with profile := { x.profile with enabled := b } })
      = s.updPort p fun x => { x with profile := { s.profile p with enabled := b } } := rfl
  unfold State.storeAdmin
  rw [e]
  exact (Move.profile s p { s.profile p with enabled := b } (.inl rfl)).one.trans (.adminStored _ p _ _)

theorem Moves.setAdmin (c : Call) (p : Port) (s : State) : Moves s (c.setAdmin p s) := by
  unfold Call.setAdmin
  split
  · exact .give c _ s
  · exact (Moves.storeAdmin s p _).trans (.give c _ _)

theorem Moves.surveyStored (s : State) (p : Port) (a b : Bool) : Moves s (s.surveyStored p a b) := by
  unfold State.surveyStored
  split
  · unfold State.surveyOff
    split
    · exact .updSurvey s p _
    · split
      · exact .updSurvey s p _
      · exact (Moves.updSurvey s p _).trans (.removeEntry _ _)
  · split
    · unfold State.surveyOn
      split
      · exact .restartSurvey s p
      · exact .refl s
    · exact .refl s

theorem Moves.groupStored (s : State) (a b : Group) : Moves s (s.groupStored a b) := by
  unfold State.groupStored
  split
  · exact .refl s
  · exact (Moves.oweSelection s).trans (.oweReservations _)

theorem Moves.storeProfile (s : State) (p : Port) (new : Profile)
    (h : new.group = s.groupOf p ∨ s.link p ≠ .train) : Moves s (s.storeProfile p new) :=
  (((((Move.profile s p new h).one.trans (.groupStored _ _ _)).trans (.ratesRemoved _ p _)).trans
    (.adminStored _ p _ _)).trans (.surveyStored _ p _ _))

theorem Moves.writeProfile (c : Call) (p : Port) (s : State) : Moves s (c.writeProfile p s) := by
  unfold Call.writeProfile
  split
  · exact .give c _ s
  · split
    · exact .give c _ s
    · rename_i new adjusted hd h
      refine (Moves.storeProfile s p new ?_).trans (.stored c _ _)
      by_cases hg : new.group = s.groupOf p
      · exact .inl hg
      · right
        intro ht
        exact h ⟨hg, by simp [ht, LinkState.keepsGroup]⟩

theorem PlanEntry.decode_inUse {i : Nat} {b : List Byte} {d : PlanEntry × Bool}
    (h : PlanEntry.decode i b = some d) (hi : i = 0) : d.1.inUse = true := by
  simp only [PlanEntry.decode, Option.bind_eq_bind, Option.bind_eq_some_iff] at h
  obtain ⟨u, _, _, _, _, _, h⟩ := h
  split at h
  · rename_i hc
    simp [hi] at hc
    simp at h
    rw [← h]
    exact hc.1.1.1.1
  · simp at h

theorem PlanRate.list_length {b : List Byte} {n : Nat} {l : List PlanRate} (h : PlanRate.list b n = some l) :
    l.length = n := by
  induction n generalizing l with
  | zero => simp [PlanRate.list] at h; subst h; rfl
  | succ n ih =>
    simp only [PlanRate.list, Option.bind_eq_bind, Option.bind_eq_some_iff] at h
    obtain ⟨front, hf, last, _, h⟩ := h
    simp at h; subst h
    simp [ih hf]

theorem PlanEntry.decode_limits {i : Nat} {b : List Byte} {d : PlanEntry × Bool}
    (h : PlanEntry.decode i b = some d) : d.1.limitsFit := by
  simp only [PlanEntry.decode, Option.bind_eq_bind, Option.bind_eq_some_iff] at h
  obtain ⟨_, _, _, _, rates, hl, h⟩ := h
  split at h
  · rename_i hc
    simp at h
    rw [← h]
    refine ⟨?_, fun r hr => ?_⟩
    · simp only [List.length_map, PlanRate.list_length hl]
      simp only [Bool.and_eq_true, decide_eq_true_eq] at hc
      omega
    obtain ⟨x, hx, rfl⟩ := List.mem_map.mp hr
    have := List.all_eq_true.mp (Bool.and_eq_true_iff.mp hc).2 x hx
    simp at this
    exact this.2
  · simp at h

theorem finOf_val {n k : Nat} {i : Fin n} (h : finOf n k = some i) : i.val = k := by
  unfold finOf at h
  split at h
  · simp at h; rw [← h]
  · simp at h

theorem Moves.writePlanEntry (c : Call) (s : State) : Moves s (c.writePlanEntry s) := by
  unfold Call.writePlanEntry
  split
  · rename_i i e a hi hd
    refine (Move.plan s i e ?_ fun _ => PlanEntry.decode_limits hd).one.trans (.stored c _ _)
    intro h0
    have := finOf_val hi
    exact PlanEntry.decode_inUse hd (by rw [← this, h0]; rfl)
  · exact .give c _ s

theorem fillEntries_other (l : List Signature) (a : Nat) (t : Vector (Option Signature) 1024) (i : Fin 1024)
    (h : a + l.length ≤ i.val) : (fillEntries a l t)[i] = t[i] := by
  induction l generalizing a t with
  | nil => rfl
  | cons g rest ih =>
    simp only [fillEntries, List.length_cons] at h ⊢
    rw [ih _ _ (by omega)]
    simp only [Fin.getElem_fin]
    rw [Vector.getElem_setIfInBounds_ne _ (by omega)]

theorem decodeAll_length {α : Type} {f : List Byte → Option α} {l : List (List Byte)} {xs : List α}
    (h : decodeAll f l = some xs) : xs.length = l.length := by
  induction l generalizing xs with
  | nil => simp [decodeAll] at h; subst h; rfl
  | cons b rest ih =>
    simp only [decodeAll] at h
    split at h
    · rename_i hx
      simp at h; subst h
      simp [ih hx]
    · simp at h

theorem Moves.signatures (s : State) (t : SignatureTable)
    (h : s.lockFits → (t.lock ≤ s.signatures.lock ∧ t.lock % 16 = 0)
      ∧ ∀ i : Fin 1024, s.signatures.lock ≤ i.val → t.entries[i] = s.signatures.entries[i]) :
    Moves s { s with signatures := t } := (Move.signatures s t h).one

theorem Moves.writeSignatures (c : Call) (s : State) (hl : signaturesLength c.params = true) :
    Moves s (c.writeSignatures s) := by
  unfold Call.writeSignatures
  simp only []
  split
  · exact .give c _ s
  · split
    · exact .give c _ s
    · rename_i items hi
      split
      · exact .give c _ s
      · rename_i hlock
        split
        · exact .give c _ s
        · refine (Moves.signatures s _ ?_).trans (.give c _ _)
          refine fun hf => ⟨⟨Nat.le_refl _, hf.2⟩, fun i hle => ?_⟩
          refine fillEntries_other _ _ _ _ ?_
          have e := decodeAll_length hi
          simp [signaturesLength] at hl
          simp [sectionRecords] at e
          omega

theorem blankBlock_entry (b : Nat) (e : Vector (Option Signature) 1024) (i : Fin 1024) :
    (blankBlock b e)[i] = if i.val / 16 = b then none else e[i] := by
  simp only [blankBlock, Fin.getElem_fin, Vector.getElem_ofFn]

theorem Moves.clearBlock (c : Call) (s : State) : Moves s (c.clearBlock s) := by
  unfold Call.clearBlock
  simp only []
  split
  · exact .give c _ s
  · split
    · exact .give c _ s
    · rename_i h
      refine (Moves.signatures s _ ?_).trans (.give c _ _)
      intro hf
      refine ⟨⟨Nat.le_refl _, hf.2⟩, fun i hle => ?_⟩
      rw [blankBlock_entry]
      have := hf.2
      split
      · omega
      · rfl

theorem Moves.setGeometry (c : Call) (s : State) : Moves s (c.setGeometry s) := by
  unfold Call.setGeometry
  split
  · exact .give c _ s
  · split
    · exact .give c _ s
    · split
      · exact .give c _ s
      · refine (Moves.signatures s _ ?_).trans (.give c _ _)
        exact fun hf => ⟨⟨Nat.le_refl _, hf.2⟩, fun _ _ => rfl⟩

theorem Moves.lowerLock (c : Call) (s : State) : Moves s (c.lowerLock s) := by
  unfold Call.lowerLock
  simp only []
  split
  · rename_i h
    simp [lockAcceptable] at h
    refine (Moves.signatures s _ ?_).trans (.give c _ _)
    exact fun _ => ⟨⟨h.2, h.1.2⟩, fun _ _ => rfl⟩
  · exact .give c _ s

theorem Moves.writeRequester (c : Call) (s : State) : Moves s (c.writeRequester s) := by
  unfold Call.writeRequester
  split
  · exact .give c _ s
  · exact (Moves.supervise s _).trans (.give c _ _)

theorem Moves.stationStored (s : State) : Moves s s.stationStored := by
  unfold State.stationStored
  split
  · exact .startHoldoff s
  · exact .refl s

theorem Station.decode_limit {b : List Byte} {x : Station} (h : Station.decode b = some x) :
    x.starvationLimit ≤ 64 := by
  simp only [Station.decode, Option.bind_eq_bind, Option.bind_eq_some_iff] at h
  obtain ⟨_, _, _, _, h⟩ := h
  split at h
  · rename_i hc
    simp at h hc
    rw [← h]
    exact hc.1.1.2
  · simp at h

theorem Moves.setStation (c : Call) (s : State) : Moves s (c.setStation s) := by
  unfold Call.setStation
  split
  · exact .give c _ s
  · split
    · exact .give c _ s
    · rename_i station h
      exact ((Moves.supervise s (fun v => { v with station := station, stationSet := true })
        fun _ b => ⟨b.1, b.2.1, b.2.2.1, Station.decode_limit h⟩).trans (.stationStored _)).trans
        (.give c _ _)

theorem Moves.resetPart (c : Call) (s : State) : Moves s (c.resetPart s) := by
  unfold Call.resetPart
  split
  · exact (Moves.supervise s _).trans (.give c _ _)
  · exact .give c _ s

theorem Moves.serveUnknown (s : State) : Moves s s.serveUnknown := by
  unfold State.serveUnknown
  split
  · exact .refl s
  · split
    · exact .refl s
    · exact (Moves.supervise s _).trans (.answer _ _ _ _)

end Sys2Proof.Machine
end

