-- ==== Sys2Proof/Laws/ExecMoves.lean ====
section
/-! SUPPORT. The expiries and completions as chains of moves, and the one theorem over all events: but for
the resets and the two passes over the image, an event is a chain of moves, or it resets the part. -/

namespace Sys2Proof.Machine

/-! ### Expiries -/

theorem Moves.exchangeExpired (s : State) (p : Port) : Moves s (s.exchangeExpired p) := by
  unfold State.exchangeExpired
  split
  · exact (Moves.recordCycle s p _).trans (.beginExchange _ _ _)
  · exact .refl s

theorem Moves.attemptExpired (s : State) (p : Port) : Moves s (s.attemptExpired p) := by
  unfold State.attemptExpired
  split
  · rename_i h
    refine (Moves.recordAttempt s p _ fun _ => none).trans (.failAttempt _ p ?_)
    rw [State.link_updTraining]
    exact h.1
  · exact .refl s

theorem Moves.enterUp (s : State) (p : Port) : Moves s (s.enterUp p) := by
  have m := Moves.setLinkThen s p .up
    (fun t => { t with current := t.target, degradeCount := 0, degradeTimer := some Config.degradeWindow })
    (by simp) (hb := fun _ h => ⟨h.1, Nat.zero_le _, h.2.2⟩)
  exact (m.trans (.raise _ p _)).trans (.surveyEntersUp _ p)

theorem Moves.verifyExpired (s : State) (p : Port) : Moves s (s.verifyExpired p) := by
  unfold State.verifyExpired
  split
  · exact (Moves.recordAttempt s p _ fun t => t.margin).trans (.enterUp _ p)
  · exact .refl s

theorem Moves.degraded (s : State) (p : Port) : Moves s (s.degraded p) := by
  have m : Moves s (s.updTraining p fun t =>
      { t with demoted := (t.current.map fun r => RateSet.insert r t.demoted).getD t.demoted }) := .note s p _
  exact (((m.trans (.raise _ p _)).trans (.departUp _ p _)).trans (.send _ p _)).trans (.beginExchange _ _ _)

theorem Moves.windowExpired (s : State) (p : Port) : Moves s (s.windowExpired p) := by
  unfold State.windowExpired
  split
  · rename_i h
    split
    · exact .degraded s p
    · have hs : (s.updTraining p fun t =>
          { t with degradeCount := 0, degradeTimer := some Config.degradeWindow })
          = s.updTraining p fun t =>
            { t with
              degradeCount := 0
              degradeTimer := if t.link = .up then some Config.degradeWindow else t.degradeTimer } := by
        have hl : (s.port p).training.link = .up := h.1
        simp [State.updTraining, State.updPort, hl]
      rw [hs]
      refine .note s p _ (ht := ?_) (hb := ?_)
      · intro t ht
        refine ⟨ht.1, ht.2.1, ht.2.2.1, ?_, ht.2.2.2.2⟩
        simp only []
        split
        · exact fun _ => ‹_›
        · exact ht.2.2.2.1
      · exact fun _ h => ⟨h.1, Nat.zero_le _, h.2.2⟩
  · exact .refl s

theorem Moves.backoffExpired (s : State) (p : Port) : Moves s (s.backoffExpired p) := by
  unfold State.backoffExpired
  split
  · exact .enterListen s p
  · exact .refl s

theorem Moves.phaseExpired (s : State) (e : EngineId) : Moves s (s.phaseExpired e) := by
  unfold State.phaseExpired
  split
  · exact .abortTest s e _
  · exact .abortTest s e _
  · exact .timeOutSurvey s e _
  · exact .refl s

theorem Moves.holdExpired (s : State) (g : Group) : Moves s (s.holdExpired g) := by
  unfold State.holdExpired
  split
  · exact .updGroup s g _
  · exact .refl s

theorem Moves.surveyExpired (s : State) (p : Port) : Moves s (s.surveyExpired p) := by
  unfold State.surveyExpired
  split
  · exact (Moves.updSurvey s p _).trans (.offerSurvey _ p)
  · exact .refl s

theorem Moves.surveyLate (s : State) (p : Port) : Moves s (s.surveyLate p) := by
  unfold State.surveyLate
  split
  · split
    · exact ((Moves.updSurvey s p _).trans (.updEntry _ _ _)).trans (.oweSelection _)
    · exact .refl s
  · split
    · exact .updSurvey s p _
    · exact .refl s

theorem Moves.graceExpired (s : State) (p : Port) : Moves s (s.graceExpired p) := by
  unfold State.graceExpired
  split
  · exact (Moves.updSurvey s p _).trans (.surveyLate _ p)
  · exact .refl s

theorem Moves.updNotice (s : State) (n : NoticeUnit) (h : s.notice.device.countsFit → n.device.countsFit) :
    Moves s { s with notice := n } := (Move.notice s n h).one

theorem PortEvents.countsFit_empty : PortEvents.empty.countsFit := by
  refine ⟨?_, ?_, ?_, ?_, ?_, ?_, ?_, ?_⟩ <;> exact nofun

theorem DeviceEvents.countsFit_empty : DeviceEvents.empty.countsFit := ⟨nofun, nofun⟩

theorem Moves.reportedCleared (s : State) : Moves s s.reportedCleared := by
  unfold State.reportedCleared
  simp only []
  have m : Moves s (s.portsReported.foldl
      (fun t p => t.updPort p fun x => { x with events := PortEvents.empty }) s) :=
    Moves.foldl (f := fun t p => t.updPort p fun x => { x with events := PortEvents.empty })
      (fun t p => (Move.events t p (fun _ => PortEvents.empty) fun _ _ => PortEvents.countsFit_empty).one) _ s
  refine m.trans (.updNotice _ _ ?_)
  intro h
  simp only []
  split
  · exact DeviceEvents.countsFit_empty
  · exact h

theorem Moves.noticeRests (s : State) (st : NoticeState) : Moves s (s.noticeRests st) := by
  refine .updNotice s _ ?_
  exact fun h => h

theorem Moves.sendNotice (s : State) (d : Address) : Moves s (s.sendNotice d) :=
  ((Moves.reportedCleared s).trans (.noticeRests _ _)).trans (.insertFrame _ _ _ _ (by simp))

theorem Moves.holdoffExpired (s : State) : Moves s s.holdoffExpired := by
  unfold State.holdoffExpired
  split
  · split
    · exact .noticeRests s _
    · split
      · exact .noticeRests s _
      · exact .sendNotice s _
  · exact .refl s

/-! ### Completions -/

theorem Moves.analyzed (s : State) (e : EngineId) : Moves s (s.analyzed e) := by
  unfold State.analyzed
  split
  · exact .completeAnalyze s e
  · exact .refl s

theorem Moves.restored (s : State) (e : EngineId) : Moves s (s.restored e) := by
  unfold State.restored
  split
  · exact .completeRestore s e
  · exact .refl s

/-! ### All events -/

/-- The events that are no resets and no pass over the image. -/
def Instr.ordinary : Instr → Bool
  | .powerOnReset _ | .pinReset _ | .pinRelease | .imageFirstPassCompletion _ | .imageSectionRead _ => false
  | _ => true

theorem State.justReset_resetTo (s : State) (r : ResetInputs) (c : ResetCauses) (l : LoadProgress) :
    (s.resetTo r c l).justReset :=
  ⟨r.straps, c, l, s.pending, s.arbiter, s.outputs ++ s.cutFrames ++ s.lineCuts r.unsent, rfl⟩

theorem State.justReset_supervisorReset (s : State) (r : ResetInputs) :
    (s.supervisorReset r).justReset := s.justReset_resetTo r _ _

theorem Moves.transmission {p : Port} {r : ResetInputs} {s t : State}
    (h : execTransmissionCompletion p r s = .next t) :
    Moves s t ∨ t = (s.transmissionCompleted p).supervisorReset r := by
  unfold execTransmissionCompletion at h
  split at h
  · exact .inr (Host.Outcome.next.inj h).symm
  · exact .inl (.takeEvent h (.transmissionCompleted s p))

/-- The writes of the signature table, with the parameter length that the common checks established. -/
theorem Moves.serveSignatures (s : State) :
    Moves s (s.serve 12 .admin signaturesLength Call.writeSignatures) := by
  unfold State.serve
  split
  · exact .refl s
  · split
    · exact .refl s
    · have m := fun l => Moves.supervise s (fun v => { v with requests := l })
      simp only []
      split
      · exact m _
      · split
        · exact (m _).trans (.give _ _ _)
        · split
          · exact (m _).trans (.give _ _ _)
          · rename_i hl
            exact (m _).trans (.writeSignatures _ _ (by simpa using hl))

/-- What one event can do: an ordinary event is a chain of moves, or the SUPERVISOR reset at a transmission
completion. -/
theorem exec_moves {i : Instr} (hi : Instr.ordinary i = true) {s t : State} (h : exec i s = .next t) :
    Moves s t ∨ ∃ p r, t = (s.transmissionCompleted p).supervisorReset r := by
  unfold exec at h
  cases i with
  | powerOnReset _ | pinReset _ | pinRelease | imageFirstPassCompletion _ | imageSectionRead _ =>
    simp [Instr.ordinary] at hi
  | transmissionCompletion p r =>
    rcases Moves.transmission h with m | m
    · exact .inl m
    · exact .inr ⟨p, r, m⟩
  | quadLoss q l => exact .inl (.takeEvent h (.quadLost s q l))
  | quadRecovery q => exact .inl (.takeEvent h (.quadRecovered s q))
  | energyOn p => exact .inl (.takeEvent h (.report (.energyRises s p)))
  | energyOff p => exact .inl (.takeEvent h (.report (.energyFalls s p)))
  | partnerAbility p r => exact .inl (.takeEvent h (.report (.partnerAnswers s p r)))
  | trainDone p m => exact .inl (.takeEvent h (.report (.attemptTrained s p m)))
  | trainFail p => exact .inl (.takeEvent h (.report (.attemptFailed s p)))
  | marginReport p m => exact .inl (.takeEvent h (.report (.marginReported s p m)))
  | symbolErrors p n => exact .inl (.takeEvent h (.report (.errorsReported s p n)))
  | silent p => exact .inl (.takeEvent h (.silentReported s p))
  | captureSet p x y c => exact .inl (.takeEvent h (.captureReported s p _))
  | taps p w x y z => exact .inl (.takeEvent h (.tapsReported s p w x y z))
  | switchToLineFrameArrival p f => exact .inl (.takeEvent h (.fromSwitch s p f))
  | lineToSwitchFrameArrival p f => exact .inl (.takeEvent h (.fromLine s p f))
  | forwardedFrameSent p => exact .inl (.takeEvent h (.forwardedSent s p))
  | readPort => exact .inl (.takeEvent h (.serve _ _ _ s fun c u => .onPort fun p => .data c _ u))
  | readReport => exact .inl (.takeEvent h (.serve _ _ _ s fun c u => .onPort fun p => .readReport c p u))
  | readTable => exact .inl (.takeEvent h (.serve _ _ _ s Moves.readTable))
  | readStatus =>
    exact .inl (.takeEvent h (.serve _ _ _ s fun c u => (Moves.statusCleared u).trans (.data c _ _)))
  | testCable => exact .inl (.takeEvent h (.serve _ _ _ s Moves.testCable))
  | surveyNow => exact .inl (.takeEvent h (.serve _ _ _ s fun c u => .onPort fun p => .surveyNow c p u))
  | cancel => exact .inl (.takeEvent h (.serve _ _ _ s Moves.cancel))
  | retrain => exact .inl (.takeEvent h (.serve _ _ _ s fun c u => .onPort fun p => .retrain c p u))
  | setAdmin => exact .inl (.takeEvent h (.serve _ _ _ s fun c u => .onPort fun p => .setAdmin c p u))
  | writeProfile =>
    exact .inl (.takeEvent h (.serve _ _ _ s fun c u => .onPort fun p => .writeProfile c p u))
  | writePlanEntry => exact .inl (.takeEvent h (.serve _ _ _ s Moves.writePlanEntry))
  | writeSignatures => exact .inl (.takeEvent h (.serveSignatures s))
  | clearBlock => exact .inl (.takeEvent h (.serve _ _ _ s Moves.clearBlock))
  | setGeometry => exact .inl (.takeEvent h (.serve _ _ _ s Moves.setGeometry))
  | lowerLock => exact .inl (.takeEvent h (.serve _ _ _ s Moves.lowerLock))
  | writeRequester => exact .inl (.takeEvent h (.serve _ _ _ s Moves.writeRequester))
  | setStation => exact .inl (.takeEvent h (.serve _ _ _ s Moves.setStation))
  | resetPart => exact .inl (.takeEvent h (.serve _ _ _ s Moves.resetPart))
  | unknownRequest => exact .inl (.takeEvent h (.serveUnknown s))
  | exchangeTimerExpiry p => exact .inl (.takeEvent h (.exchangeExpired s p))
  | attemptTimerExpiry p => exact .inl (.takeEvent h (.attemptExpired s p))
  | verifyTimerExpiry p => exact .inl (.takeEvent h (.verifyExpired s p))
  | degradeWindowExpiry p => exact .inl (.takeEvent h (.windowExpired s p))
  | backoffTimerExpiry p => exact .inl (.takeEvent h (.backoffExpired s p))
  | phaseTimerExpiry e => exact .inl (.takeEvent h (.phaseExpired s e))
  | holdTimerExpiry g => exact .inl (.takeEvent h (.holdExpired s g))
  | surveyTimerExpiry p => exact .inl (.takeEvent h (.surveyExpired s p))
  | graceTimerExpiry p => exact .inl (.takeEvent h (.graceExpired s p))
  | holdoffTimerExpiry => exact .inl (.takeEvent h (.holdoffExpired s))
  | analyzeCompletion e => exact .inl (.takeEvent h (.analyzed s e))
  | restoreCompletion e => exact .inl (.takeEvent h (.restored s e))

end Sys2Proof.Machine
end

