-- ==== Sys2Proof/Laws/LoadMoves.lean ====
section
/-! SUPPORT. What the two passes over the image can do: a load changes profiles, the tables, the station
record and the start-up unit, and load completion is a chain of moves from there. -/

namespace Sys2Proof.Machine

/-- A load has changed profiles, plan entries, the signature table, requester slots, the station record or
the start-up unit, and nothing else. -/
structure State.Loads (s u : State) : Prop where
  pending : u.pending = s.pending
  queue : u.queue = s.queue
  quads : u.quads = s.quads
  admissions : u.admissions = s.admissions
  groups : u.groups = s.groups
  engines : u.engines = s.engines
  sequence : u.sequence = s.sequence
  notice : u.notice = s.notice
  due : u.due = s.due
  arbiter : u.arbiter = s.arbiter
  outputs : u.outputs = s.outputs
  accepting : u.supervision.accepting = s.supervision.accepting
  stationSet : u.supervision.stationSet = s.supervision.stationSet
  slots : u.supervision.slots = s.supervision.slots
  requests : u.supervision.requests = s.supervision.requests
  unknownSource : u.supervision.unknownSource = s.supervision.unknownSource
  malformed : u.supervision.malformed = s.supervision.malformed
  noReplySlot : u.supervision.noReplySlot = s.supervision.noReplySlot
  ports : ∀ p, u.port p = { s.port p with profile := u.profile p }
  entryZero : (s.plan[(0 : Fin 16)]).inUse = true → (u.plan[(0 : Fin 16)]).inUse = true
  lock : s.lockFits → u.lockFits
  limits : s.limitsFit → u.limitsFit
  starvation : s.supervision.station.starvationLimit ≤ 64 → u.supervision.station.starvationLimit ≤ 64

theorem State.Loads.refl (s : State) : s.Loads s := by
  constructor <;> first | rfl | exact fun _ => rfl | exact id

theorem State.Loads.trans {s t u : State} (a : s.Loads t) (b : t.Loads u) : s.Loads u where
  pending := b.pending.trans a.pending
  queue := b.queue.trans a.queue
  quads := b.quads.trans a.quads
  admissions := b.admissions.trans a.admissions
  groups := b.groups.trans a.groups
  engines := b.engines.trans a.engines
  sequence := b.sequence.trans a.sequence
  notice := b.notice.trans a.notice
  due := b.due.trans a.due
  arbiter := b.arbiter.trans a.arbiter
  outputs := b.outputs.trans a.outputs
  accepting := b.accepting.trans a.accepting
  stationSet := b.stationSet.trans a.stationSet
  slots := b.slots.trans a.slots
  requests := b.requests.trans a.requests
  unknownSource := b.unknownSource.trans a.unknownSource
  malformed := b.malformed.trans a.malformed
  noReplySlot := b.noReplySlot.trans a.noReplySlot
  ports p := by rw [b.ports p, a.ports p]
  entryZero h := b.entryZero (a.entryZero h)
  lock h := b.lock (a.lock h)
  limits h := b.limits (a.limits h)
  starvation h := b.starvation (a.starvation h)

/-- The start-up unit alone has changed. -/
theorem State.Loads.startUp (s : State) (x : StartUp) : s.Loads { s with startUp := x } := by
  constructor <;> first | rfl | exact fun _ => rfl | exact id

theorem SignatureTable.builtin_lock : SignatureTable.builtin.lock = 1024 := rfl

theorem State.lockFits_builtin {s : State} (h : s.signatures = SignatureTable.builtin) : s.lockFits := by
  unfold State.lockFits
  rw [h, SignatureTable.builtin_lock]
  exact ⟨Nat.le_refl _, rfl⟩

theorem planBuiltin_limits (i : Fin 16) : (planBuiltin[i]).limitsFit := by
  have h : ∀ i : Fin 16, (planBuiltin[i]).rates.length ≤ 5 ∧ ∀ r ∈ (planBuiltin[i]).rates, r.limit ≤ 8 := by
    decide
  exact h i

theorem State.Loads.unloaded (s : State) : s.Loads s.unloaded := by
  unfold State.unloaded
  constructor
  case ports => exact fun p => by simp [State.port, State.profile]
  case entryZero =>
    intro _
    show (planBuiltin[(0 : Fin 16)]).inUse = true
    simp [planBuiltin, PlanEntry.default]
  case lock => exact fun _ => State.lockFits_builtin rfl
  case limits => exact fun _ => planBuiltin_limits
  case starvation => exact fun _ => (by decide : (8 : Nat) ≤ 64)
  all_goals rfl

theorem State.Loads.updProfile (s : State) (p : Port) (x : Profile) :
    s.Loads (s.updPort p fun y => { y with profile := x }) where
  ports q := by
    simp only [State.profile, State.port_updPort]
    split
    · rename_i h; subst h; rfl
    · rfl
  entryZero := id
  lock := id
  limits := id
  starvation := id
  pending := rfl
  queue := rfl
  quads := rfl
  admissions := rfl
  groups := rfl
  engines := rfl
  sequence := rfl
  notice := rfl
  due := rfl
  arbiter := rfl
  outputs := rfl
  accepting := rfl
  stationSet := rfl
  slots := rfl
  requests := rfl
  unknownSource := rfl
  malformed := rfl
  noReplySlot := rfl

theorem State.Loads.profiles (xs : List (Port × Profile)) (s : State) :
    s.Loads (xs.foldl (fun t x => t.updPort x.1 fun y => { y with profile := x.2 }) s) := by
  induction xs generalizing s with
  | nil => exact .refl s
  | cons x rest ih => exact (State.Loads.updProfile s x.1 x.2).trans (ih _)

theorem decodeAll_mem {α : Type} {f : List Byte → Option α} {b : List (List Byte)} {xs : List α}
    (h : decodeAll f b = some xs) : ∀ x ∈ xs, ∃ y ∈ b, f y = some x := by
  induction b generalizing xs with
  | nil =>
    simp [decodeAll] at h
    subst h
    simp
  | cons y rest ih =>
    simp only [decodeAll] at h
    split at h
    · rename_i z zs hz hzs
      simp at h
      subst h
      intro x hx
      rcases List.mem_cons.mp hx with rfl | hx
      · exact ⟨y, List.mem_cons_self, hz⟩
      · obtain ⟨w, hw, hf⟩ := ih hzs x hx
        exact ⟨w, List.mem_cons_of_mem _ hw, hf⟩
    · simp at h

theorem planRecord_inUse {b : List Byte} {i : Fin 16} {e : PlanEntry} (h : planRecord b = some (i, e)) :
    i = 0 → e.inUse = true := by
  unfold planRecord at h
  split at h
  · rename_i j d hj hd
    simp at h
    intro hi
    rw [hi] at h
    have hb : byteAt b 0 = 0 := by
      unfold finOf at hj
      split at hj
      · simp at hj
        have := congrArg Fin.val (hj.trans h.1)
        simpa using this
      · simp at hj
    rw [← h.2]
    exact PlanEntry.decode_inUse hd hb
  · simp at h

theorem planRecord_limits {b : List Byte} {i : Fin 16} {e : PlanEntry} (h : planRecord b = some (i, e)) :
    e.limitsFit := by
  unfold planRecord at h
  split at h
  · rename_i j d hj hd
    simp at h
    rw [← h.2]
    exact PlanEntry.decode_limits hd
  · simp at h

theorem planSet_limits (xs : List (Fin 16 × PlanEntry)) (t : Vector PlanEntry 16)
    (hx : ∀ x ∈ xs, x.2.limitsFit) (ht : ∀ i : Fin 16, (t[i]).limitsFit) (i : Fin 16) :
    ((xs.foldl (fun t x => t.set x.1 x.2) t)[i]).limitsFit := by
  induction xs generalizing t with
  | nil => exact ht i
  | cons x rest ih =>
    refine ih _ (fun y hy => hx y (List.mem_cons_of_mem _ hy)) fun j => ?_
    simp only [Fin.getElem_fin, Vector.getElem_set]
    split
    · exact hx x List.mem_cons_self
    · exact ht j

theorem planSet_inUse (xs : List (Fin 16 × PlanEntry)) (t : Vector PlanEntry 16)
    (hx : ∀ x ∈ xs, x.1 = 0 → x.2.inUse = true) (ht : (t[(0 : Fin 16)]).inUse = true) :
    ((xs.foldl (fun t x => t.set x.1 x.2) t)[(0 : Fin 16)]).inUse = true := by
  induction xs generalizing t with
  | nil => exact ht
  | cons x rest ih =>
    refine ih _ (fun y hy => hx y (List.mem_cons_of_mem _ hy)) ?_
    have := hx x List.mem_cons_self
    simp only [Fin.getElem_fin, Vector.getElem_set]
    split
    · rename_i h
      exact this (Fin.ext h)
    · exact ht

/-- A load has changed tables: requester slots, the station record, the signature table, the plan. -/
theorem State.Loads.tables (s : State) (r : Vector Requester 8) (st : Station) (t : SignatureTable)
    (plan : Vector PlanEntry 16) (ht : s.lockFits → t.lock ≤ 1024 ∧ t.lock % 16 = 0)
    (hp : (s.plan[(0 : Fin 16)]).inUse = true → (plan[(0 : Fin 16)]).inUse = true)
    (hr : s.limitsFit → ∀ i : Fin 16, (plan[i]).limitsFit)
    (hs : s.supervision.station.starvationLimit ≤ 64 → st.starvationLimit ≤ 64) :
    s.Loads { s with
      supervision := { s.supervision with requesters := r, station := st }
      signatures := t
      plan := plan } := by
  constructor
  case entryZero => exact hp
  case lock => exact ht
  case limits => exact hr
  case starvation => exact hs
  case ports => exact fun _ => rfl
  all_goals rfl

theorem onceEach_mem {α : Type} {key : α → Nat} {xs ys : List α} (h : onceEach key xs = some ys) : ys = xs := by
  unfold onceEach at h
  split at h
  · exact (Option.some.inj h).symm
  · simp at h

theorem getLastD_mem {α : Type} (xs : List α) (d : α) : xs.getLastD d = d ∨ xs.getLastD d ∈ xs := by
  cases xs with
  | nil => exact .inl rfl
  | cons x rest =>
    right
    rw [List.getLastD_cons]
    rcases Decidable.em (rest = []) with h | h
    · subst h; simp
    · rw [List.getLastD_eq_getLast?, List.getLast?_eq_some_getLast h]
      exact List.mem_cons_of_mem _ (List.getLast_mem h)

theorem State.Loads.applySection {s t : State} {k : SectionKind} {records : List (List Byte)}
    (h : s.applySection k records = some t) : s.Loads t := by
  cases k <;> simp only [State.applySection, Option.map_eq_some_iff, Option.bind_eq_some_iff] at h
  · obtain ⟨xs, hd, rfl⟩ := h
    refine .tables s s.supervision.requesters (xs.getLastD s.supervision.station) s.signatures s.plan id id id
      fun hs => ?_
    rcases getLastD_mem xs s.supervision.station with hm | hm
    · rw [hm]; exact hs
    · obtain ⟨_, _, hf⟩ := decodeAll_mem hd _ hm
      exact Station.decode_limit hf
  · obtain ⟨xs, _, rfl⟩ := h
    exact .tables s (xs.foldl (fun t x => t.set x.1 x.2) s.supervision.requesters) s.supervision.station s.signatures
      s.plan id id id id
  · obtain ⟨xs, _, rfl⟩ := h
    exact .profiles xs s
  · obtain ⟨xs, ⟨ys, hd, hx⟩, rfl⟩ := h
    refine .tables s s.supervision.requesters s.supervision.station s.signatures
      (xs.foldl (fun t x => t.set x.1 x.2) s.plan) id (planSet_inUse xs s.plan fun x hm => ?_)
      (fun hl => planSet_limits xs s.plan (fun x hm => ?_) hl) id
    · rw [onceEach_mem hx] at hm
      obtain ⟨_, _, hf⟩ := decodeAll_mem hd x hm
      exact planRecord_inUse hf
    · rw [onceEach_mem hx] at hm
      obtain ⟨_, _, hf⟩ := decodeAll_mem hd x hm
      exact planRecord_limits hf
  · obtain ⟨xs, _, rfl⟩ := h
    exact .tables s s.supervision.requesters s.supervision.station
      { s.signatures with geometry := xs.getLastD s.signatures.geometry } s.plan id id id id
  · obtain ⟨xs, _, rfl⟩ := h
    exact .tables s s.supervision.requesters s.supervision.station (s.signatures.withEntries xs) s.plan id id id id
  · split at h
    · rename_i hv
      rw [← Option.some.inj h]
      refine .tables s s.supervision.requesters s.supervision.station { s.signatures with
        lock := (records.map fun b => natAt b 0 2).getLastD s.signatures.lock } s.plan (fun hl => ?_) id id id
      show (records.map fun b => natAt b 0 2).getLastD s.signatures.lock ≤ 1024 ∧ _
      rcases getLastD_mem (records.map fun b => natAt b 0 2) s.signatures.lock with hm | hm
      · rw [hm]; exact hl
      · simpa [lockAcceptable] using List.all_eq_true.mp hv _ hm
    · simp at h

/-! ### Load completion -/

theorem Moves.placePort (s : State) (p : Port) : Moves s (s.placePort p) := by
  unfold State.placePort
  split
  · exact .enterNoLine s p
  · split
    · exact (Moves.send s p _).trans (.enterListen _ p)
    · exact .enterOff s p

theorem Vector.set_same (v : Vector PlanEntry 16) (i : Fin 16) : v.set i v[i] = v := by
  apply Vector.ext
  intro k hk
  simp only [Vector.getElem_set]
  split
  · rename_i h1; subst h1; rfl
  · rfl

theorem Moves.selectAllClasses (s : State) : Moves s s.selectAllClasses := by
  have h := (Move.plan s 1 s.plan[(1 : Fin 16)] (by simp) fun h => h 1).one
  rw [Vector.set_same] at h
  exact h

/-- Load completion from the state in which the load has been declared complete. -/
theorem Moves.completeLoad (s : State) (o : ImageOutcome) : Moves (s.loadEnded o) (s.completeLoad o) :=
  (((Moves.selectAllClasses _).trans (Moves.foldl Moves.placePort _ _)).trans (.raiseDevice _ _)).trans
    (.supervise _ _)

theorem State.noticeRaised_startUp (s : State) (x : StartUp) :
    { s.noticeRaised with startUp := x } = { s with startUp := x }.noticeRaised := by
  by_cases h : (s.notice.state == .idle && s.supervision.station.noticeDestination.isSome) = true
  · simp only [State.noticeRaised, h, if_true]; rfl
  · simp only [State.noticeRaised, h]; rfl

theorem State.raiseDevice_startUp (s : State) (e : DeviceEvent) (x : StartUp) :
    { s.raiseDevice e with startUp := x } = { s with startUp := x }.raiseDevice e :=
  State.noticeRaised_startUp _ x

theorem State.raiseDevice_progress (s : State) (e : DeviceEvent) : (s.raiseDevice e).startUp = s.startUp := by
  unfold State.raiseDevice State.noticeRaised
  split <;> rfl

theorem State.rejectImage_moves (s : State) (r : RejectReason) :
    ∃ u, s.Loads u ∧ u.loading = false ∧ Moves u (s.rejectImage r) := by
  have e : ∀ u : State, ((u.raiseDevice .imageRejected).loadEnded (.rejected r))
      = (u.loadEnded (.rejected r)).raiseDevice .imageRejected := by
    intro u
    unfold State.loadEnded
    rw [State.raiseDevice_startUp, State.raiseDevice_progress]
  unfold State.rejectImage
  simp only []
  have l := State.Loads.unloaded s
  generalize s.unloaded = u at l
  have m := Moves.completeLoad (State.raiseDevice { u with startUp :=
    { u.startUp with
      causes := { u.startUp.causes with imageRejected := true }
      applied := [] } } .imageRejected) (.rejected r)
  rw [e] at m
  refine ⟨_, ?_, ?_, (Moves.raiseDevice _ _).trans m⟩
  · exact l.trans ((State.Loads.startUp u _).trans (State.Loads.startUp _ _))
  · rfl

/-! ### The events -/

/-- What an image event comes to: nothing, a load that goes on, or a load that has ended and the moves of
load completion. -/
def LoadStep (s u : State) : Prop :=
  s.Loads u ∨ ∃ v, s.Loads v ∧ v.loading = false ∧ Moves v u

theorem State.completeLoad_moves (s : State) (o : ImageOutcome) : LoadStep s (s.completeLoad o) :=
  .inr ⟨s.loadEnded o, .startUp s _, rfl, .completeLoad s o⟩

theorem State.firstPassEnds_moves (s : State) (b : List Byte) : LoadStep s (s.firstPassEnds b) := by
  unfold State.firstPassEnds
  split
  · split
    · exact .inr (s.rejectImage_moves _)
    · split
      · exact s.completeLoad_moves _
      · exact .inl (.startUp s _)
  · exact .inl (.refl s)

theorem State.sectionRead_moves (s : State) (b : List Byte) (k : SectionKind) (n : Nat) :
    LoadStep s (s.sectionRead b k n) := by
  unfold State.sectionRead
  simp only []
  split
  · exact .inr (s.rejectImage_moves _)
  · split
    · exact .inr (s.rejectImage_moves _)
    · rename_i t ht
      have l := State.Loads.applySection ht
      unfold State.sectionApplied
      simp only []
      split
      · rcases State.completeLoad_moves { t with startUp :=
          { t.startUp with applied := t.startUp.applied ++ [k] } } .accepted with h | ⟨v, h, hv, m⟩
        · exact .inl (l.trans ((State.Loads.startUp t _).trans h))
        · exact .inr ⟨v, l.trans ((State.Loads.startUp t _).trans h), hv, m⟩
      · exact .inl (l.trans (.startUp t _))

theorem State.secondPassSection_moves (s : State) (b : List Byte) (n : Nat) :
    LoadStep s (s.secondPassSection b n) := by
  unfold State.secondPassSection
  split
  · exact .inr (s.rejectImage_moves _)
  · split
    · exact .inr (s.rejectImage_moves _)
    · split
      · exact .inr (s.rejectImage_moves _)
      · split
        · exact .inr (s.rejectImage_moves _)
        · exact s.sectionRead_moves b _ n

/-- The two passes over the image. -/
def Instr.ofImage : Instr → Bool
  | .imageFirstPassCompletion _ | .imageSectionRead _ => true
  | _ => false

/-- What an event of a pass over the image can do: nothing of its own; or, while the load is in progress, a
load step; and the close of the event. -/
theorem image_moves {i : Instr} (hi : Instr.ofImage i = true) {s t : State} (h : exec i s = .next t) :
    t = s ∨ s.pinHeld = false
      ∧ ∃ u, (u = s ∨ s.loading = true ∧ LoadStep s u) ∧ t = State.closeEvent s u := by
  have key : ∀ f : State → State, takeEvent f s = .next t → (f s = s ∨ s.loading = true ∧ LoadStep s (f s)) →
      t = s ∨ s.pinHeld = false
        ∧ ∃ u, (u = s ∨ s.loading = true ∧ LoadStep s u) ∧ t = State.closeEvent s u := by
    intro f hf hl
    unfold takeEvent at hf
    split at hf
    · exact .inl (Host.Outcome.next.inj hf).symm
    · rename_i hp
      exact .inr ⟨by simpa using hp, f s, hl, (Host.Outcome.next.inj hf).symm⟩
  unfold exec at h
  cases i with
  | imageFirstPassCompletion b =>
    refine key _ h ?_
    by_cases hp : s.startUp.progress = .firstPass
    · exact .inr ⟨by simp [State.loading, hp], s.firstPassEnds_moves b⟩
    · exact .inl (if_neg hp)
  | imageSectionRead b =>
    refine key _ h ?_
    split
    · rename_i left hp
      exact .inr ⟨by simp [State.loading, hp], s.secondPassSection_moves b _⟩
    all_goals exact .inl rfl
  | _ => simp [Instr.ofImage] at hi

end Sys2Proof.Machine
end

