-- ==== Sys2Proof/Laws/Steps.lean ====
section
/-! SUPPORT. The views of the state after a reset, and what a step can do, said once over all events. -/

namespace Sys2Proof.Machine

section Reset

variable (straps : BitVec 4) (causes : ResetCauses) (progress : LoadProgress) (pending : List Instr)
  (arbiter : Nat) (outputs : List Output)

theorem State.port_atReset (p : Port) :
    (State.atReset straps causes progress pending arbiter outputs).port p = PortState.atReset p := by
  simp [State.atReset, State.port]

theorem State.engine_atReset (e : EngineId) :
    (State.atReset straps causes progress pending arbiter outputs).engine e = Engine.atReset := by
  simp [State.atReset, State.engine]

theorem State.group_atReset (g : Group) :
    (State.atReset straps causes progress pending arbiter outputs).group g = BundleGroup.atReset := by
  simp [State.atReset, State.group]

theorem State.slot_atReset (i : SlotId) :
    (State.atReset straps causes progress pending arbiter outputs).slot i = none := by
  simp [State.atReset, State.slot, Supervision.atReset]

end Reset

/-- What the events that are no ordinary ones can do: a reset, the release of the reset pin, nothing, or a
pass over the image. -/
theorem exec_special {i : Instr} (h1 : Instr.ordinary i ≠ true) {s t : State} (h : exec i s = .next t) :
    t.justReset
      ∨ (s.pinHeld = true ∧ t = { s with startUp := { s.startUp with progress := .firstPass } })
      ∨ t = s ∨ t = State.closeEvent s s
      ∨ (s.pinHeld = false ∧ s.loading = true ∧ ∃ u, LoadStep s u ∧ t = State.closeEvent s u) := by
  by_cases h2 : Instr.ofImage i = true
  · rcases image_moves h2 h with m | ⟨hp, u, hu | ⟨hl, hu⟩, m⟩
    · exact .inr (.inr (.inl m))
    · rw [hu] at m
      exact .inr (.inr (.inr (.inl m)))
    · exact .inr (.inr (.inr (.inr ⟨hp, hl, u, hu, m⟩)))
  unfold exec at h
  cases i <;> simp [Instr.ordinary] at h1 <;> simp [Instr.ofImage] at h2 <;> simp only [] at h
  · unfold execPowerOnReset at h
    have h := Host.Outcome.next.inj h
    rw [← h]
    exact .inl (State.justReset_resetTo _ _ _ _)
  · unfold execPinReset at h
    split at h
    · exact .inr (.inr (.inl (Host.Outcome.next.inj h).symm))
    · rw [← Host.Outcome.next.inj h]
      exact .inl (State.justReset_resetTo _ _ _ _)
  · unfold execPinRelease at h
    split at h
    · rename_i hp
      exact .inr (.inl ⟨hp, (Host.Outcome.next.inj h).symm⟩)
    · exact .inr (.inr (.inl (Host.Outcome.next.inj h).symm))

/-- What an event can do in general: it resets the part; it releases the reset pin; it makes moves; or it
takes a load step. -/
theorem exec_cases {i : Instr} {s t : State} (h : exec i s = .next t) :
    t.justReset
      ∨ (s.pinHeld = true ∧ t = { s with startUp := { s.startUp with progress := .firstPass } })
      ∨ Moves s t
      ∨ (s.pinHeld = false ∧ s.loading = true ∧ ∃ u, LoadStep s u ∧ t = State.closeEvent s u) := by
  by_cases h1 : Instr.ordinary i = true
  · rcases exec_moves h1 h with m | ⟨p, r, m⟩
    · exact .inr (.inr (.inl m))
    · rw [m]
      exact .inl (State.justReset_supervisorReset _ r)
  · rcases exec_special h1 h with m | m | m | m | m
    · exact .inl m
    · exact .inr (.inl m)
    · rw [m]; exact .inr (.inr (.inl (.refl s)))
    · rw [m]; exact .inr (.inr (.inl (.closeEvent s s)))
    · exact .inr (.inr (.inr m))

/-- A step idles, or takes the front event. -/
theorem step_cases {s t : State} (h : step s = .next t) :
    t = s ∨ ∃ i rest, s.pending = i :: rest ∧ exec i { s with pending := rest } = .next t := by
  unfold step at h
  split at h
  · exact .inl (Host.Outcome.next.inj h).symm
  · rename_i i rest hp
    exact .inr ⟨i, rest, hp, h⟩

/-- What moves and loads keep, a reset establishes, and neither the queue of events nor the start-up unit
touches, every step keeps. -/
theorem step_keep {P : State → Prop} (hq : ∀ s l, P s → P { s with pending := l })
    (hu : ∀ s x, P s → P { s with startUp := x }) (hm : ∀ {s t}, Move s t → P s → P t)
    (hl : ∀ {s u}, s.Loads u → P s → P u) (hr : ∀ {t}, t.justReset → P t) {s t : State} (hs : P s)
    (h : step s = .next t) : P t := by
  rcases step_cases h with h | ⟨i, rest, _, h⟩
  · rw [h]; exact hs
  · rcases exec_cases h with m | ⟨_, m⟩ | m | ⟨_, _, u, l, m⟩
    · exact hr m
    · rw [m]; exact hu _ _ (hq s rest hs)
    · exact m.keep hm (hq s rest hs)
    · rw [m]
      refine (Moves.closeEvent _ u).keep hm ?_
      rcases l with l | ⟨v, l, _, m⟩
      · exact hl l (hq s rest hs)
      · exact m.keep hm (hl l (hq s rest hs))

end Sys2Proof.Machine
end

