-- ==== Sys2Proof/Laws/Kept.lean ====
section
/-! SUPPORT. What the moves, the loads and the resets keep of each invariant of Safety.lean, and the part at
rest during the load. -/

namespace Sys2Proof.Machine

/-! ### The queue, the timers, the counts -/

theorem Move.keeps_capacity {s t : State} (m : Move s t) (h : s.queueWithinCapacity) : t.queueWithinCapacity := by
  cases m <;> try exact h
  · rename_i x hx
    simp only [State.queueWithinCapacity, State.enqueue, State.oweSelection, List.length_append, List.length_singleton]
    exact hx
  · simpa [State.queueWithinCapacity, State.updEntry] using h
  · rename_i n
    have : (s.queue.filter fun x => x.serial != n).length ≤ s.queue.length := List.length_filter_le _ _
    exact Nat.le_trans this h

theorem Move.keeps_timersFit {s t : State} (m : Move s t) (h : s.timersFit) : t.timersFit := by
  cases m <;> try exact h
  all_goals intro q; have := h q; simp only [State.timersFit, State.training, State.updTraining, State.updTraffic, State.port_updPort, State.selectClassOf, State.port_selectAllClasses] at *
  · rename_i p f hl ht hb; split
    · exact ht _ (h p)
    · exact h q
  · rename_i p l f hn hl ht hb; split
    · exact ht _ 
    · exact h q
  · rename_i p f hg hl ht hb; split
    · exact ht _ 
    · exact h q
  · split
    · exact h _
    · exact h q
  · split
    · exact h _
    · exact h q
  · rename_i p f hf; split
    · rw [(hf _).1]; exact h _
    · exact h q
  · split
    · exact h _
    · exact h q
  · split
    · exact h _
    · exact h q
  · exact h q

theorem Move.keeps_countsBounded {s t : State} (m : Move s t) (h : s.countsBounded) : t.countsBounded := by
  cases m <;> try exact h
  case notice n hn => exact ⟨h.1, hn h.2.1, h.2.2⟩
  case supervision f hb => exact ⟨h.1, h.2.1, hb _ h.2.2.1, h.2.2.2⟩
  case engine e f hb =>
    refine ⟨h.1, h.2.1, h.2.2.1, h.2.2.2.1, fun d => ?_⟩
    rw [State.engine_updEngine]
    split
    · rename_i hd; exact hb h.2.2.1 (h.2.2.2.2 _)
    · exact h.2.2.2.2 d
  case plan i e hu hb =>
    refine ⟨fun q => ?_, h.2.1, h.2.2.1, fun j => ?_, h.2.2.2.2⟩
    · rw [State.training, State.traffic, State.port_selectAllClasses]; exact h.1 q
    · show ((s.plan.set i e)[j]).limitsFit
      simp only [Fin.getElem_fin, Vector.getElem_set]
      split
      · exact hb h.2.2.2.1
      · exact h.2.2.2.1 j
  all_goals refine ⟨fun q => ?_, h.2⟩; have := h.1 q; simp only [State.training, State.updTraining, State.updTraffic, State.traffic, State.port_updPort, State.selectClassOf] at *
  · rename_i p f hl ht hb; split
    · exact ⟨hb h.2.2.2.1 (h.1 p).1, (h.1 p).2⟩
    · exact h.1 q
  · rename_i p l f hn hl ht hb; split
    · exact ⟨hb h.2.2.2.1 (h.1 p).1, (h.1 p).2⟩
    · exact h.1 q
  · rename_i p f hg hl ht hb; split
    · exact ⟨hb h.2.2.2.1 (h.1 p).1, (h.1 p).2⟩
    · exact h.1 q
  · rename_i p f hb; split
    · exact ⟨(h.1 p).1, hb _ (h.1 p).2.1, (h.1 p).2.2⟩
    · exact h.1 q
  · rename_i p f hb; split
    · exact ⟨(h.1 p).1, (h.1 p).2.1, hb _ (h.1 p).2.2⟩
    · exact h.1 q
  · rename_i p f hf; split
    · rw [(hf _).1, (hf _).2.1, (hf _).2.2.1]; exact h.1 _
    · exact h.1 q
  · split
    · exact h.1 _
    · exact h.1 q
  · split
    · exact h.1 _
    · exact h.1 q

theorem Move.keeps_numbered {s t : State} (m : Move s t) (h : s.numbered) : t.numbered := by
  cases m <;> try exact h
  · rename_i x hx
    refine ⟨?_, fun y hy => ?_⟩
    · simp only [State.enqueue, State.oweSelection, List.map_append, List.map_cons, List.map_nil]
      refine List.pairwise_append.mpr ⟨h.1, List.pairwise_singleton _ _, fun a ha b hb => ?_⟩
      obtain ⟨y, hy, rfl⟩ := List.mem_map.mp ha
      rw [List.mem_singleton.mp hb]
      exact h.2 y hy
    · simp only [State.enqueue, State.oweSelection, List.mem_append, List.mem_singleton] at hy ⊢
      rcases hy with hy | hy
      · exact Nat.lt_succ_of_lt (h.2 y hy)
      · rw [hy]; exact Nat.lt_succ_self _
  · rename_i n f hn
    have e : (s.updEntry n f).queue.map QueueEntry.serial = s.queue.map QueueEntry.serial := by
      simp only [State.updEntry, List.map_map]
      refine List.map_congr_left fun x _ => ?_
      simp only [Function.comp]
      split
      · exact hn x
      · rfl
    refine ⟨e ▸ h.1, fun y hy => ?_⟩
    obtain ⟨x, hx, hs⟩ := List.mem_map.mp (e ▸ List.mem_map_of_mem hy :
      y.serial ∈ s.queue.map QueueEntry.serial)
    exact hs ▸ h.2 x hx
  · rename_i n
    refine ⟨h.1.sublist (List.filter_sublist.map _), fun y hy => h.2 y ((List.mem_filter.mp hy).1)⟩

/-! ### The part at rest -/

/-- The part at rest, as `State.restsWhileLoading` says it is during the load. -/
structure Rest (s : State) : Prop where
  port : ∀ p, (s.port p).atRest
  engine : ∀ e, s.engine e = Engine.atReset
  group : ∀ g, s.group g = BundleGroup.atReset
  queue : s.queue = []
  due : s.due = Due.none
  slot : ∀ i, s.slot i = none
  requests : s.supervision.requests = []
  accepting : s.supervision.accepting = false

theorem rest_iff {s : State} : s.restsWhileLoading ↔ (s.loading = true → Rest s) := by
  unfold State.restsWhileLoading
  constructor
  · intro h hl; obtain ⟨a,b,c,d,e,f,g,i⟩ := h hl; exact ⟨a,b,c,d,e,f,g,i⟩
  · intro h hl; obtain ⟨a,b,c,d,e,f,g,i⟩ := h hl; exact ⟨a,b,c,d,e,f,g,i⟩

theorem Rest.link {s : State} (h : Rest s) (p : Port) : s.link p = .off := by
  unfold State.link State.training; rw [(h.port p).1]; rfl
theorem Rest.mode {s : State} (h : Rest s) (p : Port) : s.mode p = .openMode := (h.port p).2.2.2
theorem Rest.survey {s : State} (h : Rest s) (p : Port) : s.survey p = SurveyRecord.atReset := (h.port p).2.1

theorem Rest.updPort {s : State} (h : Rest s) (p : Port) (f : PortState → PortState)
   (hf : ∀ x : PortState, x.atRest → (f x).atRest) : Rest (s.updPort p f) := by
  refine ⟨fun q => ?_, h.engine, h.group, h.queue, h.due, h.slot, h.requests, h.accepting⟩
  rw [State.port_updPort]; split
  · exact hf _ (h.port p)
  · exact h.port q

theorem Rest.updTraffic {s : State} (h : Rest s) (p : Port) (f) : Rest (s.updTraffic p f) := h.updPort p _ fun _ h => h
theorem Rest.emit {s : State} (h : Rest s) (o) : Rest (s.emit o) := ⟨h.port, h.engine, h.group, h.queue, h.due, h.slot, h.requests, h.accepting⟩
theorem Rest.notice {s : State} (h : Rest s) (n) : Rest {s with notice := n} := ⟨h.port, h.engine, h.group, h.queue, h.due, h.slot, h.requests, h.accepting⟩
theorem Rest.setQuad {s : State} (h : Rest s) (q b) : Rest (s.setQuad q b) := ⟨h.port, h.engine, h.group, h.queue, h.due, h.slot, h.requests, h.accepting⟩

theorem Rest.close {s b : State} (h : Rest s) (hb : b.queue = []) : State.closeEvent b s = s := by
  refine State.closeEvent_calm h.due fun g => ?_
  unfold State.groupBlocked
  rw [h.queue, hb]; rfl

theorem Rest.take {s t : State} {f : State → State} (h : Rest s) (hf : Rest (f s)) (ht : takeEvent f s = .next t) : Rest t := by
  unfold takeEvent at ht
  split at ht
  · rw [← Host.Outcome.next.inj ht]; exact h
  · rw [← Host.Outcome.next.inj ht, hf.close h.queue]; exact hf

theorem Rest.take_same {s t : State} {f : State → State} (h : Rest s) (ht : takeEvent f s = .next t) (hf : f s = s) : Rest t :=
  h.take (f := f) (by rw [hf]; exact h) ht

theorem Rest.serve {s : State} (h : Rest s) (a b c d) : s.serve a b c d = s := by
  unfold State.serve; rw [h.requests]

theorem Rest.report {s : State} (hl : s.loading = true) (p f) : s.report p f = s := by
  unfold State.report State.reportReaches; rw [hl]; simp

theorem Rest.fold {α} {s : State} (h : Rest s) (xs : List α) (f : State → α → State) (hf : ∀ s x, Rest s → Rest (f s x)) : Rest (xs.foldl f s) := by
  induction xs generalizing s with
  | nil => exact h
  | cons x r ih => exact ih (hf s x h)

theorem Rest.ordinary {i : Instr} (hi : Instr.ordinary i = true) {s t : State} (hl : s.loading = true) (h : Rest s) (ht : exec i s = .next t) :
    Rest t := by
  unfold exec at ht
  cases i with
  | powerOnReset _ | pinReset _ | pinRelease | imageFirstPassCompletion _ | imageSectionRead _ =>
    simp [Instr.ordinary] at hi
  | transmissionCompletion p r =>
    simp only [] at ht
    have hr : s.resetReply p = false := by
      unfold State.resetReply; split
      · rw [h.slot]; rfl
      · rfl
    unfold execTransmissionCompletion at ht
    rw [hr] at ht
    simp only [Bool.and_false, Bool.false_eq_true, if_false] at ht
    refine h.take ?_ ht
    unfold State.transmissionCompleted
    split
    · exact h
    · split
      · exact h
      · have h2 : Rest (s.sendingEnds p ‹_›) := (h.updTraffic p _).emit _
        unfold State.inserted
        split
        · exact h2
        · refine ⟨h2.port, h2.engine, h2.group, h2.queue, h2.due, fun j => ?_, h2.requests, h2.accepting⟩
          rw [State.slot_setSlot]; split
          · rfl
          · exact h2.slot j
        · split
          · exact h2.notice _
          · exact h2
  | quadLoss q l => 
    refine h.take ?_ ht
    unfold State.quadLost; rw [hl]; split
    · exact h
    · exact h.setQuad q _
  | quadRecovery q =>
    refine h.take ?_ ht
    unfold State.quadRecovered; rw [hl]; split
    · exact h
    · exact h.setQuad q _
  | energyOn p => exact h.take_same ht (Rest.report hl _ _)
  | energyOff p => exact h.take_same ht (Rest.report hl _ _)
  | partnerAbility p r => exact h.take_same ht (Rest.report hl _ _)
  | trainDone p m => exact h.take_same ht (Rest.report hl _ _)
  | trainFail p => exact h.take_same ht (Rest.report hl _ _)
  | marginReport p m => exact h.take_same ht (Rest.report hl _ _)
  | symbolErrors p n => exact h.take_same ht (Rest.report hl _ _)
  | silent p => exact h.take_same ht (by simp [State.silentReported, h.mode])
  | captureSet p x y c => exact h.take_same ht (by unfold State.captureReported; rw [h.mode])
  | taps p w x y z => exact h.take_same ht (by unfold State.tapsReported; rw [h.mode])
  | switchToLineFrameArrival p f =>
    refine h.take ?_ ht
    unfold State.fromSwitch
    split
    · have h2 := h.updTraffic p fun t => { t with diverted := saturating Config.trafficCeiling t.diverted }
      unfold State.superviseArrival
      rw [h2.accepting]
      exact h2
    · rw [h.link]
      simp only [reduceCtorEq, if_false]
      exact h.updTraffic p _
  | lineToSwitchFrameArrival p f => 
    refine h.take ?_ ht
    unfold State.fromLine
    have h2 := h.updTraffic p fun t => t.forward f (!checkGood f)
    simp only []
    split
    · exact h2
    · unfold State.badFrame
      rw [h2.link]
      simp only [reduceCtorEq, if_false]
      exact h2.updTraffic p _
  | forwardedFrameSent p =>
    refine h.take ?_ ht
    unfold State.forwardedSent
    split
    · exact h
    · split
      · exact (h.updTraffic p _).emit _
      · exact h
  | readPort | readReport | readTable | readStatus | testCable | surveyNow | cancel | retrain | setAdmin | writeProfile | writePlanEntry
  | writeSignatures | clearBlock | setGeometry | lowerLock | writeRequester | setStation | resetPart => exact h.take_same ht (h.serve _ _ _ _)
  | unknownRequest => exact h.take_same ht (by unfold State.serveUnknown; rw [h.requests])
  | exchangeTimerExpiry p => exact h.take_same ht (by simp [State.exchangeExpired, h.link])
  | attemptTimerExpiry p => exact h.take_same ht (by simp [State.attemptExpired, h.link])
  | verifyTimerExpiry p => exact h.take_same ht (by simp [State.verifyExpired, h.link])
  | degradeWindowExpiry p => exact h.take_same ht (by simp [State.windowExpired, h.link])
  | backoffTimerExpiry p => exact h.take_same ht (by simp [State.backoffExpired, h.link])
  | phaseTimerExpiry e => exact h.take_same ht (by simp [State.phaseExpired, h.engine, Engine.atReset])
  | holdTimerExpiry g => exact h.take_same ht (by simp [State.holdExpired, h.group, BundleGroup.atReset])
  | surveyTimerExpiry p => exact h.take_same ht (by simp [State.surveyExpired, h.survey, SurveyRecord.atReset])
  | graceTimerExpiry p => exact h.take_same ht (by simp [State.graceExpired, h.survey, SurveyRecord.atReset])
  | holdoffTimerExpiry =>
    refine h.take ?_ ht
    unfold State.holdoffExpired
    split
    · split
      · exact h.notice _
      · split
        · exact h.notice _
        · unfold State.sendNotice
          have h2 := h.fold s.portsReported (fun t p => t.updPort p fun x => { x with events := .empty }) fun u p hu => hu.updPort p _ fun _ h => h
          have h3 : Rest s.reportedCleared := h2.notice _
          exact (h3.notice _).updTraffic _ _
    · exact h
  | analyzeCompletion e => exact h.take_same ht (by simp [State.analyzed, h.engine, Engine.atReset])
  | restoreCompletion e => exact h.take_same ht (by simp [State.restored, h.engine, Engine.atReset])

theorem Moves.loading_eq {s t : State} (m : Moves s t) : t.loading = s.loading := by
  induction m with
  | refl => rfl
  | tail _ m ih => rw [← ih]; cases m <;> rfl

theorem Rest.of_reset {s : State} (h : s.justReset) : Rest s := by
  obtain ⟨a,b,c,d,e,f,rfl⟩ := h
  refine ⟨fun p => ?_, State.engine_atReset _ _ _ _ _ _, State.group_atReset _ _ _ _ _ _, rfl, rfl, State.slot_atReset _ _ _ _ _ _, rfl, rfl⟩
  rw [State.port_atReset]; exact ⟨rfl, rfl, rfl, rfl⟩

theorem Rest.of_loads {s u : State} (l : s.Loads u) (h : Rest s) : Rest u := by
  refine ⟨fun p => ?_, fun e => ?_, fun g => ?_, by rw [l.queue]; exact h.queue, by rw [l.due]; exact h.due, fun i => ?_, by rw [l.requests]; exact h.requests, by rw [l.accepting]; exact h.accepting⟩
  · rw [l.ports]; exact h.port p
  · unfold State.engine; rw [l.engines]; exact h.engine e
  · unfold State.group; rw [l.groups]; exact h.group g
  · unfold State.slot; rw [l.slots]; exact h.slot i

/-! ### Invariants under a load at rest -/

/-- What `step_keep` says, for an invariant that a load keeps only on a part at rest. -/
theorem step_keep_resting {P : State → Prop} (hq : ∀ s l, P s → P { s with pending := l })
    (hu : ∀ s x, P s → P { s with startUp := x }) (hm : ∀ {s t}, Move s t → P s → P t)
    (hl : ∀ {s u}, s.Loads u → Rest s → P s → P u) (hr : ∀ {t}, t.justReset → P t) {s t : State} (hrest : s.restsWhileLoading) (hs : P s)
    (h : step s = .next t) : P t := by
  rw [rest_iff] at hrest
  rcases step_cases h with h | ⟨i, rest, _, h⟩
  · rw [h]; exact hs
  · rcases exec_cases h with m | ⟨_, m⟩ | m | ⟨_, hl', u, l, m⟩
    · exact hr m
    · rw [m]; exact hu _ _ (hq s rest hs)
    · exact m.keep hm (hq s rest hs)
    · rw [m]
      have hR : Rest {s with pending := rest} := by
        have h := hrest hl'; exact ⟨h.port, h.engine, h.group, h.queue, h.due, h.slot, h.requests, h.accepting⟩
      refine (Moves.closeEvent _ u).keep hm ?_
      rcases l with l | ⟨v, l, _, m⟩
      · exact hl l hR (hq s rest hs)
      · exact m.keep hm (hl l hR (hq s rest hs))

theorem Move.keeps_lock {s t : State} (m : Move s t) (h : s.lockFits) : t.lockFits ∧ LockKept s t := by
  cases m
  case signatures t' ht =>
    obtain ⟨⟨a, b⟩, c⟩ := ht h
    exact ⟨⟨Nat.le_trans a h.1, b⟩, a, c⟩
  all_goals exact ⟨h, Nat.le_refl _, fun _ _ => rfl⟩

theorem Moves.keeps_lock {s t : State} (m : Moves s t) (h : s.lockFits) : t.lockFits ∧ LockKept s t := by
  induction m with
  | refl => exact ⟨h, Nat.le_refl _, fun _ _ => rfl⟩
  | tail _ m ih =>
    obtain ⟨a, b, c⟩ := ih
    obtain ⟨a', b', c'⟩ := Move.keeps_lock m a
    exact ⟨a', Nat.le_trans b' b, fun i hi => (c' i (Nat.le_trans b hi)).trans (c i hi)⟩

theorem selectClass_found (plan : Vector PlanEntry 16) (r s) : selectClass plan r s = 0 ∨ ∃ i, selectClass plan r s = i ∧ (plan[i]).inUse = true := by
  unfold selectClass
  cases lengthInput r s with
  | none => exact .inl rfl
  | some n =>
    simp only []
    cases hf : classIndices.find? fun i => (plan[i]).fits n (worstInput r) with
    | none => exact .inl rfl
    | some i =>
      have := List.find?_some hf
      simp only [PlanEntry.fits, Bool.and_eq_true] at this
      exact .inr ⟨i, rfl, this.1.1⟩

theorem entry_inUse_of_eq {plan : Vector PlanEntry 16} {i j : Fin 16} (e : i = j) (h : (plan[j]).inUse = true) : (plan[i]).inUse = true := by
  subst e; exact h

theorem selectClass_inUse (plan : Vector PlanEntry 16) (r s) (h : (plan[(0 : Fin 16)]).inUse = true) : (plan[selectClass plan r s]).inUse = true := by
  rcases selectClass_found plan r s with e | ⟨i, e, hi⟩
  · exact entry_inUse_of_eq e h
  · exact entry_inUse_of_eq e hi

theorem Move.keeps_classesInUse {s t : State} (m : Move s t) (h : s.classesInUse) : t.classesInUse := by
  have ⟨h0, h1⟩ := h
  have aux : ∀ (u : State), u.plan = s.plan → (∀ q, (u.port q).cableClass = (s.port q).cableClass) → u.classesInUse := by
    intro u hp hc
    unfold State.classesInUse
    refine ⟨by rw [hp]; exact h0, fun q => ?_⟩
    have := h1 q
    simp only [hp, hc q]; exact this
  cases m
  case classOf p =>
    refine ⟨h0, fun q => ?_⟩
    simp only [State.selectClassOf, State.port_updPort, State.updPort_plan]
    split
    · exact selectClass_inUse _ _ _ h0
    · exact h1 q
  case plan i e hu hb =>
    have h0' : ((s.plan.set i e)[(0 : Fin 16)]).inUse = true := by
      simp only [Fin.getElem_fin, Vector.getElem_set]
      split
      · rename_i hi; exact hu (Fin.ext hi)
      · exact h0
    refine ⟨h0', fun q => ?_⟩
    have e : (State.port (State.selectAllClasses { s with plan := s.plan.set i e }) q).cableClass = selectClass (s.plan.set i e) (s.port q).report (s.port q).summary := by
      rw [State.port_selectAllClasses]; rfl
    exact entry_inUse_of_eq e (selectClass_inUse _ _ _ h0')
  all_goals refine aux _ rfl fun q => ?_
  all_goals first | rfl | skip
  all_goals simp only [State.updTraining, State.updTraffic, State.port_updPort]
  all_goals split <;> first | rfl | (rename_i hq; rw [hq]; done) | skip
  rename_i hf hq; subst hq; exact (hf _).2.2.2.2

theorem Move.keeps_captureExclusive {s t : State} (m : Move s t) (h : s.captureExclusive) : t.captureExclusive := by
  cases m <;> try exact h
  all_goals intro q hq k hk
  case training p f hl ht hb =>
    simp only [State.link, State.training, State.groupOf, State.profile, State.updTraining, State.port_updPort, State.group_updPort] at hq hk
    by_cases hp : q = p
    · simp only [hp, if_true] at hq hk ⊢; rw [hl] at hq; exact h p hq k hk
    · simp only [hp, if_false] at hq hk; exact h q hq k hk
  case link p l f hn hl ht hb =>
    simp only [State.link, State.training, State.groupOf, State.profile, State.updTraining, State.port_updPort, State.group_updPort] at hq hk
    by_cases hp : q = p
    · simp only [hp, if_true] at hq hk ⊢; rw [hl] at hq; exact absurd hq hn
    · simp only [hp, if_false] at hq hk; exact h q hq k hk
  case train p f hg hl ht hb =>
    simp only [State.link, State.training, State.groupOf, State.profile, State.updTraining, State.port_updPort, State.group_updPort] at hq hk
    by_cases hp : q = p
    · simp only [hp, if_true] at hq hk ⊢
      rcases hg with hg | hg
      · unfold State.groupOf State.profile at hg; rw [hg] at hk; exact absurd hk (by simp)
      · exact h p hg k hk
    · simp only [hp, if_false] at hq hk; exact h q hq k hk
  case profile p new hg =>
    simp only [State.link, State.training, State.groupOf, State.profile, State.port_updPort, State.group_updPort] at hq hk
    by_cases hp : q = p
    · simp only [hp, if_true] at hq hk ⊢
      rcases hg with hg | hg
      · rw [hg] at hk; exact h p hq k hk
      · exact absurd hq hg
    · simp only [hp, if_false] at hq hk; exact h q hq k hk
  case plain p f hf =>
    simp only [State.link, State.training, State.groupOf, State.profile, State.port_updPort, State.group_updPort] at hq hk
    by_cases hp : q = p
    · simp only [hp, if_true, (hf _).1, (hf _).2.2.2.1] at hq hk ⊢; exact h p hq k hk
    · simp only [hp, if_false] at hq hk; exact h q hq k hk
  case traffic p f hb =>
    simp only [State.link, State.training, State.groupOf, State.profile, State.updTraffic, State.port_updPort, State.group_updPort] at hq hk
    by_cases hp : q = p
    · simp only [hp, if_true] at hq hk ⊢; exact h p hq k hk
    · simp only [hp, if_false] at hq hk; exact h q hq k hk
  case events p f hb =>
    simp only [State.link, State.training, State.groupOf, State.profile, State.port_updPort, State.group_updPort] at hq hk
    by_cases hp : q = p
    · simp only [hp, if_true] at hq hk ⊢; exact h p hq k hk
    · simp only [hp, if_false] at hq hk; exact h q hq k hk
  case classOf p =>
    simp only [State.link, State.training, State.groupOf, State.profile, State.selectClassOf, State.port_updPort, State.group_updPort] at hq hk
    by_cases hp : q = p
    · simp only [hp, if_true] at hq hk ⊢; exact h p hq k hk
    · simp only [hp, if_false] at hq hk; exact h q hq k hk
  case plan i e hu hb =>
    simp only [State.link, State.training, State.groupOf, State.profile, State.port_selectAllClasses] at hq hk
    exact h q hq k hk
  case take g hd hg =>
    rw [State.group_updGroup] at hk
    split at hk
    · rename_i hgq
      simp at hk
      rw [← hk]
      by_cases hp : hd.port = q
      · exact hp
      · exact absurd hq (hg q (fun e => hp e.symm) hgq)
    · exact h q hq k hk
  case group g f hf =>
    rw [State.group_updGroup] at hk
    split at hk
    · rename_i hgq
      rcases hf (s.group g) with e | e
      · rw [e] at hk; exact h q hq k (by rw [← hk]; exact congrArg _ (congrArg _ hgq))
      · rw [e] at hk; exact absurd hk (by simp)
    · exact h q hq k hk

end Sys2Proof.Machine
end

