-- ==== Sys2Proof/Laws/Settle.lean ====
section
/-! SUPPORT. What carrying out the consequences of an event comes to: what one training entry and one grant
leave alone, that the rounds suffice, the rule by which a property of every round is one of the whole, and how the
state at the end stands to the one it began from. -/

namespace Sys2Proof.Machine

/-! ### What a training entry and the taking of a port leave alone -/

/-- Two states agree on the bundle group table, the engines, the quads, membership, every link state but a
port's, and the training entries owed; whatever else was owed is owed still; and if no look at the
reservations is owed, the same groups have a WAITING TEST. -/
structure State.Beside (p : Port) (s t : State) : Prop where
  groups : t.groups = s.groups
  engines : t.engines = s.engines
  quads : t.quads = s.quads
  groupOf : ∀ q, t.groupOf q = s.groupOf q
  links : ∀ q, q ≠ p → t.link q = s.link q
  reentry : t.due.reentry = s.due.reentry
  select : s.due.select = true → t.due.select = true
  reservations : s.due.reservations = true → t.due.reservations = true
  waits : t.due.reservations = true ∨ ∀ g, t.testWaitingIn g = s.testWaitingIn g
  fewer : ∀ g, t.testWaitingIn g = true → s.testWaitingIn g = true

theorem State.Beside.refl (p : Port) (s : State) : s.Beside p s :=
  ⟨rfl, rfl, rfl, fun _ => rfl, fun _ _ => rfl, rfl, id, id, .inr fun _ => rfl, fun _ => id⟩

theorem State.Beside.trans {p : Port} {s t u : State} (a : s.Beside p t) (b : t.Beside p u) : s.Beside p u where
  groups := b.groups.trans a.groups
  engines := b.engines.trans a.engines
  quads := b.quads.trans a.quads
  groupOf q := (b.groupOf q).trans (a.groupOf q)
  links q h := (b.links q h).trans (a.links q h)
  reentry := b.reentry.trans a.reentry
  select h := b.select (a.select h)
  reservations h := b.reservations (a.reservations h)
  waits := by
    rcases b.waits with h | h
    · exact .inl h
    · rcases a.waits with h2 | h2
      · exact .inl (b.reservations h2)
      · exact .inr fun g => (h g).trans (h2 g)
  fewer g h := a.fewer g (b.fewer g h)

/-- A port changes, but not its group; its link state changes only if it is the port named. -/
theorem State.Beside.updPort (p : Port) (s : State) (q : Port) (f : PortState → PortState)
    (hg : ∀ x, (f x).profile = x.profile := by intro _; rfl)
    (hl : q = p ∨ ∀ x, (f x).training.link = x.training.link := by first | exact .inr fun _ => rfl | exact .inl rfl) :
    s.Beside p (s.updPort q f) := by
  have gr : ∀ r, (s.updPort q f).groupOf r = s.groupOf r := fun r => by
    show ((s.updPort q f).port r).profile.group = _
    rw [State.port_updPort]
    split
    · rename_i h; rw [hg, h]; rfl
    · rfl
  have w : ∀ g, (s.updPort q f).testWaitingIn g = s.testWaitingIn g := fun g => by
    simp only [State.testWaitingIn, gr]; rfl
  refine ⟨rfl, rfl, rfl, gr, fun r hr => ?_, rfl, id, id, .inr w, fun g h => w g ▸ h⟩
  show ((s.updPort q f).port r).training.link = _
  rw [State.port_updPort]
  split
  · rename_i h
    rcases hl with hl | hl
    · exact absurd (h.trans hl) hr
    · rw [hl, h]; rfl
  · rfl

theorem State.Beside.oweSelection (p : Port) (s : State) : s.Beside p s.oweSelection :=
  ⟨rfl, rfl, rfl, fun _ => rfl, fun _ _ => rfl, rfl, fun _ => rfl, id, .inr fun _ => rfl, fun _ => id⟩

theorem State.Beside.oweReservations (p : Port) (s : State) : s.Beside p s.oweReservations :=
  ⟨rfl, rfl, rfl, fun _ => rfl, fun _ _ => rfl, rfl, id, fun _ => rfl, .inl rfl, fun _ => id⟩

theorem State.Beside.emit (p : Port) (s : State) (o : Output) : s.Beside p (s.emit o) :=
  ⟨rfl, rfl, rfl, fun _ => rfl, fun _ _ => rfl, rfl, id, id, .inr fun _ => rfl, fun _ => id⟩

theorem State.Beside.updSupervision (p : Port) (s : State) (f : Supervision → Supervision) :
    s.Beside p (s.updSupervision f) :=
  ⟨rfl, rfl, rfl, fun _ => rfl, fun _ _ => rfl, rfl, id, id, .inr fun _ => rfl, fun _ => id⟩

theorem State.Beside.noticeRaised (p : Port) (s : State) : s.Beside p s.noticeRaised := by
  unfold State.noticeRaised
  split
  · exact ⟨rfl, rfl, rfl, fun _ => rfl, fun _ _ => rfl, rfl, id, id, .inr fun _ => rfl, fun _ => id⟩
  · exact .refl p s

theorem State.Beside.raise (p : Port) (s : State) (q : Port) (e : PortEvent) : s.Beside p (s.raise q e) :=
  (State.Beside.updPort p s q fun x => { x with events := x.events.record e }).trans (.noticeRaised p _)

theorem State.Beside.send (p : Port) (s : State) (q : Port) (c : LaneCommand) : s.Beside p (s.send q c) := by
  unfold State.send
  split
  · exact (State.Beside.updPort p s q fun x => { x with mode := c.modeAfter (s.mode q) }).trans (.emit p _ _)
  · exact .refl p s

theorem State.Beside.note (p : Port) (s : State) (f : Training → Training) : s.Beside p (s.updTraining p f) :=
  .updPort p s p (fun x => { x with training := f x.training }) (hl := .inl rfl)

theorem State.Beside.answer (p : Port) (s : State) (a : ReplyPlace) (c : ResultCode) (d : List Byte) :
    s.Beside p (s.answer a c d) := by
  unfold State.answer
  split
  · exact .refl p s
  · simp only []
    split
    · exact (State.Beside.updSupervision p s _).trans
        (.updPort p _ _ fun x => { x with traffic := x.traffic.place _ })
    · exact .updSupervision p s _

/-- Entries leave the queue, or join it that are no TEST, and a look at the reservations is owed. -/
theorem State.Beside.enqueueSurvey (p : Port) (s : State) (x : QueueEntry) (h : x.kind = .survey)
    (hr : s.due.reservations = true) : s.Beside p (s.enqueue x) := by
  refine ⟨rfl, rfl, rfl, fun _ => rfl, fun _ _ => rfl, rfl, fun _ => rfl, id, .inl hr, fun g hg => ?_⟩
  simp only [State.testWaitingIn, State.enqueue, State.oweSelection, List.any_append, Bool.or_eq_true] at hg
  rcases hg with hg | hg
  · exact hg
  · simp [QueueEntry.isSurvey, h] at hg

theorem State.Beside.offerSurvey (p : Port) (s : State) (q : Port) (hr : s.due.reservations = true) :
    s.Beside p (s.offerSurvey q) := by
  unfold State.offerSurvey
  split
  · exact .refl p s
  · split
    · exact (State.Beside.enqueueSurvey p s _ rfl hr).trans
        (.updPort p _ q fun x => { x with survey := { x.survey with pending := false } })
    · exact .updPort p s q fun x => { x with survey := { x.survey with pending := true } }

theorem State.Beside.offerPending (p : Port) (s : State) (hr : s.due.reservations = true) :
    s.Beside p s.offerPending := by
  unfold State.offerPending
  generalize allPorts = l
  induction l generalizing s with
  | nil => exact .refl p s
  | cons q rest ih =>
    rw [List.foldl_cons]
    split
    · have b := State.Beside.offerSurvey p s q hr
      exact b.trans (ih _ (b.reservations hr))
    · exact ih s hr

/-- What a departure owes may be noted before the offers it calls for. -/
theorem State.offerSurvey_oweReservations (s : State) (p : Port) :
    s.oweReservations.offerSurvey p = (s.offerSurvey p).oweReservations := by
  unfold State.offerSurvey
  have e : s.oweReservations.surveyEntry p = s.surveyEntry p := rfl
  have r : s.oweReservations.roomInternal = s.roomInternal := rfl
  rw [e, r]
  split
  · rfl
  · split <;> rfl

theorem State.offerPending_oweReservations (s : State) :
    s.oweReservations.offerPending = s.offerPending.oweReservations := by
  unfold State.offerPending
  generalize allPorts = l
  induction l generalizing s with
  | nil => rfl
  | cons p rest ih =>
    rw [List.foldl_cons, List.foldl_cons]
    have e : s.oweReservations.survey p = s.survey p := rfl
    rw [e]
    split
    · rw [State.offerSurvey_oweReservations, ih]
    · rw [ih]

theorem State.Beside.dropEntry (p : Port) (s : State) (n : Nat) : s.Beside p (s.dropEntry n).oweReservations := by
  refine ⟨rfl, rfl, rfl, fun _ => rfl, fun _ _ => rfl, rfl, id, fun _ => rfl, .inl rfl, fun g hg => ?_⟩
  obtain ⟨x, hx, h⟩ := List.any_eq_true.mp hg
  exact List.any_eq_true.mpr ⟨x, (List.mem_filter.mp hx).1, h⟩

theorem State.Beside.removeEntry (p : Port) (s : State) (n : Nat) : s.Beside p (s.removeEntry n) := by
  unfold State.removeEntry
  rw [← State.offerPending_oweReservations]
  exact (State.Beside.dropEntry p s n).trans (.offerPending p _ rfl)

theorem State.Beside.finishEntry (p : Port) (s : State) (x : QueueEntry) (c : ResultCode) (d : List Byte) :
    s.Beside p (s.finishEntry x c d) := by
  unfold State.finishEntry State.answerEntry
  split
  · exact .removeEntry p s _
  · exact (State.Beside.removeEntry p s _).trans (.answer p _ _ _ _)

theorem State.Beside.setLink (p : Port) (s : State) (l : LinkState) : s.Beside p (s.setLink p l) := by
  unfold State.setLink
  simp only []
  split
  · exact (State.Beside.note p s _).trans (.oweSelection p _)
  · exact .note p s _

theorem State.Beside.stopIf (p : Port) (s : State) (b : Bool) : s.Beside p (s.stopIf b p) := by
  unfold State.stopIf
  split
  · exact .send p s p _
  · exact .refl p s

theorem State.Beside.trainingEntry (p : Port) (s : State) (b : Bool) : s.Beside p (s.trainingEntry b p) := by
  unfold State.trainingEntry
  simp only []
  split
  · unfold State.enterTrain
    simp only []
    split
    · exact (State.Beside.setLink p s _).trans (.note p _ _)
    · exact ((State.Beside.setLink p s _).trans (.note p _ _)).trans (.send p _ p _)
  · exact (State.Beside.stopIf p s b).trans (.setLink p _ _)

/-! ### What a grant leaves alone -/

/-- The numbers of a queue name its entries. -/
theorem State.numbered.unique {s : State} (h : s.numbered) {x y : QueueEntry} (hx : x ∈ s.queue)
    (hy : y ∈ s.queue) (e : x.serial = y.serial) : x = y := by
  have p := List.pairwise_map.mp h.1
  generalize s.queue = l at p hx hy
  induction l with
  | nil => cases hx
  | cons z rest ih =>
    obtain ⟨hz, hr⟩ := List.pairwise_cons.mp p
    rcases List.mem_cons.mp hx with ex | mx <;> rcases List.mem_cons.mp hy with ey | my
    · rw [ex, ey]
    · exact absurd (ex ▸ e) (Nat.ne_of_lt (hz y my))
    · exact absurd (ey ▸ e.symm) (Nat.ne_of_lt (hz x mx))
    · exact ih hr mx my

/-- The entry of a serial, marked, in the queue of the others. -/
theorem State.mem_updEntry {s : State} {n : Nat} {f : QueueEntry → QueueEntry} {y : QueueEntry}
    (h : y ∈ (s.updEntry n f).queue) : ∃ z ∈ s.queue, y = if z.serial == n then f z else z := by
  obtain ⟨z, hz, e⟩ := List.mem_map.mp h
  exact ⟨z, hz, e.symm⟩

/-- A port that leaves UP with no SURVEY entry IN_FLIGHT. -/
theorem State.Beside.departIfUp (p : Port) (s : State) (c : ResultCode)
    (h : ∀ x ∈ s.queue, x.isSurvey = true → x.port = p → x.state = .waiting) :
    s.Beside p (s.departIfUp p c) := by
  unfold State.departIfUp State.departUp State.surveyLeavesUp
  split
  · have b := ((State.Beside.raise p s p .linkDown).trans
      (.note p _ fun t => { t with current := none, degradeTimer := none })).trans
      (.updPort p _ p fun x => { x with survey := SurveyRecord.atReset })
    refine b.trans ?_
    have q : (((s.raise p .linkDown).updTraining p fun t =>
        { t with current := none, degradeTimer := none }).updSurvey p
          fun _ => SurveyRecord.atReset).surveyEntry p = s.surveyEntry p := by
      unfold State.surveyEntry
      rw [State.raise_woken]
      show List.find? _ (State.woken _).queue = _
      rw [State.woken_queue]; rfl
    unfold State.endSurvey
    rw [show State.surveyEntry _ p = _ from q]
    cases hs : s.surveyEntry p with
    | none => exact .refl p _
    | some x =>
      have hx := List.find?_some hs
      have hw := h x (List.mem_of_find?_eq_some hs) (by simp_all) (by simp_all)
      simp only [hw]
      exact .finishEntry p _ _ _ _
  · exact .refl p s

theorem State.Beside.enterHeld (p : Port) (s : State)
    (h : ∀ x ∈ s.queue, x.isSurvey = true → x.port = p → x.state = .waiting) : s.Beside p (s.enterHeld p) :=
  (((State.Beside.note p s _).trans (.departIfUp p _ _ h)).trans (.setLink p _ _)).trans (.note p _ _)

theorem State.link_enterHeld (s : State) (p : Port) : (s.enterHeld p).link p = .held := by
  unfold State.enterHeld
  rw [State.link_updTraining_same]
  show (State.training _ p).link = _
  unfold State.setLink
  simp only []
  split
  · exact (congrArg (fun y => y.training.link) (State.port_oweSelection _ p)).trans
      (State.link_updTraining_same _ p _)
  · exact State.link_updTraining_same _ p _

/-- What a grant of an engine leaves alone, and what it brings about. -/
structure State.Granted (e : EngineId) (s t : State) : Prop where
  groups : ∀ g, t.group g = s.group g ∨ ((t.group g).slot ≠ none ∧ (t.group g).reserved = false)
  busy : (t.engine e).state ≠ .idle
  engines : ∀ d, d ≠ e → t.engine d = s.engine d
  groupOf : ∀ q, t.groupOf q = s.groupOf q
  links : ∀ q, t.link q = .pendingTrain → s.link q = .pendingTrain
  reentry : t.due.reentry = s.due.reentry
  select : s.due.select = true → t.due.select = true
  reservations : s.due.reservations = true → t.due.reservations = true
  waits : t.due.reservations = true
    ∨ ∀ g, (t.group g).reserved = true → s.testWaitingIn g = true → t.testWaitingIn g = true
  fewer : ∀ g, t.testWaitingIn g = true → s.testWaitingIn g = true

/-- An entry marked in its place, without a change of its kind, port or state, waits as before. -/
theorem State.testWaitingIn_urgent (s : State) (n : Nat) (g : Group) :
    (s.updEntry n fun y => { y with urgent := true }).testWaitingIn g = s.testWaitingIn g := by
  unfold State.testWaitingIn State.updEntry
  rw [List.any_map]
  congr 1
  funext x
  simp only [Function.comp]
  split <;> rfl

theorem State.movePassedOver_other (s : State) (e : EngineId) (o : Option QueueEntry) (n : Nat) :
    let t := s.movePassedOver e o n
    t.groups = s.groups ∧ (t.engine e).state = (s.engine e).state ∧ (∀ d, d ≠ e → t.engine d = s.engine d)
      ∧ t.ports = s.ports ∧ t.due = s.due ∧ ∀ g, t.testWaitingIn g = s.testWaitingIn g := by
  unfold State.movePassedOver
  have k : ∀ f : Engine → Engine, (∀ y, (f y).state = y.state) →
      ((s.updEngine e f).engine e).state = (s.engine e).state
        ∧ ∀ d, d ≠ e → (s.updEngine e f).engine d = s.engine d := fun f hf => by
    refine ⟨?_, fun d hd => ?_⟩
    · rw [State.engine_updEngine]; simp [hf]
    · rw [State.engine_updEngine, if_neg hd]
  split
  · exact ⟨rfl, rfl, fun _ _ => rfl, rfl, rfl, fun _ => rfl⟩
  · split
    · have h := k (fun y => { y with passedOver := 0 }) fun _ => rfl
      exact ⟨rfl, h.1, h.2, rfl, rfl, fun _ => rfl⟩
    · split
      · have h := k (fun y => { y with passedOver := y.passedOver + 1 }) fun _ => rfl
        exact ⟨rfl, h.1, h.2, rfl, rfl, fun _ => rfl⟩
      · have h := k (fun y => { y with passedOver := 0 }) fun _ => rfl
        exact ⟨rfl, h.1, h.2, rfl, rfl, fun g => State.testWaitingIn_urgent (s.updEngine e _) _ g⟩

/-- The passed-over counter that follows a grant. -/
theorem State.Granted.moved {s t : State} {e : EngineId} (h : State.Granted e s t) (o : Option QueueEntry)
    (n : Nat) : State.Granted e s (t.movePassedOver e o n) := by
  obtain ⟨mg, ms, md, mp, mu, mt⟩ := State.movePassedOver_other t e o n
  refine ⟨fun g => ?_, by rw [ms]; exact h.busy, fun d hd => (md d hd).trans (h.engines d hd), fun q => ?_,
    fun q hq => h.links q ?_, by rw [mu]; exact h.reentry, by rw [mu]; exact h.select,
    by rw [mu]; exact h.reservations, ?_, fun g hg => h.fewer g ((mt g).symm.trans hg)⟩
  · have := h.groups g
    simpa only [State.group, mg] using this
  · have := h.groupOf q
    simpa only [State.groupOf, State.profile, State.port, mp] using this
  · simpa only [State.link, State.training, State.port, mp] using hq
  · rcases h.waits with w | w
    · exact .inl (by rw [mu]; exact w)
    · exact .inr fun g hr hw => (mt g).trans (w g (by simpa only [State.group, mg] using hr) hw)

/-- An entry has been marked IN_FLIGHT, and nothing else has changed. -/
structure State.Marked (x : QueueEntry) (s m : State) : Prop where
  groups : m.groups = s.groups
  engines : m.engines = s.engines
  ports : m.ports = s.ports
  due : m.due = s.due
  fewer : ∀ g, m.testWaitingIn g = true → s.testWaitingIn g = true
  waits : ∀ g, g ≠ s.groupOf x.port ∨ x.isSurvey = true → s.testWaitingIn g = true → m.testWaitingIn g = true

theorem State.Marked.groupOf {x : QueueEntry} {s m : State} (h : State.Marked x s m) (q : Port) :
    m.groupOf q = s.groupOf q := by simp only [State.groupOf, State.profile, State.port, h.ports]

theorem State.Marked.link {x : QueueEntry} {s m : State} (h : State.Marked x s m) (q : Port) :
    m.link q = s.link q := by simp only [State.link, State.training, State.port, h.ports]

theorem State.Marked.mark {s : State} (hn : s.numbered) {x : QueueEntry} (hx : x ∈ s.queue) (e : EngineId) :
    State.Marked x s (s.updEntry x.serial fun y => { y with state := .inFlight e, urgent := false }) := by
  refine ⟨rfl, rfl, rfl, rfl, fun g h => ?_, fun g hg h => ?_⟩
  · obtain ⟨y, hy, h⟩ := List.any_eq_true.mp h
    obtain ⟨z, hz, e⟩ := State.mem_updEntry hy
    by_cases hs : (z.serial == x.serial) = true
    · rw [if_pos hs] at e; rw [e] at h; simp [QueueEntry.waiting] at h
    · rw [if_neg hs] at e; exact List.any_eq_true.mpr ⟨z, hz, e ▸ h⟩
  · obtain ⟨y, hy, h⟩ := List.any_eq_true.mp h
    refine List.any_eq_true.mpr ⟨y, ?_, h⟩
    refine List.mem_map.mpr ⟨y, hy, if_neg fun hs => ?_⟩
    have := hn.unique hy hx (by simpa using hs)
    subst this
    simp at h
    rcases hg with hg | hg
    · exact hg h.2.symm
    · simp [hg] at h

/-- The engine takes its measurement, and a command is sent. -/
theorem State.Granted.engaged {s k u : State} {p : Port} (e : EngineId) (st : EngineState) (m : Measurement)
    (c : LaneCommand) (hs : st ≠ .idle) (b : k.Beside p u)
    (groups : ∀ g, k.group g = s.group g ∨ ((k.group g).slot ≠ none ∧ (k.group g).reserved = false))
    (engines : k.engines = s.engines) (groupOf : ∀ q, k.groupOf q = s.groupOf q)
    (links : ∀ q, u.link q = .pendingTrain → s.link q = .pendingTrain) (due : k.due = s.due)
    (waits : ∀ g, (k.group g).reserved = true → s.testWaitingIn g = true → k.testWaitingIn g = true)
    (fewer : ∀ g, k.testWaitingIn g = true → s.testWaitingIn g = true) :
    State.Granted e s ((u.engage e st m).send p c) := by
  have v : (u.engage e st m).Beside p ((u.engage e st m).send p c) := .send p _ p c
  generalize ht : (u.engage e st m).send p c = t at v
  have ug : ∀ g, t.group g = k.group g := fun g => by
    rw [State.group, v.groups]
    show u.groups[g] = _
    rw [b.groups]; rfl
  have due' : (u.engage e st m).due = u.due := rfl
  refine ⟨fun g => by rw [ug]; exact groups g, ?_, fun d hd => ?_,
    fun q => (v.groupOf q).trans ((b.groupOf q).trans (groupOf q)), fun q h => links q ?_,
    v.reentry.trans (b.reentry.trans (by rw [due])), fun h => v.select (b.select (by rw [due]; exact h)),
    fun h => v.reservations (b.reservations (by rw [due]; exact h)), ?_,
    fun g h => fewer g (b.fewer g (v.fewer g h))⟩
  · rw [State.engine, v.engines]
    show ((State.updEngine u e _).engine e).state ≠ _
    rw [State.engine_updEngine]; simpa using hs
  · rw [State.engine, v.engines]
    show (State.updEngine u e _).engine d = _
    rw [State.engine_updEngine, if_neg hd]
    show u.engines[d] = _
    rw [b.engines, engines]; rfl
  · rw [← ht, State.link_send] at h
    exact h
  · rcases v.waits with h | h
    · exact .inl h
    · rcases b.waits with h2 | h2
      · exact .inl (v.reservations h2)
      · exact .inr fun g hr hw => (h g).trans ((h2 g).trans (waits g (ug g ▸ hr) hw))

theorem State.Granted.grantSurvey {s m : State} {x : QueueEntry} (h : State.Marked x s m) (e : EngineId)
    (hs : x.isSurvey = true) : State.Granted e s (m.grantSurvey e x) :=
  .engaged e .surveyRead _ .readTaps (by simp) (.refl x.port m) (fun g => .inl (by rw [State.group, h.groups]; rfl))
    h.engines h.groupOf (fun q hq => h.link q ▸ hq) h.due (fun g _ => h.waits g (.inr hs)) h.fewer

theorem State.Granted.grantTest {s m : State} {x : QueueEntry} (h : State.Marked x s m) (e : EngineId)
    (o : TestOptions) (hv : ∀ y ∈ m.queue, y.isSurvey = true → y.port = x.port → y.state = .waiting) :
    State.Granted e s (m.grantTest e x o) := by
  unfold State.grantTest
  simp only []
  have gk : ∀ g, (m.updGroup (m.groupOf x.port) fun y => { y with slot := some ⟨x.port, e⟩, reserved := false }).group g
      = if g = m.groupOf x.port then
        { m.group (m.groupOf x.port) with slot := some ⟨x.port, e⟩, reserved := false } else m.group g :=
    fun g => State.group_updGroup _ _ _ _
  have b := State.Beside.enterHeld x.port
    (m.updGroup (m.groupOf x.port) fun y => { y with slot := some ⟨x.port, e⟩, reserved := false }) hv
  refine .engaged e .quiesce _ .silence (by simp) b (fun g => ?_) h.engines h.groupOf (fun q hq => ?_) h.due
    (fun g hr hw => ?_) h.fewer
  · rw [gk]
    split
    · exact .inr ⟨by simp, rfl⟩
    · exact .inl (by rw [State.group, h.groups]; rfl)
  · by_cases hp : q = x.port
    · rw [hp] at hq
      exact absurd ((State.link_enterHeld _ x.port).symm.trans hq) (by simp)
    · exact h.link q ▸ (b.links q hp).symm.trans hq
  · refine h.waits g (.inl fun hg => ?_) hw
    rw [gk, if_pos (by rw [hg, h.groupOf])] at hr
    simp at hr

/-- The grant of an eligible entry. -/
theorem State.Granted.grant {s : State} {e : EngineId} {x : QueueEntry} (hn : s.numbered) (hx : x ∈ s.queue)
    (he : s.eligible x = true) : State.Granted e s (s.grant e x) := by
  have hf : s.portInFlight x.port = false := by
    simp only [State.eligible, Bool.and_eq_true, Bool.not_eq_true'] at he
    exact he.1.1.2
  have h := State.Marked.mark hn hx e
  unfold State.grant
  refine State.Granted.moved ?_ _ _
  split
  · rename_i hk
    exact .grantSurvey h e (by simp [QueueEntry.isSurvey, hk])
  · rename_i o hk
    refine .grantTest h e o fun y hy h1 h2 => ?_
    obtain ⟨z, hz, ez⟩ := State.mem_updEntry hy
    by_cases hs : (z.serial == x.serial) = true
    · rw [if_pos hs] at ez
      have := hn.unique hz hx (by simpa using hs)
      rw [ez, this] at h1
      simp [QueueEntry.isSurvey, hk] at h1
    · rw [if_neg hs] at ez
      have := List.any_eq_false.mp hf z hz
      rw [ez] at h2 ⊢
      simpa [QueueEntry.waiting, h2] using this

/-! ### What the clearing of reservations leaves alone -/

/-- Reservations that nothing waits for have been cleared, and the members of a group that this opens are owed
a training entry. -/
structure State.Cleared (s t : State) : Prop where
  engines : t.engines = s.engines
  queue : t.queue = s.queue
  ports : t.ports = s.ports
  groups : ∀ g, t.group g = s.group g ∨ ((t.group g).slot = (s.group g).slot ∧ (s.group g).reserved = true
    ∧ (t.group g).reserved = false ∧ s.testWaitingIn g = false)
  owed : ∀ p, p ∈ t.due.reentry → p ∈ s.due.reentry
    ∨ ((s.group (s.groupOf p)).reserved = true ∧ (t.group (s.groupOf p)).reserved = false)
  kept : ∀ p, p ∈ s.due.reentry → p ∈ t.due.reentry
  released : ∀ p, s.link p = .pendingTrain → ¬ s.openGroup p → t.openGroup p → p ∈ t.due.reentry
  select : s.due.select = true → t.due.select = true
  reservations : t.due.reservations = s.due.reservations

theorem State.Cleared.groupOf {s t : State} (h : s.Cleared t) (q : Port) : t.groupOf q = s.groupOf q := by
  simp only [State.groupOf, State.profile, State.port, h.ports]

theorem State.Cleared.link {s t : State} (h : s.Cleared t) (q : Port) : t.link q = s.link q := by
  simp only [State.link, State.training, State.port, h.ports]

theorem State.Cleared.waits {s t : State} (h : s.Cleared t) (g : Group) :
    t.testWaitingIn g = s.testWaitingIn g := by
  simp only [State.testWaitingIn, h.queue, h.groupOf]

theorem State.Cleared.refl (s : State) : s.Cleared s :=
  ⟨rfl, rfl, rfl, fun _ => .inl rfl, fun _ h => .inl h, fun _ h => h, fun _ _ h1 h2 => absurd h2 h1, id, rfl⟩

theorem State.Cleared.trans {s t u : State} (a : s.Cleared t) (b : t.Cleared u) : s.Cleared u where
  engines := b.engines.trans a.engines
  queue := b.queue.trans a.queue
  ports := b.ports.trans a.ports
  groups g := by
    rcases b.groups g with h | ⟨h1, h2, h3, h4⟩ <;> rcases a.groups g with k | ⟨k1, k2, k3, k4⟩
    · exact .inl (h.trans k)
    · exact .inr ⟨by rw [h]; exact k1, k2, by rw [h]; exact k3, k4⟩
    · exact .inr ⟨by rw [h1, k], by rw [← k]; exact h2, h3, a.waits g ▸ h4⟩
    · exact absurd (k3.symm.trans h2) (by simp)
  owed p h := by
    rcases b.owed p h with h | ⟨h1, h2⟩
    · rcases a.owed p h with k | ⟨k1, k2⟩
      · exact .inl k
      · refine .inr ⟨k1, ?_⟩
        rcases b.groups (s.groupOf p) with e | ⟨_, e, _, _⟩
        · rw [e]; exact k2
        · exact absurd (k2.symm.trans e) (by simp)
    · rw [a.groupOf] at h1 h2
      refine .inr ⟨?_, h2⟩
      rcases a.groups (s.groupOf p) with e | ⟨_, e, _, _⟩
      · rw [← e]; exact h1
      · exact e
  kept p h := b.kept p (a.kept p h)
  released p h h1 h2 := by
    by_cases ht : t.openGroup p
    · exact b.kept p (a.released p h h1 ht)
    · exact b.released p ((a.link p).trans h) ht h2
  select h := b.select (a.select h)
  reservations := b.reservations.trans a.reservations

theorem State.Cleared.dropReservation (s : State) (g : Group) : s.Cleared (s.dropReservation g) := by
  unfold State.dropReservation
  split
  · rename_i hc
    simp only [Bool.and_eq_true, Bool.not_eq_true'] at hc
    have gk : ∀ k, (s.updGroup g fun x => { x with reserved := false }).group k
        = if k = g then { s.group g with reserved := false } else s.group k :=
      fun k => State.group_updGroup _ _ _ _
    have gs : ∀ k, (s.updGroup g fun x => { x with reserved := false }).group k = s.group k
        ∨ (((s.updGroup g fun x => { x with reserved := false }).group k).slot = (s.group k).slot
          ∧ (s.group k).reserved = true
          ∧ ((s.updGroup g fun x => { x with reserved := false }).group k).reserved = false
          ∧ s.testWaitingIn k = false) := fun k => by
      rw [gk]
      split
      · rename_i h; subst h; exact .inr ⟨rfl, hc.1, rfl, hc.2⟩
      · exact .inl rfl
    simp only []
    split
    · rename_i hs
      refine ⟨rfl, rfl, rfl, gs, fun p h => ?_, fun p h => List.mem_append_left _ h, fun p h h1 h2 => ?_,
        fun _ => rfl, rfl⟩
      · rcases List.mem_append.mp h with h | h
        · exact .inl h
        · have := (List.mem_filter.mp (List.mem_filter.mp h).1).2
          have hg : s.groupOf p = g := eq_of_beq this
          refine .inr ⟨by rw [hg]; exact hc.1, ?_⟩
          show ((s.updGroup g fun x => { x with reserved := false }).group _).reserved = false
          rw [gk, if_pos hg]
      · refine List.mem_append_right _ (List.mem_filter.mpr ⟨List.mem_filter.mpr ⟨by simp [allPorts], ?_⟩, ?_⟩)
        · show (s.groupOf p == g) = true
          by_cases hg : s.groupOf p = g
          · simpa using hg
          · refine absurd ?_ h1
            obtain ⟨a, b⟩ := h2
            have e : (s.updGroup g fun x => { x with reserved := false }).group (s.groupOf p)
                = s.group (s.groupOf p) := by rw [gk, if_neg hg]
            exact ⟨e ▸ a, e ▸ b⟩
        · show (s.link p == .pendingTrain) = true
          simpa using h
    · rename_i hs
      refine ⟨rfl, rfl, rfl, gs, fun p h => .inl h, fun p h => h, fun p h h1 h2 => ?_, fun _ => rfl, rfl⟩
      by_cases hg : s.groupOf p = g
      · refine absurd h2.1 fun h => hs ?_
        have e : ((s.updGroup g fun x => { x with reserved := false }).group (s.groupOf p)).slot
            = (s.group g).slot := by rw [gk, if_pos hg]
        exact e ▸ h ▸ rfl
      · refine absurd ?_ h1
        obtain ⟨a, b⟩ := h2
        have e : (s.updGroup g fun x => { x with reserved := false }).group (s.groupOf p)
            = s.group (s.groupOf p) := by rw [gk, if_neg hg]
        exact ⟨e ▸ a, e ▸ b⟩
  · exact .refl s

theorem State.Cleared.fold (l : List Group) (s : State) : s.Cleared (l.foldl State.dropReservation s) := by
  induction l generalizing s with
  | nil => exact .refl s
  | cons g rest ih => exact (State.Cleared.dropReservation s g).trans (ih _)

/-- After the clearing, a reservation that stands has a TEST waiting for it. -/
theorem State.dropReservations_waits (s : State) (g : Group)
    (h : (s.dropReservations.group g).reserved = true) : s.dropReservations.testWaitingIn g = true := by
  have key : ∀ (l : List Group) (s : State), g ∈ l → ((l.foldl State.dropReservation s).group g).reserved = true →
      (l.foldl State.dropReservation s).testWaitingIn g = true := by
    intro l
    induction l with
    | nil => intro s hg; cases hg
    | cons k rest ih =>
      intro s hg hr
      rcases List.mem_cons.mp hg with e | e
      · subst e
        have c := State.Cleared.fold rest (s.dropReservation g)
        rw [List.foldl_cons] at hr ⊢
        rw [c.waits]
        have hr' : ((s.dropReservation g).group g).reserved = true := by
          rcases c.groups g with e | ⟨_, e, _, _⟩
          · rw [← e]; exact hr
          · exact e
        by_cases hw : s.testWaitingIn g = true
        · rw [(State.Cleared.dropReservation s g).waits]; exact hw
        · by_cases hx : (s.group g).reserved = true
          · have : ((s.dropReservation g).group g).reserved = false := by
              unfold State.dropReservation
              rw [if_pos (by simp [hx, hw])]
              simp only []
              split
              · show ((s.updGroup g fun x => { x with reserved := false }).group g).reserved = false
                rw [State.group_updGroup, if_pos rfl]
              · show ((s.updGroup g fun x => { x with reserved := false }).group g).reserved = false
                rw [State.group_updGroup, if_pos rfl]
            exact absurd (this.symm.trans hr') (by simp)
          · unfold State.dropReservation at hr'
            rw [if_neg (by simp [hx])] at hr'
            exact absurd hr' hx
      · exact ih _ e hr
  exact key allGroups s (by simp [allGroups]) h

theorem State.Cleared.dropReservations (s : State) : s.Cleared s.dropReservations := by
  unfold State.dropReservations
  exact .fold allGroups s

theorem State.Cleared.reservationsDue (s : State) :
    State.Cleared { s with due := { s.due with reservations := false } } s.reservationsDue
      ∧ s.reservationsDue.due.reservations = false
      ∧ (s.due.reservations = true → ∀ g, (s.reservationsDue.group g).reserved = true →
        s.reservationsDue.testWaitingIn g = true) := by
  have hu : { s with due := { s.due with reservations := false } }.due.reservations = false := rfl
  unfold State.reservationsDue
  split
  · generalize { s with due := { s.due with reservations := false } } = u at *
    exact ⟨.dropReservations u, (State.Cleared.dropReservations u).reservations.trans hu,
      fun _ g h => State.dropReservations_waits u g h⟩
  · rename_i h
    have e : { s with due := { s.due with reservations := false } } = s := by
      have : s.due.reservations = false := by simpa using h
      rw [← this]
    exact ⟨by rw [e]; exact .refl s, by simpa using h, fun h2 => absurd h2 h⟩

/-! ### The rounds suffice -/

theorem sum_map_le {A : Type} (f g : A → Nat) (l : List A) (h : ∀ x ∈ l, f x ≤ g x) :
    (l.map f).sum ≤ (l.map g).sum := by
  induction l with
  | nil => exact Nat.le_refl _
  | cons x rest ih =>
    have h1 := h x List.mem_cons_self
    have h2 := ih fun y hy => h y (List.mem_cons_of_mem _ hy)
    simp only [List.map_cons, List.sum_cons]
    omega

theorem sum_map_lt {A : Type} (f g : A → Nat) (l : List A) (h : ∀ x ∈ l, f x ≤ g x) (x : A) (hx : x ∈ l)
    (hl : f x < g x) : (l.map f).sum < (l.map g).sum := by
  induction l with
  | nil => cases hx
  | cons y rest ih =>
    have h1 := h y List.mem_cons_self
    have h2 := sum_map_le f g rest fun z hz => h z (List.mem_cons_of_mem _ hz)
    simp only [List.map_cons, List.sum_cons]
    rcases List.mem_cons.mp hx with e | e
    · subst e; omega
    · have := ih (fun z hz => h z (List.mem_cons_of_mem _ hz)) e
      omega

/-- The rounds that a port may still take: one owed, and one that the clearing of its group's reservation may
owe. -/
def State.portRounds (s : State) (p : Port) : Nat :=
  (if p ∈ s.due.reentry then 1 else 0) + if (s.group (s.groupOf p)).reserved then 1 else 0

/-- The rounds that an engine may still take: one while it is IDLE. -/
def State.engineRounds (s : State) (e : EngineId) : Nat := if (s.engine e).state = .idle then 1 else 0

/-- A bound of the rounds that carrying out the consequences takes. -/
def State.rounds (s : State) : Nat := (allPorts.map s.portRounds).sum + (allEngines.map s.engineRounds).sum

theorem State.rounds_le (s : State) : s.rounds ≤ 100 := by
  have hp := sum_map_le s.portRounds (fun _ => 2) allPorts fun p _ => by
    unfold State.portRounds; split <;> split <;> omega
  have he := sum_map_le s.engineRounds (fun _ => 1) allEngines fun e _ => by
    unfold State.engineRounds; split <;> omega
  have h1 : (allPorts.map fun _ => 2).sum = 96 := by decide
  have h2 : (allEngines.map fun _ => 1).sum = 4 := by decide
  unfold State.rounds
  omega

theorem State.Cleared.rounds {s t : State} (h : s.Cleared t) : t.rounds ≤ s.rounds := by
  refine Nat.add_le_add (sum_map_le _ _ _ fun p _ => ?_) (sum_map_le _ _ _ fun e _ => ?_)
  · unfold State.portRounds
    rw [h.groupOf]
    have ho := h.owed p
    rcases h.groups (s.groupOf p) with e | ⟨_, e1, e2, _⟩
    · rw [e] at ho ⊢
      by_cases hp : p ∈ t.due.reentry
      · rcases ho hp with k | ⟨k1, k2⟩
        · exact Nat.le_of_eq (by rw [if_pos hp, if_pos k])
        · exact absurd (k1.symm.trans k2) (by simp)
      · rw [if_neg hp]; omega
    · rw [e1, e2]
      simp only [Bool.false_eq_true, if_false, if_true]
      split <;> split <;> omega
  · unfold State.engineRounds State.engine
    exact Nat.le_of_eq (by rw [h.engines])

theorem State.rounds_due (s : State) (d : Due) (h : d.reentry = s.due.reentry) :
    State.rounds { s with due := d } = s.rounds := by
  have e : State.portRounds { s with due := d } = s.portRounds := by
    funext p
    unfold State.portRounds
    simp only [h]
    rfl
  unfold State.rounds
  rw [e]
  rfl

/-- The consequences owed, told apart. -/
theorem State.mem_consequences {s : State} {c : Consequence} (h : c ∈ s.consequences) :
    (∃ p, c = .reenter p ∧ p ∈ s.due.reentry ∧ s.link p = .pendingTrain)
      ∨ ∃ e x, c = .grant e x ∧ s.selection e = some x := by
  cases c with
  | reenter p =>
    left
    simp only [State.consequences, List.mem_append, List.mem_map] at h
    rcases h with ⟨q, hq, e⟩ | h
    · have := (List.mem_filter.mp hq)
      simp at e; subst e
      exact ⟨q, rfl, this.1, by simpa using this.2⟩
    · split at h
      · simp only [List.mem_filterMap, Option.map_eq_some_iff] at h
        obtain ⟨_, _, _, _, hc⟩ := h
        exact absurd hc (by simp)
      · cases h
  | grant e x => exact .inr ⟨e, x, rfl, State.consequences_grant h⟩

/-- One round takes at least one of the rounds that are left. -/
theorem State.carryOut_rounds {s : State} (hn : s.numbered) {c : Consequence} (h : c ∈ s.consequences) :
    (s.carryOut c).rounds < s.rounds := by
  rcases State.mem_consequences h with ⟨p, rfl, hp, _⟩ | ⟨e, x, rfl, hx⟩
  · have b := State.Beside.trainingEntry p
      { s with due := { s.due with reentry := s.due.reentry.filter fun q => q != p } } false
    show State.rounds (State.trainingEntry _ false p) < _
    generalize State.trainingEntry _ false p = t at b
    have g : ∀ k, t.group k = s.group k := fun k => by rw [State.group, b.groups]; rfl
    have gp : ∀ q, t.groupOf q = s.groupOf q := b.groupOf
    have r : t.due.reentry = s.due.reentry.filter fun q => q != p := b.reentry
    refine Nat.add_lt_add_of_lt_of_le (sum_map_lt _ _ _ (fun q _ => ?_) p (by simp [allPorts]) ?_)
      (sum_map_le _ _ _ fun d _ => ?_)
    · unfold State.portRounds
      rw [g, gp, r]
      have : q ∈ (s.due.reentry.filter fun q => q != p) → q ∈ s.due.reentry := fun h => (List.mem_filter.mp h).1
      split
      · exact Nat.le_of_eq (by rw [if_pos (this ‹_›)])
      · omega
    · unfold State.portRounds
      rw [g, gp, r, if_neg (by simp), if_pos hp]
      omega
    · unfold State.engineRounds
      exact Nat.le_of_eq (by rw [State.engine, b.engines]; rfl)
  · obtain ⟨hm, he, hel⟩ := State.selection_eligible hx
    have b := State.Granted.grant (e := e) hn hm hel
    have idle : (s.engine e).state = .idle := by
      simp only [State.eligible, Bool.and_eq_true, he] at hel
      simpa using hel.1.1.1.2
    show (s.grant e x).rounds < _
    refine Nat.add_lt_add_of_le_of_lt (sum_map_le _ _ _ fun q _ => ?_)
      (sum_map_lt _ _ _ (fun d _ => ?_) e (by simp [allEngines]) ?_)
    · unfold State.portRounds
      rw [b.groupOf, b.reentry]
      rcases b.groups (s.groupOf q) with e | ⟨_, e⟩
      · exact Nat.le_of_eq (by rw [e])
      · rw [e]; simp only [Bool.false_eq_true, if_false]; omega
    · unfold State.engineRounds
      by_cases hd : d = e
      · rw [hd, if_neg b.busy]; exact Nat.zero_le _
      · exact Nat.le_of_eq (by rw [b.engines d hd])
    · unfold State.engineRounds
      rw [if_neg b.busy, if_pos idle]; exact Nat.one_pos

/-- What every round keeps, the whole keeps; and at its end nothing is left to carry out. -/
theorem State.settle_rule {P : State → Prop} (hn : ∀ s, P s → s.numbered)
    (hr : ∀ s, P s → P s.reservationsDue) (ha : ∀ s k, P s → P { s with arbiter := k })
    (hc : ∀ s c, P s → s.due.reservations = false → c ∈ s.consequences → P (s.carryOut c)) :
    ∀ n s, s.rounds < n → P s → ∃ v, State.settle n s = v.discharge ∧ P v ∧ v.consequences = []
      ∧ v.due.reservations = false := by
  intro n
  induction n with
  | zero => intro s h; exact absurd h (Nat.not_lt_zero _)
  | succ n ih =>
    intro s h hp
    obtain ⟨cl, hd, _⟩ := State.Cleared.reservationsDue s
    have hl : s.reservationsDue.rounds ≤ s.rounds :=
      Nat.le_trans cl.rounds (Nat.le_of_eq (State.rounds_due s _ rfl))
    have hv := hr s hp
    unfold State.settle
    simp only []
    split
    · rename_i he
      exact ⟨_, rfl, hv, he, hd⟩
    · rename_i c he
      have hm : c ∈ s.reservationsDue.consequences := by rw [he]; simp
      have := State.carryOut_rounds (hn _ hv) hm
      exact ih _ (by omega) (hc _ _ hv hd hm)
    · rename_i c rest _ he
      have e : State.consequences { s.reservationsDue with arbiter := s.reservationsDue.arbiter + 1 }
          = c :: rest := he
      have hm : (c :: rest).getD (Config.arbitration s.reservationsDue.arbiter % (rest.length + 1)) c
          ∈ State.consequences { s.reservationsDue with arbiter := s.reservationsDue.arbiter + 1 } := by
        rw [e]; exact getD_mem _ _ _ List.mem_cons_self
      have h2 := ha _ (s.reservationsDue.arbiter + 1) hv
      have h3 : State.rounds { s.reservationsDue with arbiter := s.reservationsDue.arbiter + 1 }
          = s.reservationsDue.rounds := rfl
      exact ih _ (Nat.lt_of_lt_of_le (State.carryOut_rounds (hn _ h2) hm)
        (Nat.le_trans (Nat.le_of_eq h3) (Nat.le_trans hl (Nat.le_of_lt_succ h)))) (hc _ _ h2 hd hm)

/-! ### What the whole comes to -/

/-- The moves of an event keep the queue numbered. -/
theorem Moves.keeps_numbered {s t : State} (m : Moves s t) (h : s.numbered) : t.numbered := by
  induction m with
  | refl => exact h
  | tail _ m ih => exact m.keeps_numbered ih

theorem State.link_setLink (s : State) (p : Port) (l : LinkState) : (s.setLink p l).link p = l := by
  unfold State.setLink
  simp only []
  split
  · exact (congrArg (fun y => y.training.link) (State.port_oweSelection _ p)).trans
      (State.link_updTraining_same _ p _)
  · exact State.link_updTraining_same _ p _

theorem State.link_enterTrain (s : State) (p : Port) : (s.enterTrain p).link p = .train := by
  unfold State.enterTrain
  simp only []
  have : ((s.setLink p .train).updTraining p fun t =>
      { t with margin := none, attemptTimer := some 2500 }).link p = .train := by
    rw [State.link_updTraining_same]; exact State.link_setLink s p _
  split
  · exact this
  · unfold State.send
    split
    · show (State.port _ p).training.link = _
      show (State.port (State.setMode _ p _) p).training.link = _
      unfold State.setMode
      rw [State.port_updPort, if_pos rfl]
      exact this
    · exact this

/-- How a state `s` on the way from `u` stands to it: what is owed is owed still or has been done (R40, R78,
R85). -/
structure State.Settling (u s : State) : Prop where
  numbered : s.numbered
  select : u.due.select = true → s.due.select = true
  waiting : ∀ p, s.link p = .pendingTrain → s.openGroup p →
    p ∈ s.due.reentry ∨ (u.link p = .pendingTrain ∧ u.openGroup p ∧ p ∉ u.due.reentry)
  reserved : ∀ g, (s.group g).reserved = true → (u.group g).reserved = true
    ∧ (u.due.reservations = true → s.testWaitingIn g = true ∨ s.due.reservations = true)
  cleared : ∀ g, (u.group g).reserved = true → (s.group g).reserved = false →
    (s.group g).slot ≠ none ∨ s.testWaitingIn g = false

/-- All that is owed is carried out, and nothing is left to do (R40, R78, R83, R85; log 17). -/
theorem State.settle_settling (u : State) (hn : u.numbered) :
    ∃ v, State.settle settleFuel u = v.discharge ∧ State.Settling u v ∧ v.consequences = []
      ∧ v.due.reservations = false := by
  refine State.settle_rule (P := State.Settling u) (fun s h => h.numbered) ?_ ?_ ?_ settleFuel u
    (Nat.lt_of_le_of_lt u.rounds_le (by decide)) ?_
  · intro s h
    obtain ⟨cl, hd, hw⟩ := State.Cleared.reservationsDue s
    refine ⟨(Moves.reservationsDue s).keeps_numbered h.numbered, fun x => cl.select (h.select x),
      fun p h1 h2 => ?_, fun g hg => ?_, fun g h1 h2 => ?_⟩
    · by_cases ho : s.openGroup p
      · rcases h.waiting p ((cl.link p).symm.trans h1) ho with a | a
        · exact .inl (cl.kept p a)
        · exact .inr a
      · exact .inl (cl.released p ((cl.link p).symm.trans h1) ho h2)
    · rcases cl.groups g with e | ⟨_, _, e, _⟩
      · have e : s.reservationsDue.group g = s.group g := e
        have := h.reserved g (by rw [← e]; exact hg)
        refine ⟨this.1, fun hu => .inl ?_⟩
        rcases this.2 hu with a | a
        · exact (cl.waits g).trans a
        · exact hw a g hg
      · rw [e] at hg; cases hg
    · rcases cl.groups g with e | ⟨e1, _, e, hx⟩
      · have e : s.reservationsDue.group g = s.group g := e
        rcases h.cleared g h1 (by rw [← e]; exact h2) with a | a
        · left; rw [e]; exact a
        · right; exact (cl.waits g).trans a
      · right; exact (cl.waits g).trans hx
  · intro s k h
    exact ⟨h.numbered, h.select, h.waiting, h.reserved, h.cleared⟩
  · intro s c h hd hc
    have hnum := (Moves.carryOut s c hc).keeps_numbered h.numbered
    rcases State.mem_consequences hc with ⟨p, rfl, hp, hl⟩ | ⟨e, x, rfl, hs⟩
    · have b := State.Beside.trainingEntry p
        { s with due := { s.due with reentry := s.due.reentry.filter fun q => q != p } } false
      refine ⟨hnum, fun hx => b.select (h.select hx), fun q h1 h2 => ?_, fun g hg => ?_, fun g h1 h2 => ?_⟩
      · have ho : s.openGroup q := by
          have eg : ∀ g, (s.carryOut (.reenter p)).group g = s.group g := fun g => by
            unfold State.group; exact congrArg (fun x => x[g]) b.groups
          have e2 : (s.carryOut (.reenter p)).groupOf q = s.groupOf q := b.groupOf q
          unfold State.openGroup at *
          rw [e2, eg] at h2
          exact h2
        by_cases hq : q = p
        · subst hq
          exfalso
          have : (s.carryOut (.reenter q)).link q = .train := by
            show (State.trainingEntry _ _ _).link q = _
            unfold State.trainingEntry
            simp only []
            rw [if_pos]
            · exact State.link_enterTrain _ _
            · obtain ⟨a, b⟩ := ho
              change (_ && !(s.group (s.groupOf q)).reserved) = true
              rw [b]
              change (Option.isNone (s.group (s.groupOf q)).slot && true) = true
              rw [a]; rfl
          rw [this] at h1; cases h1
        · have e3 := b.links q hq
          have : s.link q = .pendingTrain := e3.symm.trans h1
          rcases h.waiting q this ho with a | a
          · left
            have e4 := b.reentry
            show q ∈ (State.trainingEntry _ _ _).due.reentry
            rw [e4]
            exact List.mem_filter.mpr ⟨a, by simpa using hq⟩
          · exact .inr a
      · have eg : (s.carryOut (.reenter p)).group g = s.group g := by
          unfold State.group; exact congrArg (fun x => x[g]) b.groups
        have := h.reserved g (eg ▸ hg)
        refine ⟨this.1, fun hu => ?_⟩
        rcases this.2 hu with a | a
        · rcases b.waits with w | w
          · exact .inr w
          · exact .inl ((w g).trans a)
        · rw [hd] at a; cases a
      · have eg : (s.carryOut (.reenter p)).group g = s.group g := by
          unfold State.group; exact congrArg (fun x => x[g]) b.groups
        rcases h.cleared g h1 (eg ▸ h2) with a | a
        · left; rw [eg]; exact a
        · right
          cases hb : (s.carryOut (.reenter p)).testWaitingIn g
          · rfl
          · have := b.fewer g hb
            exact absurd (this.symm.trans a) (by simp)
    · have hm := State.consequences_grant hc
      have hq : x ∈ s.queue ∧ s.eligible x = true :=
        ⟨(State.selection_eligible hs).1, (State.selection_eligible hs).2.2⟩
      have b := State.Granted.grant (e := e) h.numbered hq.1 hq.2
      refine ⟨hnum, fun hx => b.select (h.select hx), fun q h1 h2 => ?_, fun g hg => ?_, fun g h1 h2 => ?_⟩
      · have e2 := b.groupOf q
        have ho : s.openGroup q := by
          obtain ⟨o1, o2⟩ := h2
          have o1 : ((s.grant e x).group ((s.grant e x).groupOf q)).slot = none := o1
          have o2 : ((s.grant e x).group ((s.grant e x).groupOf q)).reserved = false := o2
          rw [e2] at o1 o2
          rcases b.groups (s.groupOf q) with a | a
          · exact ⟨a ▸ o1, a ▸ o2⟩
          · exact absurd o1 a.1
        rcases h.waiting q (b.links q h1) ho with a | a
        · left; show q ∈ (s.grant e x).due.reentry; rw [b.reentry]; exact a
        · exact .inr a
      · rcases b.groups g with a | a
        · have := h.reserved g (a ▸ hg)
          refine ⟨this.1, fun hu => ?_⟩
          rcases this.2 hu with w | w
          · rcases b.waits with w2 | w2
            · exact .inr w2
            · exact .inl (w2 g hg w)
          · exact .inr (b.reservations w)
        · have : ((s.grant e x).group g).reserved = true := hg
          rw [a.2] at this; cases this
      · rcases b.groups g with a | a
        · rcases h.cleared g h1 (a ▸ h2) with w | w
          · left; show ((s.grant e x).group g).slot ≠ none; rw [a]; exact w
          · right
            cases hb : (s.grant e x).testWaitingIn g
            · exact hb
            · exact absurd ((b.fewer g hb).symm.trans w) (by simp)
        · exact .inl a.1
  · refine ⟨hn, id, fun p h1 h2 => ?_, fun g hg => ⟨hg, fun h => .inr h⟩,
      fun g h1 h2 => absurd (h1.symm.trans h2) (by simp)⟩
    by_cases hp : p ∈ u.due.reentry
    · exact .inl hp
    · exact .inr ⟨h1, h2, hp⟩

end Sys2Proof.Machine
end

