-- ==== Sys2Proof/WellFormed.lean ====
section
/-! DEFINITION. Which events the world can send: the ranges that the spec gives what crosses the line
lanes (R13, R14) and the size of the configuration memory (R177). A port, quad, engine or group is in
range by its type. The machine takes any event; statements that need a range name this predicate. -/

namespace Sys2Proof

/-- A sample or tap magnitude lies between -1024 and +1023 (R13). -/
def Amplitude.inRange (x : Int) : Bool := -1024 ≤ x && x ≤ 1023

/-- A margin lies between -100 and +300 tenths of a decibel (R14). -/
def Margin.inRange (m : Int) : Bool := -100 ≤ m && m ≤ 300

/-- A tap position lies between 0 and 4095 and its magnitude in range (R13). -/
def Tap.inRange (t : Tap) : Bool := t.position ≤ 4095 && Amplitude.inRange t.magnitude

/-- The operands of an event that the spec bounds are within their bounds. -/
def Instr.wellFormed : Instr → Bool
  | .imageFirstPassCompletion bytes => bytes.length ≤ 65536
  | .imageSectionRead bytes => bytes.length ≤ 65536
  | .quadLoss quad released => released.all fun p => p.val / 4 == quad.val
  | .trainDone _ margin => Margin.inRange margin
  | .marginReport _ margin => Margin.inRange margin
  | .captureSet _ _ _ samples => samples.length == 4096 && samples.all Amplitude.inRange
  | .taps _ a b c d => a.inRange && b.inRange && c.inRange && d.inRange
  | .powerOnReset _ | .pinReset _ | .pinRelease | .quadRecovery _ | .energyOn _ | .energyOff _
  | .partnerAbility _ _ | .trainFail _ | .symbolErrors _ _ | .silent _
  | .switchToLineFrameArrival _ _ | .lineToSwitchFrameArrival _ _ | .forwardedFrameSent _
  | .transmissionCompletion _ _ | .readPort | .readReport | .readTable | .readStatus | .testCable
  | .surveyNow | .cancel | .retrain | .setAdmin | .writeProfile | .writePlanEntry | .writeSignatures
  | .clearBlock | .setGeometry | .lowerLock | .writeRequester | .setStation | .resetPart
  | .unknownRequest | .exchangeTimerExpiry _ | .attemptTimerExpiry _ | .verifyTimerExpiry _
  | .degradeWindowExpiry _ | .backoffTimerExpiry _ | .phaseTimerExpiry _ | .holdTimerExpiry _
  | .surveyTimerExpiry _ | .graceTimerExpiry _ | .holdoffTimerExpiry | .analyzeCompletion _
  | .restoreCompletion _ => true

end Sys2Proof
end

