-- ==== Sys2Proof/Tests/Slice0.lean ====
section
/-! SUPPORT. Tests on fixed values: the well-formedness checks, the worked cases of the spec, single events
on small states, and for each statement states that meet its hypotheses. -/

namespace Sys2Proof.Tests

set_option Elab.async false

open Sys2Proof.Machine

/-! ### Well-formedness: a term that each check refuses, and one at the edge that it takes -/

theorem test_wellFormed_refuses_image_beyond_memory :
    (Instr.imageFirstPassCompletion (List.replicate 65537 0)).wellFormed = false
    ∧ (Instr.imageFirstPassCompletion (List.replicate 65536 0)).wellFormed = true := by
  constructor <;> simp only [Instr.wellFormed, List.length_replicate] <;> decide

theorem test_wellFormed_refuses_section_beyond_memory :
    (Instr.imageSectionRead (List.replicate 65537 0)).wellFormed = false
    ∧ (Instr.imageSectionRead (List.replicate 65536 0)).wellFormed = true := by
  constructor <;> simp only [Instr.wellFormed, List.length_replicate] <;> decide

theorem test_wellFormed_refuses_release_of_another_quad :
    (Instr.quadLoss 0 [3, 4]).wellFormed = false ∧ (Instr.quadLoss 0 [3]).wellFormed = true := by decide +kernel

theorem test_wellFormed_refuses_margins_out_of_range :
    (Instr.trainDone 0 301).wellFormed = false ∧ (Instr.trainDone 0 300).wellFormed = true
    ∧ (Instr.marginReport 0 (-101)).wellFormed = false
    ∧ (Instr.marginReport 0 (-100)).wellFormed = true := by decide +kernel

theorem test_wellFormed_refuses_capture_sets :
    (Instr.captureSet 0 .a .b (List.replicate 4095 0)).wellFormed = false
    ∧ (Instr.captureSet 0 .a .b (List.replicate 4096 1024)).wellFormed = false
    ∧ (Instr.captureSet 0 .a .b (List.replicate 4096 1023)).wellFormed = true := by
  decide +kernel

theorem test_wellFormed_refuses_taps_out_of_range :
    (Instr.taps 0 ⟨4096, 0⟩ ⟨0, 0⟩ ⟨0, 0⟩ ⟨0, 0⟩).wellFormed = false
    ∧ (Instr.taps 0 ⟨4095, 0⟩ ⟨0, -1025⟩ ⟨0, 0⟩ ⟨0, 0⟩).wellFormed = false
    ∧ (Instr.taps 0 ⟨0, 0⟩ ⟨0, 0⟩ ⟨0, 1024⟩ ⟨0, 0⟩).wellFormed = false
    ∧ (Instr.taps 0 ⟨0, 0⟩ ⟨0, 0⟩ ⟨0, 0⟩ ⟨4096, 0⟩).wellFormed = false
    ∧ (Instr.taps 0 ⟨4095, -1024⟩ ⟨0, 1023⟩ ⟨0, 0⟩ ⟨0, 0⟩).wellFormed = true := by decide +kernel

/-! ### Worked cases of the spec -/

/-- The check value of the reading of R180 that the model takes (log 18). -/
theorem test_check_value_of_nine_digits :
    checkValue [0x31, 0x32, 0x33, 0x34, 0x35, 0x36, 0x37, 0x38, 0x39] = 0xCBF43926#32 := by decide +kernel

/-- The profile fields and geometry of port 17 in section 7.8. -/
def port17 : ArithmeticInputs := ⟨690, 24, 8, 48, 5, ⟨32, 8, 1600⟩⟩

theorem test_section_7_8_self_reflection :
    reflectionRecord port17 .b .b (1000, 412) = ⟨.b, .b, 1000, 1262, 665, false, false, some 205⟩
    ∧ signatureIndex ⟨16, 16, 1600⟩ false 1262 665 = 202 ∧ signatureIndex ⟨64, 4, 1600⟩ false 1262 665 = 202
    ∧ signatureIndex ⟨32, 8, 1600⟩ true 1262 (-665) = 973 := by decide +kernel

theorem test_section_7_9_limits :
    reflectionRecord port17 .b .b (1000, -300) = ⟨.b, .b, 1000, 1262, -484, false, false, some 459⟩
    ∧ reflectionRecord { port17 with slope := 20 } .b .b (1184, 900)
      = ⟨.b, .b, 1184, 1500, 1023, true, false, some 247⟩
    ∧ reflectionRecord port17 .b .b (1400, -150) = ⟨.b, .b, 1400, 1600, -267, false, true, none⟩
    ∧ signatureIndex ⟨32, 8, 1600⟩ false 1600 100 = 248 := by decide +kernel

theorem test_section_7_9_near_end_blank :
    peaks 32 (List.replicate 30 0 ++ [900, 900, 900, 800, 10]) = []
    ∧ peaks 32 (List.replicate 31 0 ++ [900, 900, 901, 10]) = [(33, 901)]
    ∧ peaks 24 (List.replicate 25 0 ++ [40]) = [(25, 40)] := by decide +kernel

theorem test_section_7_9_keeps_three_of_five :
    (keepStrongest 48 ([(180, 60), (300, 30), (600, -44), (1000, 412), (1184, 50)].map
      (reflectionRecord port17 .b .b))).map (fun r => (r.distance, r.comp, r.index))
      = [(202, 65, some 32), (1262, 665, some 205), (1500, 86, some 240)] := by decide +kernel

theorem test_section_7_10_survey :
    surveySummary { port17 with slope := 4 } ⟨820, 210⟩ ⟨812, 198⟩ ⟨15, -40⟩ ⟨818, -1000⟩
      = ⟨0, 1029, #v[1029, 1019, 0, 1027], #v[293, 276, -40, -1023]⟩ := by decide +kernel

/-- The signature entries of section 8.8. -/
def entries88 : Vector (Option Signature) 1024 :=
  ((Vector.replicate 1024 none).set 205 (some ⟨.openEnd, 12⟩)).set 800 (some ⟨.crossCoupled, 6⟩)

theorem test_section_8_8_classes :
    classify entries88 ⟨.b, .b, 1000, 1262, 665, false, false, some 205⟩ = ⟨1262, 665, .openEnd, 12, false⟩
    ∧ classify entries88 ⟨.b, .a, 181, 203, -70, false, false, some 800⟩
      = ⟨203, -70, .crossCoupled, 6, false⟩
    ∧ classify entries88 ⟨.c, .b, 1000, 1262, 118, false, false, some 712⟩
      = ⟨1262, 118, .unclassified, 0, false⟩ := by decide +kernel

/-- The worked encoding of section 13.3: report 311 of port 17, 40 bytes. -/
theorem test_section_13_3_report_311 :
    (CableReport.mk 17 311 [.b, .c] 8 true false
      #v[⟨.notTested, []⟩, ⟨.classed .openEnd, [⟨1262, 665, .openEnd, 12, false⟩]⟩, ⟨.classed .normal, []⟩,
        ⟨.notTested, []⟩]
      [⟨.b, .a, ⟨1262, 120, .unclassified, 0, false⟩⟩, ⟨.c, .b, ⟨1262, 118, .unclassified, 0, false⟩⟩]
      .openEnd (some 1262)).encode
      = [0, 0, 1, 55, 17, 6, 1, 8, 6, 4, 238, 2, 15, 0, 6, 1, 4, 238, 2, 153, 6, 12, 0, 0, 15, 0,
        0x10, 4, 238, 0, 120, 5, 0, 0x21, 4, 238, 0, 118, 5, 0] := by decide +kernel

/-! ### Small states -/

/-- The load complete, every quad AVAILABLE, frames accepted. -/
def bench : State :=
  { State.reset with
    startUp := { State.reset.startUp with progress := .complete }
    quads := Vector.replicate 12 true
    supervision := { State.reset.supervision with accepting := true } }

/-- Port 0 of the bench in a link state, training at 1000 Mb/s under the built-in entry 0, with the timer of
that state running. -/
def inLink (l : LinkState) : State := bench.updTraining 0 fun t =>
  { t with
    link := l
    energy := true
    snapshot := some ⟨0, PlanEntry.default⟩
    ability := [.r1000]
    target := some .r1000
    current := if l = .up then some .r1000 else none
    exchangeTimer := if l = .exchange then some 1500 else none
    attemptTimer := if l = .train then some 2500 else none
    verifyTimer := if l = .verify then some 500 else none
    degradeTimer := if l = .up then some 1000 else none
    backoffTimer := if l = .backoff then some 4000 else none }

/-- A queue entry: a single test of pair B of a port, waiting. -/
def testEntry (p : Port) (serial : Nat) : QueueEntry :=
  ⟨.test ⟨[.b], 8, false, false, none⟩, 1, some ⟨5, ⟨0, 0⟩⟩, p, false, 2, false, serial, .waiting, false⟩

/-- A queue entry: a survey of port 0. -/
def surveyOf0 (state : EntryState) : QueueEntry := ⟨.survey, 0, none, 0, false, 0, false, 9, state, false⟩

/-- The measurement context of the test of pair B of port 0. -/
def context0 : Measurement := ⟨5, 0, some ⟨0, [.b], 8, false, false, [], [], none, [], none⟩⟩

/-- Port 0 in HELD, engine 0 running its test in a state, the test's entry in flight. -/
def testing (st : EngineState) : State :=
  { ((inLink .held).updEngine 0 fun y => { y with state := st, phaseTimer := some 10, context := some context0 })
    with queue := [{ testEntry 0 5 with state := .inFlight 0 }] }

/-- The words of the statements, from what can be computed. -/
theorem ready_of {s : State} (h : s.pinHeld = false ∧ s.due = Due.none) : s.ready := h

theorem hears_of {s : State} {p : Port} (h : s.due = Due.none ∧ s.reportReaches p = true) : s.hears p := h

theorem testing_of {s : State} {p : Port} {e : EngineId} {st : EngineState} {m : Measurement} {t : TestContext}
    (h : s.engineOn p = some e ∧ (s.engine e).state = st ∧ (s.engine e).context = some m ∧ m.test = some t) :
    s.testing p e st m t := h

theorem bench_ready : bench.ready := ready_of (by decide +kernel)

/-! ### Hypotheses of the step, the invariants and the shared operations -/

theorem test_witness_StepTakesFrontEvent :
    ({ bench with pending := [.pinRelease] } : State).pending = .pinRelease :: [] ∧ bench.pending = []
    ∧ step { bench with pending := [.pinRelease] } = .next bench := by
  refine ⟨rfl, rfl, rfl⟩

theorem test_witness_EveryEventCompletes : State.reset.due = Due.none := rfl

/-- A state with an event to take at which every invariant's premises hold and the step answers next: the
empty image's first pass, from the state after reset. -/
theorem test_witness_InvariantsKept :
    let s : State := { State.reset with pending := [.imageFirstPassCompletion []] }
    s.queueWithinCapacity ∧ s.timersFit ∧ s.captureExclusive ∧ s.classesInUse ∧ s.lockFits
      ∧ s.loading = true ∧ (∀ p, (s.port p).atRest) ∧ (∃ t, step s = .next t) := by
  refine ⟨?_, ?_, ?_, ?_, ?_, rfl, ?_, ⟨_, rfl⟩⟩
  · unfold State.queueWithinCapacity; decide
  · unfold State.timersFit Training.timersFit; decide +kernel
  · intro p hp; exact absurd hp (by revert p; decide +kernel)
  · unfold State.classesInUse; decide +kernel
  · unfold State.lockFits; decide +kernel
  · unfold PortState.atRest; decide +kernel

/-- Group 0 reserved and free, port 0 waiting for it, and all that an event can owe owed. -/
def owing (q : List QueueEntry) : State :=
  { (inLink .pendingTrain).updGroup 0 fun g => { g with reserved := true } with
    queue := q
    admissions := 32
    due := ⟨true, true, []⟩ }

/-- With a test waiting for the group it is granted; with none the reservation goes, and port 0 trains. -/
theorem test_witness_ClosingSettles :
    (owing []).numbered ∧ (owing [testEntry 1 1]).numbered
    ∧ ((owing []).group 0).reserved = true ∧ (owing []).due.select = true ∧ (owing []).due.reservations = true
    ∧ (let t := State.closeEvent bench (owing [])
      (t.group 0).reserved = false ∧ t.link 0 = .train ∧ t.due = Due.none)
    ∧ (let t := State.closeEvent bench (owing [testEntry 1 1])
      (t.group 0).slot = some ⟨1, 0⟩ ∧ t.link 1 = .held ∧ t.link 0 = .pendingTrain)
    ∧ ((inLink .pendingTrain).group 0).reserved = false := by
  refine ⟨?_, ?_, by decide +kernel⟩ <;> unfold State.numbered <;> decide +kernel

/-- The queue at its capacity: 32 entries, in the order of their admission. -/
theorem test_witness_QueueCapacityKept :
    let s : State :=
      { bench with
        queue := (List.range 32).map (testEntry 0)
        admissions := 32
        pending := [.surveyTimerExpiry 0] }
    s.queueWithinCapacity ∧ s.numbered ∧ s.queue.length = 32 ∧ ∃ t, step s = .next t := by
  refine ⟨?_, ?_, by decide +kernel, ⟨_, rfl⟩⟩
  · unfold State.queueWithinCapacity; decide +kernel
  · unfold State.numbered; decide +kernel

/-- A lock index in the middle, after the load. -/
theorem test_witness_LockKeptBetweenResets :
    let s : State := { bench with signatures := { bench.signatures with lock := 512 }, pending := [.lowerLock] }
    s.lockFits ∧ s.loading = false ∧ ∃ t, step s = .next t := by
  refine ⟨?_, by decide +kernel, ⟨_, rfl⟩⟩
  unfold State.lockFits; decide +kernel

/-- Every count of port 0, of engine 0 and of the supervision unit at its ceiling. -/
def atCeilings : State :=
  ((bench.updPort 0 fun x =>
    { x with
      training :=
        { x.training with
          attempts := 8
          degradeCount := 65535
          history := List.replicate 8 ⟨none, .timeout, none, 0, 0⟩ }
      traffic := ⟨[], none, 0xFFFFFFFF, 0xFFFFFFFF, 0xFFFFFFFF, 0xFFFFFFFF, 0xFFFFFFFF⟩
      events :=
        ⟨some 15, some 15, some ⟨15, true⟩, some 15, some ⟨15, true, true⟩, some ⟨15, 1⟩, some ⟨15, 1⟩,
          some 15⟩ }).updEngine 0 fun y => { y with passedOver := 64 }).updSupervision fun v =>
    { v with unknownSource := 65535, malformed := 65535, noReplySlot := 65535 }

theorem test_witness_CountsBoundedKept :
    atCeilings.countsBounded
    ∧ ∃ t, step { atCeilings with pending := [.pinRelease] } = .next t := by
  have snapshots : ∀ p, (atCeilings.training p).snapshot = none := by decide +kernel
  have events : ∀ p, (atCeilings.port p).events = PortEvents.empty
      ∨ (atCeilings.port p).events = (atCeilings.port 0).events := by decide +kernel
  have fits : ∀ k, some 15 = some k → 1 ≤ k ∧ k ≤ 15 := fun k h => by cases h; decide
  refine ⟨⟨fun p => ⟨⟨?_, ?_, ?_, fun x h => ?_⟩, ?_, ?_⟩, ⟨nofun, nofun⟩, ?_, fun i => ?_, ?_⟩, ⟨_, rfl⟩⟩
  · revert p; decide +kernel
  · revert p; decide +kernel
  · revert p; decide +kernel
  · rw [snapshots] at h; cases h
  · revert p; unfold Traffic.bounded; decide +kernel
  · rcases events p with h | h
    · rw [h]; exact ⟨nofun, nofun, nofun, nofun, nofun, nofun, nofun, nofun⟩
    · rw [h]; exact ⟨fits, fits, fits, fits, fits, fits, fits, fits⟩
  · unfold Supervision.bounded; decide +kernel
  · revert i; unfold PlanEntry.limitsFit; decide +kernel
  · decide +kernel

theorem test_witness_CommandsSent : bench.quadUp 0 = true ∧ State.reset.quadUp 0 = false := by decide +kernel

theorem test_witness_EventsRaised :
    (PortEvents.empty.record (.trainExhausted true)).trainExhausted = some ⟨1, true⟩
    ∧ ({ PortEvents.empty with trainExhausted := some ⟨15, false⟩ }.record (.trainExhausted true)).trainExhausted
      = some ⟨15, true⟩
    ∧ ({ PortEvents.empty with degraded := some ⟨14, true, false⟩ }.record .degradedProfile).degraded
      = some ⟨15, true, true⟩
    ∧ ({ PortEvents.empty with cableFault := some ⟨1, 3⟩ }.record (.cableFault 9)).cableFault
      = some ⟨2, 9⟩ := by decide

theorem test_witness_AttemptsJudged_records :
    let r : HistoryRecord := ⟨none, .timeout, none, 0, 0⟩
    (List.replicate 7 r).length < 8 ∧ ((inLink .train).training 0).snapshot = some ⟨0, PlanEntry.default⟩
    ∧ ((inLink .train).training 0).target = some .r1000
    ∧ PlanEntry.default.rates = [⟨.r5000, 2, 30⟩, ⟨.r2500, 2, 30⟩] ++ ⟨.r1000, 3, 20⟩
      :: [⟨.r100, 3, 10⟩, ⟨.r10, 3, 0⟩]
    ∧ ((inLink .train).training 0).figures = (3, 20)
    ∧ ¬ Rate.r10 ∈ ([⟨.r5000, 2, 30⟩] : List PlanRate).map PlanRate.rate := by decide +kernel

/-- The demoted set of port 0 of the bench, and its forced rate. -/
def demotedForced (demoted : RateSet) (forced : Option Rate) : State := bench.updPort 0 fun x =>
  { x with
    profile := { x.profile with forced := forced }
    training := { x.training with demoted := demoted } }

theorem test_witness_ExchangeAndExhaustion_entry :
    bench.triable 0 [] = Rate.all ∧ (bench.profile 0).forced = none ∧ bench.triable 0 Rate.all = []
    ∧ ((demotedForced [.r100] (some .r100)).profile 0).forced = some .r100
    ∧ Rate.r100 ∈ ((demotedForced [.r100] (some .r100)).training 0).demoted
    ∧ ¬ Rate.r100 ∈ ((demotedForced [.r1000] (some .r100)).training 0).demoted := by decide +kernel

theorem test_witness_TrainingAndListenEntry_training :
    (inLink .exchange).openGroup 0 ∧ ¬ ((inLink .exchange).updGroup 0 fun g => { g with reserved := true }).openGroup 0
    ∧ ¬ ((inLink .exchange).updGroup 0 fun g => { g with slot := some ⟨1, 0⟩ }).openGroup 0
    ∧ ((inLink .exchange).training 0).target = some .r1000 := by
  unfold State.openGroup; decide +kernel

theorem test_witness_ExchangeAndExhaustion_exhausted :
    (bench.profile 0).autoDiagnosis = true ∧ bench.testWaiting 0 = false ∧ bench.queue.length < 32
    ∧ ({ bench with queue := [testEntry 0 1] } : State).testWaiting 0 = true
    ∧ ({ bench with queue := List.replicate 32 (testEntry 1 1) } : State).testWaiting 0 = false
    ∧ 32 ≤ ({ bench with queue := List.replicate 32 (testEntry 1 1) } : State).queue.length
    ∧ ((bench.updPort 0 fun x => { x with profile := { x.profile with autoDiagnosis := false } }).profile
      0).autoDiagnosis = false := by decide +kernel

theorem test_witness_TrainingAndListenEntry_listen :
    (bench.training 0).energy = false ∧ ((inLink .up).training 0).energy = true := by decide +kernel

theorem test_witness_DepartureFromUp :
    (inLink .up).surveyEntry 0 = none
    ∧ ({ inLink .up with queue := [surveyOf0 .waiting] } : State).surveyEntry 0 = some (surveyOf0 .waiting)
    ∧ ({ inLink .up with queue := [surveyOf0 (.inFlight 0)] } : State).surveyEntry 0
      = some (surveyOf0 (.inFlight 0)) := by decide +kernel

/-! ### Hypotheses of the training statements -/

/-- Every link state is met by a port whose training reports reach its training controller. -/
theorem test_witness_ReportsHeard (l : LinkState) : (inLink l).hears 0 ∧ (inLink l).link 0 = l :=
  ⟨hears_of (by cases l <;> decide +kernel), by cases l <;> decide +kernel⟩

theorem test_witness_ReportsWithoutEffect :
    State.reset.due = Due.none ∧ State.reset.loading = true
    ∧ (bench.setMode 0 .silencing).mode 0 ≠ .openMode ∧ (bench.setMode 0 .silencing).mode 0 ≠ .readingTaps
    ∧ (bench.setMode 0 .silencing).due = Due.none ∧ State.reset.reportReaches 0 = false
    ∧ (bench.setMode 0 .silencing).reportReaches 0 = false ∧ bench.reportReaches 0 = true := by decide +kernel

theorem test_witness_PartnerAbilityResolved :
    ((inLink .exchange).training 0).snapshot = some ⟨0, PlanEntry.default⟩
    ∧ PlanEntry.default.rates = [⟨.r5000, 2, 30⟩, ⟨.r2500, 2, 30⟩] ++ ⟨.r1000, 3, 20⟩
      :: [⟨.r100, 3, 10⟩, ⟨.r10, 3, 0⟩]
    ∧ (Rate.r1000 ∈ ((inLink .exchange).training 0).ability ∧ Rate.r1000.mbps ∈ [10, 1000])
    ∧ (∀ z ∈ ([⟨.r5000, 2, 30⟩, ⟨.r2500, 2, 30⟩] : List PlanRate),
      ¬ (z.rate ∈ ((inLink .exchange).training 0).ability ∧ z.rate.mbps ∈ [10, 1000]))
    ∧ ∀ z ∈ PlanEntry.default.rates,
      ¬ (z.rate ∈ ((inLink .exchange).training 0).ability ∧ z.rate.mbps ∈ [10, 100]) := by decide +kernel

/-- Port 0 in a link state with some attempts already made; the limit at 1000 Mb/s is 3, the margin 20. -/
def attempted (l : LinkState) (n : Nat) : State := (inLink l).updTraining 0 fun t => { t with attempts := n }

theorem test_witness_AttemptsJudged :
    ((attempted .train 1).training 0).figures = (3, 20) ∧ (attempted .train 1).link 0 = .train
    ∧ ((attempted .train 1).training 0).attempts + 1 < 3 ∧ ¬ ((attempted .train 2).training 0).attempts + 1 < 3
    ∧ ((attempted .train 2).training 0).figures.1 ≤ ((attempted .train 2).training 0).attempts + 1
    ∧ ((attempted .train 2).training 0).attemptTimer.isSome = true
    ∧ ((attempted .train 2).training 0).figures.2 ≤ 20 ∧ 19 < ((attempted .train 2).training 0).figures.2
    ∧ (attempted .train 2).pinHeld = false ∧ (attempted .train 2).due = Due.none := by decide +kernel

theorem test_witness_LinkQualityReports :
    (attempted .verify 1).link 0 = .verify ∧ ((attempted .verify 1).training 0).attempts + 1 < 3
    ∧ ((attempted .verify 2).training 0).figures.1 ≤ ((attempted .verify 2).training 0).attempts + 1
    ∧ ((attempted .verify 2).training 0).figures.2 ≤ 20 ∧ 19 < ((attempted .verify 2).training 0).figures.2
    ∧ ((attempted .verify 2).training 0).target = some .r1000 := by decide +kernel

theorem test_witness_TrainingTimersExpire :
    ((inLink .exchange).training 0).exchangeTimer.isSome = true
    ∧ ((inLink .backoff).training 0).backoffTimer.isSome = true
    ∧ ((inLink .verify).training 0).verifyTimer.isSome = true ∧ (inLink .verify).due = Due.none
    ∧ (inLink .verify).pinHeld = false := by decide +kernel

/-- Port 0 in UP with a degrade window count; the threshold is 100. -/
def degraded (n : Nat) : State := (inLink .up).updTraining 0 fun t => { t with degradeCount := n }

theorem test_witness_TrainingTimersExpire_window :
    ((degraded 99).training 0).degradeCount < ((degraded 99).profile 0).degradeThreshold
    ∧ ((degraded 100).profile 0).degradeThreshold ≤ ((degraded 100).training 0).degradeCount
    ∧ (degraded 100).link 0 = .up ∧ ((degraded 100).training 0).degradeTimer.isSome = true
    ∧ ((degraded 100).training 0).current = some .r1000 ∧ (degraded 100).pinHeld = false
    ∧ (degraded 100).due = Due.none := by decide +kernel

/-! ### Hypotheses of the statements on resets and the load -/

theorem test_witness_ResetsTakeEffect :
    bench.pinHeld = false
    ∧ (State.atReset 0 ⟨true, true, false, false⟩ .awaitingRelease [] 0 []).pinHeld = true
    ∧ Instr.readPort ≠ .pinRelease ∧ ∀ x, Instr.readPort ≠ .powerOnReset x := by
  refine ⟨by decide +kernel, by decide +kernel, by decide, fun x => Instr.noConfusion⟩

/-- Two frames handed to the line of port 0 and one to that of port 1, and one being sent at port 2. -/
def underWay : State :=
  { bench.updTraffic 2 (fun t => { t with sending := some ⟨[9], false, .forwarded⟩ }) with
    outputs := [.toLine 0 [1], .toLine 0 [2], .toLine 1 [3]] }

/-- A reset with one frame not wholly sent at port 0 and none at port 1 (R28). -/
theorem test_witness_ResetsTakeEffect_frames :
    underWay.cutFrames = [.toSwitch 2 [9] true false] ∧ underWay.lineCuts [0] = [.lineCut 0 [2]]
    ∧ underWay.lineCuts [1, 0, 0] = [.lineCut 0 [1], .lineCut 0 [2], .lineCut 1 [3]] ∧ underWay.lineCuts [] = []
    ∧ (underWay.supervisorReset ⟨5, [0]⟩).outputs
      = [.toLine 0 [1], .toLine 0 [2], .toLine 1 [3], .toSwitch 2 [9] true false, .lineCut 0 [2]]
    ∧ (underWay.supervisorReset ⟨5, [0]⟩).startUp.straps = 5 := by decide +kernel

/-- The header of an image: magic, version, sum and length fields. -/
def header (magic version sum length : Nat) : List Byte :=
  natBytes 4 magic ++ natBytes 2 version ++ natBytes 2 sum ++ natBytes 4 length

/-- One image for each check of the first pass, at its edge, and the two that pass. -/
theorem test_witness_FirstPassJudged :
    State.reset.due = Due.none ∧ State.reset.startUp.progress = .firstPass
    ∧ (List.replicate 11 (0 : Byte)).length < 12
    ∧ natAt (header 0xE2A14D09 1 0 0) 0 4 ≠ 0xE2A14D08
    ∧ natAt (header 0xE2A14D08 2 0 0) 4 2 ≠ 1
    ∧ 65536 < 12 + natAt (header 0xE2A14D08 1 0 65525) 8 4
    ∧ 12 + natAt (header 0xE2A14D08 1 0 65524) 8 4 ≤ 65536
    ∧ (header 0xE2A14D08 1 0 65524).length < 12 + natAt (header 0xE2A14D08 1 0 65524) 8 4
    ∧ firstPassFailure (header 0xE2A14D08 1 0 1 ++ [1]) = some .badSum
    ∧ firstPassFailure (header 0xE2A14D08 1 1 1 ++ [1]) = none
    ∧ firstPassFailure (header 0xE2A14D08 1 0 0) = none
    ∧ natAt (header 0xE2A14D08 1 0 0) 8 4 = 0 ∧ natAt (header 0xE2A14D08 1 1 1 ++ [1]) 8 4 ≠ 0 := by
  decide +kernel

/-- The load in its second pass with some bytes of the body left. -/
def secondPass (left : Nat) : State :=
  { State.reset with startUp := { State.reset.startUp with progress := .secondPass left } }

/-- The section of a lock index: kind 7, one record of two bytes. -/
def lockSection (n : Nat) : List Byte := [7, 0, 0, 2] ++ natBytes 2 n

/-- One section for each check of the second pass, at its edge. -/
theorem test_witness_SectionJudged :
    (secondPass 3).due = Due.none ∧ (secondPass 3).startUp.progress = .secondPass 3
    ∧ (∀ k ∈ SectionKind.all, k.code ≠ byteAt [8, 0, 0, 2, 0, 0] 0 ∧ k.code ≠ byteAt [0, 0, 0, 2, 0, 0] 0)
    ∧ SectionKind.lock.code = byteAt (lockSection 1024) 0
    ∧ SectionKind.lock ∉ (secondPass 6).startUp.applied
    ∧ natAt (lockSection 1024) 2 2 = SectionKind.lock.recordSize ∧ 5 < 4 + natAt (lockSection 1024) 2 2
    ∧ 4 + natAt (lockSection 1024) 2 2 ≤ 6 ∧ ¬ natAt [7, 0, 0, 4, 0, 0, 0, 0] 2 2 = SectionKind.lock.recordSize
    ∧ ¬ SectionKind.profiles.recordSize ∣ natAt [3, 0, 0, 34] 2 2
    ∧ SectionKind.profiles.recordSize ∣ natAt [3, 0, 0, 66] 2 2
    ∧ ((secondPass 6).applySection .lock [natBytes 2 1025]).isNone
    ∧ ((secondPass 6).applySection .lock [natBytes 2 1024]).isSome := by decide +kernel

/-- For each table a section of two records, whose items are named once, or twice, and one refused. -/
theorem test_witness_SectionValues :
    [[4] ++ (Profile.builtin 4).encode, [47] ++ (Profile.builtin 47).encode].map profileRecord
      = [((4 : Port), Profile.builtin 4), (47, Profile.builtin 47)].map some
    ∧ ([((4 : Port), Profile.builtin 4), (47, Profile.builtin 47)].map Prod.fst).Nodup
    ∧ ¬ ([((4 : Port), Profile.builtin 4), (4, Profile.builtin 47)].map Prod.fst).Nodup
    ∧ profileRecord ([48] ++ (Profile.builtin 4).encode) = none
    ∧ [[15] ++ PlanEntry.unused.encode].map planRecord = [((15 : Fin 16), PlanEntry.unused)].map some
    ∧ planRecord ([0] ++ PlanEntry.unused.encode) = none
    ∧ [Requester.wildcardAdmin.encode 7].map Requester.decode
      = [((7 : RequesterId), Requester.wildcardAdmin)].map some
    ∧ Requester.decode (Requester.wildcardAdmin.encode 0) = none
    ∧ [natBytes 2 1023 ++ [0x6C]].map signatureRecord = [((1023 : Fin 1024), Signature.mk .openEnd 12)].map some
    ∧ signatureRecord (natBytes 2 1024 ++ [0x6C]) = none ∧ signatureRecord [0, 0, 0x1C] = none
    ∧ (profileRecord ([47] ++ (Profile.builtin 47).encode.set 5 0)).map (fun x => x.2.nvp) = some 512
    ∧ (profileRecord ([47] ++ (Profile.builtin 47).encode.set 4 0)).map (fun x => x.2.nvp) = some 500
    ∧ Geometry.decode [32, 8, 6, 64] = some ⟨32, 8, 1600⟩ ∧ Geometry.decode [32, 4, 6, 64] = none
    ∧ (Station.decode State.reset.supervision.station.encode).isSome = true := by
  decide +kernel

theorem test_witness_LoadEnds :
    (∀ p, (State.reset.training p).energy = false) ∧ State.reset.quadUp 0 = false
    ∧ (bench.quadUp 0 = true ∧ (bench.profile 0).enabled = true)
    ∧ (∀ p, (bench.training p).energy = false)
    ∧ ((bench.updPort 0 fun x => { x with profile := { x.profile with enabled := false } }).profile 0).enabled
      = false := by decide +kernel

/-! ### Hypotheses of the statements on quads and measurements -/

theorem test_witness_QuadLost :
    bench.quads[(0 : Quad)] = true ∧ bench.loading = false ∧ State.reset.quads[(0 : Quad)] = false
    ∧ ({ State.reset with quads := State.reset.quads.set 0 true } : State).loading = true
    ∧ ({ bench with quads := bench.quads.set 0 false } : State).quadUp 3 = false := by decide +kernel

/-- The bench with quad 0 UNAVAILABLE. -/
def without0 (s : State) : State := { s with quads := s.quads.set 0 false }

/-- On an UNAVAILABLE quad, a port in HELD without a test, and one whose test stands in each state. -/
theorem test_witness_PortLost :
    (without0 (inLink .held)).engineOn 0 = none ∧ (without0 (inLink .held)).quadUp 0 = false
    ∧ (without0 (inLink .held)).link 0 = .held
    ∧ ∀ st ∈ [EngineState.quiesce, .capture, .analyze, .restore],
      (without0 (testing st)).engineOn 0 = some 0 ∧ ((without0 (testing st)).engine 0).state = st
        ∧ ((without0 (testing st)).engine 0).context = some context0 ∧ (without0 (testing st)).link 0 = .held
        ∧ (without0 (testing st)).quadUp 0 = false := by decide +kernel

theorem test_witness_QuadRecovered :
    (without0 bench).quads[(0 : Quad)] = false ∧ (without0 bench).loading = false
    ∧ State.reset.quads[(0 : Quad)] = false ∧ State.reset.loading = true
    ∧ (inLink .noLine).link 0 = .noLine ∧ ((inLink .noLine).profile 0).enabled = true
    ∧ (((inLink .noLine).updPort 0 fun x => { x with profile := { x.profile with enabled := false } }).profile
      0).enabled = false := by decide +kernel

/-- The test of port 0 in CAPTURE, its line mode expecting some listening pairs, with pairs still to go. -/
def capturing (expected toGo : List Pair) : State :=
  ((testing .capture).setMode 0 (.capturing .b expected)).updTest 0 fun t => { t with toGo := toGo }

theorem test_witness_CaptureReports :
    bench.ready ∧ bench.mode 0 ≠ .silencing ∧ (bench.setMode 0 .silencing).mode 0 = .silencing
    ∧ (bench.setMode 0 .silencing).engineOn 0 = none
    ∧ (let s := ((testing .quiesce).setMode 0 .silencing).updTest 0 fun t => { t with toGo := [.b] }
      s.mode 0 = .silencing ∧ s.engineOn 0 = some 0 ∧ (s.engine 0).state = .quiesce
        ∧ (s.testOf 0).map TestContext.toGo = some [.b])
    ∧ (capturing [.a] []).mode 0 = .capturing .b [.a] ∧ (capturing [.a] []).engineOn 0 = some 0
    ∧ ((capturing [.a] []).engine 0).state = .capture
    ∧ ((capturing [.a] [.c]).testOf 0).map TestContext.toGo = some [.c]
    ∧ ((capturing [.a] []).testOf 0).map TestContext.toGo = some []
    ∧ [Pair.a, .b] ≠ [.a] ∧ Pair.a ∈ [Pair.a, .b] :=
  ⟨bench_ready, by decide +kernel⟩

/-- The survey of port 0 in flight on engine 0. -/
def surveying : State :=
  { (((inLink .up).setMode 0 .readingTaps).updEngine 0 fun y =>
      { y with state := .surveyRead, phaseTimer := some 10, context := some ⟨9, 0, none⟩ })
    with queue := [surveyOf0 (.inFlight 0)] }

theorem test_witness_PhaseTimerExpires :
    bench.ready ∧ (bench.engine 0).phaseTimer = none ∧ ((testing .quiesce).engine 0).phaseTimer.isSome = true
    ∧ ((testing .quiesce).engine 0).context = some context0 ∧ context0.test.isSome = true
    ∧ ((testing .capture).engine 0).state = .capture ∧ (surveying.engine 0).state = .surveyRead
    ∧ (surveying.engine 0).phaseTimer.isSome = true ∧ surveying.entry 9 = some (surveyOf0 (.inFlight 0))
    ∧ (without0 (testing .capture)).quadUp 0 = false ∧ (testing .capture).quadUp 0 = true :=
  ⟨bench_ready, by decide +kernel⟩

theorem test_witness_AnalyzeStoresReport :
    (testing .analyze).pinHeld = false ∧ (testing .analyze).due = Due.none
    ∧ ((testing .analyze).engine 0).state = .analyze ∧ ((testing .analyze).engine 0).context = some context0
    ∧ context0.test.isSome = true ∧ (bench.engine 0).state ≠ .analyze
    ∧ (testEntry 0 6).coalesces 0 ⟨0, [.b, .c], 16, false, false, [], [], none, [6], none⟩ = true := by
  decide +kernel

/-- The test of port 0 in RESTORE with a result. -/
def restoring : State := (testing .restore).updTest 0 fun t => { t with result := some ⟨.ok, none⟩ }

theorem test_witness_RestoreReleasesPort :
    restoring.pinHeld = false ∧ restoring.due = Due.none ∧ (restoring.engine 0).state = .restore
    ∧ (restoring.testOf 0).map TestContext.result = some (some ⟨.ok, none⟩) ∧ restoring.quadUp 0 = true
    ∧ (restoring.profile 0).enabled = true ∧ restoring.link 0 = .held
    ∧ (without0 restoring).quadUp 0 = false ∧ (without0 restoring).link 0 = .held
    ∧ (restoring.entry 5).map QueueEntry.isSurvey = some false ∧ (bench.engine 0).state ≠ .restore := by
  decide +kernel

/-- A sweep over two ports from port 0. -/
def sweepOf2 : Sweep := ⟨0, 2, false, 2, []⟩

theorem test_witness_SweepSteps :
    let s := inLink .up
    sweepOf2.remaining ≠ 0 ∧ { sweepOf2 with remaining := 0 }.remaining = 0
    ∧ (s.supervision.requesters[(1 : RequesterId)].inUse = true
      ∧ s.supervision.requesters[(1 : RequesterId)].disturbSet.getLsbD 0 = true)
    ∧ s.supervision.requesters[(2 : RequesterId)].inUse = false
    ∧ (s.link 0 = .up ∧ (s.profile 0).protectLive = true) ∧ ¬ s.link 1 = .up := by decide +kernel

theorem test_witness_SurveyCompleted :
    bench.mode 0 ≠ .readingTaps ∧ surveying.pinHeld = false ∧ surveying.due = Due.none
    ∧ surveying.mode 0 = .readingTaps ∧ surveying.engineOn 0 = some 0 ∧ (surveying.engine 0).state = .surveyRead
    ∧ (surveying.engine 0).context = some ⟨9, 0, none⟩ ∧ surveying.entry 9 = some (surveyOf0 (.inFlight 0))
    ∧ (surveying.port 0).baseline = none
    ∧ (let base : SurveySummary := ⟨1, 1000, #v[0, 0, 0, 0], #v[0, 0, 0, 64]⟩
      drifted (bench.profile 0) ⟨2, 1020, #v[0, 0, 0, 0], #v[0, 0, 0, 0]⟩ base = false
      ∧ drifted (bench.profile 0) ⟨2, 1021, #v[0, 0, 0, 0], #v[0, 0, 0, 0]⟩ base = true
      ∧ drifted (bench.profile 0) ⟨2, 1000, #v[0, 0, 0, 0], #v[0, 0, 0, -1]⟩ base = true) := by decide +kernel

/-! ### Hypotheses of the statements on the queue, grants and timers -/

/-- Two tests waiting, of ports 0 and 1. -/
def twoWaiting : State := { bench with queue := [testEntry 0 1, { testEntry 1 2 with priority := 3 }] }

theorem test_witness_SelectionOrder :
    bench.selection 0 = none ∧ (twoWaiting.selection 0).map QueueEntry.serial = some 2
    ∧ (({ twoWaiting with queue := [testEntry 0 1, { testEntry 1 2 with urgent := true }] } : State).selection
      0).map QueueEntry.serial = some 2
    ∧ (({ twoWaiting with queue := [testEntry 0 1, testEntry 1 2] } : State).selection 0).map
      QueueEntry.serial = some 1 := by decide +kernel

theorem test_witness_GrantsMade :
    (testEntry 0 1).kind = .test ⟨[.b], 8, false, false, none⟩ ∧ (surveyOf0 .waiting).kind = .survey
    ∧ (inLink .up).link 0 = .up ∧ (inLink .verify).link 0 = .verify ∧ (inLink .train).link 0 = .train
    ∧ (inLink .listen).link 0 = .listen ∧ (testEntry 0 1).serial = 1 ∧ (testEntry 0 1).serial ≠ 2
    ∧ (bench.engine 0).passedOver + 1 < bench.supervision.station.starvationLimit
    ∧ bench.supervision.station.starvationLimit
      ≤ ((bench.updEngine 0 fun y => { y with passedOver := 7 }).engine 0).passedOver + 1
    ∧ (let s : State := { bench with queue := [{ testEntry 0 1 with state := .inFlight 0 }, testEntry 4 2, testEntry 1 3] }
      (s.oldestWaiting 0).map QueueEntry.serial = some 3 ∧ (s.oldestWaiting 1).map QueueEntry.serial = some 2
        ∧ s.oldestWaiting 2 = none) := by decide +kernel

/-- Port 0 in TRAIN and a test of port 1, of the same group, waiting. -/
def blockedBench : State := { inLink .train with queue := [testEntry 1 1] }

theorem test_witness_HoldTimers :
    bench.ready ∧ (bench.group 0).holdTimer = none
    ∧ ((bench.updGroup 0 fun g => { g with holdTimer := some 2000 }).group 0).holdTimer.isSome = true
    ∧ blockedBench.groupBlocked 0 = true ∧ bench.groupBlocked 0 = false
    ∧ (blockedBench.group 0).reserved = false
    ∧ (let t := State.closeEvent bench blockedBench
      t.groupBlocked 0 = true ∧ (t.group 0).reserved = false ∧ (t.group 0).holdTimer = some 2000)
    ∧ (let t := State.closeEvent blockedBench (bench.updGroup 0 fun g => { g with holdTimer := some 2000 })
      t.groupBlocked 0 = false ∧ (t.group 0).holdTimer = none)
    ∧ (State.closeEvent blockedBench
      (blockedBench.updGroup 0 fun g => { g with reserved := true })).groupBlocked 0 = true :=
  ⟨bench_ready, by decide +kernel⟩

/-- Port 0 in UP with its survey record in a state and both its timers running. -/
def surveyed (st : SurveyState) (q : List QueueEntry) : State :=
  { ((inLink .up).updSurvey 0 fun _ => ⟨st, some 300, some 75, true⟩) with queue := q }

theorem test_witness_SurveyTimersExpire :
    bench.ready ∧ (bench.survey 0).surveyTimer = none ∧ (bench.survey 0).graceTimer = none
    ∧ ((surveyed .counting []).survey 0).state = .counting
    ∧ ((surveyed .counting []).survey 0).surveyTimer.isSome = true ∧ (surveyed .counting []).surveyEntry 0 = none
    ∧ (surveyed .counting []).queue.length < 32
    ∧ 32 ≤ (surveyed .counting (List.replicate 32 (testEntry 1 1))).queue.length
    ∧ ((surveyed .counting (List.replicate 32 (testEntry 1 1))).surveyEntry 0) = none
    ∧ ((surveyed .due []).survey 0).graceTimer.isSome = true
    ∧ (surveyed .due [surveyOf0 .waiting]).surveyEntry 0 = some (surveyOf0 .waiting)
    ∧ (surveyed .due [surveyOf0 (.inFlight 0)]).surveyEntry 0 = some (surveyOf0 (.inFlight 0))
    ∧ (surveyed .due []).surveyEntry 0 = none ∧ ((surveyed .due []).survey 0).pending = true :=
  ⟨bench_ready, by decide +kernel⟩

/-- A departure from a full queue makes room for the pending survey at once, ahead of any other offer. -/
theorem test_departure_offers_the_pending_survey :
    let s := surveyed .overdue ((List.range 32).map (testEntry 1))
    let t := s.removeEntry 5
    t.queue.length = 32 ∧ (t.survey 0).pending = false
    ∧ ((t.surveyEntry 0).map fun x => (x.urgent, x.state)) = some (true, .waiting) := by decide +kernel

/-- The notice unit in HOLDING with a destination or without. -/
def holding (d : Option Address) (up : Option Nat) : State :=
  { (bench.updPort 47 fun x => { x with events := { x.events with linkUp := up } }) with
    notice := { bench.notice with state := .holding, holdoffTimer := some 100 }
    supervision :=
      { bench.supervision with station := { bench.supervision.station with noticeDestination := d } } }

theorem test_witness_HoldoffExpires :
    bench.ready ∧ bench.notice.holdoffTimer = none ∧ (holding none none).notice.state = .holding
    ∧ (holding none none).notice.holdoffTimer.isSome = true
    ∧ (holding none none).supervision.station.noticeDestination = none
    ∧ (holding (some 2) none).supervision.station.noticeDestination = some 2
    ∧ (holding (some 2) none).notice.device = ⟨none, none⟩
    ∧ (∀ p, ((holding (some 2) none).port p).events = PortEvents.empty)
    ∧ ((holding (some 2) (some 1)).port 47).events ≠ PortEvents.empty :=
  ⟨bench_ready, by decide +kernel⟩

/-! ### Hypotheses of the statements on traffic and frames -/

/-- A frame to the built-in supervisor, its body 14 bytes or longer. -/
def toSupervisor (rest : List Byte) : List Byte :=
  natBytes 6 0x024E505A0000 ++ natBytes 6 2 ++ natBytes 2 0x9A5C ++ rest

/-- The body of a request frame of one entry: kind, tag, count, payload length, then the entry. -/
def requestBody (count : Nat) (entry : List Byte) : List Byte :=
  toSupervisor ([1, 1, 0, 7] ++ byteOf count ++ [0] ++ natBytes 2 entry.length ++ entry)

theorem test_witness_SwitchFrames :
    bench.ready
    ∧ (let body := toSupervisor []
      14 ≤ body.length ∧ natAt body 0 6 = bench.supervision.station.address.toNat
        ∧ natAt body 12 2 = bench.supervision.station.ethertype.toNat)
    ∧ ¬ 14 ≤ ((toSupervisor []).take 13).length ∧ (inLink .up).link 0 = .up ∧ bench.link 0 ≠ .up :=
  ⟨bench_ready, by decide +kernel⟩

/-- The requester table with slot 3 exact for address 2 beside the built-in WILDCARD. -/
def twoRequesters : Vector Requester 8 :=
  requestersBuiltin.set 3 ⟨true, some 2, .observer, BitVec.allOnes 48, 0, 1⟩

theorem test_witness_FramesJudged :
    matchRequester twoRequesters 2 = some 3 ∧ matchRequester twoRequesters 4 = some 1
    ∧ matchRequester (Vector.replicate 8 Requester.unused) 4 = none
    ∧ requestEntries true (requestBody 1 [4, 0, 0, 9, 0, 0]) = some [⟨4, 9, []⟩]
    ∧ requestEntries false (requestBody 1 [4, 0, 0, 9, 0, 0]) = none
    ∧ requestEntries true (requestBody 0 []) = none ∧ requestEntries true (requestBody 2 [4, 0, 0, 9, 0, 0]) = none
    ∧ State.reset.supervision.accepting = false ∧ bench.supervision.accepting = true
    ∧ (∀ i, bench.slot i = none)
    ∧ (let full : State :=
        { bench with
          supervision :=
            { bench.supervision with
              slots := Vector.replicate 16 (some ⟨2, 0, 7, 1, .admin, 0, 0, [], true⟩) } }
      ∀ i, full.slot i ≠ none) := by decide +kernel

/-- The bench sending a frame on port slot 0. -/
def sending (source : FrameSource) : State :=
  { (bench.updTraffic 0 fun t => { t with sending := some ⟨[1], false, source⟩ }).setSlot 4
      (some ⟨2, 0, 7, 1, .admin, 0, 0, [⟨18, 5, some ⟨.ok, []⟩⟩], true⟩)
    with notice := { bench.notice with state := .sending } }

theorem test_witness_FramesTowardSwitch :
    bench.ready ∧ (bench.traffic 0).sending = none ∧ (bench.traffic 0).output = []
    ∧ ((sending .forwarded).traffic 0).sending = some ⟨[1], false, .forwarded⟩
    ∧ ((bench.traffic 0).output.filter fun f => f.source == .forwarded).length < 64
    ∧ ¬ ((List.replicate 64 (⟨[1], false, .forwarded⟩ : OutFrame)).filter fun f => f.source == .forwarded).length < 64
    ∧ checkGood (sealFrame (toSupervisor [])) = true ∧ checkGood [1, 2, 3] = false
    ∧ checkGood (List.replicate 64 0) = false ∧ (inLink .up).link 0 = .up
    ∧ ((sending (.reply 4)).slot 4).map ReplySlot.entries = some [⟨18, 5, some ⟨.ok, []⟩⟩]
    ∧ (sending (.reply 3)).slot 3 = none ∧ FrameSource.reply 4 ≠ .forwarded
    ∧ (sending .notice).notice.state = .sending ∧ bench.notice.state ≠ .sending ∧ FrameSource.notice ≠ .forwarded :=
  ⟨bench_ready, by decide +kernel⟩

/-! ### Hypotheses of the statements on requests -/

/-- The reply slot of a frame with one entry, of requester 1 on port slot 0. -/
def slotFor (role : Role) (code : Byte) (disturbSet : PortSet) : ReplySlot :=
  ⟨2, 0, 7, 1, role, BitVec.allOnes 48, disturbSet, [⟨code, 5, none⟩], false⟩

/-- A state with one request entry to execute, issued under a role. -/
def asked (s : State) (code : Byte) (role : Role) (disturbSet : PortSet) (params : List Byte) : State :=
  { s with
    supervision :=
      { s.supervision with
        slots := s.supervision.slots.set 0 (some (slotFor role code disturbSet))
        requests := [⟨⟨0, 0⟩, code, 5, params⟩] } }

/-- The call that executes it. -/
def theCall (role : Role) (disturbSet : PortSet) (params : List Byte) : Call :=
  ⟨⟨0, 0⟩, 5, params, 1, role, BitVec.allOnes 48, disturbSet, true⟩

/-- A request passes its first checks, whatever else the state holds: so the hypotheses of the statements on
requests are met together with any conditions on the rest of the state. -/
theorem test_asked_passes {s : State} (h : s.ready) (code : Byte) (role lowest : Role) (d : PortSet)
    (params : List Byte) (hr : lowest.code ≤ role.code) :
    (asked s code role d params).passes code.toNat params.length lowest (theCall role d params)
      ((asked s code role d params).updSupervision fun v => { v with requests := [] }) :=
  ⟨h, ⟨_, _, slotFor role code d, rfl, rfl, by simp [State.slot, asked], rfl, rfl⟩, hr, rfl⟩

theorem test_asked_keeps (s : State) (code : Byte) (role : Role) (d : PortSet) (params : List Byte) :
    (asked s code role d params).ports = s.ports ∧ (asked s code role d params).queue = s.queue
    ∧ (asked s code role d params).engines = s.engines ∧ (asked s code role d params).plan = s.plan
    ∧ (asked s code role d params).signatures = s.signatures ∧ (asked s code role d params).notice = s.notice
    ∧ (asked s code role d params).supervision.stationSet = s.supervision.stationSet
    ∧ (asked s code role d params).supervision.requesters = s.supervision.requesters :=
  ⟨rfl, rfl, rfl, rfl, rfl, rfl, rfl, rfl⟩

theorem test_theCall_names (role : Role) :
    (theCall role 1 [0]).names 1 0 ∧ (theCall role 0 [47]).names (BitVec.allOnes 48) 47 := by
  cases role <;> exact ⟨⟨by decide, by decide⟩, ⟨by decide, by decide⟩⟩

/-- Every row of the requests: role below and at the lowest, lengths that fit and do not, and the port byte
out of range, outside the set and in it. -/
theorem test_witness_RequestChecks :
    (asked bench 19 .observer 0 []).supervision.requests = [⟨⟨0, 0⟩, 19, 5, []⟩]
    ∧ (asked bench 19 .observer 0 []).slot 0 = some (slotFor .observer 19 0)
    ∧ (requestRows.map RequestRow.code) = [1, 2, 3, 4, 5, 6, 7, 8, 9, 10, 11, 12, 13, 14, 15, 16, 17, 18]
    ∧ (∀ x ∈ requestRows, x.lengthFits (List.replicate 34 0) = false)
    ∧ (∀ x ∈ requestRows, ∃ n < 34, x.lengthFits (List.replicate n 0) = true)
    ∧ (∀ x ∈ requestRows, x.code ∈ [1, 2, 5, 6, 8, 9, 10] ↔
      (x.checked (slotFor .admin 1 1) (List.replicate 33 0)).isSome = true)
    ∧ Role.observer.code < Role.operator.code ∧ (1 : PortSet).getLsbD 0 = true ∧ (1 : PortSet).getLsbD 1 = false := by
  decide +kernel

theorem test_witness_AnswersGiven :
    (surveyOf0 .waiting).external = none ∧ (testEntry 0 1).external = some ⟨5, ⟨0, 0⟩⟩
    ∧ bench.slot 0 = none ∧ (asked bench 4 .admin 0 []).slot 0 = some (slotFor .admin 4 0)
    ∧ (slotFor .admin 4 0).sending = false
    ∧ (∀ e ∈ (slotFor .admin 4 0).entries.modify 0 (fun e => { e with answer := some ⟨.ok, []⟩ }), e.answer ≠ none)
    ∧ (∃ e ∈ (slotFor .admin 4 0).entries.modify 1 (fun e => { e with answer := some ⟨.ok, []⟩ }),
      e.answer = none) := by decide +kernel

/-- The parameters at each edge of the four reads. -/
theorem test_witness_ReadsAnswered :
    (List.replicate 4 (0 : Byte)).length = 4 ∧ natAt [0, 0, 15, 0] 1 2 = (15 : Fin 16).val
    ∧ 16 ≤ natAt [0, 0, 16, 0] 1 2
    ∧ natAt [1, 3, 0xC0, 64] 1 2 + byteAt [1, 3, 0xC0, 64] 3 ≤ 1024 ∧ byteAt [1, 3, 0xC0, 64] 3 ≤ 64
    ∧ 1024 < natAt [1, 3, 0xC1, 64] 1 2 + byteAt [1, 3, 0xC1, 64] 3 ∧ 64 < byteAt [1, 0, 0, 65] 3
    ∧ natAt [3, 0, 7, 0] 1 2 = (7 : RequesterId).val ∧ (7 : RequesterId) ≠ 0 ∧ 8 ≤ natAt [3, 0, 8, 0] 1 2
    ∧ natAt [4, 0, 47, 0] 1 2 = (47 : Port).val ∧ (1 : PortSet).getLsbD (natAt [4, 0, 47, 0] 1 2) = false
    ∧ 48 ≤ natAt [4, 0, 48, 0] 1 2 ∧ 4 < byteAt [5, 0, 0, 0] 0 ∧ 2 < byteAt [0, 3] 1 := by decide +kernel

/-- The requests at each edge of the worst-case table. -/
theorem test_witness_WorstCaseReplies :
    worstData 2 [0, 0] = 176 ∧ worstData 2 [0, 2] = 24 ∧ worstData 2 [0, 3] = 0
    ∧ ([0, 1, 2, 3, 4, 5].map fun f => worstData 3 [f, 0, 0, 64]) = [33, 132, 8, 24, 32, 0]
    ∧ (byteAt [0, 1, 8, 4, 48] 3).testBit 2 = true ∧ worstData 5 [0, 1, 8, 4, 48] = 392
    ∧ worstData 5 [0, 1, 8, 3, 48] = 176 ∧ worstData 7 [] = 0 ∧ worstData 0 [] = 0
    ∧ worstSize (List.replicate 8 ⟨5, 0, [0, 1, 8, 0, 0]⟩) = 1472 := by decide +kernel

/-- The cases of what READ_PORT and READ_STATUS show: with and without a snapshot and a measurement, and
each outcome of the load. -/
theorem test_witness_StateShown :
    (bench.training 0).bounded ∧ (bench.training 0).snapshot = none ∧ bench.engineOn 0 = none
    ∧ (testing .capture).engineOn 0 = some 0 ∧ ((testing .capture).engine 0).context = some context0
    ∧ surveying.engineOn 0 = some 0 ∧ (surveying.engine 0).context = some ⟨9, 0, none⟩
    ∧ ((inLink .up).training 0).snapshot = some ⟨0, PlanEntry.default⟩ ∧ ((inLink .up).training 0).bounded
    ∧ bench.startUp.outcome = none ∧ bench.startUp.applied.Nodup
    ∧ State.reset.justReset ∧ PortEvents.empty.countsFit
    ∧ ((inLink .up).statusWord 0 = ⟨true, some .r1000, false⟩ ∧ (inLink .held).statusWord 0 = ⟨false, none, true⟩)
    ∧ ((inLink .up).portData 0).length = 160 := by
  refine ⟨⟨by decide +kernel, by decide +kernel, by decide +kernel, fun x h => ?_⟩, by decide +kernel,
    by decide +kernel, by decide +kernel, by decide +kernel, by decide +kernel, by decide +kernel,
    by decide +kernel, ⟨by decide +kernel, by decide +kernel, by decide +kernel, fun x h => ?_⟩,
    by decide +kernel, by decide +kernel, ⟨_, _, _, _, _, _, rfl⟩,
    ⟨nofun, nofun, nofun, nofun, nofun, nofun, nofun, nofun⟩, by decide +kernel, by decide +kernel⟩
  · have e : (bench.training 0).snapshot = none := by decide +kernel
    rw [e] at h; cases h
  · have e : ((inLink .up).training 0).snapshot = some ⟨0, PlanEntry.default⟩ := by decide +kernel
    rw [e] at h; cases h
    unfold PlanEntry.limitsFit; decide

/-- Numbers at the edges of their widths, and a body shorter than the minimum frame and one longer. -/
theorem test_witness_FramesLaidOut :
    intAt (intBytes 2 (-32768)) 0 = -32768 ∧ intAt (intBytes 2 32767) 0 = 32767 ∧ natBytes 2 65537 = [0, 1]
    ∧ (sealFrame []).length = 64 ∧ (sealFrame (List.replicate 61 1)).length = 65
    ∧ (∃ e : ReplyEntry, e.answer = some ⟨.ok, [7]⟩ ∧ e.encode 2 = [1, 0, 0, 5, 0, 1, 2, 0, 7]) :=
  ⟨by decide +kernel, by decide +kernel, by decide +kernel, by decide +kernel, by decide +kernel,
    ⟨1, 5, some ⟨.ok, [7]⟩⟩, rfl, by decide +kernel⟩

/-- A plan entry at its greatest, sets at both ends, and the last entry of the signature table. -/
theorem test_witness_RecordsLaidOut :
    PlanEntry.default.limitsFit ∧ PlanEntry.default.rates.length = 5 ∧ PlanEntry.default.encode.length = 32
    ∧ RateSet.byte Rate.all = [31] ∧ pairsByte Pair.all = [15] ∧ Rate.all.Nodup ∧ Pair.all.Nodup
    ∧ FaultClass.all.Nodup ∧ Profile.fields (Profile.builtin 0).encode = some (Profile.builtin 0)
    ∧ portSetBytes 0x800000000001#48 = [1, 0, 0, 0, 0, 0x80]
    ∧ (let t := { SignatureTable.builtin with entries := entries88 }
      t.encodeRange 205 1 = [0, 205, 1, 0, 1, 0x6C] ∧ (1023 : Fin 1024).val = 1023 + 0
        ∧ t.encodeRange 1023 1 = [3, 255, 1, 0, 0, 0]) := by
  refine ⟨?_, by decide +kernel⟩
  unfold PlanEntry.limitsFit; decide

/-- The states and parameters at each edge of TEST_CABLE: single tests and sweeps. -/
theorem test_witness_TestsOffered :
    (byteAt [0, 2, 8, 0, 0] 3).testBit 2 = false ∧ (byteAt [0, 2, 8, 4, 2] 3).testBit 2 = true
    ∧ pairsOfByte 2 = [.b] ∧ pairsOfByte 16 = []
    ∧ (∃ x ∈ ({ bench with queue := [testEntry 0 1] } : State).queue,
      x.requester = 1 ∧ ∃ y ∈ x.external, y.tag = 5)
    ∧ (({ bench with queue := [{ testEntry 0 1 with external := some ⟨6, ⟨0, 0⟩⟩ }] } : State).singleWaiting 1
      0).isSome = true ∧ bench.singleWaiting 1 0 = none
    ∧ ((inLink .up).link 0 = .up ∧ ((inLink .up).profile 0).protectLive = true)
    ∧ 28 ≤ ({ bench with queue := List.replicate 28 (testEntry 1 1) } : State).queue.length
    ∧ bench.queue.length < 28 ∧ (0 + 48 ≤ 48 ∧ 48 ≤ 47 + 1) ∧ ¬ 1 + 48 ≤ 48 ∧ 48 < byteAt [0, 2, 8, 4, 49] 4
    ∧ roundAveraging 0 = 1 ∧ roundAveraging 64 = 64 ∧ roundAveraging 63 = 32 ∧ roundAveraging 255 = 64 := by
  decide +kernel

/-- A queue with one external entry tagged 5 of requester 1, in a state. -/
def oneExternal (kind : EntryKind) (st : EntryState) (mark : Bool) : State :=
  { (inLink .up) with queue := [{ testEntry 0 5 with kind := kind, state := st, cancelMark := mark }] }

theorem test_witness_SurveysCalledEntriesCancelled :
    (inLink .up).link 0 = .up ∧ bench.link 0 ≠ .up ∧ (inLink .up).surveyEntry 0 = none
    ∧ ({ inLink .up with queue := [surveyOf0 .waiting] } : State).surveyEntry 0 = some (surveyOf0 .waiting)
    ∧ (surveyOf0 .waiting).external = none
    ∧ ((oneExternal .survey .waiting false).surveyEntry 0).map QueueEntry.external = some (some ⟨5, ⟨0, 0⟩⟩)
    ∧ bench.tagged 1 (BitVec.ofNat 16 (natAt [0, 5] 0 2)) = none
    ∧ ((oneExternal .survey .waiting false).tagged 1 5).isSome = true
    ∧ ((oneExternal (.test ⟨[.b], 8, false, false, some sweepOf2⟩) (.inFlight 0) false).tagged 1 5).map
      QueueEntry.state = some (.inFlight 0)
    ∧ ((oneExternal (.test ⟨[.b], 8, false, false, none⟩) (.inFlight 0) true).tagged 1 5).map
      QueueEntry.cancelMark = some true
    ∧ ((testing .quiesce).engine 0).state = .quiesce ∧ ((testing .analyze).engine 0).state = .analyze
    ∧ 1 < sweepOf2.remaining ∧ { sweepOf2 with remaining := 1 }.remaining ≤ 1
    ∧ ((testing .capture).engine 0).context = some context0 ∧ context0.test.isSome = true
    ∧ (testing .capture).quadUp context0.port = true ∧ (without0 (testing .capture)).quadUp context0.port = false
    ∧ (let t := (testing .capture).abortTest 0 .cancelled
      (t.engine 0).state = .restore ∧ t.mode 0 = .openMode)
    ∧ (let s : State := { bench with queue := [testEntry 0 1, testEntry 1 2, surveyOf0 .waiting] }
      (s.tagged 1 5).map QueueEntry.serial = some 1 ∧ (s.entry 2).map QueueEntry.serial = some 2
        ∧ (s.surveyEntry 0).map QueueEntry.serial = some 9 ∧ s.tagged 2 5 = none ∧ s.entry 3 = none
        ∧ s.surveyEntry 1 = none) := by decide +kernel

theorem test_witness_PortsRestartedAndSwitched :
    5 < byteAt [0, 6] 1 ∧ byteAt [0, 5] 1 ≤ 5 ∧ 1 < byteAt [0, 2] 1 ∧ byteAt [0, 1] 1 = 1 ∧ byteAt [0, 0] 1 = 0
    ∧ (inLink .off).link 0 = .off ∧ (inLink .noLine).link 0 = .noLine ∧ (inLink .held).link 0 = .held
    ∧ (∀ l ∈ [LinkState.listen, .exchange, .pendingTrain, .train, .verify, .up, .backoff],
      (inLink l).link 0 ∉ [LinkState.off, .noLine, .held])
    ∧ (bench.profile 0).enabled = true
    ∧ ((bench.updPort 0 fun x => { x with profile := { x.profile with enabled := false } }).profile 0).enabled
      = false := by decide +kernel

/-- A profile record with one byte changed. -/
def recordWith (i : Nat) (x : Byte) : List Byte := (Profile.builtin 0).encode.set i x

/-- Port 0 in a link state with 1000 Mb/s taken out of its allowed rates. -/
def without1000 (l : LinkState) : State := (inLink l).updPort 0 fun x =>
  { x with profile := { x.profile with allowed := [.r10, .r100, .r2500, .r5000] } }

theorem test_witness_ProfilesWritten :
    Profile.fields (recordWith 0 2) = none ∧ Profile.fields (recordWith 1 0) = some (Profile.builtin 0)
    ∧ ((Profile.fields (recordWith 1 1)).map Profile.group) = some 1
    ∧ ((Profile.fields (recordWith 2 0)).map Profile.allowed) = some []
    ∧ ((Profile.fields (recordWith 9 7)).map Profile.threshold) = some 7
    ∧ (Profile.builtin 0).group = (bench.profile 0).group ∧ (inLink .train).link 0 ∈ [LinkState.train, .pendingTrain, .held]
    ∧ bench.link 0 ∉ [LinkState.train, .pendingTrain, .held]
    ∧ Rate.r1000 ∈ Rate.all ∧ Rate.r1000 ∉ ((without1000 .up).profile 0).allowed
    ∧ ((without1000 .up).training 0).current = some .r1000 ∧ ((without1000 .train).training 0).target = some .r1000
    ∧ Rate.r1000 ∈ ((without1000 .exchange).training 0).ability
    ∧ (∀ r ∈ Rate.all, r ∈ ((inLink .up).profile 0).allowed)
    ∧ (inLink .up).link 0 = .up ∧ (inLink .exchange).link 0 = .exchange ∧ (inLink .verify).link 0 = .verify
    ∧ (inLink .held).link 0 = .held
    ∧ ((inLink .up).survey 0).state = .idle ∧ ((inLink .up).profile 0).survey = true
    ∧ (inLink .up).surveyEntry 0 = none
    ∧ ({ inLink .up with queue := [surveyOf0 (.inFlight 0)] } : State).surveyEntry 0
      = some (surveyOf0 (.inFlight 0)) := by decide +kernel

/-- A plan entry record in use up to 4000 dm, with one byte changed. -/
def planWith (i : Nat) (x : Byte) : List Byte := (PlanEntry.unused.encode.set 0 1).set i x

theorem test_witness_PlanEntriesWritten :
    (PlanEntry.decode 15 (planWith 31 0)).isSome = true ∧ PlanEntry.decode 16 (planWith 31 0) = none
    ∧ PlanEntry.decode 1 (planWith 0 2) = none ∧ PlanEntry.decode 0 (planWith 0 0) = none
    ∧ PlanEntry.decode 1 (planWith 7 0) = none ∧ PlanEntry.decode 1 (planWith 7 6) = none
    ∧ PlanEntry.decode 1 (planWith 8 6) = none ∧ PlanEntry.decode 1 (planWith 8 4) = none
    ∧ PlanEntry.decode 1 (planWith 9 9) = none ∧ PlanEntry.decode 1 (planWith 1 0) = none
    ∧ PlanEntry.decode 1 (planWith 5 2) = none
    ∧ ((PlanEntry.decode 1 (planWith 10 2)).map Prod.snd) = some true
    ∧ (let plan := bench.plan.set 4 ⟨true, some 1200, some [.normal, .beyondReach], PlanEntry.builtinRates⟩
      let summary : Nat → Option SurveySummary := fun n => some ⟨1, n, #v[n, 0, 0, 0], #v[0, 0, 0, 0]⟩
      selectClass plan none (summary 1200) = 4 ∧ selectClass plan none (summary 1201) = 0
        ∧ selectClass plan none none = 0) := by decide +kernel

/-- The bench with an empty lock, entry 20 filled below it. -/
def locked (lock : Nat) : State :=
  { bench with
    signatures :=
      { bench.signatures with
        lock := lock
        entries := bench.signatures.entries.set 20 (some ⟨.openEnd, 12⟩) } }

theorem test_witness_SignatureTableWritten :
    (natAt [64, 4, 23, 112] 2 2 = 6000 ∧ natAt [64, 4, 23, 113] 2 2 = 6001 ∧ natAt [16, 16, 0, 99] 2 2 = 99)
    ∧ bench.signatures.lock = 1024 ∧ (locked 1008).signatures.lock < 1024
    ∧ (locked 1024).signatures.entries[(20 : Fin 1024)] ≠ none
    ∧ ([3, 240, 16] ++ List.replicate 16 (0x6C : Byte)).length = 3 + 16 ∧ natAt [3, 240, 16] 0 2 + 16 = 1024
    ∧ (∃ x ∈ FaultClass.all, x.severity = 0x6C / 16 ∧ x ≠ .normal ∧ x ≠ .beyondReach)
    ∧ (∀ x ∈ FaultClass.all, x.severity = 0x1C / 16 → x = .beyondReach)
    ∧ (locked 1008).signatures.lock < 1008 + 1 ∧ 63 < byteAt [64] 0
    ∧ (locked 1008).signatures.lock ≤ 16 * byteAt [63] 0 ∧ 16 * byteAt [62] 0 < (locked 1008).signatures.lock
    ∧ 1024 < natAt [4, 16] 0 2 ∧ natAt [3, 241] 0 2 % 16 ≠ 0 ∧ (locked 512).signatures.lock < natAt [2, 16] 0 2
    ∧ natAt [2, 0] 0 2 ≤ (locked 512).signatures.lock ∧ natAt [2, 0] 0 2 % 16 = 0 := by decide +kernel

theorem test_witness_blank : ∀ i : Fin 1024, bench.signatures.entries[i] = none := by
  intro i
  simp [bench, State.reset, State.atReset, SignatureTable.builtin]

theorem test_witness_SupervisionWritten :
    (Requester.decode (Requester.wildcardAdmin.encode 7)).isSome = true
    ∧ Requester.decode (Requester.wildcardAdmin.encode 0) = none
    ∧ Requester.decode ((Requester.wildcardAdmin.encode 1).set 22 4) = none
    ∧ Requester.decode ((Requester.wildcardAdmin.encode 1).set 9 3) = none
    ∧ bench.supervision.stationSet = false
    ∧ Station.decode (bench.supervision.station.encode) = some bench.supervision.station
    ∧ Station.decode ((bench.supervision.station.encode).set 0 1) = none
    ∧ Station.decode ((bench.supervision.station.encode).set 15 48) = none
    ∧ byteAt ((bench.supervision.station.encode).set 8 1) 8 = 1
    ∧ bench.notice.state = .idle ∧ bench.notice.device = ⟨none, none⟩
    ∧ ((bench.updPort 47 fun x => { x with events := { x.events with linkUp := some 1 } }).port 47).events
      ≠ PortEvents.empty
    ∧ (theCall .admin 0 []).alone = true := by decide +kernel

/-! ### Hypotheses of the statements on the arithmetic and the reports -/

theorem test_witness_ReflectionArithmetic :
    (reflectionRecord port17 .a .a (1261, 50)).beyond = false
    ∧ (reflectionRecord port17 .a .a (1262, 50)).beyond = true
    ∧ (reflectionRecord port17 .a .b (24, 1023)).saturated = false
    ∧ (reflectionRecord port17 .a .b (40, 1023)).saturated = true
    ∧ port17.geometry.distanceBins * port17.geometry.amplitudeBins = 256
    ∧ 1 ≤ port17.geometry.distanceBins ∧ (24 : Nat) ≤ port17.pathOffset := by decide +kernel

theorem test_witness_ReportsBuilt :
    (([(180, 60), (300, 30), (600, -44)].map (reflectionRecord port17 .b .b)).map
      ReflectionRecord.tick).Nodup
    ∧ (keptFor port17 [⟨.b, .a, List.replicate 1000 0 ++ [412]⟩] .b .a).length = 1
    ∧ (keptFor port17 [⟨.b, .a, List.replicate 1000 0 ++ [412]⟩] .b .a).map ReflectionRecord.tick = [1000]
    ∧ keptFor port17 [⟨.b, .a, List.replicate 32 0 ++ [412]⟩] .b .a = []
    ∧ keptFor port17 [] .b .b = []
    ∧ (crossFindings port17 entries88 [⟨.b, .a, List.replicate 1000 0 ++ [200, 0, 200]⟩]).map
      (fun c => c.reflection.distance) = [1262] ∧ entries88[(205 : Fin 1024)] = some ⟨.openEnd, 12⟩
    ∧ entries88[(1023 : Fin 1024)] = none
    ∧ (buildReport port17 entries88 0 ⟨0, [.b], 8, true, false, [],
      [⟨.b, .a, List.replicate 1000 0 ++ [412]⟩, ⟨.b, .b, List.replicate 1000 0 ++ [412]⟩], none, [],
        none⟩).length = some 1262 := by decide +kernel

/-! ### Single events on small states -/

/-- The state after an event. -/
def after (i : Instr) (s : State) : State :=
  match exec i s with
  | .next t => t
  | .fault _ | .refused _ => s

/-- Both quads' states at load completion (R17), the rejection of an absent image and its traces (R178). -/
theorem test_an_absent_image_is_rejected :
    let s : State := { State.reset with quads := State.reset.quads.set 0 true }
    let t := after (.imageFirstPassCompletion []) s
    t.loading = false ∧ t.startUp.outcome = some (.rejected .noAcknowledge) ∧ t.link 3 = .listen
      ∧ t.link 4 = .noLine ∧ t.notice.device = ⟨some 1, some 1⟩ ∧ t.supervision.accepting = true
      ∧ t.startUp.causes = ⟨true, false, false, true⟩ := by decide +kernel

/-- Energy in LISTEN begins EXCHANGE with the allowed rates (R34, R36). -/
theorem test_energy_in_listen_begins_exchange :
    let t := after (.energyOn 0) (bench.updTraining 0 fun x => { x with link := .listen })
    t.link 0 = .exchange ∧ t.outputs = [.command 0 (.sendAbility Rate.all)]
      ∧ (t.training 0).exchangeTimer = some 1500 := by decide +kernel

/-- The target of the partner's set is trained at once in a free group (R37, R39). -/
theorem test_ability_leads_to_train :
    let t := after (.partnerAbility 0 [10, 1000]) (inLink .exchange)
    t.link 0 = .train ∧ (t.training 0).target = some .r1000 ∧ t.outputs = [.command 0 (.startTrain .r1000)] := by
  decide +kernel

/-- The margin that the plan asks for verifies; one below it makes a record and trains again (R42, R43). -/
theorem test_margin_judged :
    (after (.trainDone 0 20) (inLink .train)).link 0 = .verify
    ∧ ((after (.trainDone 0 19) (inLink .train)).training 0).history = [⟨some .r1000, .lowMargin, some 19, 1, 0⟩]
    ∧ (after (.trainDone 0 19) (inLink .train)).link 0 = .train := by decide +kernel

/-- The verify timer brings the port up, its survey counting (R47, R144). -/
theorem test_verify_ends_in_up :
    let t := after (.verifyTimerExpiry 0) (inLink .verify)
    t.link 0 = .up ∧ (t.training 0).current = some .r1000 ∧ (t.survey 0).state = .counting
      ∧ (t.port 0).events.linkUp = some 1 := by decide +kernel

/-- The loss of a quad downs its ports with both events (R15, R49). -/
theorem test_quad_loss_downs_its_ports :
    let t := after (.quadLoss 0 []) (inLink .up)
    t.link 0 = .noLine ∧ (t.port 0).events.linkDown = some 1 ∧ (t.port 3).events.frontEndFault = some 1
      ∧ (t.port 4).events.frontEndFault = none := by decide +kernel

/-- At the loss of the quad under a sweep that runs UP, the sweep waits at its next port: that port has left UP
when the sweep looks at it (R89). -/
theorem test_quad_loss_leaves_a_sweep_waiting :
    let s : State :=
      { ((testing .capture).updTraining 1 fun t => { t with link := .up, current := some .r10 }) with
        queue := [{ testEntry 0 5 with
          kind := .test ⟨[.b], 8, false, false, some ⟨0, 2, false, 2, []⟩⟩
          state := .inFlight 0 }] }
    let t := after (.quadLoss 0 []) s
    (t.queue.map fun x => (x.port, x.state, x.sweep.map Sweep.results))
      = [((1 : Port), .waiting, some [⟨0, .frontEndFault, .notTested, none⟩])]
    ∧ t.link 1 = .noLine ∧ (t.engine 0).state = .idle := by decide +kernel

/-- A test offered on an idle engine is granted within the same event: HELD, QUIESCE and SILENCE (R73, R80,
R97). -/
theorem test_offered_test_is_granted :
    let t := after .testCable (asked (inLink .listen) 5 .operator 1 [0, 2, 8, 0, 0])
    t.link 0 = .held ∧ (t.engine 0).state = .quiesce ∧ t.mode 0 = .silencing
      ∧ t.queue.map QueueEntry.state = [.inFlight 0] ∧ (t.group 0).slot = some ⟨0, 0⟩ := by decide +kernel

/-- The measurement of a test: SILENT pulses the pair, the capture ends CAPTURE and frees the slot (R99, R100). -/
theorem test_capture_ends_in_analyze :
    let quiet := ((testing .quiesce).setMode 0 .silencing).updTest 0 fun t => { t with toGo := [.b] }
    let t := after (.captureSet 0 .b .b [0, 0]) (after (.silent 0) quiet)
    (after (.silent 0) quiet).mode 0 = .capturing .b [.b] ∧ t.mode 0 = .silentMode
      ∧ (t.engine 0).state = .analyze ∧ (t.testOf 0).map TestContext.captures = some [⟨.b, .b, [0, 0]⟩] := by
  decide +kernel

/-- The analysis of a test without reflections: a numbered NORMAL report, and RELEASE is sent (R102, R135). -/
theorem test_analysis_stores_a_report :
    let t := after (.analyzeCompletion 0) (testing .analyze)
    (t.port 0).report.map CableReport.worst = some .normal ∧ t.sequence = 1
      ∧ (t.engine 0).state = .restore ∧ t.outputs = [.command 0 .release] := by decide +kernel

/-- The end of RESTORE frees the engine and answers the entry (R104, R86). -/
theorem test_restore_ends_the_test :
    let t := after (.restoreCompletion 0) (restoring.updTraining 0 fun x => { x with energy := false })
    t.link 0 = .listen ∧ (t.engine 0).state = .idle ∧ t.queue = [] := by decide +kernel

/-- A survey's taps are stored as summary and baseline (R141, R148). -/
theorem test_taps_store_a_summary :
    let t := after (.taps 0 ⟨820, 210⟩ ⟨0, 0⟩ ⟨0, 0⟩ ⟨0, 0⟩) surveying
    (t.port 0).summary.map SurveySummary.length = some 1014 ∧ (t.port 0).baseline = (t.port 0).summary
      ∧ (t.engine 0).state = .idle ∧ t.queue = [] ∧ (t.survey 0).state = .counting := by decide +kernel

/-- A frame to the supervisor takes a reply slot; its READ_STATUS is answered in a frame of 64 bytes or more
toward the switch (R158, R163, R166). -/
theorem test_read_status_is_answered :
    let s := after (.switchToLineFrameArrival 0 (sealFrame (requestBody 1 [4, 0, 0, 9, 0, 0]))) bench
    let t := after .readStatus s
    (s.slot 0).map ReplySlot.tag = some 7 ∧ s.supervision.requests.length = 1
      ∧ (t.slot 0).map ReplySlot.sending = some true
      ∧ ((t.traffic 0).sending.map fun f => decide (64 ≤ f.bytes.length)) = some true
      ∧ (after (.transmissionCompletion 0 ⟨0, []⟩) t).slot 0 = none := by decide +kernel

/-- RESET_PART resets the part when its reply has been sent (R168). -/
theorem test_reset_part :
    let t := after (.transmissionCompletion 0 ⟨5, []⟩) (after .resetPart (asked bench 18 .admin 0 []))
    t.loading = true ∧ t.startUp.straps = 5 ∧ t.startUp.causes = ⟨true, false, true, false⟩ := by decide +kernel

/-- The writes of single records, and a geometry refused under a lock (R55, R127, R128, R130, R167). -/
theorem test_writes_store :
    (after .setGeometry (asked (locked 1008) 14 .admin 0 [64, 4, 6, 64])).signatures.geometry = ⟨32, 8, 1600⟩
    ∧ (after .lowerLock (asked bench 15 .admin 0 [2, 0])).signatures.lock = 512
    ∧ (after .writeSignatures (asked bench 12 .admin 0 [0, 205, 1, 0x6C])).signatures.entries[(205 : Fin 1024)]
      = some ⟨.openEnd, 12⟩
    ∧ ((after .writeRequester (asked bench 16 .admin 0
      (Requester.wildcardAdmin.encode 7))).supervision.requesters[(7 : RequesterId)]).inUse = true
    ∧ (after .retrain (asked (inLink .up) 8 .operator 1 [0, 3])).link 0 = .exchange
    ∧ ((after .retrain (asked (inLink .up) 8 .operator 1 [0, 3])).training 0).demoted = [.r2500, .r5000] := by
  decide +kernel

/-- A notice for one event of one port (R171, R172). -/
theorem test_notice_is_sent :
    let t := after .holdoffTimerExpiry (holding (some 2) (some 1))
    t.notice.state = .sending ∧ (t.port 47).events = PortEvents.empty ∧ t.notice.scanStart = 0
      ∧ (t.traffic 0).sending.map OutFrame.source = some .notice := by decide +kernel

end Sys2Proof.Tests
end

