-- ==== Sys2Proof/Proofs/Selection.lean ====
section
/-! PROOF. Grant selection (R77, R79): the model's Boolean test of eligibility says the conditions of R77, and
its choice is the first entry of the highest rank. -/

namespace Sys2Proof.Machine

/-! ### Eligibility (R77) -/

theorem State.portInFlight_eq_false_iff (s : State) (p : Port) :
    s.portInFlight p = false ↔ ∀ y ∈ s.queue, y.state ≠ .waiting → y.port ≠ p := by
  simp [State.portInFlight, QueueEntry.waiting]

theorem State.otherInTrain_eq_false_iff (s : State) (g : Group) (p : Port) :
    s.otherInTrain g p = false ↔ ∀ q, q ≠ p → s.groupOf q = g → s.link q ≠ .train := by
  simp [State.otherInTrain, allPorts]

/-- The condition of R77 that depends on the entry's kind. -/
theorem State.eligible_kind_iff (s : State) (x : QueueEntry) :
    (if x.isSurvey then s.link x.port == .up
      else (s.group (s.groupOf x.port)).slot.isNone && !s.otherInTrain (s.groupOf x.port) x.port) = true
    ↔ (x.isSurvey = true → s.link x.port = .up)
      ∧ (x.isSurvey = false → (s.group (s.groupOf x.port)).slot = none
        ∧ ∀ q, q ≠ x.port → s.groupOf q = s.groupOf x.port → s.link q ≠ .train) := by
  cases x.isSurvey with
  | true => simp
  | false => simp [State.otherInTrain_eq_false_iff]

/-- The entries that a selection looks at are those that R77 lets it grant. -/
theorem State.considered_iff_mayGrant (s : State) (e : EngineId) (x : QueueEntry) :
    (engineOf x.port == e && s.eligible x) = true ↔ s.mayGrant e x := by
  simp only [State.eligible, State.mayGrant, QueueEntry.waiting, Bool.and_eq_true, beq_iff_eq,
    Bool.not_eq_true', State.portInFlight_eq_false_iff, State.eligible_kind_iff, and_assoc]
  constructor
  · rintro ⟨rfl, conditions⟩
    exact ⟨rfl, conditions⟩
  · rintro ⟨rfl, conditions⟩
    exact ⟨rfl, conditions⟩

/-! ### First of the highest -/

/-- An entry leads a list among the members that meet a condition: it stands above each such member before
it, and no such member after it stands above it. -/
def LeadsAmong (above : QueueEntry → QueueEntry → Prop) (meets : QueueEntry → Prop) (xs : List QueueEntry)
    (x : QueueEntry) : Prop :=
  meets x ∧ ∃ before after, xs = before ++ x :: after ∧ (∀ y ∈ before, meets y → above x y)
    ∧ ∀ y ∈ after, meets y → ¬ above y x

/-- An entry leads a whole list. -/
abbrev Leads (above : QueueEntry → QueueEntry → Prop) : List QueueEntry → QueueEntry → Prop :=
  LeadsAmong above fun _ => True

/-- The leader of the members kept by a test leads the list among those that meet it. -/
theorem Leads.among_of_filter {above : QueueEntry → QueueEntry → Prop} {meets : QueueEntry → Prop}
    {keep : QueueEntry → Bool} (hkeep : ∀ y, keep y = true ↔ meets y) {xs : List QueueEntry} {x : QueueEntry}
    (h : Leads above (xs.filter keep) x) : LeadsAmong above meets xs x := by
  obtain ⟨-, kept, keptAfter, hsplit, hbefore, hafter⟩ := h
  obtain ⟨front, back, rfl, rfl, hback⟩ := List.filter_eq_append_iff.mp hsplit
  obtain ⟨between, after, rfl, hbetween, hx, rfl⟩ := List.filter_eq_cons_iff.mp hback
  refine ⟨(hkeep x).mp hx, front ++ between, after, by simp, fun y hy my => ?_, fun y hy my => ?_⟩
  · rcases List.mem_append.mp hy with hf | hb
    · exact hbefore y (List.mem_filter.mpr ⟨hf, (hkeep y).mpr my⟩) trivial
    · exact absurd ((hkeep y).mpr my) (hbetween y hb)
  · exact hafter y (List.mem_filter.mpr ⟨hy, (hkeep y).mpr my⟩) trivial

/-- An order in which the leader stands above the members outside the condition as well, and is otherwise the
old one, has the same leader in the whole list. -/
theorem LeadsAmong.leads {above higher : QueueEntry → QueueEntry → Prop} {meets : QueueEntry → Prop}
    {xs : List QueueEntry} {x : QueueEntry} (h : LeadsAmong above meets xs x)
    (hbefore : ∀ y ∈ xs, (meets y → above x y) → higher x y)
    (hafter : ∀ y ∈ xs, (meets y → ¬ above y x) → ¬ higher y x) : Leads higher xs x := by
  obtain ⟨-, before, after, rfl, hb, ha⟩ := h
  exact ⟨trivial, before, after, rfl, fun y hy _ => hbefore y (by simp [hy]) (hb y hy),
    fun y hy _ => hafter y (by simp [hy]) (ha y hy)⟩

/-! ### The highest class (R79, items 3 and 4) -/

/-- The first entry has a higher priority class than the second. -/
def classAbove (x y : QueueEntry) : Prop := y.priority < x.priority

theorem Leads.priority_le {xs : List QueueEntry} {x : QueueEntry} (h : Leads classAbove xs x) :
    ∀ y ∈ xs, y.priority ≤ x.priority := by
  obtain ⟨-, before, after, rfl, hbefore, hafter⟩ := h
  intro y hy
  rcases List.mem_append.mp hy with hb | hrest
  · exact Nat.le_of_lt (hbefore y hb trivial)
  · rcases List.mem_cons.mp hrest with rfl | ha
    · exact Nat.le_refl _
    · exact Nat.not_lt.mp (hafter y ha trivial)

theorem highestClass_eq_none_iff (xs : List QueueEntry) : highestClass xs = none ↔ xs = [] := by
  cases xs with
  | nil => simp [highestClass]
  | cons y rest =>
    simp only [highestClass, reduceCtorEq, iff_false]
    split
    · simp
    · split <;> simp

theorem highestClass_leads {xs : List QueueEntry} {x : QueueEntry} (h : highestClass xs = some x) :
    Leads classAbove xs x := by
  induction xs generalizing x with
  | nil => simp [highestClass] at h
  | cons y rest ih =>
    simp only [highestClass] at h
    split at h
    next hrest =>
      obtain rfl := Option.some.inj h
      obtain rfl := (highestClass_eq_none_iff rest).mp hrest
      exact ⟨trivial, [], [], rfl, by simp, by simp⟩
    next z hrest =>
      split at h
      next hlt =>
        obtain rfl := Option.some.inj h
        obtain ⟨-, before, after, rfl, hbefore, hafter⟩ := ih hrest
        exact ⟨trivial, y :: before, after, rfl, List.forall_mem_cons.mpr ⟨fun _ => hlt, hbefore⟩, hafter⟩
      next hge =>
        obtain rfl := Option.some.inj h
        refine ⟨trivial, [], rest, rfl, by simp, fun w hw _ => ?_⟩
        exact Nat.not_lt.mpr (Nat.le_trans ((ih hrest).priority_le w hw) (Nat.not_lt.mp hge))

/-! ### The choice (R79) -/

/-- The first entry has a higher rank than the second. -/
def State.ranksAbove (s : State) (x y : QueueEntry) : Prop := outranks (s.rank x) (s.rank y)

theorem State.rank_of_urgent {s : State} {x : QueueEntry} (h : x.urgent = true) : s.rank x = (2, 0) := by
  simp [State.rank, h]

theorem State.rank_of_not_urgent {s : State} {x : QueueEntry} (h : x.urgent = false) :
    s.rank x = ((s.quiet x).toNat, x.priority) := by
  simp only [State.rank, State.quiet, h]
  cases x.isSurvey || s.link x.port != .up <;> simp

theorem State.ranksAbove_of_urgent {s : State} {x y : QueueEntry} (hx : x.urgent = true)
    (hy : y.urgent = false) : s.ranksAbove x y := by
  rw [State.ranksAbove, rank_of_urgent hx, rank_of_not_urgent hy]
  exact .inl (by cases s.quiet y <;> simp)

theorem State.not_ranksAbove_urgent {s : State} {x : QueueEntry} (hx : x.urgent = true) (y : QueueEntry) :
    ¬ s.ranksAbove y x := by
  rw [State.ranksAbove, rank_of_urgent hx]
  cases hy : y.urgent with
  | true => simp [rank_of_urgent hy, outranks]
  | false => rw [rank_of_not_urgent hy]; cases s.quiet y <;> simp [outranks]

/-- Between entries without the urgent mark quietness decides first, and then the class. -/
theorem State.ranksAbove_iff_of_not_urgent {s : State} {x y : QueueEntry} (hx : x.urgent = false)
    (hy : y.urgent = false) : s.ranksAbove x y ↔
      (s.quiet x = true ∧ s.quiet y = false) ∨ (s.quiet x = s.quiet y ∧ classAbove x y) := by
  rw [State.ranksAbove, rank_of_not_urgent hx, rank_of_not_urgent hy]
  cases s.quiet x <;> cases s.quiet y <;> simp [outranks, classAbove]

/-- The leader by class of a list with neither urgent nor quiet entries leads it by rank. -/
theorem Leads.of_loud {s : State} {xs : List QueueEntry} {x : QueueEntry} (h : Leads classAbove xs x)
    (hx : x ∈ xs) (calm : ∀ y ∈ xs, y.urgent = false) (loud : ∀ y ∈ xs, s.quiet y = false) :
    Leads s.ranksAbove xs x := by
  refine h.leads (fun y hy hb => ?_) (fun y hy ha => ?_)
  · rw [State.ranksAbove_iff_of_not_urgent (calm x hx) (calm y hy)]
    exact .inr ⟨(loud x hx).trans (loud y hy).symm, hb trivial⟩
  · simpa [State.ranksAbove_iff_of_not_urgent (calm y hy) (calm x hx), loud x hx, loud y hy] using ha trivial

/-- The leader by class among the quiet entries of a list without urgent ones leads it by rank. -/
theorem LeadsAmong.of_quiet {s : State} {xs : List QueueEntry} {x : QueueEntry}
    (h : LeadsAmong classAbove (fun y => s.quiet y = true) xs x) (hx : x ∈ xs)
    (calm : ∀ y ∈ xs, y.urgent = false) : Leads s.ranksAbove xs x := by
  have hquiet : s.quiet x = true := h.1
  refine h.leads (fun y hy hb => ?_) (fun y hy ha => ?_)
  · rw [State.ranksAbove_iff_of_not_urgent (calm x hx) (calm y hy)]
    cases hq : s.quiet y with
    | true => exact .inr ⟨hquiet, hb hq⟩
    | false => exact .inl ⟨hquiet, rfl⟩
  · rw [State.ranksAbove_iff_of_not_urgent (calm y hy) (calm x hx)]
    rintro (⟨-, hloud⟩ | ⟨hq, habove⟩)
    · simp [hquiet] at hloud
    · exact ha (hq.trans hquiet) habove

theorem State.choose_eq_none_iff (s : State) (xs : List QueueEntry) : s.choose xs = none ↔ xs = [] := by
  cases hfind : xs.find? fun x => x.urgent with
  | some x =>
    have hne : xs ≠ [] := List.ne_nil_of_mem (List.mem_of_find?_eq_some hfind)
    simp [State.choose, hfind, hne]
  | none =>
    simp only [State.choose, hfind, highestClass_eq_none_iff]
    split
    · rfl
    next hquiet =>
      have hne : xs ≠ [] := by rintro rfl; exact hquiet rfl
      simpa [hne] using hquiet

theorem State.choose_leads {s : State} {xs : List QueueEntry} {x : QueueEntry} (h : s.choose xs = some x) :
    Leads s.ranksAbove xs x := by
  have hx := State.choose_mem h
  cases hfind : xs.find? fun y => y.urgent with
  | some z =>
    simp only [State.choose, hfind, Option.some.injEq] at h
    subst h
    obtain ⟨hurgent, before, after, rfl, hbefore⟩ := List.find?_eq_some_iff_append.mp hfind
    exact ⟨trivial, before, after, rfl,
      fun y hy _ => ranksAbove_of_urgent hurgent (by simpa using hbefore y hy),
      fun y _ _ => not_ranksAbove_urgent hurgent y⟩
  | none =>
    have calm : ∀ y ∈ xs, y.urgent = false := by simpa using hfind
    simp only [State.choose, hfind] at h
    split at h
    next hquiet => exact (highestClass_leads h).of_loud hx calm (by simpa using hquiet)
    next => exact ((highestClass_leads h).among_of_filter fun _ => Iff.rfl).of_quiet hx calm

/-! ### Selection -/

theorem State.selection_eq_none_iff (s : State) (e : EngineId) :
    s.selection e = none ↔ ∀ x ∈ s.queue, ¬ s.mayGrant e x := by
  rw [State.selection, State.choose_eq_none_iff, List.filter_eq_nil_iff]
  simp only [State.considered_iff_mayGrant]

theorem State.selection_leads {s : State} {e : EngineId} {x : QueueEntry} (h : s.selection e = some x) :
    LeadsAmong s.ranksAbove (s.mayGrant e) s.queue x :=
  (State.choose_leads h).among_of_filter (s.considered_iff_mayGrant e)

/-- Settles O37: an empty choice is an empty list of eligible entries, and the chosen entry leads them by
rank. -/
theorem selectionOrder : Obligations.SelectionOrder := fun s e =>
  ⟨s.selection_eq_none_iff e, fun _ h => State.selection_leads h⟩

end Sys2Proof.Machine
end

