-- ==== Sys2Proof/Proofs/ReflectionArithmetic.lean ====
section
/-! PROOF. The reflection arithmetic (chapter 7): the peak candidates of a capture set, what becomes of one of
them from its distance to its signature index, and the same steps on the taps of a survey. -/

namespace Sys2Proof.Machine

/-! ### Distance (R116 to R118) -/

theorem netDelay_eq_ite (pathOffset tick : Nat) :
    netDelay pathOffset tick = if pathOffset ≤ tick then tick - pathOffset else 0 := by
  unfold netDelay
  split <;> omega

theorem reachClamp_of_le {reach distance : Nat} (h : distance ≤ reach) : reachClamp reach distance = distance :=
  if_neg (Nat.not_lt.mpr h)

theorem reachClamp_of_lt {reach distance : Nat} (h : reach < distance) : reachClamp reach distance = reach :=
  if_pos h

/-! ### Loss compensation and saturation (R119, R120) -/

/-- A magnitude with the sign of a product. -/
def signed (product : Int) (magnitude : Nat) : Int := if 0 < product then (magnitude : Int) else -magnitude

/-- Truncation toward zero divides the magnitude and keeps the sign. -/
theorem compensate_eq_signed (slope distance : Nat) (sample : Int) :
    compensate slope distance sample = signed (sample * (lossFactor slope distance : Int))
      ((sample * (lossFactor slope distance : Int)).natAbs / 1024) := by
  simp only [compensate, signed]
  generalize sample * (lossFactor slope distance : Int) = product
  split
  next hpos =>
    rw [Int.tdiv_eq_ediv_of_nonneg (Int.le_of_lt hpos)]
    omega
  next hneg =>
    obtain ⟨magnitude, rfl⟩ : ∃ n : Nat, product = -n := ⟨product.natAbs, by omega⟩
    simp

@[simp] theorem natAbs_signed (product : Int) (magnitude : Nat) : (signed product magnitude).natAbs = magnitude := by
  unfold signed
  split <;> simp

theorem saturateComp_signed_of_lt {product : Int} {magnitude : Nat} (h : 1023 < magnitude) :
    saturateComp (signed product magnitude) = if 0 < product then 1023 else -1023 := by
  by_cases hpos : 0 < product
  · rw [signed, if_pos hpos, if_pos hpos, saturateComp, if_pos (by omega)]
  · rw [signed, if_neg hpos, if_neg hpos, saturateComp, if_neg (by omega), if_pos (by omega)]

theorem saturateComp_signed_of_le {product : Int} {magnitude : Nat} (h : magnitude ≤ 1023) :
    saturateComp (signed product magnitude) = signed product magnitude := by
  have hbound : (signed product magnitude).natAbs ≤ 1023 := by rwa [natAbs_signed]
  rw [saturateComp, if_neg (by omega), if_neg (by omega)]

/-! ### The signature index (R123) -/

/-- A quarter of a table is a run of as many indices as it has pairs of bins. -/
theorem index_mem_quarter {quarter D A dbin abin : Nat} (hd : dbin < D) (ha : abin < A) :
    quarter * (D * A) ≤ (quarter * D + dbin) * A + abin
      ∧ (quarter * D + dbin) * A + abin < (quarter + 1) * (D * A) := by
  have hbins : dbin * A + abin < D * A :=
    calc dbin * A + abin < (dbin + 1) * A := by rw [Nat.succ_mul]; omega
      _ ≤ D * A := Nat.mul_le_mul_right A hd
  have hsplit : (quarter * D + dbin) * A + abin = quarter * (D * A) + (dbin * A + abin) := by
    rw [Nat.add_mul, Nat.mul_assoc, Nat.add_assoc]
  rw [hsplit, Nat.succ_mul]
  omega

theorem signatureIndex_mem_quarter {g : Geometry} (hbins : g.distanceBins * g.amplitudeBins = 256)
    (cross : Bool) (distance : Nat) (comp : Int) :
    let quarter := cross.toNat * 2 + (decide (comp < 0)).toNat
    quarter * 256 ≤ signatureIndex g cross distance comp
      ∧ signatureIndex g cross distance comp < (quarter + 1) * 256 := by
  have hD : 0 < g.distanceBins := Nat.pos_of_ne_zero fun h => by simp [h] at hbins
  have hA : 0 < g.amplitudeBins := Nat.pos_of_ne_zero fun h => by simp [h] at hbins
  rw [← hbins]
  exact index_mem_quarter (by omega) (by omega)

theorem toNat_bne_pair (x y : Pair) : (x != y).toNat = if x = y then 0 else 1 := by
  by_cases h : x = y <;> simp [h]

theorem toNat_decide_neg (comp : Int) : (decide (comp < 0)).toNat = if 0 ≤ comp then 0 else 1 := by
  by_cases h : 0 ≤ comp
  · simp [h]
  · simp [h, Int.not_le.mp h]

/-! ### Reflection records (R113) -/

section Record
variable (k : ArithmeticInputs) (pulsed listening : Pair) (tick : Nat) (sample : Int)

/-- The distance of a tick before the reach clamp. -/
def ArithmeticInputs.rawDistance : Nat := distanceOf (netDelay k.pathOffset tick) k.nvp

theorem ArithmeticInputs.rawDistance_eq :
    k.rawDistance tick
      = ((if k.pathOffset ≤ tick then tick - k.pathOffset else 0) * k.nvp * 1874 + 500000) / 1000000 := by
  rw [← netDelay_eq_ite]; rfl

theorem reflectionRecord_distance :
    (reflectionRecord k pulsed listening (tick, sample)).distance
      = reachClamp k.geometry.reach (k.rawDistance tick) := rfl

theorem reflectionRecord_beyond :
    (reflectionRecord k pulsed listening (tick, sample)).beyond
      = decide (k.geometry.reach < k.rawDistance tick) := rfl

theorem reflectionRecord_index :
    let r := reflectionRecord k pulsed listening (tick, sample)
    r.index = if r.beyond then none
      else some (signatureIndex k.geometry (pulsed != listening) r.distance r.comp) := rfl

/-- The sample times its loss factor at the clamped distance. -/
def ArithmeticInputs.product : Int :=
  sample * (lossFactor k.slope (reachClamp k.geometry.reach (k.rawDistance tick)) : Int)

theorem ArithmeticInputs.product_eq :
    k.product tick sample = sample * (1024
      + k.slope * ((reflectionRecord k pulsed listening (tick, sample)).distance / 10 : Nat)) := by
  simp [ArithmeticInputs.product, lossFactor, reflectionRecord_distance]

theorem reflectionRecord_comp :
    (reflectionRecord k pulsed listening (tick, sample)).comp
      = saturateComp (signed (k.product tick sample) ((k.product tick sample).natAbs / 1024)) :=
  congrArg saturateComp (compensate_eq_signed _ _ _)

theorem reflectionRecord_saturated :
    (reflectionRecord k pulsed listening (tick, sample)).saturated
      = decide (1023 < (k.product tick sample).natAbs / 1024) := by
  have hfull : (reflectionRecord k pulsed listening (tick, sample)).saturated
      = decide (1023 < (signed (k.product tick sample) ((k.product tick sample).natAbs / 1024)).natAbs) :=
    congrArg (fun full : Int => decide (1023 < full.natAbs)) (compensate_eq_signed _ _ _)
  rwa [natAbs_signed] at hfull

/-- A tick within reach keeps its distance (R117). -/
theorem reflectionRecord_within (h : k.rawDistance tick ≤ k.geometry.reach) :
    let r := reflectionRecord k pulsed listening (tick, sample)
    r.distance = k.rawDistance tick ∧ r.beyond = false := by
  simp [reflectionRecord_distance, reflectionRecord_beyond, reachClamp_of_le h, h]

/-- A tick beyond reach is clamped and gets no index (R118). -/
theorem reflectionRecord_clamped (h : k.geometry.reach < k.rawDistance tick) :
    let r := reflectionRecord k pulsed listening (tick, sample)
    r.distance = k.geometry.reach ∧ r.beyond = true ∧ r.index = none := by
  simp [reflectionRecord_distance, reflectionRecord_index, reflectionRecord_beyond, reachClamp_of_lt h, h]

/-- R120 where it saturates. -/
theorem reflectionRecord_saturates (h : 1023 < (k.product tick sample).natAbs / 1024) :
    let r := reflectionRecord k pulsed listening (tick, sample)
    r.saturated = true ∧ r.comp = if 0 < k.product tick sample then 1023 else -1023 :=
  ⟨by simpa [reflectionRecord_saturated] using h,
    by rw [reflectionRecord_comp, saturateComp_signed_of_lt h]⟩

/-- R119 where R120 leaves it as it is. -/
theorem reflectionRecord_unsaturated (h : (k.product tick sample).natAbs / 1024 ≤ 1023) :
    let r := reflectionRecord k pulsed listening (tick, sample)
    r.saturated = false
      ∧ r.comp = signed (k.product tick sample) ((k.product tick sample).natAbs / 1024) :=
  ⟨by simpa [reflectionRecord_saturated] using h,
    by rw [reflectionRecord_comp, saturateComp_signed_of_le h]⟩

/-- A record within reach has the index of R123, in the quarter of its relation and polarity. -/
theorem reflectionRecord_indexed (h : (reflectionRecord k pulsed listening (tick, sample)).beyond = false) :
    let r := reflectionRecord k pulsed listening (tick, sample)
    let relation := if pulsed = listening then 0 else 1
    let polarity := if 0 ≤ r.comp then 0 else 1
    ∃ i, r.index = some i ∧ ∀ D A : Nat, D = k.geometry.distanceBins → A = k.geometry.amplitudeBins →
      let dbin := min (D - 1) (r.distance * D / k.geometry.reach)
      let abin := min (A - 1) (r.comp.natAbs * A / 1024)
      i = ((relation * 2 + polarity) * D + dbin) * A + abin
      ∧ (D * A = 256 → 1 ≤ D → (relation * 2 + polarity) * 256 ≤ i
        ∧ i < (relation * 2 + polarity + 1) * 256) := by
  intro r relation polarity
  have hquarter : (pulsed != listening).toNat * 2 + (decide (r.comp < 0)).toNat = relation * 2 + polarity := by
    rw [toNat_bne_pair, toNat_decide_neg]
  refine ⟨signatureIndex k.geometry (pulsed != listening) r.distance r.comp, ?_, ?_⟩
  · rw [reflectionRecord_index, h]; rfl
  · rintro _ _ rfl rfl
    refine ⟨?_, fun hbins _ => ?_⟩
    · simp only [signatureIndex, hquarter]
    · exact hquarter ▸ signatureIndex_mem_quarter hbins (pulsed != listening) r.distance r.comp

end Record

/-! ### Peak candidates (R114, R115) -/

theorem sameSign_iff (sample neighbour : Int) :
    sameSign sample neighbour = true ↔ neighbour = 0 ∨ (0 < neighbour ↔ 0 < sample) := by
  simp [sameSign]

theorem isExtremum_iff (left sample : Int) (right : Option Int) :
    isExtremum left sample right = true ↔
      (left.natAbs ≤ sample.natAbs ∧ (left = 0 ∨ (0 < left ↔ 0 < sample)))
      ∧ ∀ r, right = some r → r.natAbs < sample.natAbs ∧ (r = 0 ∨ (0 < r ↔ 0 < sample)) := by
  cases right with
  | none => simp [isExtremum, sameSign_iff]
  | some r => simp [isExtremum, sameSign_iff]

/-- A sample with its neighbours is a candidate, as far as the sample values tell (R114 items 2 and 3). -/
def IsPeak (left sample : Int) (right : Option Int) : Prop :=
  4 ≤ sample.natAbs ∧ isExtremum left sample right = true

/-- The scan lists its first sample when that is a candidate after the start, and goes on with the rest. -/
theorem mem_peaksFrom_cons (start base : Nat) (left y : Int) (rest : List Int) (c : Nat × Int) :
    c ∈ peaksFrom start base left (y :: rest) ↔
      (c = (base, y) ∧ start < base ∧ IsPeak left y rest.head?) ∨ c ∈ peaksFrom start (base + 1) y rest := by
  have hzero : 4 ≤ y.natAbs → y ≠ 0 := by rintro h rfl; simp at h
  have hhere : (start < base && 4 ≤ y.natAbs && y != 0 && isExtremum left y rest.head?) = true
      ↔ start < base ∧ IsPeak left y rest.head? := by
    simp only [IsPeak, Bool.and_eq_true, decide_eq_true_eq, bne_iff_ne]
    constructor
    · rintro ⟨⟨⟨hstart, hmagnitude⟩, -⟩, hextremum⟩
      exact ⟨hstart, hmagnitude, hextremum⟩
    · rintro ⟨hstart, hmagnitude, hextremum⟩
      exact ⟨⟨⟨hstart, hmagnitude⟩, hzero hmagnitude⟩, hextremum⟩
  rw [peaksFrom]
  split
  next hpeak => simp [hhere.mp hpeak]
  next hnot =>
    have hnoPeak := mt hhere.mpr hnot
    simp [hnoPeak]

/-- The candidates of a scan are the peaks among its samples after the start, each at its tick and compared
with the sample before it. -/
theorem mem_peaksFrom_iff (start tick : Nat) (x : Int) :
    ∀ (samples : List Int) (base : Nat) (left : Int), (tick, x) ∈ peaksFrom start base left samples ↔
      start < tick ∧ ∃ i l, tick = base + i ∧ samples[i]? = some x ∧ (left :: samples)[i]? = some l
        ∧ IsPeak l x samples[i + 1]? := by
  intro samples
  induction samples with
  | nil => simp [peaksFrom]
  | cons y rest ih =>
    intro base left
    rw [mem_peaksFrom_cons, ih]
    constructor
    · rintro (⟨hc, hstart, hpeak⟩ | ⟨hstart, i, l, rfl, hx, hl, hpeak⟩)
      · obtain ⟨rfl, rfl⟩ := Prod.mk.inj hc
        exact ⟨hstart, 0, left, rfl, rfl, rfl, by simpa [List.head?_eq_getElem?] using hpeak⟩
      · exact ⟨hstart, i + 1, l, by omega, by simpa using hx, by simpa using hl, by simpa using hpeak⟩
    · rintro ⟨hstart, i, l, rfl, hx, hl, hpeak⟩
      cases i with
      | zero =>
        obtain rfl : y = x := by simpa using hx
        obtain rfl : left = l := by simpa using hl
        exact .inl ⟨rfl, hstart, by simpa [List.head?_eq_getElem?] using hpeak⟩
      | succ i =>
        exact .inr ⟨hstart, i, l, by omega, by simpa using hx, by simpa using hl, by simpa using hpeak⟩

/-- R114 and R115 for a capture set: the sample before a candidate is there, as no start lies below tick 0. -/
theorem mem_peaks_iff (start : Nat) (samples : List Int) (tick : Nat) (x : Int) :
    (tick, x) ∈ peaks start samples ↔
      samples[tick]? = some x ∧ start < tick ∧ 4 ≤ x.natAbs
      ∧ (∀ left, samples[tick - 1]? = some left →
        left.natAbs ≤ x.natAbs ∧ (left = 0 ∨ (0 < left ↔ 0 < x)))
      ∧ ∀ right, samples[tick + 1]? = some right →
        right.natAbs < x.natAbs ∧ (right = 0 ∨ (0 < right ↔ 0 < x)) := by
  rw [peaks, mem_peaksFrom_iff]
  constructor
  · rintro ⟨hstart, i, l, hi, hx, hl, hmagnitude, hextremum⟩
    obtain rfl : tick = i := by omega
    obtain ⟨before, rfl⟩ : ∃ n, tick = n + 1 := ⟨tick - 1, by omega⟩
    obtain ⟨hleft, hright⟩ := (isExtremum_iff ..).mp hextremum
    refine ⟨hx, hstart, hmagnitude, fun left hleftAt => ?_, hright⟩
    obtain rfl : left = l := Option.some.inj (hleftAt.symm.trans hl)
    exact hleft
  · rintro ⟨hx, hstart, hmagnitude, hleft, hright⟩
    obtain ⟨before, rfl⟩ : ∃ n, tick = n + 1 := ⟨tick - 1, by omega⟩
    obtain ⟨hlength, -⟩ := List.getElem?_eq_some_iff.mp hx
    have hl : samples[before]? = some samples[before] := List.getElem?_eq_getElem (by omega)
    exact ⟨hstart, before + 1, samples[before], by omega, hx, hl, hmagnitude,
      (isExtremum_iff ..).mpr ⟨hleft _ hl, hright⟩⟩

/-- A scan lists its candidates by tick: those of the rest lie after its first tick. -/
theorem peaksFrom_pairwise (start : Nat) :
    ∀ (samples : List Int) (base : Nat) (left : Int),
      (peaksFrom start base left samples).Pairwise fun a b => a.1 < b.1 := by
  intro samples
  induction samples with
  | nil => simp [peaksFrom]
  | cons y rest ih =>
    intro base left
    rw [peaksFrom]
    split
    · refine List.pairwise_cons.mpr ⟨?_, ih _ _⟩
      rintro ⟨tick, x⟩ hlater
      obtain ⟨-, i, -, rfl, -⟩ := (mem_peaksFrom_iff start tick x rest (base + 1) y).mp hlater
      change base < base + 1 + i
      omega
    · exact ih _ _

/-! ### The survey arithmetic (R125) -/

/-- The record that the arithmetic would make of a tap. -/
def tapRecord (k : ArithmeticInputs) (t : Tap) : ReflectionRecord :=
  reflectionRecord k .a .a (t.position, t.magnitude)

theorem surveySummary_lengths (k : ArithmeticInputs) (a b c d : Tap) :
    (surveySummary k a b c d).lengths = #v[(tapRecord k a).distance, (tapRecord k b).distance,
      (tapRecord k c).distance, (tapRecord k d).distance] := rfl

theorem surveySummary_healths (k : ArithmeticInputs) (a b c d : Tap) :
    (surveySummary k a b c d).healths = #v[(tapRecord k a).comp, (tapRecord k b).comp, (tapRecord k c).comp,
      (tapRecord k d).comp] := rfl

theorem getElem_le_max_four (a b c d : Nat) : ∀ i : Fin 4, #v[a, b, c, d][i] ≤ max (max a b) (max c d)
  | 0 => Nat.le_trans (Nat.le_max_left a b) (Nat.le_max_left _ _)
  | 1 => Nat.le_trans (Nat.le_max_right a b) (Nat.le_max_left _ _)
  | 2 => Nat.le_trans (Nat.le_max_left c d) (Nat.le_max_right _ _)
  | 3 => Nat.le_trans (Nat.le_max_right c d) (Nat.le_max_right _ _)

theorem eq_max_or (a b : Nat) : a = max a b ∨ b = max a b := by omega

theorem exists_getElem_eq_max_four (a b c d : Nat) :
    ∃ i : Fin 4, #v[a, b, c, d][i] = max (max a b) (max c d) := by
  rcases eq_max_or (max a b) (max c d) with hhalf | hhalf <;> rw [← hhalf]
  · rcases eq_max_or a b with h | h
    · exact ⟨0, h⟩
    · exact ⟨1, h⟩
  · rcases eq_max_or c d with h | h
    · exact ⟨2, h⟩
    · exact ⟨3, h⟩

/-- Settles O55, rule by rule: the record of a candidate, the peaks of a capture set and their order, and the
taps of a survey as records of their own. -/
theorem reflectionArithmetic : Obligations.ReflectionArithmetic := by
  refine ⟨fun k pulsed listening tick sample => ?_, mem_peaks_iff, fun start samples =>
    peaksFrom_pairwise start samples 0 0, fun k a b c d => ?_⟩
  · intro r net dist factor quotient
    have hdist : k.rawDistance tick = dist := k.rawDistance_eq tick
    have hproduct : k.product tick sample = sample * factor := k.product_eq pulsed listening tick sample
    have hquotient : (k.product tick sample).natAbs / 1024 = quotient := by rw [hproduct]
    refine ⟨rfl, rfl, rfl, ?_, ?_, ?_, ?_, reflectionRecord_indexed k pulsed listening tick sample⟩
    · exact hdist ▸ reflectionRecord_within k pulsed listening tick sample
    · exact hdist ▸ reflectionRecord_clamped k pulsed listening tick sample
    · rw [← hproduct, ← hquotient]
      exact reflectionRecord_saturates k pulsed listening tick sample
    · rw [← hproduct, ← hquotient]
      exact reflectionRecord_unsaturated k pulsed listening tick sample
  · exact ⟨surveySummary_lengths k a b c d, surveySummary_healths k a b c d, getElem_le_max_four _ _ _ _,
      exists_getElem_eq_max_four _ _ _ _⟩

end Sys2Proof.Machine
end

