-- ==== Sys2Proof/Proofs/SignatureTable.lean ====
section
/-! PROOF. The four requests that write the signature table (R127 to R130): what each comes to as its checks
pass or fail, and what the event of a request that changes the signature table alone answers. -/

namespace Sys2Proof.Machine

/-! ### Requests that change the signature table alone -/

theorem State.SameBlocking.signatures (s : State) (x : SignatureTable) :
    s.SameBlocking { s with signatures := x } := ⟨rfl, rfl, fun _ => rfl, fun _ => rfl, fun _ => rfl⟩

/-- Taking a request entry leaves blocking as it is. -/
theorem State.calls.sameBlocking {s t : State} {code : Nat} {c : Call} (h : s.calls code c t) :
    s.SameBlocking t := by
  obtain ⟨r, rest, slot, -, -, -, -, rfl⟩ := h
  exact .updSupervision s _

/-- Taking a request entry owes nothing. -/
theorem State.calls.due {s t : State} {code : Nat} {c : Call} (h : s.calls code c t) : t.due = s.due := by
  obtain ⟨r, rest, slot, -, -, -, -, rfl⟩ := h
  rfl

/-- Taking a request entry leaves the signature table as it is. -/
theorem State.calls.signatures {s t : State} {code : Nat} {c : Call} (h : s.calls code c t) :
    t.signatures = s.signatures := by
  obtain ⟨r, rest, slot, -, -, -, -, rfl⟩ := h
  rfl

/-- A request that passes the common checks, rewrites the signature table at most, and is given a result: its
event ends in just that state, as nothing is owed and no blocking changes. -/
theorem State.ready.signaturesWritten {s t : State} {code : Nat} {lowest : Role} {fits : List Byte → Bool}
    {body : Call → State → State} {c : Call} (hready : s.ready) (hcalls : s.calls code c t)
    (hrole : lowest.code ≤ c.role.code) (hfits : fits c.params = true) {x : SignatureTable}
    {result : ResultCode} (hbody : body c t = c.give result { t with signatures := x }) :
    takeEvent (fun u => u.serve code lowest fits body) s
      = .next ({ t with signatures := x }.answer c.place result []) := by
  refine hready.exact ((State.serve_passed hcalls hrole hfits).trans hbody) ?_ ?_
  · exact (hcalls.sameBlocking.trans (.signatures t x)).trans (.answer _ _ _ _)
  · exact (State.answer_due _ _ _ _).trans hcalls.due

/-- The same for a request with parameters of a fixed length. -/
theorem State.passes.signaturesWritten {s t : State} {code length : Nat} {lowest : Role}
    {body : Call → State → State} {c : Call} (h : s.passes code length lowest c t) {x : SignatureTable}
    {result : ResultCode} (hbody : body c t = c.give result { t with signatures := x }) :
    takeEvent (fun u => u.serve code lowest (exactly length) body) s
      = .next ({ t with signatures := x }.answer c.place result []) := by
  obtain ⟨hready, hcalls, hrole, hlength⟩ := h
  have hfits : exactly length c.params = true := by simp [exactly, hlength]
  exact hready.signaturesWritten hcalls hrole hfits hbody

theorem State.passes.signatures {s t : State} {code length : Nat} {lowest : Role} {c : Call}
    (h : s.passes code length lowest c t) : t.signatures = s.signatures := by
  obtain ⟨-, hcalls, -⟩ := h
  exact hcalls.signatures

/-! ### Blank entries -/

/-- The search for a filled entry says whether the entries of a range are blank (R127, R128). -/
theorem SignatureTable.filledWithin_eq_false_iff (x : SignatureTable) (start count : Nat) :
    x.filledWithin start count = false
      ↔ ∀ i : Fin 1024, start ≤ i.val → i.val < start + count → x.entries[i] = none := by
  have hjoin : ∀ i : Fin 1024, x.entries[i.val]?.join = x.entries[i] := fun i => by simp
  have hfilled : x.filledWithin start count = false ↔ ∀ k < count, x.entries[start + k]?.join = none := by
    simp [SignatureTable.filledWithin]
  rw [hfilled]
  constructor
  · intro h i hstart hend
    have hi : start + (i.val - start) = i.val := by omega
    have hblank := h (i.val - start) (by omega)
    rwa [hi, hjoin] at hblank
  · intro h k hk
    by_cases hin : start + k < 1024
    · rw [hjoin ⟨start + k, hin⟩]
      exact h ⟨start + k, hin⟩ (Nat.le_add_right start k) (Nat.add_lt_add_left hk start)
    · rw [Vector.getElem?_eq_none (by omega)]
      rfl

/-! ### SET_GEOMETRY (R127) -/

theorem Geometry.acceptable_iff (g : Geometry) : g.acceptable = true ↔ g.allowed := by
  simp [Geometry.acceptable, Geometry.allowed, or_assoc, and_assoc]

theorem Geometry.decode_of_allowed {b : List Byte} (h : (Geometry.ofRecord b).allowed) :
    Geometry.decode b = some (Geometry.ofRecord b) := if_pos ((Geometry.acceptable_iff _).mpr h)

theorem Geometry.decode_of_not_allowed {b : List Byte} (h : ¬ (Geometry.ofRecord b).allowed) :
    Geometry.decode b = none := if_neg (mt (Geometry.acceptable_iff _).mp h)

section SetGeometry

variable {c : Call} {s : State}

theorem Call.setGeometry_badValue (h : ¬ (Geometry.ofRecord c.params).allowed) :
    c.setGeometry s = c.give .badValue s := by
  simp [Call.setGeometry, Geometry.decode_of_not_allowed h]

theorem Call.setGeometry_locked (h : (Geometry.ofRecord c.params).allowed) (hlock : s.signatures.lock < 1024) :
    c.setGeometry s = c.give .locked s := by
  simp [Call.setGeometry, Geometry.decode_of_allowed h, hlock]

theorem Call.setGeometry_notBlank (h : (Geometry.ofRecord c.params).allowed) (hlock : 1024 ≤ s.signatures.lock)
    (hfilled : s.signatures.filledWithin 0 s.signatures.lock = true) :
    c.setGeometry s = c.give .notBlank s := by
  simp [Call.setGeometry, Geometry.decode_of_allowed h, Nat.not_lt.mpr hlock, hfilled]

theorem Call.setGeometry_ok (h : (Geometry.ofRecord c.params).allowed) (hlock : 1024 ≤ s.signatures.lock)
    (hblank : s.signatures.filledWithin 0 s.signatures.lock = false) : c.setGeometry s
      = c.give .ok { s with signatures := { s.signatures with geometry := Geometry.ofRecord c.params } } := by
  simp [Call.setGeometry, Geometry.decode_of_allowed h, Nat.not_lt.mpr hlock, hblank]

end SetGeometry

theorem State.passes.setGeometry {s t : State} {c : Call} (h : s.passes 14 4 .admin c t) :
    let g := Geometry.ofRecord c.params
    let allowed := g.allowed
    let blank := ∀ i : Fin 1024, i.val < s.signatures.lock → s.signatures.entries[i] = none
    (¬ allowed → Refuses .setGeometry s c t .badValue)
    ∧ (allowed → s.signatures.lock < 1024 → Refuses .setGeometry s c t .locked)
    ∧ (allowed → 1024 ≤ s.signatures.lock → ¬ blank → Refuses .setGeometry s c t .notBlank)
    ∧ (allowed → 1024 ≤ s.signatures.lock → blank → exec .setGeometry s
      = .next ({ t with signatures := { t.signatures with geometry := g } }.answer c.place .ok [])) := by
  intro g allowed blank
  have hblank : t.signatures.filledWithin 0 t.signatures.lock = false ↔ blank := by
    rw [SignatureTable.filledWithin_eq_false_iff, h.signatures]
    simp [blank]
  rw [← hblank, Bool.not_eq_false, ← h.signatures]
  exact ⟨fun hg => h.signaturesWritten (Call.setGeometry_badValue hg),
    fun hg hlock => h.signaturesWritten (Call.setGeometry_locked hg hlock),
    fun hg hlock hfilled => h.signaturesWritten (Call.setGeometry_notBlank hg hlock hfilled),
    fun hg hlock hfree => h.signaturesWritten (Call.setGeometry_ok hg hlock hfree)⟩

/-! ### The items of a WRITE_SIGNATURES (R126, R128) -/

theorem FaultClass.ofCode_eq_some_iff (n : Nat) (x : FaultClass) :
    FaultClass.ofCode n = some x ↔ x.severity = n := by
  constructor
  · intro h
    simpa using List.find?_some h
  · rintro rfl
    cases x <;> rfl

theorem FaultClass.storable_iff (x : FaultClass) : x.storable = true ↔ x ≠ .normal ∧ x ≠ .beyondReach := by
  cases x <;> simp [FaultClass.storable]

theorem Signature.decode_eq_some_iff (n : Nat) (g : Signature) :
    Signature.decode n = some g
      ↔ g.cls.severity = n / 16 ∧ g.cls.storable = true ∧ g.confidence = n % 16 := by
  rw [Signature.decode]
  cases hx : FaultClass.ofCode (n / 16) with
  | none =>
    have hcls : g.cls.severity ≠ n / 16 := fun h => by simp [(FaultClass.ofCode_eq_some_iff _ _).mpr h] at hx
    simp [hcls]
  | some x =>
    have hcls : g.cls.severity = n / 16 ↔ x = g.cls := by
      rw [← FaultClass.ofCode_eq_some_iff, hx, Option.some.injEq]
    obtain ⟨cls, confidence⟩ := g
    simp only [hcls]
    constructor
    · intro h
      split at h
      next hstorable =>
        obtain ⟨rfl, rfl⟩ := Signature.mk.inj (Option.some.inj h)
        exact ⟨rfl, hstorable, rfl⟩
      next => cases h
    · rintro ⟨rfl, hstorable, rfl⟩
      exact if_pos hstorable

/-- An item names a class that an entry can hold (R128 check 2). -/
theorem Signature.decode_isSome_iff (n : Nat) :
    (∃ g, Signature.decode n = some g)
      ↔ ∃ x : FaultClass, x.severity = n / 16 ∧ x ≠ .normal ∧ x ≠ .beyondReach := by
  simp only [Signature.decode_eq_some_iff, FaultClass.storable_iff]
  constructor
  · rintro ⟨g, hseverity, hstorable, -⟩
    exact ⟨g.cls, hseverity, hstorable⟩
  · rintro ⟨x, hseverity, hstorable⟩
    exact ⟨⟨x, n % 16⟩, hseverity, hstorable, rfl⟩

/-- Every record is decoded, or none. -/
theorem decodeAll_eq_some_iff {α : Type} (f : List Byte → Option α) (records : List (List Byte)) (xs : List α) :
    decodeAll f records = some xs ↔ records.map f = xs.map some := by
  induction records generalizing xs with
  | nil => cases xs <;> simp [decodeAll]
  | cons b rest ih =>
    rw [decodeAll]
    cases hb : f b with
    | none => cases xs <;> simp [hb]
    | some x =>
      cases xs with
      | nil => cases decodeAll f rest <;> simp
      | cons y ys =>
        have hrest := ih ys
        cases hd : decodeAll f rest with
        | none => simpa [hb, hd] using fun _ => hrest
        | some zs => simpa [hb, hd] using fun _ => hrest

theorem decodeAll_ne_none {α : Type} {f : List Byte → Option α} {records : List (List Byte)}
    (h : ∀ b ∈ records, ∃ x, f b = some x) : ∃ xs, decodeAll f records = some xs := by
  induction records with
  | nil => exact ⟨[], rfl⟩
  | cons b rest ih =>
    obtain ⟨hb, hrest⟩ := List.forall_mem_cons.mp h
    obtain ⟨x, hx⟩ := hb
    obtain ⟨xs, hxs⟩ := ih hrest
    exact ⟨x :: xs, by simp [decodeAll, hx, hxs]⟩

theorem byteAt_take_drop (b : List Byte) (k : Nat) : byteAt ((b.drop (k * 1)).take 1) 0 = byteAt b k := by
  simp [byteAt]

/-- The items of a WRITE_SIGNATURES are its bytes, decoded one by one. -/
theorem signatureItems_eq_some_iff (b : List Byte) (items : List Signature) :
    signatureItems b = some items
      ↔ (List.range b.length).map (fun k => Signature.decode (byteAt b k)) = items.map some := by
  simp only [signatureItems, decodeAll_eq_some_iff, sectionRecords, List.map_map, Function.comp_def,
    byteAt_take_drop]

theorem signatureItems_ne_none {b : List Byte}
    (h : ∀ k, k < b.length → ∃ g, Signature.decode (byteAt b k) = some g) :
    ∃ items, signatureItems b = some items := by
  refine decodeAll_ne_none fun record hrecord => ?_
  obtain ⟨k, hk, rfl⟩ := List.mem_map.mp hrecord
  rw [byteAt_take_drop]
  exact h k (List.mem_range.mp hk)

theorem signatureItems_getElem? {b : List Byte} {items : List Signature} (h : signatureItems b = some items)
    {k : Nat} (hk : k < b.length) : ∃ g, items[k]? = some g ∧ Signature.decode (byteAt b k) = some g := by
  have hall := congrArg (fun l => l[k]?) ((signatureItems_eq_some_iff b items).mp h)
  simp only [List.getElem?_map, List.getElem?_range hk, Option.map_some] at hall
  cases hg : items[k]? with
  | none => simp [hg] at hall
  | some g => exact ⟨g, rfl, by simpa [hg] using hall⟩

theorem signatureItems_length {b : List Byte} {items : List Signature} (h : signatureItems b = some items) :
    items.length = b.length := by
  have hall := congrArg List.length ((signatureItems_eq_some_iff b items).mp h)
  simpa using hall.symm

/-! ### Filling entries (R128) -/

theorem fillEntries_before (items : List Signature) (start : Nat) (x : Vector (Option Signature) 1024)
    (i : Fin 1024) (h : i.val < start) : (fillEntries start items x)[i] = x[i] := by
  induction items generalizing start x with
  | nil => rfl
  | cons g rest ih =>
    rw [fillEntries, ih _ _ (by omega)]
    simp only [Fin.getElem_fin]
    rw [Vector.getElem_setIfInBounds_ne _ (by omega)]

theorem fillEntries_filled {items : List Signature} {k : Nat} {g : Signature} (hg : items[k]? = some g)
    (start : Nat) (x : Vector (Option Signature) 1024) (i : Fin 1024) (h : i.val = start + k) :
    (fillEntries start items x)[i] = some g := by
  induction items generalizing start x k with
  | nil => simp at hg
  | cons y rest ih =>
    rw [fillEntries]
    cases k with
    | zero =>
      obtain rfl : y = g := by simpa using hg
      obtain rfl : i.val = start := h
      rw [fillEntries_before _ _ _ _ (Nat.lt_succ_self _)]
      simp
    | succ k => exact ih (by simpa using hg) _ _ (by omega)

/-! ### WRITE_SIGNATURES (R128) -/

theorem signatureRange_iff (start count : Nat) :
    signatureRange start count = true ↔ 1 ≤ count ∧ count ≤ 16 ∧ start + count ≤ 1024 := by
  simp only [signatureRange, Bool.and_eq_true, decide_eq_true_eq]
  omega

section WriteSignatures

variable {c : Call} {s : State}

/-- The start index and the count fail check 1. -/
theorem Call.writeSignatures_outOfRange
    (h : signatureRange (natAt c.params 0 2) (byteAt c.params 2) = false) :
    c.writeSignatures s = c.give .badValue s := by
  simp [Call.writeSignatures, h]

/-- An item names a class that an entry cannot hold (check 2). -/
theorem Call.writeSignatures_badItem (h : signatureItems (c.params.drop 3) = none) :
    c.writeSignatures s = c.give .badValue s := by
  simp [Call.writeSignatures, h]

variable {items : List Signature} (hrange : signatureRange (natAt c.params 0 2) (byteAt c.params 2) = true)
  (hitems : signatureItems (c.params.drop 3) = some items)

include hrange hitems

theorem Call.writeSignatures_locked (hlock : s.signatures.lock < natAt c.params 0 2 + byteAt c.params 2) :
    c.writeSignatures s = c.give .locked s := by
  simp [Call.writeSignatures, hrange, hitems, hlock]

theorem Call.writeSignatures_notBlank (hlock : natAt c.params 0 2 + byteAt c.params 2 ≤ s.signatures.lock)
    (hfilled : s.signatures.filledWithin (natAt c.params 0 2) (byteAt c.params 2) = true) :
    c.writeSignatures s = c.give .notBlank s := by
  simp [Call.writeSignatures, hrange, hitems, Nat.not_lt.mpr hlock, hfilled]

theorem Call.writeSignatures_ok (hlock : natAt c.params 0 2 + byteAt c.params 2 ≤ s.signatures.lock)
    (hblank : s.signatures.filledWithin (natAt c.params 0 2) (byteAt c.params 2) = false) :
    c.writeSignatures s = c.give .ok { s with signatures := { s.signatures with
      entries := fillEntries (natAt c.params 0 2) items s.signatures.entries } } := by
  simp [Call.writeSignatures, hrange, hitems, Nat.not_lt.mpr hlock, hblank]

end WriteSignatures

theorem byteAt_drop (b : List Byte) (n k : Nat) : byteAt (b.drop n) k = byteAt b (n + k) := by
  simp [byteAt]

theorem State.ready.writeSignatures {s t : State} {c : Call} (hready : s.ready) (hcalls : s.calls 12 c t)
    (hrole : Role.admin.code ≤ c.role.code) :
    let start := natAt c.params 0 2
    let count := byteAt c.params 2
    c.params.length = 3 + count →
    let item (k : Nat) : Nat := byteAt c.params (3 + k)
    let ranged := 1 ≤ count ∧ count ≤ 16 ∧ start + count ≤ 1024
    let named := ∀ k, k < count → ∃ x : FaultClass, x.severity = item k / 16 ∧ x ≠ .normal ∧ x ≠ .beyondReach
    let blank := ∀ i : Fin 1024, start ≤ i.val → i.val < start + count → s.signatures.entries[i] = none
    (¬ (ranged ∧ named) → Refuses .writeSignatures s c t .badValue)
    ∧ (ranged → named → s.signatures.lock < start + count → Refuses .writeSignatures s c t .locked)
    ∧ (ranged → named → start + count ≤ s.signatures.lock → ¬ blank →
      Refuses .writeSignatures s c t .notBlank)
    ∧ (ranged → named → start + count ≤ s.signatures.lock → blank → ∃ entries,
      exec .writeSignatures s
        = .next ({ t with signatures := { t.signatures with entries := entries } }.answer c.place .ok [])
      ∧ (∀ i : Fin 1024, i.val < start ∨ start + count ≤ i.val → entries[i] = s.signatures.entries[i])
      ∧ ∀ (i : Fin 1024) k, k < count → i.val = start + k → ∃ x : FaultClass, x.severity = item k / 16
        ∧ entries[i] = some ⟨x, item k % 16⟩) := by
  intro start count hlength item ranged named blank
  have hfits : signaturesLength c.params = true := by simp [signaturesLength, hlength, count]
  have written : ∀ {x : SignatureTable} {result : ResultCode},
      c.writeSignatures t = c.give result { t with signatures := x } →
      exec .writeSignatures s = .next ({ t with signatures := x }.answer c.place result []) :=
    fun hbody => hready.signaturesWritten hcalls hrole hfits hbody
  have hrange : signatureRange start count = true ↔ ranged := signatureRange_iff start count
  have hcount : (c.params.drop 3).length = count := by simp [hlength]
  have hitem : ∀ k, byteAt (c.params.drop 3) k = item k := byteAt_drop c.params 3
  have hnamed : named ↔ ∀ k, k < count → ∃ g, Signature.decode (item k) = some g := by
    simp only [named, Signature.decode_isSome_iff]
  have hitems : named → ∃ items, signatureItems (c.params.drop 3) = some items := fun hn =>
    signatureItems_ne_none fun k hk => hitem k ▸ hnamed.mp hn k (hcount ▸ hk)
  have hblank : t.signatures.filledWithin start count = false ↔ blank := by
    rw [SignatureTable.filledWithin_eq_false_iff, hcalls.signatures]
  rw [← hblank, Bool.not_eq_false, ← hcalls.signatures]
  refine ⟨fun hbad => ?_, fun hr hn hlock => ?_, fun hr hn hlock hfilled => ?_, fun hr hn hlock hfree => ?_⟩
  · by_cases hr : ranged
    · refine written (Call.writeSignatures_badItem ?_)
      refine Option.eq_none_iff_forall_ne_some.mpr fun items hsome => ?_
      refine hbad ⟨hr, hnamed.mpr fun k hk => ?_⟩
      obtain ⟨g, -, hg⟩ := signatureItems_getElem? hsome (hcount.symm ▸ hk)
      exact ⟨g, hitem k ▸ hg⟩
    · exact written (Call.writeSignatures_outOfRange (by rwa [← hrange, Bool.not_eq_true] at hr))
  · obtain ⟨items, hsome⟩ := hitems hn
    exact written (Call.writeSignatures_locked (hrange.mpr hr) hsome hlock)
  · obtain ⟨items, hsome⟩ := hitems hn
    exact written (Call.writeSignatures_notBlank (hrange.mpr hr) hsome hlock hfilled)
  · obtain ⟨items, hsome⟩ := hitems hn
    have hfull : items.length = count := (signatureItems_length hsome).trans hcount
    refine ⟨_, written (Call.writeSignatures_ok (hrange.mpr hr) hsome hlock hfree), ?_, fun i k hk hi => ?_⟩
    · rintro i (hbefore | hafter)
      · exact fillEntries_before _ _ _ _ hbefore
      · exact fillEntries_other _ _ _ _ (hfull.symm ▸ hafter)
    · obtain ⟨g, hg, hdecode⟩ := signatureItems_getElem? hsome (hcount.symm ▸ hk)
      obtain ⟨hseverity, -, hconfidence⟩ := (Signature.decode_eq_some_iff _ _).mp (hitem k ▸ hdecode)
      exact ⟨g.cls, hseverity, hconfidence ▸ fillEntries_filled hg _ _ _ hi⟩

/-! ### CLEAR_BLOCK (R129) -/

section ClearBlock

variable {c : Call} {s : State}

theorem Call.clearBlock_badValue (h : 63 < byteAt c.params 0) : c.clearBlock s = c.give .badValue s := by
  simp [Call.clearBlock, h]

theorem Call.clearBlock_locked (h : byteAt c.params 0 ≤ 63)
    (hlock : s.signatures.lock ≤ 16 * byteAt c.params 0) : c.clearBlock s = c.give .locked s := by
  simp [Call.clearBlock, Nat.not_lt.mpr h, hlock]

theorem Call.clearBlock_ok (h : byteAt c.params 0 ≤ 63) (hlock : 16 * byteAt c.params 0 < s.signatures.lock) :
    c.clearBlock s = c.give .ok { s with signatures := { s.signatures with
      entries := blankBlock (byteAt c.params 0) s.signatures.entries } } := by
  simp [Call.clearBlock, Nat.not_lt.mpr h, Nat.not_le.mpr hlock]

end ClearBlock

theorem State.passes.clearBlock {s t : State} {c : Call} (h : s.passes 13 1 .admin c t) :
    let block := byteAt c.params 0
    (63 < block → Refuses .clearBlock s c t .badValue)
    ∧ (block ≤ 63 → s.signatures.lock ≤ 16 * block → Refuses .clearBlock s c t .locked)
    ∧ (block ≤ 63 → 16 * block < s.signatures.lock → ∃ entries, exec .clearBlock s
      = .next ({ t with signatures := { t.signatures with entries := entries } }.answer c.place .ok [])
      ∧ ∀ i : Fin 1024, entries[i]
        = if 16 * block ≤ i.val ∧ i.val < 16 * block + 16 then none else s.signatures.entries[i]) := by
  intro block
  rw [← h.signatures]
  refine ⟨fun hb => h.signaturesWritten (Call.clearBlock_badValue hb),
    fun hb hlock => h.signaturesWritten (Call.clearBlock_locked hb hlock),
    fun hb hlock => ⟨_, h.signaturesWritten (Call.clearBlock_ok hb hlock), fun i => ?_⟩⟩
  have hin : i.val / 16 = block ↔ 16 * block ≤ i.val ∧ i.val < 16 * block + 16 := by omega
  rw [blankBlock_entry]
  simp only [← hin, block]

/-! ### LOWER_LOCK (R130) -/

theorem lockAcceptable_iff (n : Nat) : lockAcceptable n = true ↔ n ≤ 1024 ∧ n % 16 = 0 := by
  simp [lockAcceptable]

theorem Call.lowerLock_badValue {c : Call} {s : State}
    (h : ¬ (lockAcceptable (natAt c.params 0 2) = true ∧ natAt c.params 0 2 ≤ s.signatures.lock)) :
    c.lowerLock s = c.give .badValue s := if_neg (by simpa using h)

theorem Call.lowerLock_ok {c : Call} {s : State} (h : lockAcceptable (natAt c.params 0 2) = true)
    (hlock : natAt c.params 0 2 ≤ s.signatures.lock) : c.lowerLock s
      = c.give .ok { s with signatures := { s.signatures with lock := natAt c.params 0 2 } } :=
  if_pos (by simp [h, hlock])

theorem State.passes.lowerLock {s t : State} {c : Call} (h : s.passes 15 2 .admin c t) :
    let new := natAt c.params 0 2
    (1024 < new ∨ new % 16 ≠ 0 ∨ s.signatures.lock < new → Refuses .lowerLock s c t .badValue)
    ∧ (new ≤ 1024 → new % 16 = 0 → new ≤ s.signatures.lock → exec .lowerLock s
      = .next ({ t with signatures := { t.signatures with lock := new } }.answer c.place .ok [])) := by
  intro new
  rw [← h.signatures]
  refine ⟨fun hbad => h.signaturesWritten (Call.lowerLock_badValue ?_), fun hmax hblock hlower =>
    h.signaturesWritten (Call.lowerLock_ok ((lockAcceptable_iff new).mpr ⟨hmax, hblock⟩) hlower)⟩
  rw [lockAcceptable_iff]
  omega

/-- Settles O53, request by request. -/
theorem signatureTableWritten : Obligations.SignatureTableWritten :=
  ⟨fun _ _ _ => State.passes.setGeometry, fun _ _ _ => State.ready.writeSignatures,
    fun _ _ _ => State.passes.clearBlock, fun _ _ _ => State.passes.lowerLock⟩

end Sys2Proof.Machine
end

