-- ==== Sys2Proof/Proofs/Reports.lean ====
section
/-! PROOF. Which reflections of a capture set are kept and how each is classified (R121, R122, R133), and what
a cable report built of them carries (R136 to R139). -/

namespace Sys2Proof.Machine

/-! ### Sorting by a strict order -/

section Sorting

variable {α : Type} (precedes : α → α → Bool)

theorem insertBy_perm (x : α) (xs : List α) : (insertBy precedes x xs).Perm (x :: xs) := by
  induction xs with
  | nil => exact .refl _
  | cons y rest ih =>
    rw [insertBy]
    split
    · exact .refl _
    · exact (ih.cons y).trans (.swap x y rest)

/-- Nothing in a list precedes what stands before it. -/
def InOrder (xs : List α) : Prop := xs.Pairwise fun x y => precedes y x = false

variable {precedes}

theorem InOrder.insertBy (asymmetric : ∀ x y, precedes x y = true → precedes y x = false)
    (transitive : ∀ x y z, precedes x y = true → precedes y z = true → precedes x z = true) {xs : List α}
    (h : InOrder precedes xs) (x : α) : InOrder precedes (insertBy precedes x xs) := by
  induction xs with
  | nil => exact List.pairwise_singleton _ _
  | cons y rest ih =>
    obtain ⟨hy, hrest⟩ := List.pairwise_cons.mp h
    rw [Machine.insertBy]
    split
    next hxy =>
      refine List.pairwise_cons.mpr ⟨List.forall_mem_cons.mpr ⟨asymmetric x y hxy, fun z hz => ?_⟩, h⟩
      refine Bool.eq_false_iff.mpr fun hzx => ?_
      exact Bool.eq_false_iff.mp (hy z hz) (transitive z x y hzx hxy)
    next hxy =>
      refine List.pairwise_cons.mpr ⟨fun z hz => ?_, ih hrest⟩
      rcases List.mem_cons.mp ((insertBy_perm precedes x rest).mem_iff.mp hz) with rfl | hz
      · exact Bool.eq_false_iff.mpr hxy
      · exact hy z hz

/-- The sort rearranges its list and puts it in order. -/
theorem sortBy_spec (asymmetric : ∀ x y, precedes x y = true → precedes y x = false)
    (transitive : ∀ x y z, precedes x y = true → precedes y z = true → precedes x z = true) (xs : List α) :
    (sortBy precedes xs).Perm xs ∧ InOrder precedes (sortBy precedes xs) := by
  suffices h : ∀ xs acc : List α, InOrder precedes acc →
      (xs.foldl (fun acc x => insertBy precedes x acc) acc).Perm (xs ++ acc)
      ∧ InOrder precedes (xs.foldl (fun acc x => insertBy precedes x acc) acc) by
    simpa [sortBy] using h xs [] List.Pairwise.nil
  intro xs
  induction xs with
  | nil => exact fun acc hacc => ⟨.refl _, hacc⟩
  | cons x rest ih =>
    intro acc hacc
    obtain ⟨hperm, horder⟩ := ih _ (hacc.insertBy asymmetric transitive x)
    exact ⟨hperm.trans (((insertBy_perm precedes x acc).append_left rest).trans List.perm_middle), horder⟩

end Sorting

/-! ### The two orders of R121 -/

/-- The first reflection outweighs the second: the greater |comp|, or on a tie the smaller tick. -/
def ReflectionRecord.Outweighs (x y : ReflectionRecord) : Prop :=
  y.comp.natAbs < x.comp.natAbs ∨ (x.comp.natAbs = y.comp.natAbs ∧ x.tick < y.tick)

/-- The first reflection lies before the second: the smaller distance, or on a tie the smaller tick. -/
def ReflectionRecord.LiesBefore (x y : ReflectionRecord) : Prop :=
  x.distance < y.distance ∨ (x.distance = y.distance ∧ x.tick < y.tick)

theorem ReflectionRecord.stronger_iff (x y : ReflectionRecord) : x.stronger y = true ↔ x.Outweighs y := by
  simp [ReflectionRecord.stronger, ReflectionRecord.Outweighs]

theorem ReflectionRecord.nearer_iff (x y : ReflectionRecord) : x.nearer y = true ↔ x.LiesBefore y := by
  simp [ReflectionRecord.nearer, ReflectionRecord.LiesBefore]

/-- The reflections have distinct ticks, as those of one capture set do. -/
def DistinctTicks (xs : List ReflectionRecord) : Prop := xs.Pairwise fun x y => x.tick ≠ y.tick

theorem distinctTicks_iff (xs : List ReflectionRecord) :
    DistinctTicks xs ↔ (xs.map ReflectionRecord.tick).Nodup := List.pairwise_map.symm

theorem DistinctTicks.perm {xs ys : List ReflectionRecord} (h : DistinctTicks xs) (hperm : ys.Perm xs) :
    DistinctTicks ys := (hperm.pairwise_iff fun hne => hne.symm).mpr h

/-- Reflections with distinct ticks, sorted by a key and on a tie by the tick. -/
theorem sortBy_distinctTicks {precedes : ReflectionRecord → ReflectionRecord → Bool}
    {before : ReflectionRecord → ReflectionRecord → Prop} (key : ReflectionRecord → Int)
    (hprecedes : ∀ x y, precedes x y = true ↔ before x y)
    (hbefore : ∀ x y, before x y ↔ key x < key y ∨ (key x = key y ∧ x.tick < y.tick))
    {xs : List ReflectionRecord} (h : DistinctTicks xs) :
    (sortBy precedes xs).Perm xs ∧ (sortBy precedes xs).Pairwise before := by
  have hkey : ∀ x y, precedes x y = true ↔ key x < key y ∨ (key x = key y ∧ x.tick < y.tick) :=
    fun x y => (hprecedes x y).trans (hbefore x y)
  have asymmetric : ∀ x y, precedes x y = true → precedes y x = false := fun x y hxy => by
    rw [Bool.eq_false_iff, ne_eq]
    rw [hkey] at hxy ⊢
    omega
  have transitive : ∀ x y z, precedes x y = true → precedes y z = true → precedes x z = true :=
    fun x y z hxy hyz => by
      rw [hkey] at hxy hyz ⊢
      omega
  have total : ∀ x y, x.tick ≠ y.tick → precedes y x = false → before x y := fun x y hticks hyx => by
    rw [Bool.eq_false_iff, ne_eq, hkey] at hyx
    rw [hbefore]
    omega
  obtain ⟨hperm, horder⟩ := sortBy_spec asymmetric transitive xs
  exact ⟨hperm, (h.perm hperm).imp₂ total horder⟩

/-- Sorted by strength, each reflection outweighs those after it. -/
theorem sortBy_stronger {xs : List ReflectionRecord} (h : DistinctTicks xs) :
    (sortBy ReflectionRecord.stronger xs).Perm xs
    ∧ (sortBy ReflectionRecord.stronger xs).Pairwise ReflectionRecord.Outweighs :=
  sortBy_distinctTicks (fun x => -(x.comp.natAbs : Int)) ReflectionRecord.stronger_iff
    (fun x y => by unfold ReflectionRecord.Outweighs; omega) h

/-- Sorted by distance, each reflection lies before those after it. -/
theorem sortBy_nearer {xs : List ReflectionRecord} (h : DistinctTicks xs) :
    (sortBy ReflectionRecord.nearer xs).Perm xs
    ∧ (sortBy ReflectionRecord.nearer xs).Pairwise ReflectionRecord.LiesBefore :=
  sortBy_distinctTicks (fun x => (x.distance : Int)) ReflectionRecord.nearer_iff
    (fun x y => by unfold ReflectionRecord.LiesBefore; omega) h

/-! ### The kept reflections of a capture set (R121, R122) -/

section Keeping

variable {threshold : Nat} {xs : List ReflectionRecord}

/-- The reflections that reach the threshold. -/
def passing (threshold : Nat) (xs : List ReflectionRecord) : List ReflectionRecord :=
  xs.filter fun x => threshold ≤ x.comp.natAbs

/-- The three strongest of them, strongest first. -/
def strongest (threshold : Nat) (xs : List ReflectionRecord) : List ReflectionRecord :=
  (sortBy ReflectionRecord.stronger (passing threshold xs)).take 3

theorem keepStrongest_eq :
    keepStrongest threshold xs = sortBy ReflectionRecord.nearer (strongest threshold xs) := rfl

theorem mem_passing {x : ReflectionRecord} :
    x ∈ passing threshold xs ↔ x ∈ xs ∧ threshold ≤ x.comp.natAbs := by
  simp [passing]

variable (h : DistinctTicks xs)

include h

theorem DistinctTicks.passing : DistinctTicks (passing threshold xs) := List.Pairwise.filter _ h

theorem DistinctTicks.strongest : DistinctTicks (strongest threshold xs) :=
  ((h.passing).perm (sortBy_stronger h.passing).1).sublist (List.take_sublist 3 _)

theorem keepStrongest_perm : (keepStrongest threshold xs).Perm (strongest threshold xs) := by
  rw [keepStrongest_eq]
  exact (sortBy_nearer h.strongest).1

theorem length_keepStrongest : (keepStrongest threshold xs).length = min 3 (passing threshold xs).length := by
  rw [(keepStrongest_perm h).length_eq, strongest, List.length_take, (sortBy_stronger h.passing).1.length_eq]

theorem mem_passing_of_mem_keepStrongest {x : ReflectionRecord} (hx : x ∈ keepStrongest threshold xs) :
    x ∈ passing threshold xs :=
  (sortBy_stronger h.passing).1.mem_iff.mp (List.mem_of_mem_take ((keepStrongest_perm h).mem_iff.mp hx))

/-- A reflection that passes and is not kept is outweighed by each that is. -/
theorem keepStrongest_outweighs {x y : ReflectionRecord} (hy : y ∈ passing threshold xs)
    (hleft : y ∉ keepStrongest threshold xs) (hx : x ∈ keepStrongest threshold xs) : x.Outweighs y := by
  rw [(keepStrongest_perm h).mem_iff] at hleft hx
  obtain ⟨hperm, hsorted⟩ := sortBy_stronger (h.passing (threshold := threshold))
  have hcut := List.take_append_drop 3 (sortBy ReflectionRecord.stronger (passing threshold xs))
  rw [← hperm.mem_iff, ← hcut, List.mem_append] at hy
  rw [← hcut] at hsorted
  obtain ⟨-, -, hacross⟩ := List.pairwise_append.mp hsorted
  exact hacross x hx y (hy.resolve_left hleft)

theorem DistinctTicks.keepStrongest : DistinctTicks (keepStrongest threshold xs) :=
  h.strongest.perm (keepStrongest_perm h)

theorem keepStrongest_pairwise : (keepStrongest threshold xs).Pairwise ReflectionRecord.LiesBefore := by
  rw [keepStrongest_eq]
  exact (sortBy_nearer h.strongest).2

end Keeping

/-! ### The capture set of an ordered pair of pairs (R100) -/

section Capture

variable (k : ArithmeticInputs) {captures : List CaptureSet} {x y : Pair}

theorem keptFor_eq_nil (h : ∀ c ∈ captures, ¬ (c.pulsed = x ∧ c.listening = y)) :
    keptFor k captures x y = [] := by
  have hnone : captureOf captures x y = none := by simpa [captureOf] using h
  rw [keptFor, hnone]

theorem keptFor_eq_reflectionsOf {front rest : List CaptureSet} {c : CaptureSet}
    (hsplit : captures = front ++ c :: rest) (hc : c.pulsed = x ∧ c.listening = y)
    (hfirst : ∀ b ∈ front, ¬ (b.pulsed = x ∧ b.listening = y)) :
    keptFor k captures x y = reflectionsOf k c := by
  have hfound : captureOf captures x y = some c := by
    refine List.find?_eq_some_iff_append.mpr ⟨by simpa using hc, front, rest, hsplit, fun b hb => ?_⟩
    rw [Bool.not_eq_true', Bool.eq_false_iff]
    exact fun hlabels => hfirst b hb (by simpa using hlabels)
  rw [keptFor, hfound]

end Capture

/-- The candidates of one capture set stand at distinct ticks. -/
theorem distinctTicks_records (k : ArithmeticInputs) (pulsed listening : Pair) (start : Nat)
    (samples : List Int) : DistinctTicks ((peaks start samples).map (reflectionRecord k pulsed listening)) :=
  List.pairwise_map.mpr ((peaksFrom_pairwise start samples 0 0).imp Nat.ne_of_lt)

theorem distinctTicks_keptFor (k : ArithmeticInputs) (captures : List CaptureSet) (x y : Pair) :
    DistinctTicks (keptFor k captures x y) := by
  rw [keptFor]
  split
  · exact List.Pairwise.nil
  · exact (distinctTicks_records k _ _ _ _).keepStrongest

/-! ### Classification (R133) -/

section Classification

variable {entries : Vector (Option Signature) 1024} {r : ReflectionRecord}

theorem classify_beyond (h : r.index = none) :
    classify entries r = ⟨r.distance, r.comp, .beyondReach, 15, r.saturated⟩ := by
  simp [classify, h]

theorem classify_blank {i : Fin 1024} (h : r.index = some i.val) (hentry : entries[i] = none) :
    classify entries r = ⟨r.distance, r.comp, .unclassified, 0, r.saturated⟩ := by
  have hread : entries[i.val] = none := hentry
  simp [classify, h, hread]

theorem classify_filled {i : Fin 1024} {g : Signature} (h : r.index = some i.val)
    (hentry : entries[i] = some g) : classify entries r = ⟨r.distance, r.comp, g.cls, g.confidence, r.saturated⟩ := by
  have hread : entries[i.val] = some g := hentry
  simp [classify, h, hread]

end Classification

/-! ### The most severe class (R132) -/

theorem moreSevere_eq_or (x y : FaultClass) : moreSevere x y = x ∨ moreSevere x y = y := by
  unfold moreSevere
  split <;> simp

theorem severity_moreSevere (x y : FaultClass) :
    (moreSevere x y).severity = max x.severity y.severity := by
  unfold moreSevere
  split <;> omega

/-- The class is in the list, and none there is more severe. -/
def MostSevereIn (c : FaultClass) (xs : List FaultClass) : Prop := c ∈ xs ∧ ∀ x ∈ xs, x.severity ≤ c.severity

theorem mostSevereIn_foldl (c : FaultClass) (rest : List FaultClass) :
    MostSevereIn (rest.foldl moreSevere c) (c :: rest) := by
  induction rest generalizing c with
  | nil => simp [MostSevereIn]
  | cons y rest ih =>
    rw [List.foldl_cons]
    obtain ⟨hmem, hmax⟩ := ih (moreSevere c y)
    obtain ⟨hhead, htail⟩ := List.forall_mem_cons.mp hmax
    rw [severity_moreSevere] at hhead
    refine ⟨?_, List.forall_mem_cons.mpr ⟨by omega, List.forall_mem_cons.mpr ⟨by omega, htail⟩⟩⟩
    rcases List.mem_cons.mp hmem with hfold | hlater
    · rw [hfold]
      rcases moreSevere_eq_or c y with h | h <;> simp [h]
    · exact List.mem_cons_of_mem _ (List.mem_cons_of_mem _ hlater)

theorem mostSevere_spec {xs : List FaultClass} (h : xs ≠ []) :
    MostSevereIn ((mostSevere xs).getD .normal) xs := by
  cases xs with
  | nil => exact absurd rfl h
  | cons c rest => exact mostSevereIn_foldl c rest

/-! ### The findings of the pairs (R137) -/

section Report

variable (k : ArithmeticInputs) (entries : Vector (Option Signature) 1024) (port : Port) (t : TestContext)

theorem buildReport_finding (p : Pair) : (buildReport k entries port t).findings[p.index]
    = pairFinding k entries t.pairs t.captures p := by
  cases p <;> rfl

variable {k entries} {tested : List Pair} {captures : List CaptureSet} {p : Pair}

theorem pairFinding_untested (h : p ∉ tested) : pairFinding k entries tested captures p = ⟨.notTested, []⟩ := by
  simp [pairFinding, h]

theorem pairFinding_empty (h : p ∈ tested) (hkept : (keptFor k captures p p).map (classify entries) = []) :
    pairFinding k entries tested captures p = ⟨.classed .normal, []⟩ := by
  simp [pairFinding, h, hkept, mostSevere]

theorem pairFinding_kept (h : p ∈ tested) (hkept : (keptFor k captures p p).map (classify entries) ≠ []) :
    ∃ c, pairFinding k entries tested captures p
        = ⟨.classed c, (keptFor k captures p p).map (classify entries)⟩
      ∧ MostSevereIn c (((keptFor k captures p p).map (classify entries)).map Reflection.cls) :=
  ⟨_, by simp [pairFinding, h], mostSevere_spec (mt List.map_eq_nil_iff.mp hkept)⟩

end Report

/-! ### The cross findings (R138) -/

section Cross

variable {k : ArithmeticInputs} {entries : Vector (Option Signature) 1024} {captures : List CaptureSet}

theorem crossFinding_eq_some_iff (x y : Pair) (c : CrossFinding) :
    crossFinding k entries captures x y = some c ↔ x ≠ y
      ∧ ∃ r, (sortBy ReflectionRecord.stronger (keptFor k captures x y)).head? = some r
        ∧ c = ⟨x, y, classify entries r⟩ := by
  unfold crossFinding
  split
  next heq =>
    constructor
    · intro h
      cases h
    · rintro ⟨hne, -⟩
      exact absurd (beq_iff_eq.mp heq) hne
  next hne =>
    rw [Option.map_eq_some_iff]
    constructor
    · rintro ⟨r, hr, rfl⟩
      exact ⟨mt beq_iff_eq.mpr hne, r, hr, rfl⟩
    · rintro ⟨-, r, hr, rfl⟩
      exact ⟨r, hr, rfl⟩

/-- The first of the reflections sorted by strength outweighs all others. -/
theorem head?_sortBy_stronger {xs : List ReflectionRecord} (h : DistinctTicks xs) {r : ReflectionRecord}
    (hr : (sortBy ReflectionRecord.stronger xs).head? = some r) :
    r ∈ xs ∧ ∀ y ∈ xs, y ≠ r → r.Outweighs y := by
  obtain ⟨hperm, hsorted⟩ := sortBy_stronger h
  obtain ⟨rest, hrest⟩ := List.head?_eq_some_iff.mp hr
  rw [hrest] at hperm hsorted
  obtain ⟨hfirst, -⟩ := List.pairwise_cons.mp hsorted
  refine ⟨hperm.mem_iff.mp List.mem_cons_self, fun y hy hne => ?_⟩
  exact hfirst y ((List.mem_cons.mp (hperm.mem_iff.mpr hy)).resolve_left hne)

theorem mem_crossFindings_iff (c : CrossFinding) : c ∈ crossFindings k entries captures
    ↔ ∃ x y, crossFinding k entries captures x y = some c := by
  have hall : ∀ p : Pair, p ∈ Pair.all := by intro p; cases p <;> decide
  rw [crossFindings, List.mem_flatten]
  constructor
  · rintro ⟨_, hrow, hc⟩
    obtain ⟨x, -, rfl⟩ := List.mem_map.mp hrow
    obtain ⟨y, -, hxy⟩ := List.mem_filterMap.mp hc
    exact ⟨x, y, hxy⟩
  · rintro ⟨x, y, hxy⟩
    exact ⟨_, List.mem_map_of_mem (hall x), List.mem_filterMap.mpr ⟨y, hall y, hxy⟩⟩

/-- A cross finding carries the strongest reflection that its set kept. -/
theorem crossFindings_strongest {c : CrossFinding} (hc : c ∈ crossFindings k entries captures) :
    c.pulsed ≠ c.listening ∧ ∃ x ∈ keptFor k captures c.pulsed c.listening, c.reflection = classify entries x
      ∧ ∀ y ∈ keptFor k captures c.pulsed c.listening, y ≠ x → x.Outweighs y := by
  obtain ⟨x, y, hxy⟩ := (mem_crossFindings_iff c).mp hc
  obtain ⟨hne, r, hr, rfl⟩ := (crossFinding_eq_some_iff x y c).mp hxy
  obtain ⟨hmem, hstrongest⟩ := head?_sortBy_stronger (distinctTicks_keptFor k captures x y) hr
  exact ⟨hne, r, hmem, rfl, hstrongest⟩

/-- Every cross set that kept a reflection has its finding. -/
theorem exists_crossFinding {x y : Pair} (hne : x ≠ y) (hkept : keptFor k captures x y ≠ []) :
    ∃ c ∈ crossFindings k entries captures, c.pulsed = x ∧ c.listening = y := by
  have hperm := (sortBy_stronger (distinctTicks_keptFor k captures x y)).1
  cases hsorted : sortBy ReflectionRecord.stronger (keptFor k captures x y) with
  | nil => exact absurd (List.nil_perm.mp (hsorted ▸ hperm)) hkept
  | cons r rest =>
    refine ⟨⟨x, y, classify entries r⟩, (mem_crossFindings_iff _).mpr ⟨x, y, ?_⟩, rfl, rfl⟩
    exact (crossFinding_eq_some_iff x y _).mpr ⟨hne, r, by rw [hsorted]; rfl, rfl⟩

theorem crossFinding_labels {x y : Pair} {c : CrossFinding} (h : crossFinding k entries captures x y = some c) :
    c.pulsed = x ∧ c.listening = y := by
  obtain ⟨-, r, -, rfl⟩ := (crossFinding_eq_some_iff x y c).mp h
  exact ⟨rfl, rfl⟩

/-- The cross findings stand in the order of pulsed pair, then listening pair. -/
theorem crossFindings_pairwise : (crossFindings k entries captures).Pairwise fun x y =>
    x.pulsed.index < y.pulsed.index ∨ (x.pulsed = y.pulsed ∧ x.listening.index < y.listening.index) := by
  have hpairs : Pair.all.Pairwise fun x y => x.index < y.index := by decide
  refine List.pairwise_flatten.mpr ⟨?_, List.pairwise_map.mpr (hpairs.imp fun {x y} hxy => ?_)⟩
  · intro findings hfindings
    obtain ⟨pulsed, -, rfl⟩ := List.mem_map.mp hfindings
    refine List.pairwise_filterMap.mpr (hpairs.imp fun {x y} hxy c hc d hd => ?_)
    obtain ⟨hcp, hcl⟩ := crossFinding_labels hc
    obtain ⟨hdp, hdl⟩ := crossFinding_labels hd
    exact .inr ⟨hcp.trans hdp.symm, by rwa [hcl, hdl]⟩
  · intro c hc d hd
    obtain ⟨_, -, hcy⟩ := List.mem_filterMap.mp hc
    obtain ⟨_, -, hdy⟩ := List.mem_filterMap.mp hd
    exact .inl (by rwa [(crossFinding_labels hcy).1, (crossFinding_labels hdy).1])

end Cross

/-! ### The worst verdict and the length (R139) -/

section Summary

variable (findings : List PairFinding) (cross : List CrossFinding)

/-- The classes among which the worst verdict is found. -/
def verdictClasses (findings : List PairFinding) (cross : List CrossFinding) : List FaultClass :=
  findings.filterMap (fun f => f.verdict.cls) ++ cross.map fun c => c.reflection.cls

theorem worstVerdict_spec (h : verdictClasses findings cross ≠ []) :
    MostSevereIn (worstVerdict findings cross) (verdictClasses findings cross) := mostSevere_spec h

theorem lengthEstimate_eq_some_iff (d : Nat) : lengthEstimate findings cross = some d
    ↔ (∃ x ∈ carried findings cross, x.cls = .openEnd ∧ x.distance = d)
      ∧ ∀ x ∈ carried findings cross, x.cls = .openEnd → x.distance ≤ d := by
  rw [lengthEstimate, List.max?_eq_some_iff, List.forall_mem_map]
  simp [and_assoc]

end Summary

/-! ### Assembly -/

theorem keepStrongest_keeps (threshold : Nat) (xs : List ReflectionRecord)
    (hticks : (xs.map ReflectionRecord.tick).Nodup) :
    let kept := keepStrongest threshold xs
    kept.length = min 3 (xs.filter fun x => threshold ≤ x.comp.natAbs).length
    ∧ (∀ x ∈ kept, x ∈ xs ∧ threshold ≤ x.comp.natAbs)
    ∧ (∀ y ∈ xs, threshold ≤ y.comp.natAbs → y ∉ kept → ∀ x ∈ kept, x.Outweighs y)
    ∧ kept.Pairwise ReflectionRecord.LiesBefore := by
  have h : DistinctTicks xs := (distinctTicks_iff xs).mpr hticks
  exact ⟨length_keepStrongest h, fun x hx => mem_passing.mp (mem_passing_of_mem_keepStrongest h hx),
    fun y hy hover hleft x hx => keepStrongest_outweighs h (mem_passing.mpr ⟨hy, hover⟩) hleft hx,
    keepStrongest_pairwise h⟩

/-- Settles O56: the keeping, the capture set of two labels, the classification, and the report part by
part. -/
theorem reportsBuilt : Obligations.ReportsBuilt := by
  refine ⟨⟨rfl, fun _ => rfl⟩, keepStrongest_keeps, fun k captures x y => ⟨keptFor_eq_nil k, ?_⟩,
    fun entries r => ⟨classify_beyond, fun i hi => ⟨classify_blank hi, fun g => classify_filled hi⟩⟩,
    fun k entries port t => ?_⟩
  · rintro front c rest hsplit ⟨rfl, rfl⟩ hfirst
    exact keptFor_eq_reflectionsOf k hsplit ⟨rfl, rfl⟩ hfirst
  · intro r kept verdicts reflections
    have hlength := lengthEstimate_eq_some_iff r.findings.toList r.cross
    have hworst : verdicts ≠ [] → MostSevereIn r.worst verdicts := worstVerdict_spec r.findings.toList r.cross
    refine ⟨rfl, rfl, rfl, rfl, rfl, fun p => ?_, fun c => crossFindings_strongest, fun x y hne hkept => ?_,
      crossFindings_pairwise, fun hne => (hworst hne).1, fun c hc => ?_, hlength⟩
    · rw [buildReport_finding]
      refine ⟨pairFinding_untested, pairFinding_empty, fun htested hkept => ?_⟩
      obtain ⟨c, hfinding, hmem, hmax⟩ := pairFinding_kept htested hkept
      exact ⟨c, hfinding, hmem, fun x hx => hmax x.cls (List.mem_map_of_mem hx)⟩
    · exact exists_crossFinding hne (mt List.map_eq_nil_iff.mpr hkept)
    · exact (hworst (List.ne_nil_of_mem hc)).2 c hc

end Sys2Proof.Machine
end

