-- ==== Sys2Proof/Proofs/Invariants.lean ====
section
/-! PROOF. What every step keeps (tier 3): each invariant of Safety.lean is kept by the moves, the loads and the
resets, and `step_keep` carries it over a step. -/

namespace Sys2Proof.Machine

/-! ### What a reset establishes -/

theorem Training.timersFit_atReset : Training.atReset.timersFit := by
  simp [Training.timersFit, Training.atReset]

theorem Training.bounded_atReset : Training.atReset.bounded := by
  simp [Training.bounded, Training.atReset]

theorem Traffic.bounded_atReset : Traffic.atReset.bounded := by
  simp [Traffic.bounded, Traffic.atReset, Traffic.forwardedWaiting]

theorem Supervision.bounded_atReset (straps : BitVec 4) : (Supervision.atReset straps).bounded := by
  simp [Supervision.bounded, Supervision.atReset, Station.builtin]

theorem State.justReset.queueWithinCapacity {s : State} (h : s.justReset) : s.queueWithinCapacity := by
  obtain ⟨_, _, _, _, _, _, rfl⟩ := h
  exact Nat.zero_le _

theorem State.justReset.numbered {s : State} (h : s.justReset) : s.numbered := by
  obtain ⟨_, _, _, _, _, _, rfl⟩ := h
  exact ⟨List.Pairwise.nil, by simp [State.atReset]⟩

theorem State.justReset.timersFit {s : State} (h : s.justReset) : s.timersFit := by
  obtain ⟨_, _, _, _, _, _, rfl⟩ := h
  intro p
  rw [State.training, State.port_atReset]
  exact Training.timersFit_atReset

theorem State.justReset.countsBounded {s : State} (h : s.justReset) : s.countsBounded := by
  obtain ⟨straps, _, _, _, _, _, rfl⟩ := h
  refine ⟨fun p => ?_, DeviceEvents.countsFit_empty, Supervision.bounded_atReset straps, planBuiltin_limits,
    fun e => ?_⟩
  · rw [State.training, State.traffic, State.port_atReset]
    exact ⟨Training.bounded_atReset, Traffic.bounded_atReset, PortEvents.countsFit_empty⟩
  · rw [State.engine_atReset]
    exact Nat.zero_le _

theorem State.justReset.lockFits {s : State} (h : s.justReset) : s.lockFits := by
  obtain ⟨_, _, _, _, _, _, rfl⟩ := h
  exact State.lockFits_builtin rfl

theorem State.justReset.captureExclusive {s : State} (h : s.justReset) : s.captureExclusive := by
  intro p _ holder hslot
  rw [(Rest.of_reset h).group] at hslot
  exact absurd hslot nofun

theorem State.justReset.classesInUse {s : State} (h : s.justReset) : s.classesInUse := by
  obtain ⟨_, _, _, _, _, _, rfl⟩ := h
  have hzero : (planBuiltin[(0 : Fin 16)]).inUse = true := by decide
  exact ⟨hzero, fun p => entry_inUse_of_eq (by rw [State.port_atReset]; rfl) hzero⟩

/-! ### What a load keeps -/

theorem State.Loads.training {s u : State} (l : s.Loads u) (p : Port) : u.training p = s.training p := by
  rw [State.training, l.ports]
  rfl

theorem State.Loads.traffic {s u : State} (l : s.Loads u) (p : Port) : u.traffic p = s.traffic p := by
  rw [State.traffic, l.ports]
  rfl

theorem State.Loads.keeps_capacity {s u : State} (l : s.Loads u) (h : s.queueWithinCapacity) :
    u.queueWithinCapacity := by
  rw [State.queueWithinCapacity, l.queue]
  exact h

theorem State.Loads.keeps_numbered {s u : State} (l : s.Loads u) (h : s.numbered) : u.numbered := by
  rw [State.numbered, l.queue, l.admissions]
  exact h

theorem State.Loads.keeps_timersFit {s u : State} (l : s.Loads u) (h : s.timersFit) : u.timersFit := fun p => by
  rw [l.training]
  exact h p

theorem State.Loads.keeps_supervision {s u : State} (l : s.Loads u) (h : s.supervision.bounded) :
    u.supervision.bounded := by
  obtain ⟨hsource, hmalformed, hslot, hlimit⟩ := h
  exact ⟨l.unknownSource ▸ hsource, l.malformed ▸ hmalformed, l.noReplySlot ▸ hslot, l.starvation hlimit⟩

theorem State.Loads.keeps_countsBounded {s u : State} (l : s.Loads u) (h : s.countsBounded) :
    u.countsBounded := by
  obtain ⟨hports, hdevice, hsupervision, hlimits, hpassed⟩ := h
  refine ⟨fun p => ?_, l.notice ▸ hdevice, l.keeps_supervision hsupervision, l.limits hlimits, fun e => ?_⟩
  · rw [l.training, l.traffic, l.ports]
    exact hports p
  · rw [State.engine, l.engines]
    exact hpassed e

/-- A load at rest takes no capture slot. -/
theorem State.Loads.keeps_captureExclusive {s u : State} (l : s.Loads u) (h : Rest s) : u.captureExclusive := by
  intro p _ holder hslot
  rw [(Rest.of_loads l h).group] at hslot
  exact absurd hslot nofun

/-- On a part at rest every class is 0, and a load keeps entry 0 in use. -/
theorem State.Loads.keeps_classesInUse {s u : State} (l : s.Loads u) (hrest : Rest s) (h : s.classesInUse) :
    u.classesInUse := by
  have hzero := l.entryZero h.1
  refine ⟨hzero, fun p => ?_⟩
  obtain ⟨-, -, hclass, -⟩ := (Rest.of_loads l hrest).port p
  exact entry_inUse_of_eq hclass hzero

/-! ### Every step -/

/-- Settles O5. -/
theorem queueCapacityKept : Obligations.QueueCapacityKept := fun _ _ hstep =>
  ⟨fun h => step_keep (fun _ _ h => h) (fun _ _ h => h) Move.keeps_capacity State.Loads.keeps_capacity
      State.justReset.queueWithinCapacity h hstep,
    fun h => step_keep (fun _ _ h => h) (fun _ _ h => h) Move.keeps_numbered State.Loads.keeps_numbered
      State.justReset.numbered h hstep⟩

/-- Settles O6. -/
theorem timersFitKept : Obligations.TimersFitKept := fun _ _ h hstep =>
  step_keep (fun _ _ h => h) (fun _ _ h => h) Move.keeps_timersFit State.Loads.keeps_timersFit
    State.justReset.timersFit h hstep

/-- Settles O7. -/
theorem countsBoundedKept : Obligations.CountsBoundedKept := fun _ _ h hstep =>
  step_keep (fun _ _ h => h) (fun _ _ h => h) Move.keeps_countsBounded State.Loads.keeps_countsBounded
    State.justReset.countsBounded h hstep

/-- Settles O9. -/
theorem captureExclusiveKept : Obligations.CaptureExclusiveKept := fun _ _ hrest h hstep =>
  step_keep_resting (fun _ _ h => h) (fun _ _ h => h) Move.keeps_captureExclusive
    (fun l hrest _ => l.keeps_captureExclusive hrest) State.justReset.captureExclusive hrest h hstep

/-- Settles O10. -/
theorem classesInUseKept : Obligations.ClassesInUseKept := fun _ _ hrest h hstep =>
  step_keep_resting (fun _ _ h => h) (fun _ _ h => h) Move.keeps_classesInUse
    State.Loads.keeps_classesInUse State.justReset.classesInUse hrest h hstep

/-- A part at rest does not depend on the events that wait, nor on where the load stands. -/
theorem Rest.congr {s : State} (h : Rest s) (l : List Instr) (x : StartUp) :
    Rest { s with pending := l, startUp := x } :=
  ⟨h.port, h.engine, h.group, h.queue, h.due, h.slot, h.requests, h.accepting⟩

theorem State.loading_closeEvent (b s : State) : (State.closeEvent b s).loading = s.loading :=
  (Moves.closeEvent b s).loading_eq

/-- A load step that leaves the load in progress leaves the part at rest, and so does the close of its event. -/
theorem LoadStep.keeps_rest {b s u : State} (l : LoadStep s u) (h : Rest s) (hb : b.queue = [])
    (hloading : (State.closeEvent b u).loading = true) : Rest (State.closeEvent b u) := by
  rw [State.loading_closeEvent] at hloading
  rcases l with l | ⟨v, _, hended, m⟩
  · have hu := Rest.of_loads l h
    rw [hu.close hb]
    exact hu
  · rw [m.loading_eq, hended] at hloading
    exact absurd hloading nofun

/-- An event taken by a part whose load is in progress leaves it at rest. -/
theorem exec_keeps_rest {i : Instr} {s t : State} (hrest : s.restsWhileLoading) (h : exec i s = .next t) :
    t.restsWhileLoading := by
  rw [rest_iff] at hrest ⊢
  intro hloading
  by_cases hs : s.loading = true
  · by_cases hi : Instr.ordinary i = true
    · exact Rest.ordinary hi hs (hrest hs) h
    · rcases exec_special hi h with m | ⟨_, m⟩ | m | m | ⟨_, _, u, l, m⟩
      · exact Rest.of_reset m
      · rw [m]
        exact (hrest hs).congr _ _
      · exact m ▸ hrest hs
      · rw [m, (hrest hs).close (hrest hs).queue]
        exact hrest hs
      · rw [m] at hloading ⊢
        exact l.keeps_rest (hrest hs) (hrest hs).queue hloading
  · rcases exec_cases h with m | ⟨hpin, _⟩ | m | ⟨_, hl, _⟩
    · exact Rest.of_reset m
    · exact absurd hpin (by simp [State.pinHeld_of_loaded (Bool.eq_false_iff.mpr hs)])
    · exact absurd (m.loading_eq ▸ hloading) hs
    · exact absurd hl hs

/-- Settles O8. -/
theorem restWhileLoadingKept : Obligations.RestWhileLoadingKept := by
  intro s t hrest hstep
  rcases step_cases hstep with rfl | ⟨i, rest, -, h⟩
  · exact hrest
  · exact exec_keeps_rest (s := { s with pending := rest }) (fun hl => hrest hl) h

/-- An event, between two resets, raises no lock index and changes no entry at or above it. -/
theorem exec_keeps_lock {i : Instr} {s t : State} (hlock : s.lockFits) (h : exec i s = .next t) :
    t.lockFits ∧ (s.loading = false → t.justReset ∨ LockKept s t) := by
  rcases exec_cases h with m | ⟨hpin, m⟩ | m | ⟨_, hl, u, l, m⟩
  · exact ⟨m.lockFits, fun _ => .inl m⟩
  · refine ⟨m ▸ hlock, fun hl => ?_⟩
    exact absurd hpin (by simp [State.pinHeld_of_loaded hl])
  · obtain ⟨hfits, hkept⟩ := m.keeps_lock hlock
    exact ⟨hfits, fun _ => .inr hkept⟩
  · refine ⟨?_, fun hf => absurd hl (by simp [hf])⟩
    rw [m]
    refine ((Moves.closeEvent _ u).keeps_lock ?_).1
    rcases l with l | ⟨v, l, -, m⟩
    · exact l.lock hlock
    · exact (m.keeps_lock (l.lock hlock)).1

/-- Settles O11. -/
theorem lockKeptBetweenResets : Obligations.LockKeptBetweenResets := by
  intro s t hlock hstep
  rcases step_cases hstep with rfl | ⟨i, rest, -, h⟩
  · exact ⟨hlock, fun _ => .inr ⟨Nat.le_refl _, fun _ _ => rfl⟩⟩
  · exact exec_keeps_lock (s := { s with pending := rest }) hlock h

end Sys2Proof.Machine
end

