-- ==== Sys2Proof/Proofs/Steps.lean ====
section
/-! PROOF. What a step and a reset come to, event by event: the front event is taken, every event completes, and
what a reset leaves; and the worst-case reply sizes. -/

namespace Sys2Proof.Machine

/-- Settles O1. -/
theorem stepTakesFrontEvent : Obligations.StepTakesFrontEvent := by
  refine ⟨fun c rest s h => ?_, fun s h => ?_⟩
  · rw [step, h]
  · rw [step, h]

/-! ### Completion -/

theorem Moves.pending_eq {s t : State} (m : Moves s t) : t.pending = s.pending := by
  induction m with
  | refl => rfl
  | tail _ m ih => rw [← ih]; cases m <;> rfl

theorem State.holdTimer_due (b s : State) (g : Group) : (State.holdTimer b s g).due = s.due := by
  unfold State.holdTimer
  split
  · rfl
  · split <;> rfl

theorem State.holdTimers_due (b s : State) : (State.holdTimers b s).due = s.due := by
  unfold State.holdTimers
  generalize allGroups = gs
  induction gs generalizing s with
  | nil => rfl
  | cons g rest ih => exact (ih _).trans (State.holdTimer_due b s g)

/-- Whatever the rounds did, nothing is owed after them. -/
theorem State.settle_due (n : Nat) (s : State) : (State.settle n s).due = Due.none := by
  induction n generalizing s with
  | zero => rfl
  | succ n ih =>
    unfold State.settle
    simp only []
    split
    · rfl
    · exact ih _
    · exact ih _

theorem State.closeEvent_due (b s : State) : (State.closeEvent b s).due = Due.none := by
  rw [State.closeEvent, State.holdTimers_due, State.settle_due]

/-- An event has completed: it added no event to the queue and left nothing owed. -/
def State.CompletesAs (s t : State) : Prop := t.pending = s.pending ∧ (s.due = Due.none → t.due = Due.none)

theorem State.CompletesAs.refl (s : State) : s.CompletesAs s := ⟨rfl, id⟩

@[simp] theorem State.pending_supervisorReset (s : State) (r : ResetInputs) :
    (s.supervisorReset r).pending = s.pending := rfl

theorem State.completesAs_resetTo (s : State) (r : ResetInputs) (c : ResetCauses) (l : LoadProgress) :
    s.CompletesAs (s.resetTo r c l) := ⟨rfl, fun _ => rfl⟩

/-- Every event but the resets is taken whole. -/
theorem exec_taken (i : Instr) (hi : Instr.ordinary i = true ∨ Instr.ofImage i = true)
    (ht : ∀ p r, i ≠ .transmissionCompletion p r) (s : State) : ∃ f, exec i s = takeEvent f s := by
  cases i with
  | powerOnReset | pinReset | pinRelease => rcases hi with hi | hi <;> exact absurd hi nofun
  | transmissionCompletion p r => exact absurd rfl (ht p r)
  | _ =>
    simp only [exec, execImageFirstPassCompletion, execImageSectionRead, execQuadLoss, execQuadRecovery,
      execEnergyOn, execEnergyOff, execPartnerAbility, execTrainDone, execTrainFail, execMarginReport,
      execSymbolErrors, execSilent, execCaptureSet, execTaps, execSwitchToLineFrameArrival,
      execLineToSwitchFrameArrival, execForwardedFrameSent, execReadPort, execReadReport, execReadTable,
      execReadStatus, execTestCable, execSurveyNow, execCancel, execRetrain, execSetAdmin,
      execWriteProfile, execWritePlanEntry, execWriteSignatures, execClearBlock, execSetGeometry,
      execLowerLock, execWriteRequester, execSetStation, execResetPart, execUnknownRequest,
      execExchangeTimerExpiry, execAttemptTimerExpiry, execVerifyTimerExpiry, execDegradeWindowExpiry,
      execBackoffTimerExpiry, execPhaseTimerExpiry, execHoldTimerExpiry, execSurveyTimerExpiry,
      execGraceTimerExpiry, execHoldoffTimerExpiry, execAnalyzeCompletion, execRestoreCompletion]
    exact ⟨_, rfl⟩

theorem takeEvent_next_exists (f : State → State) (s : State) :
    ∃ t, takeEvent f s = .next t ∧ (s.due = Due.none → t.due = Due.none) := by
  unfold takeEvent
  split
  · exact ⟨s, rfl, id⟩
  · exact ⟨_, rfl, fun _ => State.closeEvent_due _ _⟩

theorem LoadStep.pending_eq {s u : State} (l : LoadStep s u) : u.pending = s.pending := by
  rcases l with l | ⟨v, l, _, m⟩
  · exact l.pending
  · rw [m.pending_eq, l.pending]

/-- An event that is taken whole adds no event to the queue. -/
theorem exec_pending {i : Instr} (hi : Instr.ordinary i = true ∨ Instr.ofImage i = true) {s t : State}
    (h : exec i s = .next t) : t.pending = s.pending := by
  rcases hi with hi | hi
  · rcases exec_moves hi h with m | ⟨p, r, rfl⟩
    · exact m.pending_eq
    · rw [State.pending_supervisorReset, (Moves.transmissionCompleted s p).pending_eq]
  · rcases image_moves hi h with m | ⟨_, u, hu, m⟩
    · rw [m]
    · rw [m, (Moves.closeEvent s u).pending_eq]
      rcases hu with rfl | ⟨_, l⟩
      · rfl
      · exact l.pending_eq

theorem execPinReset_completes (r : ResetInputs) (s : State) :
    ∃ t, execPinReset r s = .next t ∧ s.CompletesAs t := by
  unfold execPinReset
  split
  · exact ⟨s, rfl, .refl s⟩
  · exact ⟨_, rfl, s.completesAs_resetTo _ _ _⟩

theorem execPinRelease_completes (s : State) : ∃ t, execPinRelease s = .next t ∧ s.CompletesAs t := by
  unfold execPinRelease
  split
  · exact ⟨_, rfl, rfl, id⟩
  · exact ⟨s, rfl, .refl s⟩

theorem execTransmissionCompletion_next (p : Port) (r : ResetInputs) (s : State) :
    ∃ t, execTransmissionCompletion p r s = .next t ∧ (s.due = Due.none → t.due = Due.none) := by
  unfold execTransmissionCompletion
  split
  · exact ⟨_, rfl, fun _ => rfl⟩
  · exact takeEvent_next_exists _ _

/-- Settles O2: a reset keeps the queue of events and owes nothing, and any other event is taken whole. -/
theorem everyEventCompletes : Obligations.EveryEventCompletes := by
  intro i s
  by_cases hi : Instr.ordinary i = true ∨ Instr.ofImage i = true
  · have hnext : ∃ t, exec i s = .next t ∧ (s.due = Due.none → t.due = Due.none) := by
      by_cases ht : ∃ p r, i = .transmissionCompletion p r
      · obtain ⟨p, r, rfl⟩ := ht
        exact execTransmissionCompletion_next p r s
      · obtain ⟨f, hf⟩ := exec_taken i hi (fun p r h => ht ⟨p, r, h⟩) s
        exact hf ▸ takeEvent_next_exists f s
    obtain ⟨t, h, hdue⟩ := hnext
    exact ⟨t, h, exec_pending hi h, hdue⟩
  · cases i with
    | powerOnReset r => exact ⟨_, rfl, s.completesAs_resetTo _ _ _⟩
    | pinReset r => exact execPinReset_completes r s
    | pinRelease => exact execPinRelease_completes s
    | _ => exact absurd (by simp [Instr.ordinary, Instr.ofImage]) hi

/-! ### Resets (R175) -/

theorem planBuiltin_getElem (i : Fin 16) :
    planBuiltin[i] = if i = 0 then PlanEntry.default else PlanEntry.unused := by
  revert i
  decide

theorem requestersBuiltin_getElem (r : RequesterId) :
    requestersBuiltin[r] = if r = 1 then Requester.wildcardAdmin else Requester.unused := by
  revert r
  decide

/-- The supervisor address ends in the strap value. -/
theorem Station.builtin_address (straps : BitVec 4) :
    (Station.builtin straps).address = 0x024E505A00#40 ++ (0#4 ++ straps) := by
  revert straps
  decide

theorem Station.builtin_eq (straps : BitVec 4) : Station.builtin straps
    = ⟨0x024E505A00#40 ++ (0#4 ++ straps), 0x9A5C, none, 0, 100, 8, 2000⟩ := by
  rw [← Station.builtin_address]
  rfl

theorem State.justReset_reset : State.reset.justReset := ⟨_, _, _, _, _, _, rfl⟩

/-- Settles O24. -/
theorem resetValues : Obligations.ResetValues := by
  have hr := State.justReset_reset
  refine ⟨fun straps causes progress pending arbiter outputs => ?_, hr.queueWithinCapacity, hr.numbered,
    hr.timersFit, hr.countsBounded, hr.captureExclusive, hr.classesInUse, hr.lockFits,
    rest_iff.mpr fun _ => Rest.of_reset hr, rfl, rfl⟩
  refine ⟨fun p => ?_, fun q => Vector.getElem_replicate _, planBuiltin_getElem, rfl, rfl,
    fun g => State.group_atReset _ _ _ _ _ _ g, fun e => State.engine_atReset _ _ _ _ _ _ e, rfl, rfl,
    fun i => Vector.getElem_replicate _, rfl, requestersBuiltin_getElem, Station.builtin_eq straps, rfl, rfl,
    rfl, fun i => State.slot_atReset _ _ _ _ _ _ i, rfl, rfl, rfl, rfl, rfl, rfl, rfl, rfl⟩
  rw [State.port_atReset]
  exact ⟨rfl, rfl, rfl, rfl, rfl, rfl, rfl, rfl, rfl, rfl⟩

/-! ### Worst-case replies (R161) -/

theorem tableWorst_other {b : List Byte} (h : 4 < byteAt b 0) : tableWorst b = 0 := by
  unfold tableWorst
  split <;> omega

theorem worstData_report_other {b : List Byte} (h : 2 < byteAt b 1) : worstData 2 b = 0 := by
  unfold worstData
  simp only []
  split <;> omega

theorem worstData_other {code : Nat} (h : code = 0 ∨ 6 < code) (b : List Byte) : worstData code b = 0 := by
  unfold worstData
  split <;> omega

theorem worstData_test (b : List Byte) :
    worstData 5 b = if (byteAt b 3).testBit 2 then 8 + 8 * byteAt b 4 else 176 := rfl

theorem worstSize_cons (e : RawEntry) (rest : List RawEntry) :
    worstSize (e :: rest) = 8 + worstData e.code.toNat e.params + worstSize rest := rfl

/-- A frame of one entry, `n` times over. -/
theorem worstSize_replicate (n : Nat) (e : RawEntry) :
    worstSize (List.replicate n e) = n * (8 + worstData e.code.toNat e.params) := by
  simp [worstSize]

/-- Settles O57, row by row. -/
theorem worstCaseReplies : Obligations.WorstCaseReplies := by
  refine ⟨fun b => ?_, ⟨rfl, worstSize_cons⟩, fun e => ⟨fun hcode hsweep => ?_, fun hcode => ?_⟩⟩
  · refine ⟨rfl, fun h => ?_, fun h => ?_, worstData_report_other, fun h => ?_, fun h => ?_, fun h => ?_,
      fun h => ?_, fun h => ?_, tableWorst_other, rfl, fun h => ?_, fun h => ?_, rfl,
      fun code h => worstData_other h b⟩
    · simp [worstData, h]
    · rcases h with h | h <;> simp [worstData, h]
    · simp [worstData, tableWorst, h]
    · simp [worstData, tableWorst, h]
    · simp [worstData, tableWorst, h]
    · simp [worstData, tableWorst, h]
    · simp [worstData, tableWorst, h]
    · rw [worstData_test, h]; rfl
    · rw [worstData_test, h]; rfl
  · rw [worstSize_replicate, hcode, show (5 : Byte).toNat = 5 from rfl, worstData_test, hsweep]
    exact Nat.le_of_ble_eq_true rfl
  · rw [worstSize_replicate, worstSize_replicate, hcode]
    exact ⟨Nat.le_of_ble_eq_true rfl, Nat.le_of_ble_eq_true rfl⟩

end Sys2Proof.Machine
end

