-- ==== Sys2Proof/Proofs/Closing.lean ====
section
/-! PROOF. The close of an event (log 17): the tables that it leaves as they are, and what it carries out of the
grants, training entries and reservations that were owed. -/

namespace Sys2Proof.Machine

/-! ### What a closing leaves alone -/

/-- The profile, class, stored results and traffic counters of a port are the same. -/
structure PortState.SameRecords (x y : PortState) : Prop where
  profile : y.profile = x.profile
  cableClass : y.cableClass = x.cableClass
  report : y.report = x.report
  summary : y.summary = x.summary
  baseline : y.baseline = x.baseline
  toLine : y.traffic.toLine = x.traffic.toLine
  toSwitch : y.traffic.toSwitch = x.traffic.toSwitch
  droppedNotUp : y.traffic.droppedNotUp = x.traffic.droppedNotUp
  badCheck : y.traffic.badCheck = x.traffic.badCheck
  diverted : y.traffic.diverted = x.traffic.diverted

theorem PortState.SameRecords.refl (x : PortState) : x.SameRecords x := by constructor <;> rfl

theorem PortState.SameRecords.trans {x y z : PortState} (a : x.SameRecords y) (b : y.SameRecords z) :
    x.SameRecords z where
  profile := b.profile.trans a.profile
  cableClass := b.cableClass.trans a.cableClass
  report := b.report.trans a.report
  summary := b.summary.trans a.summary
  baseline := b.baseline.trans a.baseline
  toLine := b.toLine.trans a.toLine
  toSwitch := b.toSwitch.trans a.toSwitch
  droppedNotUp := b.droppedNotUp.trans a.droppedNotUp
  badCheck := b.badCheck.trans a.badCheck
  diverted := b.diverted.trans a.diverted

/-- The tables, the load, the queue of events and the records of every port are the same; of the supervision
unit only the reply slots differ, and of the bundle groups the hold timers are the same. -/
structure State.SameTables (s t : State) : Prop where
  pending : t.pending = s.pending
  startUp : t.startUp = s.startUp
  quads : t.quads = s.quads
  plan : t.plan = s.plan
  signatures : t.signatures = s.signatures
  sequence : t.sequence = s.sequence
  supervision : { t.supervision with slots := s.supervision.slots } = s.supervision
  ports : ∀ p, (s.port p).SameRecords (t.port p)
  holdTimer : ∀ g, (t.group g).holdTimer = (s.group g).holdTimer

namespace State.SameTables

theorem refl (s : State) : s.SameTables s := ⟨rfl, rfl, rfl, rfl, rfl, rfl, rfl, fun _ => .refl _, fun _ => rfl⟩

theorem trans {s t u : State} (a : s.SameTables t) (b : t.SameTables u) : s.SameTables u where
  pending := b.pending.trans a.pending
  startUp := b.startUp.trans a.startUp
  quads := b.quads.trans a.quads
  plan := b.plan.trans a.plan
  signatures := b.signatures.trans a.signatures
  sequence := b.sequence.trans a.sequence
  supervision := (congrArg (fun v => { v with slots := s.supervision.slots }) b.supervision).trans a.supervision
  ports p := (a.ports p).trans (b.ports p)
  holdTimer g := (b.holdTimer g).trans (a.holdTimer g)

theorem foldl {α : Type} {f : State → α → State} (h : ∀ (s : State) x, s.SameTables (f s x)) (xs : List α) (s : State) :
    s.SameTables (xs.foldl f s) := by
  induction xs generalizing s with
  | nil => exact refl s
  | cons x rest ih => exact (h s x).trans (ih _)

/-! The primitive updates. -/

theorem updPort (s : State) (q : Port) (f : PortState → PortState) (h : ∀ x : PortState, x.SameRecords (f x)) :
    s.SameTables (s.updPort q f) := by
  refine ⟨rfl, rfl, rfl, rfl, rfl, rfl, rfl, fun p => ?_, fun _ => rfl⟩
  rw [State.port_updPort]
  split
  · next e => exact e ▸ h _
  · exact .refl _

theorem updTraining (s : State) (p : Port) (f : Training → Training) : s.SameTables (s.updTraining p f) :=
  updPort s p _ fun _ => by constructor <;> rfl

theorem updSurvey (s : State) (p : Port) (f : SurveyRecord → SurveyRecord) : s.SameTables (s.updSurvey p f) :=
  updPort s p _ fun _ => by constructor <;> rfl

theorem setMode (s : State) (p : Port) (m : LineMode) : s.SameTables (s.setMode p m) :=
  updPort s p _ fun _ => by constructor <;> rfl

theorem insertFrame (s : State) (p : Port) (b : List Byte) (source : FrameSource) :
    s.SameTables (s.insertFrame p b source) :=
  updPort s p (fun x => { x with traffic := x.traffic.place ⟨b, false, source⟩ }) fun x => by
    simp only [Traffic.place]
    split <;> constructor <;> rfl

theorem updEngine (s : State) (e : EngineId) (f : Engine → Engine) : s.SameTables (s.updEngine e f) :=
  ⟨rfl, rfl, rfl, rfl, rfl, rfl, rfl, fun _ => .refl _, fun _ => rfl⟩

theorem updGroup (s : State) (g : Group) (f : BundleGroup → BundleGroup)
    (h : ∀ x, (f x).holdTimer = x.holdTimer) : s.SameTables (s.updGroup g f) := by
  refine ⟨rfl, rfl, rfl, rfl, rfl, rfl, rfl, fun _ => .refl _, fun k => ?_⟩
  rw [State.group_updGroup]
  split
  · next e => exact e ▸ h _
  · rfl

theorem updEntry (s : State) (n : Nat) (f : QueueEntry → QueueEntry) : s.SameTables (s.updEntry n f) :=
  ⟨rfl, rfl, rfl, rfl, rfl, rfl, rfl, fun _ => .refl _, fun _ => rfl⟩

theorem enqueue (s : State) (x : QueueEntry) : s.SameTables (s.enqueue x) :=
  ⟨rfl, rfl, rfl, rfl, rfl, rfl, rfl, fun _ => .refl _, fun _ => rfl⟩

theorem dropEntry (s : State) (n : Nat) : s.SameTables (s.dropEntry n) :=
  ⟨rfl, rfl, rfl, rfl, rfl, rfl, rfl, fun _ => .refl _, fun _ => rfl⟩

theorem setSlot (s : State) (i : SlotId) (r : Option ReplySlot) : s.SameTables (s.setSlot i r) :=
  ⟨rfl, rfl, rfl, rfl, rfl, rfl, rfl, fun _ => .refl _, fun _ => rfl⟩

theorem own (s : State) (due : Due) (arbiter : Nat) (outputs : List Output) :
    s.SameTables { s with due := due, arbiter := arbiter, outputs := outputs } :=
  ⟨rfl, rfl, rfl, rfl, rfl, rfl, rfl, fun _ => .refl _, fun _ => rfl⟩

theorem oweSelection (s : State) : s.SameTables s.oweSelection := own s _ _ _
theorem oweReservations (s : State) : s.SameTables s.oweReservations := own s _ _ _
theorem oweReentry (s : State) (l : List Port) : s.SameTables (s.oweReentry l) := own s _ _ _
theorem discharge (s : State) : s.SameTables s.discharge := own s _ _ _
theorem emit (s : State) (o : Output) : s.SameTables (s.emit o) := own s _ _ _

theorem noticeRaised (s : State) : s.SameTables s.noticeRaised := by
  unfold State.noticeRaised
  split
  · exact ⟨rfl, rfl, rfl, rfl, rfl, rfl, rfl, fun _ => .refl _, fun _ => rfl⟩
  · exact refl s

/-! Commands, events and replies. -/

theorem send (s : State) (p : Port) (c : LaneCommand) : s.SameTables (s.send p c) := by
  unfold State.send
  split
  · exact (setMode s p _).trans (emit _ _)
  · exact refl s

theorem raise (s : State) (p : Port) (e : PortEvent) : s.SameTables (s.raise p e) :=
  (updPort s p _ fun _ => by constructor <;> rfl).trans (noticeRaised _)

theorem answer (s : State) (a : ReplyPlace) (c : ResultCode) (d : List Byte) : s.SameTables (s.answer a c d) := by
  unfold State.answer
  split
  · exact refl s
  · simp only []
    split
    · exact (setSlot s _ _).trans (insertFrame _ _ _ _)
    · exact setSlot s _ _

theorem answerEntry (s : State) (x : QueueEntry) (c : ResultCode) (d : List Byte) :
    s.SameTables (s.answerEntry x c d) := by
  unfold State.answerEntry
  split
  · exact refl s
  · exact answer s _ _ _

/-! Departures from the queue. -/

theorem offerSurvey (s : State) (p : Port) : s.SameTables (s.offerSurvey p) := by
  unfold State.offerSurvey
  split
  · exact refl s
  · split
    · exact (enqueue s _).trans (updSurvey _ p _)
    · exact updSurvey s p _

theorem offerPending (s : State) : s.SameTables s.offerPending := by
  refine foldl (fun t p => ?_) _ s
  split
  · exact offerSurvey t p
  · exact refl t

theorem finishEntry (s : State) (x : QueueEntry) (c : ResultCode) (d : List Byte) :
    s.SameTables (s.finishEntry x c d) :=
  (((dropEntry s _).trans (offerPending _)).trans (oweReservations _)).trans (answerEntry _ x c d)

theorem idleEngine (s : State) (e : EngineId) : s.SameTables (s.idleEngine e) :=
  (updEngine s e _).trans (oweSelection _)

theorem endSurvey (s : State) (p : Port) (c : ResultCode) : s.SameTables (s.endSurvey p c) := by
  unfold State.endSurvey
  split
  · exact refl s
  · split
    · exact finishEntry s _ _ _
    · exact ((setMode s p _).trans (idleEngine _ _)).trans (finishEntry _ _ _ _)

theorem departIfUp (s : State) (p : Port) (c : ResultCode) : s.SameTables (s.departIfUp p c) := by
  unfold State.departIfUp
  split
  · exact (((raise s p _).trans (updTraining _ p _)).trans (updSurvey _ p _)).trans (endSurvey _ p c)
  · exact refl s

/-! Link states and grants. -/

theorem setLink (s : State) (p : Port) (l : LinkState) : s.SameTables (s.setLink p l) := by
  unfold State.setLink
  simp only []
  split
  · exact (updTraining s p _).trans (oweSelection _)
  · exact updTraining s p _

theorem enterHeld (s : State) (p : Port) : s.SameTables (s.enterHeld p) :=
  (((updTraining s p _).trans (departIfUp _ p _)).trans (setLink _ p _)).trans (updTraining _ p _)

theorem enterTrain (s : State) (p : Port) : s.SameTables (s.enterTrain p) := by
  unfold State.enterTrain
  simp only []
  split
  · exact (setLink s p _).trans (updTraining _ p _)
  · exact ((setLink s p _).trans (updTraining _ p _)).trans (send _ p _)

theorem stopIf (s : State) (b : Bool) (p : Port) : s.SameTables (s.stopIf b p) := by
  unfold State.stopIf
  split
  · exact send s p _
  · exact refl s

theorem trainingEntry (s : State) (b : Bool) (p : Port) : s.SameTables (s.trainingEntry b p) := by
  unfold State.trainingEntry
  simp only []
  split
  · exact enterTrain s p
  · exact (stopIf s b p).trans (setLink _ p _)

theorem movePassedOver (s : State) (e : EngineId) (o : Option QueueEntry) (n : Nat) :
    s.SameTables (s.movePassedOver e o n) := by
  unfold State.movePassedOver
  split
  · exact refl s
  · split
    · exact updEngine s e _
    · split
      · exact updEngine s e _
      · exact (updEngine s e _).trans (updEntry _ _ _)

theorem grantTest (s : State) (e : EngineId) (x : QueueEntry) (o : TestOptions) :
    s.SameTables (s.grantTest e x o) :=
  (((updGroup s (s.groupOf x.port) (fun y => { y with slot := some ⟨x.port, e⟩, reserved := false })
    fun _ => rfl).trans (enterHeld _ _)).trans (updEngine _ e _)).trans (send _ _ _)

theorem grantSurvey (s : State) (e : EngineId) (x : QueueEntry) : s.SameTables (s.grantSurvey e x) :=
  (updEngine s e _).trans (send _ _ _)

theorem grant (s : State) (e : EngineId) (x : QueueEntry) : s.SameTables (s.grant e x) := by
  unfold State.grant
  simp only []
  refine trans ?_ (movePassedOver _ _ _ _)
  split
  · exact (updEntry s _ _).trans (grantSurvey _ e x)
  · exact (updEntry s _ _).trans (grantTest _ e x _)

/-! The rounds. -/

theorem releaseEvent (s : State) (g : Group) : s.SameTables (s.releaseEvent g) :=
  (oweReentry s _).trans (oweSelection _)

theorem dropReservation (s : State) (g : Group) : s.SameTables (s.dropReservation g) := by
  have cleared := (updGroup s g (fun x => { x with reserved := false }) fun _ => rfl).trans (oweSelection _)
  unfold State.dropReservation
  split
  · simp only []
    split
    · exact cleared.trans (releaseEvent _ g)
    · exact cleared
  · exact refl s

theorem reservationsDue (s : State) : s.SameTables s.reservationsDue := by
  unfold State.reservationsDue
  split
  · exact (own s _ _ _).trans (foldl dropReservation _ _)
  · exact refl s

theorem carryOut (s : State) (c : Consequence) : s.SameTables (s.carryOut c) := by
  cases c with
  | reenter p => exact (own s _ _ _).trans (trainingEntry _ false p)
  | grant e x => exact grant s e x

theorem settle (n : Nat) (s : State) : s.SameTables (State.settle n s) := by
  induction n generalizing s with
  | zero => exact discharge s
  | succ n ih =>
    unfold State.settle
    refine (reservationsDue s).trans ?_
    simp only []
    split
    · exact discharge _
    · exact (carryOut _ _).trans (ih _)
    · exact ((own _ _ _ _).trans (carryOut _ _)).trans (ih _)

end State.SameTables

/-! ### The hold timers -/

/-- Two states differ in the hold timers of bundle groups alone. -/
structure State.TimersApart (s t : State) : Prop where
  rest : t = { s with groups := t.groups }
  slot : ∀ g, (t.group g).slot = (s.group g).slot
  reserved : ∀ g, (t.group g).reserved = (s.group g).reserved

theorem State.TimersApart.refl (s : State) : s.TimersApart s := ⟨rfl, fun _ => rfl, fun _ => rfl⟩

theorem State.TimersApart.trans {s t u : State} (a : s.TimersApart t) (b : t.TimersApart u) :
    s.TimersApart u where
  rest := by rw [b.rest, a.rest]
  slot g := (b.slot g).trans (a.slot g)
  reserved g := (b.reserved g).trans (a.reserved g)

theorem State.TimersApart.set (s : State) (g : Group) (timer : Timer) :
    s.TimersApart (s.updGroup g fun x => { x with holdTimer := timer }) := by
  refine ⟨rfl, fun k => ?_, fun k => ?_⟩ <;>
  · rw [State.group_updGroup]
    split
    · next e => rw [e]
    · rfl

theorem State.TimersApart.holdTimer (b s : State) (g : Group) : s.TimersApart (State.holdTimer b s g) := by
  unfold State.holdTimer
  split
  · exact .set s g _
  · split
    · exact .set s g _
    · exact .refl s

theorem State.TimersApart.holdTimers (b s : State) : s.TimersApart (State.holdTimers b s) := by
  unfold State.holdTimers
  generalize allGroups = gs
  induction gs generalizing s with
  | nil => exact .refl s
  | cons g rest ih => exact (State.TimersApart.holdTimer b s g).trans (ih _)

/-- Settles O3. -/
theorem closingKeepsTables : Obligations.ClosingKeepsTables := by
  intro before s t
  have h : s.SameTables (State.settle settleFuel s) := .settle _ s
  have happart : (State.settle settleFuel s).TimersApart t := .holdTimers before _
  clear_value t
  generalize State.settle settleFuel s = u at h happart
  have hv {α : Type} (f : Supervision → α) (hf : ∀ v x, f { v with slots := x } = f v) :
      f u.supervision = f s.supervision :=
    (hf u.supervision s.supervision.slots).symm.trans (congrArg f h.supervision)
  rw [happart.rest]
  refine ⟨h.pending, h.startUp, h.quads, h.plan, h.signatures, h.sequence,
    hv Supervision.requesters fun _ _ => rfl, hv Supervision.station fun _ _ => rfl,
    hv Supervision.stationSet fun _ _ => rfl, hv Supervision.accepting fun _ _ => rfl,
    hv Supervision.requests fun _ _ => rfl, fun p => ?_⟩
  have hp := h.ports p
  exact ⟨hp.profile, hp.cableClass, hp.report, hp.summary, hp.baseline, hp.toLine, hp.toSwitch,
    hp.droppedNotUp, hp.badCheck, hp.diverted⟩

section Apart

variable {s t : State} (h : s.TimersApart t)

include h

theorem State.TimersApart.port (p : Port) : t.port p = s.port p := by rw [h.rest]; rfl
theorem State.TimersApart.queue : t.queue = s.queue := by rw [h.rest]
theorem State.TimersApart.engine (e : EngineId) : t.engine e = s.engine e := by rw [h.rest]; rfl
theorem State.TimersApart.quadUp (p : Port) : t.quadUp p = s.quadUp p := by rw [h.rest]; rfl
theorem State.TimersApart.groupOf (p : Port) : t.groupOf p = s.groupOf p := by rw [h.rest]; rfl
theorem State.TimersApart.link (p : Port) : t.link p = s.link p := by rw [h.rest]; rfl

theorem State.TimersApart.openGroup (p : Port) : t.openGroup p ↔ s.openGroup p := by
  rw [State.openGroup, State.openGroup, h.groupOf, h.slot, h.reserved]

theorem State.TimersApart.mayGrant (e : EngineId) (x : QueueEntry) : t.mayGrant e x ↔ s.mayGrant e x := by
  simp only [State.mayGrant, h.engine, h.queue, h.quadUp, h.link, h.groupOf, h.slot]

end Apart

/-! ### What a closing brings about -/

theorem State.testWaitingIn_iff (s : State) (g : Group) : s.testWaitingIn g = true
    ↔ ∃ x ∈ s.queue, x.state = .waiting ∧ x.isSurvey = false ∧ s.groupOf x.port = g := by
  simp [State.testWaitingIn, QueueEntry.waiting, and_assoc]

/-- No consequence is left: no training entry owed can be made, and no engine has an entry to grant. -/
theorem State.consequences_eq_nil {s : State} (h : s.consequences = []) :
    (∀ p ∈ s.due.reentry, s.link p ≠ .pendingTrain)
    ∧ (s.due.select = true → ∀ e, s.selection e = none) := by
  obtain ⟨hreentry, hgrants⟩ := List.append_eq_nil_iff.mp h
  refine ⟨fun p hp hlink => ?_, fun hselect e => ?_⟩
  · have := List.map_eq_nil_iff.mp hreentry
    exact List.filter_eq_nil_iff.mp this p hp (by simp [hlink])
  · rw [if_pos hselect, List.filterMap_eq_nil_iff] at hgrants
    exact Option.map_eq_none_iff.mp (hgrants e (List.mem_finRange e))

theorem State.releaseSlot_reserved {s : State} {g : Group} (h : (s.group g).reserved = true) :
    s.releaseSlot g = (s.updGroup g fun x => { x with slot := none }).oweSelection := by
  simp [State.releaseSlot, h]

theorem State.releaseSlot_open {s : State} {g : Group} (h : (s.group g).reserved = false) :
    s.releaseSlot g = ((s.updGroup g fun x => { x with slot := none }).oweSelection).oweReentry
      (allPorts.filter fun p => s.groupOf p == g && s.link p == .pendingTrain) := by
  have hmembers : (s.members g).filter (fun p => s.link p == .pendingTrain)
      = allPorts.filter fun p => s.groupOf p == g && s.link p == .pendingTrain := by
    rw [State.members, List.filter_filter]
    exact List.filter_congr fun p _ => Bool.and_comm _ _
  rw [← hmembers]
  simp only [State.releaseSlot, h]
  rfl

/-- Settles O4: the rounds end in a state that stands to the first as `State.Settling` says and has no
consequence left; the hold timers that follow touch nothing of it. -/
theorem closingSettles : Obligations.ClosingSettles := by
  refine ⟨fun before u hn => ?_, fun s g => ⟨State.releaseSlot_reserved, State.releaseSlot_open⟩⟩
  obtain ⟨v, hsettle, hv, hnil, hlooked⟩ := State.settle_settling u hn
  obtain ⟨hmade, hgranted⟩ := State.consequences_eq_nil hnil
  intro t waitsIn
  have hvt : v.discharge.TimersApart t := hsettle ▸ State.TimersApart.holdTimers before _
  have hwaits (g : Group) : v.testWaitingIn g = true ↔ ∃ x ∈ t.queue, waitsIn x g := by
    simp only [State.testWaitingIn_iff, waitsIn, hvt.queue, hvt.groupOf]
    rfl
  refine ⟨fun hselect e x hx hmay => ?_, fun p hlink hopen => ?_, fun g hres => ?_, fun g hres hclear => ?_⟩
  · rw [hvt.mayGrant] at hmay
    rw [hvt.queue] at hx
    exact (State.selection_eq_none_iff v e).mp (hgranted (hv.select hselect) e) x hx hmay
  · rw [hvt.link] at hlink
    rw [hvt.openGroup] at hopen
    rcases hv.waiting p hlink hopen with howed | hbefore
    · exact absurd hlink (hmade p howed)
    · exact hbefore
  · rw [hvt.reserved] at hres
    obtain ⟨hbefore, hlook⟩ := hv.reserved g hres
    refine ⟨hbefore, fun howed => (hwaits g).mp ?_⟩
    rcases hlook howed with hwait | howed
    · exact hwait
    · exact absurd howed (by simp [hlooked])
  · rw [hvt.reserved] at hclear
    rw [hvt.slot]
    rcases hv.cleared g hres hclear with hslot | hwait
    · exact .inl hslot
    · exact .inr fun x hx hw => by simp [(hwaits g).mpr ⟨x, hx, hw⟩] at hwait

/-! ### The shared reads, writes and notes -/

theorem State.send_up {s : State} {p : Port} (h : s.quadUp p = true) (c : LaneCommand) :
    s.send p c = (s.setMode p (c.modeAfter (s.mode p))).emit (.command p c) := by
  rw [State.send, if_pos h]

theorem State.send_down {s : State} {p : Port} (h : s.quadUp p = false) (c : LaneCommand) : s.send p c = s := by
  simp [State.send, h]

theorem State.loading_iff (s : State) : s.loading = true ↔ s.startUp.progress ≠ .complete := by
  simp [State.loading]

theorem State.pinHeld_iff (s : State) : s.pinHeld = true ↔ s.startUp.progress = .awaitingRelease := by
  simp [State.pinHeld]

theorem State.updEntry_eq (s : State) (n : Nat) (f : QueueEntry → QueueEntry) :
    s.updEntry n f = { s with queue := s.queue.map fun x => if x.serial = n then f x else x } := by
  simp [State.updEntry]

/-- Four times a quad's number, divided by four: the engine of a port counts the quads modulo 4 (R1). -/
theorem engineOf_val (p : Port) : (engineOf p).val = p.val / 4 % 4 := by
  show p.val / 4 - 4 * (p.val / 4 / 4) = p.val / 4 % 4
  omega

/-- Settles O12: the reads and writes by definition, the commands row by row. -/
theorem commandsSent : Obligations.CommandsSent := by
  refine ⟨fun s p => ⟨rfl, rfl, rfl, rfl, rfl, rfl, rfl, rfl, rfl, rfl, engineOf_val p, fun _ => rfl,
      fun _ => rfl, fun _ => rfl, fun _ => rfl, fun _ => rfl⟩,
    fun s e g i n o ports => ⟨rfl, rfl, rfl, s.loading_iff, s.pinHeld_iff, fun _ => rfl, fun _ => rfl,
      fun _ => rfl, fun _ => rfl, fun _ => rfl, s.updEntry_eq n, rfl, rfl, rfl, rfl⟩,
    fun s p cmd => ⟨fun h => State.send_down h cmd, fun h => ⟨_, State.send_up h cmd, ?_⟩⟩⟩
  cases cmd <;> rfl

/-- Settles O13, kind by kind. -/
theorem eventsRaised : Obligations.EventsRaised := by
  refine ⟨fun s p e d => ⟨State.raise_woken s p e, State.noticeRaised_woken _⟩, fun e => ⟨rfl, rfl⟩,
    fun k => rfl, rfl, fun e k q a c d n m => ?_⟩
  refine ⟨rfl, rfl, rfl, rfl, fun h => ?_, fun h => ?_, fun h => ?_, fun h => ?_, fun h => ?_, fun h => ?_,
    fun h => ?_, fun h => ?_⟩ <;>
  simp [PortEvents.record, ExhaustedCount.more, DegradedCount.more, SequencedCount.more, h,
    Config.occurrenceCeiling]

end Sys2Proof.Machine
end

