-- ==== Sys2Proof/Proofs/Training.lean ====
section
/-! PROOF. The training controllers (chapter 3): the shared operations as one state each, and what the training
reports and the training timers come to in each link state. -/

namespace Sys2Proof.Machine

/-! ### Events that change nothing -/

/-- An event without an effect of its own, with nothing owed, changes nothing. -/
theorem takeEvent_idle {f : State → State} {s : State} (hf : f s = s) (hd : s.due = Due.none) :
    takeEvent f s = .next s := by
  by_cases hp : s.pinHeld = true
  · rw [takeEvent, if_pos hp]
  · exact takeEvent_exact (Bool.eq_false_iff.mpr hp) hf (.refl s) hd

/-! ### What the operations leave of the queue -/

@[simp] theorem State.queue_send (s : State) (p : Port) (c : LaneCommand) : (s.send p c).queue = s.queue := by
  unfold State.send
  split <;> rfl

@[simp] theorem State.queue_stopping (s : State) (b : Bool) (p : Port) : (s.stopping b p).queue = s.queue := by
  unfold State.stopping
  split
  · exact State.queue_send s p _
  · rfl

@[simp] theorem State.queue_leavingTrain (b : State) (p : Port) (u : State) :
    (b.leavingTrain p u).queue = u.queue := by
  unfold State.leavingTrain
  split <;> rfl

/-! ### Link states -/

theorem State.stopIf_eq_stopping (s : State) (b : Bool) (p : Port) : s.stopIf b p = s.stopping b p := rfl

theorem State.setLink_train (s : State) (p : Port) : s.setLink p .train = s.updTraining p fun t => t.enter .train := by
  simp [State.setLink]

/-- UP is entered from another link state: grant selection is owed (R78). -/
theorem State.setLink_up {s : State} {p : Port} (h : s.link p ≠ .up) :
    s.setLink p .up = (s.updTraining p fun t => t.enter .up).oweSelection := by
  simp [State.setLink, h]

/-- A link state that is neither TRAIN nor UP is entered, and the training context then changes within it. -/
theorem State.setLink_updTraining (s : State) (p : Port) (l : LinkState) (f : Training → Training)
    (h1 : l ≠ .train) (h2 : l ≠ .up) :
    (s.setLink p l).updTraining p f = s.leavingTrain p (s.updTraining p fun t => f (t.enter l)) := by
  rw [State.setLink_leavingTrain _ _ _ h1 h2, State.updTraining_leavingTrain, State.updTraining_twice]

/-- What precedes a departure from TRAIN changes the training context within its link state. -/
theorem State.leavingTrain_updTraining (s u : State) (p : Port) (f : Training → Training)
    (h : ∀ t, (f t).link = t.link) : (s.updTraining p f).leavingTrain p u = s.leavingTrain p u :=
  State.leavingTrain_congr _ _ _ _ (by rw [State.link_updTraining, h]; rfl)

theorem State.leavingTrain_stopping (s u : State) (b : Bool) (p : Port) :
    (s.stopping b p).leavingTrain p u = s.leavingTrain p u := by
  refine State.leavingTrain_congr _ _ _ _ ?_
  unfold State.stopping
  split
  · exact State.link_send s p p _
  · rfl

/-! ### The entry to EXCHANGE, the forced start, and exhaustion (R35, R36, R50) -/

section Exchange

variable (s : State) (again : Bool) (p : Port)

theorem State.enterExchange_able (h : s.triable p (s.training p).demoted ≠ []) :
    s.enterExchange again p = s.leavingTrain p ((s.updTraining p fun t =>
      { t.enter .exchange with
        snapshot := some (s.nextSnapshot p)
        attempts := 0
        target := none
        ability := s.triable p (s.training p).demoted
        exchangeTimer := some 1500 }).send p (.sendAbility (s.triable p (s.training p).demoted))) := by
  simp only [State.enterExchange, State.localAbility_triable, List.isEmpty_eq_false_iff.mpr h]
  rw [if_neg Bool.false_ne_true, State.setLink_updTraining _ _ _ _ (by decide) (by decide),
    State.takeSnapshot_next, State.updTraining_twice, State.updTraining_twice, State.send_leavingTrain]
  exact State.leavingTrain_updTraining _ _ _ _ fun _ => rfl

theorem State.enterExchange_unable (h : s.triable p (s.training p).demoted = []) :
    s.enterExchange again p = (s.updTraining p fun t =>
      { t with snapshot := some (s.nextSnapshot p), attempts := 0, target := none, ability := [] }).exhaust
        again p := by
  simp only [State.enterExchange, State.localAbility_triable, h]
  rw [if_pos List.isEmpty_nil, State.takeSnapshot_next, State.updTraining_twice]

theorem State.forcedStart_aimed (r : Rate) :
    let aimed := s.updTraining p fun t =>
      { t with snapshot := some (s.nextSnapshot p), attempts := 0, target := some r }
    (r ∈ (s.training p).demoted → s.forcedStart again p r = aimed.exhaust again p)
    ∧ (r ∉ (s.training p).demoted → s.forcedStart again p r = aimed.trainingEntry again p) := by
  simp only [State.forcedStart, State.takeSnapshot_next, State.updTraining_twice]
  exact ⟨fun h => by rw [if_pos (by simpa using h)], fun h => by rw [if_neg (by simpa using h)]⟩

/-- The port as the end of its cycle leaves it, before anything is offered or raised. -/
def State.cycleEnded : State :=
  s.leavingTrain p ((s.updTraining p fun t =>
    { (t.noted (t.cycleRecord .exhausted)).enter .backoff with
      backoffTimer := some (s.profile p).backoffTime }).stopping again p)

theorem State.cycleEnded_queue : (s.cycleEnded again p).queue = s.queue := by
  rw [State.cycleEnded, State.queue_leavingTrain, State.queue_stopping]
  rfl

theorem State.exhaust_eq : s.exhaust again p =
    (if (s.profile p).autoDiagnosis && !s.testWaiting p then
      if s.roomInternal then
        ((s.cycleEnded again p).enqueue (internalTest p (s.profile p))).raise p (.trainExhausted false)
      else (s.cycleEnded again p).raise p (.trainExhausted true)
    else (s.cycleEnded again p).raise p (.trainExhausted false)) := by
  have hended : (((s.updTraining p fun t => t.recordCycle .exhausted).stopIf again p).setLink p
      .backoff).updTraining p (fun t => { t with backoffTimer := some (s.profile p).backoffTime })
      = s.cycleEnded again p := by
    rw [State.setLink_updTraining _ _ _ _ (by decide) (by decide), State.stopIf_eq_stopping,
      State.leavingTrain_stopping, ← State.stopping_updTraining, State.updTraining_twice]
    exact State.leavingTrain_updTraining _ _ _ _ fun _ => rfl
  simp only [State.exhaust, hended, State.testWaiting, State.roomInternal, State.cycleEnded_queue]
  rfl

end Exchange

theorem State.testWaiting_iff (s : State) (p : Port) : s.testWaiting p = true ↔ ∃ x ∈ s.queue, x.port = p
    ∧ x.state = .waiting ∧ ∃ o, x.kind = .test o ∧ o.sweep = none := by
  simp only [State.testWaiting, List.any_eq_true]
  refine exists_congr fun x => and_congr_right fun _ => ?_
  cases h : x.kind <;>
  simp [QueueEntry.isSingleTest, QueueEntry.isSurvey, QueueEntry.sweep, QueueEntry.options, QueueEntry.waiting,
    h, and_comm, and_left_comm]

theorem State.roomInternal_iff (s : State) : s.roomInternal = true ↔ s.queue.length < 32 := decide_eq_true_iff

/-- Settles O14: the exchange or the forced start, and exhaustion. -/
theorem exchangeAndExhaustion : Obligations.ExchangeAndExhaustion := by
  refine ⟨fun s again p => ?_, fun s again p => ?_⟩
  · refine ⟨fun hforced hable => ?_, fun hforced hable => ?_, fun r hforced => ?_⟩
    · simp only [State.beginExchange, hforced]
      exact State.enterExchange_able s again p hable
    · simp only [State.beginExchange, hforced]
      exact State.enterExchange_unable s again p hable
    · simp only [State.beginExchange, hforced]
      exact State.forcedStart_aimed s again p r
  · rw [State.exhaust_eq]
    refine ⟨fun h => if_neg ?_, fun hauto hfree => ⟨fun hroom => ?_, fun hfull => ?_⟩, State.testWaiting_iff s p⟩
    · rcases h with h | h <;> simp [h]
    · rw [if_pos (by simp [hauto, hfree]), if_pos (s.roomInternal_iff.mpr hroom)]
      rfl
    · rw [if_pos (by simp [hauto, hfree]), if_neg (mt s.roomInternal_iff.mp (Nat.not_lt.mpr hfull))]
      rfl

/-! ### Training entry and the entry to LISTEN (R34, R39, R41) -/

theorem State.enterTrain_target {s : State} {p : Port} {r : Rate} (h : (s.training p).target = some r) :
    s.enterTrain p = (s.updTraining p fun t =>
      { t.enter .train with margin := none, attemptTimer := some 2500 }).send p (.startTrain r) := by
  simp only [State.enterTrain, h, State.setLink_train, State.updTraining_twice]
  rfl

theorem State.openGroup_iff (s : State) (p : Port) : s.openGroup p
    ↔ ((s.group (s.groupOf p)).slot.isNone && !(s.group (s.groupOf p)).reserved) = true := by
  simp [State.openGroup]

theorem State.trainingEntry_open {s : State} {p : Port} (h : s.openGroup p) (again : Bool) :
    s.trainingEntry again p = s.enterTrain p := by
  simp only [State.trainingEntry, (State.openGroup_iff s p).mp h]
  rfl

theorem State.trainingEntry_closed {s : State} {p : Port} (h : ¬ s.openGroup p) (again : Bool) :
    s.trainingEntry again p = s.leavingTrain p
      ((s.updTraining p fun t => t.enter .pendingTrain).stopping again p) := by
  rw [State.openGroup_iff] at h
  simp only [State.trainingEntry, if_neg h]
  rw [State.setLink_leavingTrain _ _ _ (by decide) (by decide), State.stopIf_eq_stopping,
    State.leavingTrain_stopping, State.stopping_updTraining]

theorem State.enterListen_eq (s : State) (p : Port) :
    s.enterListen p =
      (if (s.training p).energy then (s.leavingTrain p (s.updTraining p Training.listening)).beginExchange false p
      else s.leavingTrain p (s.updTraining p Training.listening)) := by
  simp only [State.enterListen, State.setLink_updTraining _ _ _ _ (show LinkState.listen ≠ .train by decide)
    (show LinkState.listen ≠ .up by decide)]
  rfl

/-- Settles O15. -/
theorem trainingAndListenEntry : Obligations.TrainingAndListenEntry := by
  refine ⟨fun _ _ => rfl, fun s again p r hr => ⟨fun h => ?_, fun h => State.trainingEntry_closed h again⟩,
    fun s p => ⟨fun h => ?_, fun h => ?_⟩⟩
  · rw [State.trainingEntry_open h, State.enterTrain_target hr]
  · rw [State.enterListen_eq, if_neg (by simp [h])]
  · rw [State.enterListen_eq, if_pos h]

/-! ### The departure from UP (R49, R111, R150) -/

/-- A raise and a change of what else the port holds may be taken in either order. -/
theorem State.raise_updPort (s : State) (p : Port) (e : PortEvent) (f : PortState → PortState)
    (h : ∀ x, f { x with events := x.events.record e } = { f x with events := (f x).events.record e }) :
    (s.raise p e).updPort p f = (s.updPort p f).raise p e := by
  simp only [State.raise_woken, State.woken_updPort, State.updPort_twice, h]

theorem State.queue_raise (s : State) (p : Port) (e : PortEvent) : (s.raise p e).queue = s.queue := by
  rw [State.raise_woken, State.woken_queue]
  rfl

theorem State.surveyEntry_congr {s t : State} (h : t.queue = s.queue) (p : Port) :
    t.surveyEntry p = s.surveyEntry p := by
  rw [State.surveyEntry, h]
  rfl

/-- The port as it leaves UP, its survey not yet ended. -/
def State.leftUp (s : State) (p : Port) : State :=
  (s.updPort p fun x =>
    { x with
      training := { x.training with current := none, degradeTimer := none }
      survey := ⟨.idle, none, none, false⟩ }).raise p .linkDown

theorem State.departUp_eq (s : State) (p : Port) (cause : ResultCode) :
    s.departUp p cause = (s.leftUp p).endSurvey p cause := by
  have h : ((s.raise p .linkDown).updTraining p fun t => { t with current := none, degradeTimer := none }).updSurvey
      p (fun _ => SurveyRecord.atReset) = s.leftUp p := by
    rw [State.updTraining, State.updSurvey, State.updPort_twice, State.raise_updPort _ _ _ _ fun _ => rfl]
    rfl
  rw [State.departUp, State.surveyLeavesUp, h]

theorem State.surveyEntry_leftUp (s : State) (p q : Port) : (s.leftUp p).surveyEntry q = s.surveyEntry q :=
  State.surveyEntry_congr (State.queue_raise _ p _) q

/-- Settles O16, by the port's SURVEY entry. -/
theorem departureFromUp : Obligations.DepartureFromUp := by
  intro s p cause u
  rw [State.departUp_eq, State.endSurvey, State.surveyEntry_leftUp]
  refine ⟨fun h => by rw [h]; rfl, fun x h => ?_⟩
  rw [h]
  exact ⟨fun hw => by simp only [hw]; rfl, fun e hf => by simp only [hf]; rfl⟩

/-! ### Reports without an effect (R14) -/

theorem State.reportReaches_iff (s : State) (p : Port) : s.reportReaches p = true
    ↔ s.loading = false ∧ s.quadUp p = true ∧ (s.mode p = .openMode ∨ s.mode p = .readingTaps) := by
  simp [State.reportReaches, and_assoc]

theorem State.report_blocked {s : State} {p : Port} (h : s.reportReaches p = false) (f : State → State) :
    s.report p f = s := by
  rw [State.report, h]
  rfl

/-- A report that its training controller does not act on changes nothing. -/
theorem State.hears.idle {s : State} {p : Port} {f : State → State} (h : s.hears p) (hf : f s = s) :
    takeEvent (fun t => t.report p f) s = .next s :=
  takeEvent_idle ((h.report f).trans hf) h.1

/-- Settles O17. -/
theorem reportsWithoutEffect : Obligations.ReportsWithoutEffect := by
  intro s p rates margin count
  refine ⟨s.reportReaches_iff p, fun hdue hblocked i hi => ?_, fun h => ⟨fun hl => ?_, fun hl => ⟨?_, ?_⟩,
    fun hv hu => ?_, fun hl => ?_⟩⟩
  · have blocked (f : State → State) : takeEvent (fun t => t.report p f) s = .next s :=
      takeEvent_idle (State.report_blocked hblocked f) hdue
    simp only [trainingReports, List.mem_cons, List.not_mem_nil, or_false] at hi
    rcases hi with rfl | rfl | rfl | rfl | rfl | rfl | rfl
    · exact blocked fun u => u.energyRises p
    · exact blocked fun u => u.energyFalls p
    · exact blocked fun u => u.partnerAnswers p rates
    · exact blocked fun u => u.attemptTrained p margin
    · exact blocked fun u => u.attemptFailed p
    · exact blocked fun u => u.marginReported p margin
    · exact blocked fun u => u.errorsReported p count
  · exact h.idle (f := fun u => u.partnerAnswers p rates) (by simp [State.partnerAnswers, hl])
  · exact h.idle (f := fun u => u.attemptTrained p margin) (by simp [State.attemptTrained, hl])
  · exact h.idle (f := fun u => u.attemptFailed p) (by simp [State.attemptFailed, hl])
  · refine h.idle (f := fun u => u.marginReported p margin) ?_
    cases hl : s.link p with
    | verify => exact absurd hl hv
    | up => exact absurd hl hu
    | _ => simp [State.marginReported, hl]
  · exact h.idle (f := fun u => u.errorsReported p count) (by simp [State.errorsReported, hl])

end Sys2Proof.Machine
end

