-- ==== Sys2Proof/Proofs/TrainingReports.lean ====
section
/-! PROOF. What the training reports and the training timers come to in the link states that they concern
(R37, R38, R40 to R51). -/

namespace Sys2Proof.Machine

/-! ### A change of a training context, with or without a command, as an event's whole effect -/

/-- The change leaves blocking as it is. -/
theorem State.SameBlocking.updTraining_send (s : State) (p : Port) (f : Training → Training) (c : LaneCommand)
    (h : ((f (s.training p)).link == .train) = (s.link p == .train)) :
    s.SameBlocking ((s.updTraining p f).send p c) :=
  (State.SameBlocking.updTraining s p f h).trans (.send _ p c)

theorem State.due_updTraining_send (s : State) (p : Port) (f : Training → Training) (c : LaneCommand) :
    ((s.updTraining p f).send p c).due = s.due := State.send_due _ p c

/-! ### ENERGY_ON and ENERGY_OFF (R33 to R35, R38, R40, R45, R49) -/

theorem State.energy_seen (s : State) (p : Port) (b : Bool) :
    ((s.updTraining p fun t => { t with energy := b }).training p).energy = b := by
  rw [State.training_updTraining_same]

theorem State.link_seen (s : State) (p : Port) (b : Bool) :
    (s.updTraining p fun t => { t with energy := b }).link p = s.link p := by
  rw [State.link_updTraining_same]
  rfl

theorem State.abandonAttempt_seen {s : State} {p : Port} (h : s.link p = .train ∨ s.link p = .verify) :
    (s.updTraining p fun t => { t with energy := false }).abandonAttempt p = s.updTraining p fun t =>
      { (t.noted (t.attemptRecord .abandoned t.margin)) with energy := false } := by
  rw [State.abandonAttempt_running (by rwa [State.link_seen]), State.updTraining_twice]
  rfl

/-- The end of a cycle by ENERGY_OFF: STOP_TRAIN and LISTEN, for a port without energy. -/
theorem State.stop_enterListen {s : State} {p : Port} (h : (s.training p).energy = false) :
    (s.send p .stopTrain).enterListen p
      = s.leavingTrain p ((s.updTraining p Training.listening).send p .stopTrain) := by
  rw [State.enterListen_quiet (by rwa [State.send_training]), State.send_updTraining]
  exact State.leavingTrain_congr _ _ _ _ (State.link_send s p p _)

theorem State.energyRises_listen {s : State} {p : Port} (h : s.link p = .listen) :
    s.energyRises p = (s.updTraining p fun t => { t with energy := true }).beginExchange false p := by
  simp [State.energyRises, h]

theorem State.energyRises_other {s : State} {p : Port} (h : s.link p ≠ .listen) :
    s.energyRises p = s.updTraining p fun t => { t with energy := true } := by
  simp [State.energyRises, h]

theorem State.energyFalls_idle {s : State} {p : Port} (h : s.link p = .off ∨ s.link p = .noLine
    ∨ s.link p = .listen ∨ s.link p = .held ∨ s.link p = .backoff) :
    s.energyFalls p = s.updTraining p fun t => { t with energy := false } := by
  rcases h with h | h | h | h | h <;> simp [State.energyFalls, h]

theorem State.energyFalls_pending {s : State} {p : Port} (h : s.link p = .pendingTrain) :
    s.energyFalls p = s.updTraining p fun t => { t.listening with energy := false } := by
  simp only [State.energyFalls, h]
  rw [State.enterListen_quiet (s.energy_seen p false), State.leavingTrain_other _ (by simp [State.link_seen, h]),
    State.updTraining_twice]
  rfl

theorem State.energyFalls_exchange {s : State} {p : Port} (h : s.link p = .exchange) :
    s.energyFalls p = (s.updTraining p fun t => { t.listening with energy := false }).send p .stopTrain := by
  have hl := (s.link_seen p false).trans h
  simp only [State.energyFalls, h]
  rw [State.abandonAttempt_none (by simp [hl]) (by simp [hl]), State.departIfUp_down (by simp [hl]),
    State.stop_enterListen (s.energy_seen p false), State.leavingTrain_other _ (by simp [hl]),
    State.updTraining_twice]
  rfl

/-- An attempt running in TRAIN or VERIFY is recorded ABANDONED, and the port goes to LISTEN. -/
theorem State.energyFalls_running {s : State} {p : Port} (h : s.link p = .train ∨ s.link p = .verify) :
    s.energyFalls p = s.leavingTrain p ((s.updTraining p fun t =>
      { (t.noted (t.attemptRecord .abandoned t.margin)).listening with energy := false }).send p .stopTrain) := by
  have habandoned := State.abandonAttempt_seen h
  generalize hu : s.updTraining p (fun t =>
    { (t.noted (t.attemptRecord .abandoned t.margin)) with energy := false }) = u at habandoned
  have hlink : u.link p = s.link p := by
    rw [← hu, State.link_updTraining_same]
    rfl
  have henergy : (u.training p).energy = false := by rw [← hu, State.training_updTraining_same]
  have heq : s.energyFalls p = (u.send p .stopTrain).enterListen p := by
    rw [← habandoned]
    rw [← State.departIfUp_down (s := (s.updTraining p fun t => { t with energy := false }).abandonAttempt p)
      (c := .portBusy) (by rw [habandoned, hlink]; rcases h with h | h <;> simp [h])]
    rcases h with h | h <;> simp only [State.energyFalls, h]
  rw [heq, State.stop_enterListen henergy, State.leavingTrain_congr _ _ _ _ hlink, ← hu,
    State.updTraining_twice]
  rfl

theorem State.energyFalls_up {s : State} {p : Port} (h : s.link p = .up) :
    s.energyFalls p = (((s.updTraining p fun t => { t with energy := false }).departUp p .portBusy).send p
      .stopTrain).updTraining p Training.listening := by
  have hl := (s.link_seen p false).trans h
  generalize hd : (s.updTraining p fun t => { t with energy := false }).departUp p .portBusy = d
  have hdeparted : d.training p
      = { s.training p with energy := false, current := none, degradeTimer := none } := by
    rw [← hd, State.training_departUp, State.training_updTraining_same]
  have hnt : d.link p ≠ .train := by
    rw [State.link, hdeparted]
    show s.link p ≠ .train
    simp [h]
  simp only [State.energyFalls, h]
  rw [State.abandonAttempt_none (by simp [hl]) (by simp [hl]), State.departIfUp, if_pos hl, hd,
    State.stop_enterListen (by rw [hdeparted]), State.leavingTrain_other _ hnt, State.send_updTraining]

/-- Settles O18, link state by link state. -/
theorem energyReports : Obligations.EnergyReports := by
  intro s p h
  refine ⟨fun hl => h.effect (State.energyRises_listen hl), fun hl => ?_, fun hl => ?_, fun hl => ?_, fun hl => ?_,
    fun hl => ?_, fun hl => ?_, fun hl => h.effect (State.energyFalls_up hl)⟩
  · exact h.exact (State.energyRises_other hl) (.updTraining s p _ rfl) rfl
  · exact h.exact (State.energyFalls_idle hl) (.updTraining s p _ rfl) rfl
  · exact h.exact (State.energyFalls_pending hl) (.updTraining s p _ (by rw [hl]; rfl)) rfl
  · exact h.exact (State.energyFalls_exchange hl) (.updTraining_send s p _ _ (by rw [hl]; rfl))
      (s.due_updTraining_send p _ _)
  · exact h.exact ((State.energyFalls_running (.inr hl)).trans (State.leavingTrain_other _ (by simp [hl])))
      (.updTraining_send s p _ _ (by rw [hl]; rfl)) (s.due_updTraining_send p _ _)
  · exact h.effect ((State.energyFalls_running (.inl hl)).trans (State.leavingTrain_train _ hl))

/-! ### PARTNER_ABILITY (R37) -/

/-- A rate of the snapshot's list that both sides can run. -/
def Training.Common (t : Training) (rates : List Nat) (r : Rate) : Prop := r ∈ t.ability ∧ r.mbps ∈ rates

theorem Training.resolve_eq {t : Training} {x : Snapshot} (h : t.snapshot = some x) (rates : List Nat) :
    t.resolve rates
      = (x.entry.rates.map PlanRate.rate).find? fun r => t.ability.contains r && rates.contains r.mbps := by
  rw [Training.resolve, h]

theorem Training.resolve_first {t : Training} {x : Snapshot} (h : t.snapshot = some x) {rates : List Nat}
    {y : PlanRate} {before after : List PlanRate} (hsplit : x.entry.rates = before ++ y :: after)
    (hy : t.Common rates y.rate) (hbefore : ∀ z ∈ before, ¬ t.Common rates z.rate) :
    t.resolve rates = some y.rate := by
  rw [Training.resolve_eq h, hsplit, List.map_append, List.map_cons, List.find?_eq_some_iff_append]
  refine ⟨by simpa [Training.Common] using hy, _, _, rfl, fun r hr => ?_⟩
  obtain ⟨z, hz, rfl⟩ := List.mem_map.mp hr
  have hcommon : ¬ (z.rate ∈ t.ability ∧ z.rate.mbps ∈ rates) := hbefore z hz
  rw [← List.contains_iff_mem, ← List.contains_iff_mem, ← Bool.and_eq_true,
    Bool.not_eq_true] at hcommon
  rw [hcommon, Bool.not_false]

theorem Training.resolve_none {t : Training} {x : Snapshot} (h : t.snapshot = some x) {rates : List Nat}
    (hnone : ∀ z ∈ x.entry.rates, ¬ t.Common rates z.rate) : t.resolve rates = none := by
  rw [Training.resolve_eq h, List.find?_eq_none]
  intro r hr
  obtain ⟨z, hz, rfl⟩ := List.mem_map.mp hr
  simpa [Training.Common] using hnone z hz

theorem State.partnerAnswers_found {s : State} {p : Port} {rates : List Nat} {r : Rate}
    (h : s.link p = .exchange) (hr : (s.training p).resolve rates = some r) :
    s.partnerAnswers p rates = (s.updTraining p fun t => { t with target := some r }).trainingEntry true p := by
  simp only [State.partnerAnswers, h, hr]
  rfl

theorem State.partnerAnswers_none {s : State} {p : Port} {rates : List Nat}
    (h : s.link p = .exchange) (hr : (s.training p).resolve rates = none) :
    s.partnerAnswers p rates = ((s.updTraining p fun t =>
      { (t.noted (t.cycleRecord .noCommonRate)).enter .backoff with
        backoffTimer := some (s.profile p).backoffTime }).send p .stopTrain).raise p .noCommonRate := by
  have hnc : s.partnerAnswers p rates = s.noCommonRate p := by
    simp only [State.partnerAnswers, h, hr]
    rfl
  have hnt : (((s.updTraining p fun t => t.recordCycle .noCommonRate).raise p .noCommonRate).send p
      .stopTrain).link p ≠ .train := by
    rw [State.link_send, State.link, State.training_raise, State.training_updTraining_same]
    show s.link p ≠ .train
    simp [h]
  rw [hnc, State.noCommonRate]
  simp only []
  rw [State.setLink_updTraining _ _ _ _ (by decide) (by decide), State.leavingTrain_other _ hnt,
    State.raise_send, State.raise_updTraining, ← State.send_updTraining, State.updTraining_twice]
  rfl

/-- Settles O19. -/
theorem partnerAbilityResolved : Obligations.PartnerAbilityResolved := by
  intro s p rates x h hl hx
  refine ⟨fun y before after hsplit hy hbefore => ?_, fun hnone => ?_⟩
  · exact h.effect (State.partnerAnswers_found hl (Training.resolve_first hx hsplit hy hbefore))
  · refine h.exact (State.partnerAnswers_none hl (Training.resolve_none hx hnone)) ?_ ?_
    · exact (State.SameBlocking.updTraining_send s p _ _ (by rw [hl]; rfl)).trans (.raise _ p _)
    · rw [State.raise_due, State.due_updTraining_send]

/-! ### Attempts (R30, R41 to R44) -/

theorem pushHistory_below {h : List HistoryRecord} (hl : h.length < 8) (r : HistoryRecord) :
    pushHistory h r = h ++ [r] := by
  have : (h ++ [r]).length - 8 = 0 := by simp; omega
  rw [pushHistory, this, List.drop_zero]

theorem pushHistory_full {h : List HistoryRecord} (hl : h.length = 7) (a r : HistoryRecord) :
    pushHistory (a :: h) r = h ++ [r] := by
  have : (a :: h ++ [r]).length - 8 = 1 := by simp; omega
  rw [pushHistory, this]
  rfl

theorem Rate.mem_all (r : Rate) : r ∈ Rate.all := by cases r <;> decide

theorem RateSet.mem_insert (set : RateSet) (r x : Rate) : x ∈ RateSet.insert r set ↔ x = r ∨ x ∈ set := by
  simp [RateSet.insert, RateSet.ofPred, Rate.mem_all]

theorem Training.figures_listed {t : Training} {x : Snapshot} {r : Rate} (hx : t.snapshot = some x)
    (ht : t.target = some r) {y : PlanRate} {before after : List PlanRate}
    (hsplit : x.entry.rates = before ++ y :: after) (hy : y.rate = r) (hfirst : r ∉ before.map PlanRate.rate) :
    t.figures = (y.limit, y.margin) := by
  have hfind : (x.entry.rates.find? fun z => some z.rate == t.target) = some y := by
    rw [hsplit, ht, List.find?_eq_some_iff_append]
    refine ⟨by simp [hy], before, after, rfl, fun z hz => ?_⟩
    have : z.rate ≠ r := fun e => hfirst (e ▸ List.mem_map_of_mem hz)
    simpa using this
  rw [Training.figures, hx, Option.bind_some, hfind]

theorem Training.figures_unlisted {t : Training} {x : Snapshot} {r : Rate} (hx : t.snapshot = some x)
    (ht : t.target = some r) (hnone : r ∉ x.entry.rates.map PlanRate.rate) : t.figures = (3, 0) := by
  have hfind : (x.entry.rates.find? fun z => some z.rate == t.target) = none := by
    rw [ht, List.find?_eq_none]
    intro z hz
    have : z.rate ≠ r := fun e => hnone (e ▸ List.mem_map_of_mem hz)
    simpa using this
  rw [Training.figures, hx, Option.bind_some, hfind]
  rfl

section Failure

variable {s : State} {p : Port} {r : Rate} {f : Training → Training}

/-- A context changed, and then an attempt failed below the limit: TRAIN restarts. -/
theorem State.failAttempt_below (hr : (f (s.training p)).target = some r)
    (h : (f (s.training p)).attempts + 1 < (f (s.training p)).figures.1) :
    (s.updTraining p f).failAttempt p = (s.updTraining p fun t =>
      { (f t).enter .train with
        attempts := (f t).attempts + 1, margin := none, attemptTimer := some 2500 }).send p (.startTrain r) := by
  simp only [State.failAttempt, State.training_updTraining_same]
  rw [if_pos h, State.updTraining_twice, State.enterTrain_target, State.updTraining_twice]
  · rfl
  · rw [State.training_updTraining_same]
    exact hr

/-- The demotion of the target rate (R44). -/
theorem State.demote_updTraining (hr : (f (s.training p)).target = some r) :
    (s.updTraining p f).demote p
      = ((s.updTraining p fun t => (f t).demoting r).send p .stopTrain).beginExchange false p := by
  rw [State.demote, State.updTraining_twice]
  refine congrArg (fun u => (u.send p .stopTrain).beginExchange false p) (State.updTraining_congr ?_)
  simp only [hr, Training.demoting]
  rfl

/-- A context changed, and then an attempt failed at the limit: the rate is demoted. -/
theorem State.failAttempt_limit (hr : (f (s.training p)).target = some r)
    (h : (f (s.training p)).figures.1 ≤ (f (s.training p)).attempts + 1) :
    (s.updTraining p f).failAttempt p
      = ((s.updTraining p fun t => (f t).demoting r).send p .stopTrain).beginExchange false p := by
  simp only [State.failAttempt, State.training_updTraining_same]
  rw [if_neg (Nat.not_lt.mpr h), State.updTraining_twice, State.demote_updTraining (by exact hr)]
  rfl

end Failure

section Judged

variable {s : State} {p : Port} {margin : Int}

theorem State.attemptTrained_good (h : s.link p = .train) (hm : (s.training p).figures.2 ≤ margin) :
    s.attemptTrained p margin = (s.updTraining p fun t =>
      { t.enter .verify with
        margin := some margin, verifyTimer := some (s.profile p).verifyWindow }).oweSelection := by
  have hprofile (f : Training → Training) : (s.updTraining p f).profile p = s.profile p := by
    rw [State.profile, State.updTraining, State.port_updPort_self]
    rfl
  simp only [State.attemptTrained, if_pos h, if_pos hm, State.enterVerify, hprofile]
  rw [State.setLink_updTraining _ _ _ _ (by decide) (by decide), State.updTraining_twice,
    State.leavingTrain_train _ (by rw [State.link_updTraining_same]; exact h)]
  rfl

theorem State.attemptTrained_low (h : s.link p = .train) (hm : margin < (s.training p).figures.2) :
    s.attemptTrained p margin = (s.updTraining p fun t =>
      { t with attemptTimer := none, margin := some margin }.recordAttempt .lowMargin (some margin)).failAttempt
        p := by
  simp only [State.attemptTrained, if_pos h, if_neg (Int.not_le.mpr hm), State.updTraining_twice]

theorem State.attemptFailed_train (h : s.link p = .train) :
    s.attemptFailed p = (s.updTraining p fun t => t.recordAttempt .lowMargin none).failAttempt p := by
  simp [State.attemptFailed, h]

theorem State.attemptExpired_train (h : s.link p = .train) (ht : (s.training p).attemptTimer.isSome = true) :
    s.attemptExpired p = (s.updTraining p fun t => t.recordAttempt .timeout none).failAttempt p := by
  simp [State.attemptExpired, h, ht]

end Judged

/-- Settles O20. -/
theorem attemptsJudged : Obligations.AttemptsJudged := by
  refine ⟨fun _ r h => pushHistory_below h r, fun _ a r h => pushHistory_full h a r, RateSet.mem_insert,
    fun t x hx => by rw [Training.planIndex, hx]; rfl,
    fun t x r hx ht => ⟨fun y before after hsplit hy => Training.figures_listed hx ht hsplit hy,
      Training.figures_unlisted hx ht⟩,
    fun s p margin h hl hm => h.effect (State.attemptTrained_good hl hm), fun s p margin r hl hr => ?_⟩
  intro restarted lowMargin failed timedOut
  have same (f : Training → Training) (hf : ∀ t, (f t).link = .train) :
      s.SameBlocking ((s.updTraining p f).send p (.startTrain r)) :=
    .updTraining_send s p f _ (by rw [hf, hl])
  have due (f : Training → Training) : ((s.updTraining p f).send p (.startTrain r)).due = s.due :=
    s.due_updTraining_send p f _
  refine ⟨fun hbelow => ⟨fun h hm => ?_, fun h => ?_, fun h ht => ?_⟩,
    fun hlimit => ⟨fun h hm => ?_, fun h => ?_, fun h ht => ?_⟩⟩
  · exact h.exact ((State.attemptTrained_low hl hm).trans (State.failAttempt_below hr hbelow))
      (same _ fun _ => rfl) (due _)
  · exact h.exact ((State.attemptFailed_train hl).trans (State.failAttempt_below hr hbelow))
      (same _ fun _ => rfl) (due _)
  · exact h.exact ((State.attemptExpired_train hl ht).trans (State.failAttempt_below hr hbelow))
      (same _ fun _ => rfl) (due _)
  · exact h.effect ((State.attemptTrained_low hl hm).trans (State.failAttempt_limit hr hlimit))
  · exact h.effect ((State.attemptFailed_train hl).trans (State.failAttempt_limit hr hlimit))
  · exact h.effect ((State.attemptExpired_train hl ht).trans (State.failAttempt_limit hr hlimit))

/-! ### MARGIN_REPORT and SYMBOL_ERRORS (R46, R48) -/

section Quality

variable {s : State} {p : Port} {margin : Int}

theorem State.marginReported_up (h : s.link p = .up) :
    s.marginReported p margin = s.updTraining p fun t => { t with margin := some margin } := by
  simp [State.marginReported, h]

theorem State.marginReported_good (h : s.link p = .verify) (hm : (s.training p).figures.2 ≤ margin) :
    s.marginReported p margin = s.updTraining p fun t => { t with margin := some margin } := by
  simp [State.marginReported, h, hm]

/-- The port whose verify window is lost, its attempt recorded and counted. -/
theorem State.marginReported_low (h : s.link p = .verify) (hm : margin < (s.training p).figures.2) :
    s.marginReported p margin =
      (let counted := s.updTraining p fun t =>
        { t.noted (t.attemptRecord .verifyLost (some margin)) with
          margin := some margin, attempts := t.attempts + 1 }
      if (s.training p).attempts + 1 < (s.training p).figures.1 then
        (counted.send p .stopTrain).trainingEntry false p
      else counted.demote p) := by
  simp only [State.marginReported, h, if_neg (Int.not_le.mpr hm), State.verifyLost,
    State.training_updTraining_same, State.updTraining_twice]
  rfl

end Quality

/-- Settles O21. -/
theorem linkQualityReports : Obligations.LinkQualityReports := by
  intro s p margin count h lost
  have same (f : Training → Training) (hf : ∀ t, (f t).link = t.link) : s.SameBlocking (s.updTraining p f) :=
    .updTraining s p f (by rw [hf]; rfl)
  refine ⟨fun hl => ⟨?_, ?_⟩, fun hl => ⟨fun hm => ?_, fun hm hbelow => ?_, fun r hr hm hlimit => ?_⟩⟩
  · exact h.exact (State.marginReported_up hl) (same _ fun _ => rfl) rfl
  · exact h.exact (f := fun u => u.errorsReported p count) (if_pos hl) (same _ fun _ => rfl) rfl
  · exact h.exact (State.marginReported_good hl hm) (same _ fun _ => rfl) rfl
  · exact h.effect ((State.marginReported_low hl hm).trans (if_pos hbelow))
  · exact h.effect ((State.marginReported_low hl hm).trans
      ((if_neg (Nat.not_lt.mpr hlimit)).trans (State.demote_updTraining hr)))

/-! ### The timers (R38, R47 to R49, R51, R144) -/

/-- A survey record restarted is a matter of the port alone. -/
theorem State.restartSurvey_eq (s : State) (p : Port) :
    s.restartSurvey p = s.updPort p fun x => { x with survey := surveyRestarted x.profile x.survey } := by
  unfold State.restartSurvey State.updSurvey
  exact State.updPort_congr rfl

/-- The port that its verify timer brings UP. -/
def PortState.up (x : PortState) : PortState :=
  { x with
    training :=
      { (x.training.noted (x.training.attemptRecord .success x.training.margin)).enter .up with
        current := x.training.target
        degradeCount := 0
        degradeTimer := some 1000 }
    baseline := none
    survey := surveyRestarted x.profile x.survey }

theorem State.verifyExpired_up {s : State} {p : Port} (h : s.link p = .verify)
    (ht : (s.training p).verifyTimer.isSome = true) :
    s.verifyExpired p = ((s.updPort p PortState.up).raise p .linkUp).oweSelection := by
  have hl : (s.updTraining p fun t => t.recordAttempt .success t.margin).link p ≠ .up := by
    rw [State.link_updTraining_same]
    show s.link p ≠ .up
    simp [h]
  have owes (u : State) (f : PortState → PortState) :
      u.oweSelection.updPort p f = (u.updPort p f).oweSelection := rfl
  rw [State.verifyExpired, if_pos ⟨h, ht⟩, State.enterUp, State.setLink_up hl, State.surveyEntersUp,
    State.restartSurvey_eq]
  simp only [State.updTraining, owes, State.updPort_twice, State.raise_oweSelection]
  rw [State.raise_updPort _ _ _ _ fun _ => rfl, State.updPort_twice]
  rfl

theorem State.windowExpired_below {s : State} {p : Port} (h : s.link p = .up)
    (ht : (s.training p).degradeTimer.isSome = true)
    (hb : (s.training p).degradeCount < (s.profile p).degradeThreshold) :
    s.windowExpired p = s.updTraining p fun t => { t with degradeCount := 0, degradeTimer := some 1000 } := by
  rw [State.windowExpired, if_pos ⟨h, ht⟩, if_neg (Nat.not_le.mpr hb)]
  rfl

theorem State.windowExpired_degraded {s : State} {p : Port} {r : Rate} (h : s.link p = .up)
    (ht : (s.training p).degradeTimer.isSome = true) (hr : (s.training p).current = some r)
    (hd : (s.profile p).degradeThreshold ≤ (s.training p).degradeCount) :
    s.windowExpired p = (((((s.updTraining p fun t => { t with demoted := RateSet.insert r t.demoted }).raise p
      .degradedErrors).departUp p .portBusy).send p .stopTrain).beginExchange false p) := by
  rw [State.windowExpired, if_pos ⟨h, ht⟩, if_pos hd, State.degraded]
  refine congrArg (fun u => (((u.raise p .degradedErrors).departUp p .portBusy).send p .stopTrain).beginExchange
    false p) (State.updTraining_congr ?_)
  simp only [hr]
  rfl

/-- Settles O22. -/
theorem trainingTimersExpire : Obligations.TrainingTimersExpire := by
  refine ⟨fun s p h => ⟨fun hl ht => ?_, fun hl ht => ?_, fun hl ht => ?_⟩,
    fun s p r h hl ht hr => ⟨fun hb => ?_, fun hd => h.effect (State.windowExpired_degraded hl ht hr hd)⟩⟩
  · exact h.effect (f := fun u => u.exchangeExpired p) (if_pos ⟨hl, ht⟩)
  · exact h.effect (f := fun u => u.backoffExpired p) (if_pos ⟨hl, ht⟩)
  · exact h.effect (State.verifyExpired_up hl ht)
  · exact h.exact (State.windowExpired_below hl ht hb) (.updTraining s p _ rfl) rfl

end Sys2Proof.Machine
end

