-- ==== Sys2Proof/Proofs/Resets.lean ====
section
/-! PROOF. Resets with the frames they cut (R28, R175, R176), the passes over the image (R177, R178), and load
completion (R179). -/

namespace Sys2Proof.Machine

/-! ### Resets -/

theorem flatMap_singleton_option {α β γ : Type} (xs : List α) (read : α → Option β) (make : α → β → γ) :
    (xs.filterMap fun x => (read x).map (make x))
      = xs.flatMap fun x => match read x with | none => [] | some y => [make x y] := by
  induction xs with
  | nil => rfl
  | cons x rest ih => cases h : read x <;> simp [h, ih]

theorem State.cutFrames_eq (s : State) : s.cutFrames = allPorts.flatMap fun p =>
    match (s.traffic p).sending with
    | none => []
    | some f => [.toSwitch p f.bytes true (decide (f.source ≠ .forwarded))] := by
  unfold State.cutFrames
  rw [flatMap_singleton_option]
  refine congrArg (fun f => allPorts.flatMap f) (funext fun p => ?_)
  cases (s.traffic p).sending with
  | none => rfl
  | some f =>
    have hmark : (f.source != .forwarded) = decide (f.source ≠ .forwarded) := by cases f.source <;> rfl
    simp only [OutFrame.sent, hmark]

/-- The frames handed to the line lane of a port. -/
def framesToLine (p : Port) (os : List Output) : List (List Byte) := os.flatMap fun o =>
  match o with
  | .toLine q bytes => if q = p then [bytes] else []
  | _ => []

theorem State.handedToLine_eq (s : State) (p : Port) : s.handedToLine p = framesToLine p s.outputs := by
  unfold State.handedToLine framesToLine
  induction s.outputs with
  | nil => rfl
  | cons o rest ih =>
    cases o with
    | toLine q bytes => by_cases h : q = p <;> simp [h, ih]
    | _ => simpa using ih

theorem exec_pinHeld {i : Instr} {s : State} (h : s.pinHeld = true) (h1 : i ≠ .pinRelease)
    (h2 : ∀ x, i ≠ .powerOnReset x) : exec i s = .next s := by
  by_cases hi : Instr.ordinary i = true ∨ Instr.ofImage i = true
  · by_cases ht : ∃ p r, i = .transmissionCompletion p r
    · obtain ⟨p, r, rfl⟩ := ht
      show execTransmissionCompletion p r s = .next s
      simp [execTransmissionCompletion, takeEvent, h]
    · obtain ⟨f, hf⟩ := exec_taken i hi (fun p r e => ht ⟨p, r, e⟩) s
      rw [hf, takeEvent, if_pos h]
  · cases i with
    | powerOnReset r => exact absurd rfl (h2 r)
    | pinRelease => exact absurd rfl h1
    | pinReset r => exact if_pos h
    | _ => exact absurd (by simp [Instr.ordinary, Instr.ofImage]) hi

/-- Settles O23. -/
theorem resetsTakeEffect : Obligations.ResetsTakeEffect := by
  refine ⟨⟨by decide, State.cutFrames_eq⟩, fun s unsent => ?_, fun s inputs => ?_⟩
  · simp only [State.lineCuts, State.handedToLine_eq]
    rfl
  · intro reset
    refine ⟨fun h => ⟨?_, ?_, ?_⟩, fun h => ⟨?_, ?_, fun i h1 h2 => exec_pinHeld h h1 h2⟩⟩
    · show execPowerOnReset inputs s = _
      simp only [execPowerOnReset, h]
      rfl
    · show execPinReset inputs s = _
      simp only [execPinReset, h]
      rfl
    · show execPinRelease s = _
      simp [execPinRelease, h]
    · show execPinRelease s = _
      simp [execPinRelease, h]
    · show execPowerOnReset inputs s = _
      simp only [execPowerOnReset, h]
      rfl

/-! ### The first pass (R177) -/

section FirstPass

variable {s : State} {b : List Byte}

theorem State.pinHeld_of_progress {s : State} (h : s.startUp.progress ≠ .awaitingRelease) : s.pinHeld = false :=
  Bool.eq_false_iff.mpr (mt s.pinHeld_iff.mp h)

theorem State.firstPassEnds_failed {reason : RejectReason} (h : s.startUp.progress = .firstPass)
    (hb : firstPassFailure b = some reason) : s.firstPassEnds b = s.rejectImage reason := by
  simp [State.firstPassEnds, h, hb]

theorem State.firstPassEnds_passed (h : s.startUp.progress = .firstPass) (hb : firstPassFailure b = none) :
    s.firstPassEnds b = if bodyLength b = 0 then s.completeLoad .accepted
      else { s with startUp := { s.startUp with progress := .secondPass (bodyLength b) } } := by
  simp [State.firstPassEnds, h, hb]

end FirstPass

/-- The checks of the first pass, one after another, with the numbers of section 13.4. -/
theorem firstPassFailure_eq (b : List Byte) : firstPassFailure b =
    if b.length < 12 then some .noAcknowledge
    else if natAt b 0 4 ≠ 0xE2A14D08 then some .badMagic
    else if natAt b 4 2 ≠ 1 then some .badVersion
    else if 65536 < 12 + natAt b 8 4 then some .badLength
    else if b.length < 12 + natAt b 8 4 then some .noAcknowledge
    else if (((b.drop 12).take (natAt b 8 4)).map BitVec.toNat).sum % 65536 ≠ natAt b 6 2 then some .badSum
    else none := by
  have hlong : (65524 < natAt b 8 4) ↔ 65536 < 12 + natAt b 8 4 := by omega
  simp only [firstPassFailure, bodyLength, bodySum, imageBody, Config.imageHeader, Config.imageMagic,
    Config.imageVersion, Config.imageBodyMax, hlong]
  rfl

/-- Settles O25, check by check. -/
theorem firstPassJudged : Obligations.FirstPassJudged := by
  intro s b hdue hprogress rejected length
  have hpin : s.pinHeld = false := State.pinHeld_of_progress (by simp [hprogress])
  have fails {reason : RejectReason} (hf : firstPassFailure b = some reason) : rejected reason :=
    takeEvent_effect hpin (State.firstPassEnds_failed hprogress hf)
  refine ⟨fun h => fails ?_, fun h1 h2 => fails ?_, fun h1 h2 => ⟨fun h3 => fails ?_, fun h3 =>
    ⟨fun h4 => fails ?_, fun h4 => ⟨fun h5 => fails ?_, fun h5 => ⟨fun h6 => fails ?_, fun h6 => ?_⟩⟩⟩⟩⟩
  · rw [firstPassFailure_eq, if_pos h]
  · rw [firstPassFailure_eq, if_neg (by omega), if_pos h2]
  · rw [firstPassFailure_eq, if_neg (by omega), if_neg (by omega), if_pos h3]
  · rw [firstPassFailure_eq, if_neg (by omega), if_neg (by omega), if_neg (by omega), if_pos h4]
  · rw [firstPassFailure_eq, if_neg (by omega), if_neg (by omega), if_neg (by omega),
      if_neg (Nat.not_lt.mpr h4), if_pos h5]
  · rw [firstPassFailure_eq, if_neg (by omega), if_neg (by omega), if_neg (by omega),
      if_neg (Nat.not_lt.mpr h4), if_neg (Nat.not_lt.mpr h5), if_pos h6]
  · have hpass : firstPassFailure b = none := by
      rw [firstPassFailure_eq, if_neg (by omega), if_neg (by omega), if_neg (by omega),
        if_neg (Nat.not_lt.mpr h4), if_neg (Nat.not_lt.mpr h5), if_neg (not_not_intro h6)]
    have hends := State.firstPassEnds_passed hprogress hpass
    exact ⟨fun hz => takeEvent_effect hpin (hends.trans (if_pos hz)),
      fun hz => takeEvent_exact hpin (hends.trans (if_neg hz))
        ⟨rfl, rfl, fun _ => rfl, fun _ => rfl, fun _ => rfl⟩ hdue⟩

/-! ### The second pass (R177, R178, R183) -/

/-- A search for a code finds the one value that has it. -/
theorem find?_code_eq_some_iff {α : Type} {all : List α} {code : α → Nat} (hall : ∀ k, k ∈ all)
    (hinj : ∀ j k, code j = code k → j = k) (n : Nat) (k : α) :
    (all.find? fun x => code x == n) = some k ↔ code k = n := by
  constructor
  · intro h
    simpa using List.find?_some h
  · intro h
    obtain ⟨j, hj⟩ := Option.isSome_iff_exists.mp
      (List.find?_isSome.mpr ⟨k, hall k, by simp [h]⟩ : (all.find? fun x => code x == n).isSome = true)
    have hcode : code j = n := by simpa using List.find?_some hj
    rw [hj, hinj j k (hcode.trans h.symm)]

theorem find?_code_eq_none_iff {α : Type} {all : List α} {code : α → Nat} (hall : ∀ k, k ∈ all) (n : Nat) :
    (all.find? fun x => code x == n) = none ↔ ∀ k, code k ≠ n := by
  simp [hall]

theorem SectionKind.ofCode_eq_some_iff (n : Nat) (k : SectionKind) : SectionKind.ofCode n = some k ↔ k.code = n :=
  find?_code_eq_some_iff (fun k => by cases k <;> decide) (fun j k => by cases j <;> cases k <;> decide) n k

theorem SectionKind.ofCode_eq_none_iff (n : Nat) :
    SectionKind.ofCode n = none ↔ ∀ k : SectionKind, k.code ≠ n :=
  find?_code_eq_none_iff (fun k => by cases k <;> decide) n

theorem SectionKind.lengthFits_iff (k : SectionKind) (length : Nat) : k.lengthFits length = true
    ↔ if k.oneRecord then length = k.recordSize else length ≠ 0 ∧ k.recordSize ∣ length := by
  unfold SectionKind.lengthFits
  split <;> simp [Nat.dvd_iff_mod_eq_zero]

theorem sectionRecords_length (size count : Nat) (b : List Byte) : (sectionRecords size count b).length = count := by
  simp [sectionRecords]

theorem sectionRecords_getElem? {size count k : Nat} (b : List Byte) (h : k < count) :
    (sectionRecords size count b)[k]? = some ((b.drop (k * size)).take size) := by
  simp [sectionRecords, h]

section Section

variable {s : State} {b : List Byte} {left : Nat} {k : SectionKind}

theorem State.secondPassSection_short (h : left < 4) : s.secondPassSection b left = s.rejectImage .badRecord := by
  simp [State.secondPassSection, h]

theorem State.secondPassSection_unread (h : 4 ≤ left) (hb : b.length < 4) :
    s.secondPassSection b left = s.rejectImage .noAcknowledge := by
  simp [State.secondPassSection, Nat.not_lt.mpr h, hb]

theorem State.secondPassSection_unknown (h : 4 ≤ left) (hb : 4 ≤ b.length)
    (hk : ∀ k : SectionKind, k.code ≠ byteAt b 0) : s.secondPassSection b left = s.rejectImage .badRecord := by
  rw [State.secondPassSection, if_neg (Nat.not_lt.mpr h), if_neg (Nat.not_lt.mpr hb),
    (SectionKind.ofCode_eq_none_iff _).mpr hk]

/-- A header of a known kind: it fails its check, or the records are read. -/
theorem State.secondPassSection_known (h : 4 ≤ left) (hb : 4 ≤ b.length) (hk : k.code = byteAt b 0) :
    s.secondPassSection b left =
      if k ∈ s.startUp.applied ∨ left < 4 + natAt b 2 2 ∨ ¬ k.lengthFits (natAt b 2 2) = true then
        s.rejectImage .badRecord
      else s.sectionRead b k left := by
  rw [State.secondPassSection, if_neg (Nat.not_lt.mpr h), if_neg (Nat.not_lt.mpr hb),
    (SectionKind.ofCode_eq_some_iff _ k).mpr hk]
  refine ite_congr (propext ?_) (fun _ => rfl) fun _ => rfl
  rw [Bool.or_eq_true, Bool.or_eq_true, List.contains_iff_mem, decide_eq_true_iff, Bool.not_eq_true',
    Bool.not_eq_true, or_assoc]
  rfl

theorem State.sectionRead_unread (h : b.length < 4 + natAt b 2 2) :
    s.sectionRead b k left = s.rejectImage .noAcknowledge := if_pos h

theorem State.sectionRead_refused (h : 4 + natAt b 2 2 ≤ b.length)
    (hr : s.applySection k (sectionRecords k.recordSize (natAt b 2 2 / k.recordSize) (b.drop 4)) = none) :
    s.sectionRead b k left = s.rejectImage .badRecord := by
  simp only [State.sectionRead, sectionLength, if_neg (Nat.not_lt.mpr h), hr]

theorem State.sectionRead_applied {t : State} (h : 4 + natAt b 2 2 ≤ b.length)
    (hr : s.applySection k (sectionRecords k.recordSize (natAt b 2 2 / k.recordSize) (b.drop 4)) = some t) :
    s.sectionRead b k left = t.sectionApplied k (left - (4 + natAt b 2 2)) := by
  simp only [State.sectionRead, sectionLength, if_neg (Nat.not_lt.mpr h), hr]

end Section

theorem execImageSectionRead_effect {s u : State} {b : List Byte} {left : Nat}
    (h : s.startUp.progress = .secondPass left) (hu : s.secondPassSection b left = u) :
    HasEffect (.imageSectionRead b) s u := by
  show execImageSectionRead b s = _
  refine takeEvent_effect (State.pinHeld_of_progress (by simp [h])) ?_
  simp only [h, hu]

/-- Settles O26, check by check. -/
theorem sectionJudged : Obligations.SectionJudged := by
  refine ⟨rfl, fun size count b => ⟨sectionRecords_length size count b, fun k => sectionRecords_getElem? b⟩,
    fun s b left _ hprogress => ?_⟩
  intro rejected length
  have judged {u : State} (hu : s.secondPassSection b left = u) : HasEffect (.imageSectionRead b) s u :=
    execImageSectionRead_effect hprogress hu
  refine ⟨fun h => judged (State.secondPassSection_short h),
    fun h hb => judged (State.secondPassSection_unread h hb), fun h hb =>
    ⟨fun hk => judged (State.secondPassSection_unknown h hb hk), fun k hk => ?_⟩⟩
  intro whole records
  have hwhole : whole ↔ k.lengthFits (natAt b 2 2) = true := (k.lengthFits_iff _).symm
  have hknown := State.secondPassSection_known (s := s) h hb hk
  refine ⟨fun hbad => judged (hknown.trans (if_pos ?_)), fun hnew hfits hw => ?_⟩
  · rwa [← hwhole]
  · have hread := hknown.trans (if_neg (by
      rw [← hwhole]
      rintro (h | h | h)
      · exact hnew h
      · exact absurd h (Nat.not_lt.mpr hfits)
      · exact h hw))
    refine ⟨fun hshort => judged (hread.trans (State.sectionRead_unread hshort)), fun hlong =>
      ⟨fun hr => judged (hread.trans (State.sectionRead_refused hlong hr)), fun t ht => ?_⟩⟩
    intro joined
    have happlied := hread.trans (State.sectionRead_applied hlong ht)
    refine ⟨fun hend => judged (happlied.trans (if_pos ?_)), fun hmore => judged (happlied.trans (if_neg ?_))⟩
    · exact Nat.sub_eq_zero_of_le (Nat.le_of_eq hend)
    · exact Nat.sub_ne_zero_of_lt hmore

/-! ### Silent states -/

theorem State.enterNoLine_eq (s : State) (p : Port) :
    s.enterNoLine p = s.leavingTrain p (s.updTraining p fun t => t.quieted .noLine) :=
  State.setLink_updTraining s p .noLine Training.silenced (by decide) (by decide)

theorem State.enterOff_eq (s : State) (p : Port) :
    s.enterOff p = (s.leavingTrain p (s.updTraining p fun t => t.quieted .off)).send p .silence :=
  congrArg (fun u => State.send u p .silence)
    (State.setLink_updTraining s p .off Training.silenced (by decide) (by decide))

/-! ### Load completion (R179) -/

/-- What the placement makes of a port. -/
def PortState.placed (x : PortState) (up : Bool) : PortState :=
  if up then
    if x.profile.enabled then { x with mode := .openMode, training := x.training.listening }
    else { x with mode := .silencing, training := x.training.quieted .off }
  else { x with training := x.training.quieted .noLine }

/-- The command that the placement of an AVAILABLE port sends. -/
def PortState.placingCommand (x : PortState) : LaneCommand := if x.profile.enabled then .release else .silence

/-- A state differs from another in ports, in what is owed, and in what has been sent. -/
structure State.PortsApart (s t : State) : Prop where
  rest : t = { s with ports := t.ports, due := t.due, outputs := t.outputs }
  outputs : ∀ o ∈ s.outputs, o ∈ t.outputs

theorem State.PortsApart.refl (s : State) : s.PortsApart s := ⟨rfl, fun _ h => h⟩

theorem State.PortsApart.trans {s t u : State} (a : s.PortsApart t) (b : t.PortsApart u) : s.PortsApart u where
  rest := by rw [b.rest, a.rest]
  outputs o h := b.outputs o (a.outputs o h)

theorem State.PortsApart.quadUp {s t : State} (h : s.PortsApart t) (p : Port) : t.quadUp p = s.quadUp p := by
  rw [h.rest]
  rfl

theorem State.PortsApart.updPort (s : State) (p : Port) (f : PortState → PortState) : s.PortsApart (s.updPort p f) :=
  ⟨rfl, fun _ h => h⟩

theorem State.PortsApart.leavingTrain (b : State) (p : Port) (u : State) : u.PortsApart (b.leavingTrain p u) := by
  unfold State.leavingTrain
  split
  · exact ⟨rfl, fun _ h => h⟩
  · exact .refl u

theorem State.PortsApart.send (s : State) (p : Port) (c : LaneCommand) : s.PortsApart (s.send p c) := by
  unfold State.send
  split
  · exact ⟨rfl, fun _ h => List.mem_append_left _ h⟩
  · exact .refl s

theorem State.port_leavingTrain (b : State) (p : Port) (u : State) (q : Port) :
    (b.leavingTrain p u).port q = u.port q := by
  unfold State.leavingTrain
  split <;> rfl

theorem State.port_send_up {s : State} {p : Port} (h : s.quadUp p = true) (c : LaneCommand) (q : Port) :
    (s.send p c).port q
      = if q = p then { s.port p with mode := c.modeAfter (s.mode p) } else s.port q := by
  rw [State.send_up h, State.port_emit, State.setMode, State.port_updPort]

theorem State.command_mem_send {s : State} {p : Port} (h : s.quadUp p = true) (c : LaneCommand) :
    .command p c ∈ (s.send p c).outputs := by
  rw [State.send_up h]
  exact List.mem_append_right _ (List.mem_singleton_self _)

/-- The placement of one port without energy (R17). -/
structure State.Places (s : State) (p : Port) (t : State) : Prop where
  apart : s.PortsApart t
  port : ∀ q, t.port q = if q = p then (s.port p).placed (s.quadUp p) else s.port q
  sent : s.quadUp p = true → .command p (s.port p).placingCommand ∈ t.outputs

theorem State.Places.noLine {s : State} {p : Port} (h : s.quadUp p = false) : s.Places p (s.enterNoLine p) := by
  rw [State.enterNoLine_eq]
  refine ⟨(State.PortsApart.updPort s p _).trans (.leavingTrain s p _), fun q => ?_,
    fun hup => absurd hup (by simp [h])⟩
  rw [State.port_leavingTrain, State.updTraining, State.port_updPort, h]
  rfl

theorem State.Places.off {s : State} {p : Port} (h : s.quadUp p = true) (hd : (s.profile p).enabled = false) :
    s.Places p (s.enterOff p) := by
  rw [State.enterOff_eq]
  have hup : (s.leavingTrain p (s.updTraining p fun t => t.quieted .off)).quadUp p = true := by
    rw [(State.PortsApart.leavingTrain s p _).quadUp]
    exact h
  have hd' : (s.port p).profile.enabled = false := hd
  refine ⟨((State.PortsApart.updPort s p _).trans (.leavingTrain s p _)).trans (.send _ p _), fun q => ?_,
    fun _ => ?_⟩
  · rw [State.port_send_up hup, State.port_leavingTrain, State.port_leavingTrain, State.updTraining]
    simp only [State.port_updPort, PortState.placed, h, hd']
    split <;> rfl
  · rw [PortState.placingCommand, hd']
    exact State.command_mem_send hup _

theorem State.Places.listen {s : State} {p : Port} (h : s.quadUp p = true) (he : (s.profile p).enabled = true)
    (hq : (s.training p).energy = false) : s.Places p ((s.send p .release).enterListen p) := by
  rw [State.enterListen_quiet (by rwa [State.send_training])]
  have he' : (s.port p).profile.enabled = true := he
  refine ⟨((State.PortsApart.send s p _).trans (.updPort _ p _)).trans (.leavingTrain _ p _), fun q => ?_,
    fun _ => ?_⟩
  · rw [State.port_leavingTrain, State.updTraining, State.port_updPort, State.port_send_up h, if_pos rfl,
      State.port_send_up h]
    simp only [PortState.placed, h, he']
    split <;> rfl
  · rw [PortState.placingCommand, he']
    exact (State.PortsApart.leavingTrain _ p _).outputs _ (State.command_mem_send h _)

theorem State.Places.placePort {s : State} {p : Port} (hq : (s.training p).energy = false) :
    s.Places p (s.placePort p) := by
  unfold State.placePort
  by_cases h : s.quadUp p = true
  · by_cases he : (s.profile p).enabled = true
    · simpa [h, he] using State.Places.listen h he hq
    · simpa [h, he] using State.Places.off h (Bool.eq_false_iff.mpr he)
  · simpa [h] using State.Places.noLine (Bool.eq_false_iff.mpr h)

/-- The placement of the ports of a list, none of them twice and all without energy. -/
structure State.PlacesAll (s : State) (ps : List Port) (t : State) : Prop where
  apart : s.PortsApart t
  port : ∀ q, t.port q = if q ∈ ps then (s.port q).placed (s.quadUp q) else s.port q
  sent : ∀ q ∈ ps, s.quadUp q = true → .command q (s.port q).placingCommand ∈ t.outputs

theorem State.PlacesAll.foldl (ps : List Port) (hn : ps.Nodup) (s : State)
    (hq : ∀ p ∈ ps, (s.training p).energy = false) : s.PlacesAll ps (ps.foldl State.placePort s) := by
  induction ps generalizing s with
  | nil => exact ⟨.refl s, fun q => by simp, fun q h => absurd h nofun⟩
  | cons p rest ih =>
    obtain ⟨hp, hrest⟩ := List.nodup_cons.mp hn
    have a := State.Places.placePort (hq p List.mem_cons_self)
    have other {q : Port} (h : q ∈ rest) : (s.placePort p).port q = s.port q := by
      rw [a.port, if_neg (fun e : q = p => hp (e ▸ h))]
    have b := ih hrest (s.placePort p) fun q h => by
      rw [State.training, other h]
      exact hq q (List.mem_cons_of_mem _ h)
    refine ⟨a.apart.trans b.apart, fun q => ?_, fun q h hup => ?_⟩
    · rw [List.foldl_cons, b.port]
      by_cases h : q ∈ rest
      · rw [if_pos h, if_pos (List.mem_cons_of_mem _ h), other h, a.apart.quadUp]
      · rw [if_neg h, a.port]
        by_cases e : q = p
        · rw [if_pos e, e, if_pos List.mem_cons_self]
        · rw [if_neg e, if_neg (by simp [e, h])]
    · rcases List.mem_cons.mp h with rfl | h
      · exact b.apart.outputs _ (a.sent hup)
      · have := b.sent q h (by rwa [a.apart.quadUp])
        rwa [other h] at this

theorem mem_allPorts (p : Port) : p ∈ allPorts := List.mem_finRange p

/-- START_UP is raised: the notice unit alone changes. -/
theorem State.raiseDevice_eq (s : State) (e : DeviceEvent) :
    s.raiseDevice e = { s with notice := (s.raiseDevice e).notice } := by
  unfold State.raiseDevice State.noticeRaised
  split <;> rfl

theorem State.raiseDevice_device (s : State) (e : DeviceEvent) :
    (s.raiseDevice e).notice.device = s.notice.device.record e := by
  unfold State.raiseDevice State.noticeRaised
  split <;> rfl

/-- The ports placed at load completion, before START_UP is raised. -/
def State.portsPlaced (s : State) (outcome : ImageOutcome) : State :=
  allPorts.foldl State.placePort (s.loadEnded outcome).selectAllClasses

theorem State.opened_eq (u : State) :
    (u.raiseDevice .startUp).updSupervision (fun v => { v with accepting := true }) =
      { u with
        notice := (u.raiseDevice .startUp).notice
        supervision := { u.supervision with accepting := true } } := by
  rw [State.raiseDevice_eq]
  rfl

theorem State.completeLoad_eq (s : State) (outcome : ImageOutcome) : s.completeLoad outcome =
    { s.portsPlaced outcome with
      notice := ((s.portsPlaced outcome).raiseDevice .startUp).notice
      supervision := { (s.portsPlaced outcome).supervision with accepting := true } } := by
  unfold State.completeLoad State.portsPlaced
  exact State.opened_eq _

theorem State.portsPlaced_places (s : State) (outcome : ImageOutcome)
    (hq : ∀ p, (s.training p).energy = false) :
    (s.loadEnded outcome).selectAllClasses.PlacesAll allPorts (s.portsPlaced outcome) := by
  refine State.PlacesAll.foldl allPorts (List.nodup_finRange 48) _ fun p _ => ?_
  rw [State.training, State.port_selectAllClasses]
  exact hq p

/-- Load completion from a state without energy. -/
theorem State.completeLoad_ends (s : State) (outcome : ImageOutcome) (hq : ∀ p, (s.training p).energy = false) :
    let t := s.completeLoad outcome
    t.loading = false ∧ t.startUp.outcome = some outcome ∧ t.supervision.accepting = true
    ∧ t.notice.device.startUp = occurrence s.notice.device.startUp
    ∧ t.plan = s.plan ∧ t.signatures = s.signatures ∧ t.supervision.requesters = s.supervision.requesters
    ∧ t.supervision.station = s.supervision.station ∧ t.quads = s.quads ∧ t.queue = s.queue
    ∧ t.startUp.applied = s.startUp.applied ∧ t.startUp.causes = s.startUp.causes
    ∧ (∀ p, t.port p = ((s.port p).reclassified s.plan).placed (s.quadUp p))
    ∧ ∀ p, s.quadUp p = true → .command p (s.port p).placingCommand ∈ t.outputs := by
  have h := s.portsPlaced_places outcome hq
  rw [s.completeLoad_eq outcome]
  generalize s.portsPlaced outcome = u at h
  have hrest := h.apart.rest
  have hport (p : Port) : u.port p = ((s.port p).reclassified s.plan).placed (s.quadUp p) := by
    rw [h.port, if_pos (mem_allPorts p), State.port_selectAllClasses]
    rfl
  have hsent (p : Port) (hup : s.quadUp p = true) : .command p (s.port p).placingCommand ∈ u.outputs := by
    have := h.sent p (mem_allPorts p) hup
    rwa [State.port_selectAllClasses] at this
  intro t
  refine ⟨?_, ?_, rfl, ?_, ?_, ?_, ?_, ?_, ?_, ?_, ?_, ?_, hport, hsent⟩
  · show (u.startUp.progress != .complete) = false
    rw [hrest]; rfl
  · show u.startUp.outcome = some outcome
    rw [hrest]; rfl
  · show (u.raiseDevice .startUp).notice.device.startUp = _
    rw [State.raiseDevice_device, hrest]; rfl
  · show u.plan = s.plan
    rw [hrest]; rfl
  · show u.signatures = s.signatures
    rw [hrest]; rfl
  · show u.supervision.requesters = s.supervision.requesters
    rw [hrest]; rfl
  · show u.supervision.station = s.supervision.station
    rw [hrest]; rfl
  · show u.quads = s.quads
    rw [hrest]; rfl
  · show u.queue = s.queue
    rw [hrest]; rfl
  · show u.startUp.applied = s.startUp.applied
    rw [hrest]; rfl
  · show u.startUp.causes = s.startUp.causes
    rw [hrest]; rfl

section Rejection

variable (s : State) (reason : RejectReason)

/-- What a rejection returns to its built-in values, with its record. -/
def State.rejected : State :=
  { s.unloaded with
    startUp :=
      { s.startUp with
        causes := { s.startUp.causes with imageRejected := true }
        applied := [] } }

theorem State.port_rejected (p : Port) :
    s.rejected.port p = { s.port p with profile := Profile.builtin p } := by
  simp [State.port, State.rejected, State.unloaded]

theorem State.rejectImage_eq : s.rejectImage reason
    = (s.rejected.raiseDevice .imageRejected).completeLoad (.rejected reason) := by
  unfold State.rejectImage State.rejected
  rfl

/-- The tables of a rejected image are those of a reset. -/
theorem State.rejected_built :
    let built := State.atReset s.startUp.straps s.startUp.causes .firstPass [] 0 []
    s.rejected.plan = built.plan ∧ s.rejected.signatures = built.signatures
    ∧ s.rejected.supervision.requesters = built.supervision.requesters
    ∧ s.rejected.supervision.station = built.supervision.station
    ∧ s.rejected.supervision.stationSet = s.supervision.stationSet
    ∧ s.rejected.startUp.causes = { s.startUp.causes with imageRejected := true }
    ∧ s.rejected.startUp.applied = [] ∧ s.rejected.quads = s.quads := by
  simp only [State.rejected, State.unloaded, State.atReset, Supervision.atReset]
  exact ⟨trivial, trivial, trivial, trivial, trivial, trivial, trivial, trivial⟩

end Rejection

/-- Settles O28. -/
theorem loadEnds : Obligations.LoadEnds := by
  refine ⟨fun s reason => ⟨s.rejected, s.rejectImage_eq reason, fun p => ?_, s.rejected_built⟩,
    fun s outcome hq => ?_⟩
  · rw [State.profile, State.training, State.mode, State.port_rejected, State.profile, State.port_atReset]
    exact ⟨rfl, rfl, rfl⟩
  · have hends := s.completeLoad_ends outcome hq
    generalize s.completeLoad outcome = t at hends
    obtain ⟨h1, h2, h3, h4, h5, h6, h7, h8, h9, h10, h11, h12, hport, hsent⟩ := hends
    have hprofile (x : PortState) (up : Bool) : (x.placed up).profile = x.profile := by
      unfold PortState.placed
      split
      · split <;> rfl
      · rfl
    have hclass (x : PortState) (up : Bool) : (x.placed up).cableClass = x.cableClass := by
      unfold PortState.placed
      split
      · split <;> rfl
      · rfl
    refine ⟨h1, h2, h3, h4, h5, h6, h7, h8, h9, h10, h11, h12, fun p => ?_, fun p => ⟨?_, fun hup => ?_,
      fun hup he => ?_, fun hup he => ?_⟩⟩
    · rw [State.profile, hport, hprofile]
      rfl
    · rw [hport, hclass]
      rfl
    · rw [State.link, State.training, State.mode, hport, hup]
      exact ⟨rfl, rfl⟩
    · have he' : (s.port p).profile.enabled = true := he
      have hs := hsent p hup
      rw [PortState.placingCommand, if_pos he'] at hs
      rw [State.training, State.mode, hport, hup]
      simp only [PortState.placed, PortState.reclassified, he']
      exact ⟨rfl, rfl, hs⟩
    · have he' : (s.port p).profile.enabled = false := he
      have hs := hsent p hup
      rw [PortState.placingCommand, he'] at hs
      rw [State.link, State.training, State.mode, hport, hup]
      simp only [PortState.placed, PortState.reclassified, he']
      exact ⟨rfl, rfl, hs⟩

end Sys2Proof.Machine
end

