-- ==== Sys2Proof/Proofs/Quads.lean ====
section
/-! PROOF. The loss and the recovery of a quad (R15 to R17, R107). -/

namespace Sys2Proof.Machine

/-! ### The ports of a quad -/

theorem mem_portsOf (p : Port) (q : Quad) : p ∈ portsOf q ↔ p.val / 4 = q.val := by
  simp [portsOf, mem_allPorts, Fin.ext_iff, quadOf]

theorem portsOf_pairwise (q : Quad) : (portsOf q).Pairwise (· < ·) :=
  List.Pairwise.filter _ (List.pairwise_lt_finRange 48)

/-- A change of availability alone, on a part at rest. -/
theorem takeEvent_setQuad {f : State → State} {s : State} {q : Quad} {up : Bool} (h : s.ready)
    (hl : s.loading = true) (hrest : s.restsWhileLoading) (hf : f s = s.setQuad q up) :
    takeEvent f s = .next (s.setQuad q up) := by
  have hr : Rest s := rest_iff.mp hrest hl
  rw [takeEvent_next h.1, hf, (hr.setQuad q up).close hr.queue]

/-! ### What one port does at a loss (R15) -/

/-- The engine on a port has a context that names it (R13). -/
theorem State.engineOn_port {s : State} {p : Port} {e : EngineId} {m : Measurement} (h : s.engineOn p = some e)
    (hm : (s.engine e).context = some m) : m.port = p := by
  have := List.find?_some h
  simpa [State.context, hm] using this

@[simp] theorem State.port_releaseSlot (s : State) (g : Group) (p : Port) :
    (s.releaseSlot g).port p = s.port p := by
  unfold State.releaseSlot
  simp only []
  split <;> rfl

theorem State.link_releaseSlot (s : State) (g : Group) (p : Port) : (s.releaseSlot g).link p = s.link p := by
  rw [State.link, State.training, State.port_releaseSlot]
  rfl

theorem State.enterNoLine_other {s : State} {p : Port} (h : s.link p ≠ .train) :
    s.enterNoLine p = s.updTraining p fun t => t.quieted .noLine := by
  rw [State.enterNoLine_eq, State.leavingTrain_other _ h]

section Lost

variable {s : State} {p : Port} {released : List Port}

theorem State.portLost_up (h : s.link p = .up) : State.portLost released s p
    = (s.departUp p .frontEndFault).updTraining p fun t => t.quieted .noLine := by
  simp only [State.portLost, h]
  rw [State.abandonAttempt_none (by simp [h]) (by simp [h]), State.departIfUp, if_pos h,
    State.enterNoLine_other]
  rw [State.link, State.training_departUp]
  show s.link p ≠ .train
  simp [h]

/-- An attempt running is recorded ABANDONED before the port goes to NO_LINE. -/
theorem State.portLost_running (h : s.link p = .train ∨ s.link p = .verify) : State.portLost released s p
    = s.leavingTrain p (s.updTraining p fun t =>
      (t.noted (t.attemptRecord .abandoned t.margin)).quieted .noLine) := by
  have hlost : State.portLost released s p = ((s.abandonAttempt p).departIfUp p .frontEndFault).enterNoLine p := by
    rcases h with h | h <;> simp only [State.portLost, h]
  have hlink : (s.updTraining p fun t => t.noted (t.attemptRecord .abandoned t.margin)).link p = s.link p := by
    rw [State.link_updTraining_same]
    rfl
  rw [hlost, State.abandonAttempt_running h, State.departIfUp_down (by rw [hlink]; rcases h with h | h <;> simp [h]),
    State.enterNoLine_eq, State.leavingTrain_congr _ _ _ _ hlink, State.updTraining_twice]

theorem State.portLost_other (h : s.link p ∈ [LinkState.off, .listen, .exchange, .pendingTrain, .backoff]) :
    State.portLost released s p = s.updTraining p fun t => t.quieted .noLine := by
  have hlost : State.portLost released s p = ((s.abandonAttempt p).departIfUp p .frontEndFault).enterNoLine p
      ∧ s.link p ≠ .train ∧ s.link p ≠ .verify ∧ s.link p ≠ .up := by
    simp only [List.mem_cons, List.not_mem_nil, or_false] at h
    rcases h with h | h | h | h | h <;> simp [State.portLost, h]
  obtain ⟨hlost, ht, hv, hu⟩ := hlost
  rw [hlost, State.abandonAttempt_none ht hv, State.departIfUp_down hu, State.enterNoLine_other ht]

theorem State.portLost_held (h : s.link p = .held) : State.portLost released s p = s.testLost released p := by
  simp only [State.portLost, h]

/-- The test of a HELD port, by the phase that it is in. -/
theorem State.testLost_testing {e : EngineId} {st : EngineState} {m : Measurement} {t : TestContext}
    (h : s.testing p e st m t) : s.testLost released p =
      match st with
      | .quiesce | .capture => s.abortLost e m t
      | .restore => if p ∈ released then s else (s.emit (.releaseEnded p)).completeRestore e
      | _ => s := by
  obtain ⟨hon, hst, hm, ht⟩ := h
  simp only [State.testLost, hon, State.context, hm, hst, ht]
  cases st <;> simp

/-- An abort at the loss of the quad, of a test whose port is HELD (R107). -/
theorem State.abortLost_held {e : EngineId} {st : EngineState} {m : Measurement} {t : TestContext}
    (h : s.testing p e st m t) (hl : s.link p = .held) : s.abortLost e m t
      = (((s.releaseSlot t.group).updTraining p fun t => t.quieted .noLine).freed e).endMeasurement m.entry p
        ⟨.frontEndFault, none⟩ := by
  obtain ⟨hon, -, hm, -⟩ := h
  rw [State.abortLost, State.engineOn_port hon hm,
    State.enterNoLine_other (by rw [State.link_releaseSlot, hl]; simp)]
  rfl

end Lost

/-- Settles O29. -/
theorem quadLost : Obligations.QuadLost := by
  refine ⟨mem_portsOf, portsOf_pairwise, fun s q released h => ?_, fun s released p _ =>
    ⟨fun hl => ?_, State.portLost_up, fun hl => ?_, fun hl => ?_, State.portLost_other, fun hl =>
    ⟨fun hon => ?_, fun e st m t ht => ⟨?_, ?_, ?_, ?_⟩⟩⟩⟩
  · intro lost
    refine ⟨fun hq => ?_, fun hq hl hrest => ?_, fun hq hl => ?_⟩
    · exact takeEvent_idle (f := fun t => t.quadLost q released) (by simp only [State.quadLost, hq]; rfl) h.2
    · exact takeEvent_setQuad (f := fun t => t.quadLost q released) h hl hrest
        (by simp only [State.quadLost, hq, hl]; rfl)
    · exact h.effect (f := fun t => t.quadLost q released) (by simp only [State.quadLost, hq, hl]; rfl)
  · simp only [State.portLost, hl]
  · rw [State.portLost_running (.inr hl), State.leavingTrain_other _ (by simp [hl])]
  · rw [State.portLost_running (.inl hl), State.leavingTrain_train _ hl]
  · simp only [State.portLost_held hl, State.testLost, hon]
  all_goals rw [State.portLost_held hl, State.testLost_testing ht]
  · rintro (rfl | rfl) <;> exact State.abortLost_held ht hl
  · rintro rfl
    rfl
  · rintro rfl hr
    exact if_pos hr
  · rintro rfl hr
    exact if_neg hr

/-- Settles O30. -/
theorem quadRecovered : Obligations.QuadRecovered := by
  refine ⟨fun s q h => ?_, fun s p => ⟨fun hl => if_neg hl, fun hl he => ?_, fun hl he => ?_⟩⟩
  · intro back
    refine ⟨fun hq => ?_, fun hq hl hrest => ?_, fun hq hl => ?_⟩
    · exact takeEvent_idle (f := fun t => t.quadRecovered q) (by simp only [State.quadRecovered, hq]; rfl) h.2
    · exact takeEvent_setQuad (f := fun t => t.quadRecovered q) h hl hrest
        (by simp only [State.quadRecovered, hq, hl]; rfl)
    · exact h.effect (f := fun t => t.quadRecovered q) (by simp only [State.quadRecovered, hq, hl]; rfl)
  · simp [State.portRecovered, hl, he]
  · have hoff : s.portRecovered p = s.enterOff p := by simp [State.portRecovered, hl, he]
    rw [hoff, State.enterOff_eq, State.leavingTrain_other _ (by simp [hl])]

end Sys2Proof.Machine
end

