-- ==== Sys2Proof/Proofs/Measurements.lean ====
section
/-! PROOF. The phases of a measurement (chapter 6): SILENT and CAPTURE_SET, the phase timer, the ends of ANALYZE
and RESTORE, sweeps, and TAPS. -/

namespace Sys2Proof.Machine

/-! ### An engine rewritten, by what it holds -/

theorem State.updEngine_twice (s : State) (e : EngineId) (f g : Engine → Engine) :
    (s.updEngine e f).updEngine e g = s.updEngine e fun x => g (f x) := by
  show { s with engines := (s.engines.set e (f (s.engine e))).set e (g ((s.updEngine e f).engine e)) } = _
  rw [State.engine_updEngine_self, Vector.set_set]
  rfl

theorem State.updEngine_congr {s : State} {e : EngineId} {f g : Engine → Engine}
    (h : f (s.engine e) = g (s.engine e)) : s.updEngine e f = s.updEngine e g := by
  unfold State.updEngine
  rw [h]

/-- The TEST fields of a context that is there. -/
theorem State.updTest_eq {s : State} {e : EngineId} {m : Measurement} {t : TestContext}
    (hm : (s.engine e).context = some m) (ht : m.test = some t) (f : TestContext → TestContext) :
    s.updTest e f = s.updEngine e fun y => { y with context := some { m with test := some (f t) } } :=
  State.updEngine_congr (by simp [hm, ht])

theorem State.testOf_eq {s : State} {e : EngineId} {m : Measurement} {t : TestContext}
    (hm : (s.engine e).context = some m) (ht : m.test = some t) : s.testOf e = some t := by
  simp [State.testOf, State.context, hm, ht]

theorem State.SameBlocking.updEngine (s : State) (e : EngineId) (f : Engine → Engine) :
    s.SameBlocking (s.updEngine e f) := ⟨rfl, rfl, fun _ => rfl, fun _ => rfl, fun _ => rfl⟩

theorem State.SameBlocking.setMode (s : State) (p : Port) (m : LineMode) : s.SameBlocking (s.setMode p m) :=
  .updPort s p _ rfl rfl

/-! ### SILENT and CAPTURE_SET (R13, R98 to R100) -/

theorem listeningPairs_eq (cross : Bool) (x : Pair) :
    listeningPairs cross x = if cross then [Pair.a, .b, .c, .d] else [x] := rfl

/-- The next PULSE_CAPTURE of a test that has pairs to go. -/
theorem State.pulseNext_eq {s : State} {e : EngineId} {m : Measurement} {t : TestContext} {x : Pair}
    {rest : List Pair} (hm : (s.engine e).context = some m) (ht : m.test = some t) (hx : t.toGo = x :: rest) :
    s.pulseNext e = (s.updEngine e fun y =>
      { y with context := some { m with test := some { t with toGo := rest } } }).send m.port
        (.pulseCapture x (if t.crossPair then [.a, .b, .c, .d] else [x]) t.averaging) := by
  simp only [State.pulseNext, State.context, hm, ht, hx, State.updTest_eq hm ht, listeningPairs_eq]

section Capture

variable {s : State} {p : Port} {e : EngineId} {m : Measurement} {t : TestContext}

theorem State.silentReported_unheard (h : s.mode p ≠ .silencing) : s.silentReported p = s := if_neg h

theorem State.silentReported_quiet (h : s.mode p = .silencing) (he : s.engineOn p = none) :
    s.silentReported p = s.setMode p .silentMode := by
  simp only [State.silentReported, h, he]
  rfl

theorem State.silentReported_capture {x : Pair} {rest : List Pair} (h : s.mode p = .silencing)
    (ht : s.testing p e .quiesce m t) (hx : t.toGo = x :: rest) :
    s.silentReported p = ((s.setMode p .silentMode).updEngine e fun y =>
      { y with
        state := .capture
        phaseTimer := some 50
        context := some { m with test := some { t with toGo := rest } } }).send p
      (.pulseCapture x (if t.crossPair then [.a, .b, .c, .d] else [x]) t.averaging) := by
  obtain ⟨hon, hst, hm, htest⟩ := ht
  have hbegins : s.silentReported p = (s.setMode p .silentMode).beginCapture e := by
    simp only [State.silentReported, h, hon, hst]
    rfl
  rw [hbegins, State.beginCapture, State.pulseNext_eq (m := m) (t := t) _ htest hx, State.updEngine_twice,
    State.engineOn_port hon hm]
  · rfl
  · rw [State.engine_updEngine_self]
    exact hm

theorem State.captureReported_unheard {c : CaptureSet}
    (h : ∀ expected, s.mode p = .capturing c.pulsed expected → c.listening ∉ expected) :
    s.captureReported p c = s := by
  unfold State.captureReported
  split
  · next pulsed expected e hmode he =>
    refine if_neg fun hc => ?_
    obtain ⟨rfl, hin⟩ := hc
    exact h expected hmode (by simpa using hin)
  · rfl

/-- The context of the pair's engine as the accepted capture leaves it. -/
def Measurement.captured (m : Measurement) (t : TestContext) (c : CaptureSet) (toGo : List Pair) : Measurement :=
  { m with test := some { t with captures := t.captures ++ [c], toGo := toGo } }

/-- An accepted CAPTURE_SET of an engine in CAPTURE, appended. -/
theorem State.captureReported_kept {c : CaptureSet} {expected : List Pair}
    (h : s.mode p = .capturing c.pulsed expected) (hin : c.listening ∈ expected)
    (ht : s.testing p e .capture m t) : s.captureReported p c =
      (let kept := (s.setMode p (captureModeAfter c.pulsed (expected.erase c.listening))).updEngine e fun y =>
        { y with context := some (m.captured t c t.toGo) }
      if (expected.erase c.listening).isEmpty then kept.pairCaptured e else kept) := by
  obtain ⟨hon, hst, hm, htest⟩ := ht
  have hm' (mode : LineMode) : ((s.setMode p mode).engine e).context = some m := hm
  simp only [State.captureReported, h, hon, List.contains_iff_mem, hin, hst,
    State.updTest_eq (hm' _) htest]
  rfl

theorem erase_isEmpty_iff {x : Pair} {xs : List Pair} (h : x ∈ xs) : (xs.erase x).isEmpty = true ↔ xs = [x] := by
  rw [List.isEmpty_iff]
  constructor
  · intro he
    have hlen := List.length_erase_of_mem h
    rw [he] at hlen
    have hpos := List.length_pos_of_mem h
    obtain ⟨y, rfl⟩ := List.length_eq_one_iff.mp (show xs.length = 1 by simp at hlen; omega)
    simp_all
  · rintro rfl
    simp

theorem captureModeAfter_more {pulsed x : Pair} {xs : List Pair} (h : x ∈ xs) (hne : xs ≠ [x]) :
    captureModeAfter pulsed (xs.erase x) = .capturing pulsed (xs.erase x) :=
  if_neg (mt (erase_isEmpty_iff h).mp hne)

theorem captureModeAfter_last (pulsed x : Pair) : captureModeAfter pulsed ([x].erase x) = .silentMode :=
  if_pos (by simp)

/-- The capture that completes a pulsed pair: the next pulse, or the end of CAPTURE (R100). -/
theorem State.pairCaptured_eq (hm : (s.engine e).context = some m) (htest : m.test = some t) :
    s.pairCaptured e
      = if t.toGo.isEmpty then (s.enterUntimed e .analyze).releaseSlot t.group else s.pulseNext e := by
  simp only [State.pairCaptured, State.testOf_eq hm htest]

theorem State.pairCaptured_pulses {mode : LineMode} {c : CaptureSet} {x : Pair} {rest : List Pair}
    (hx : t.toGo = x :: rest) :
    ((s.setMode p mode).updEngine e fun y =>
        { y with context := some (m.captured t c t.toGo) }).pairCaptured e
      = ((s.setMode p mode).updEngine e fun y => { y with context := some (m.captured t c rest) }).send m.port
        (.pulseCapture x (if t.crossPair then [.a, .b, .c, .d] else [x]) t.averaging) := by
  have hcontext : (((s.setMode p mode).updEngine e fun y =>
      { y with context := some (m.captured t c t.toGo) }).engine e).context = some (m.captured t c t.toGo) := by
    rw [State.engine_updEngine_self]
  rw [State.pairCaptured_eq hcontext rfl, if_neg (by simp [hx]), State.pulseNext_eq hcontext rfl hx,
    State.updEngine_twice]
  rfl

theorem State.pairCaptured_ends {mode : LineMode} {c : CaptureSet} (hnil : t.toGo = []) :
    ((s.setMode p mode).updEngine e fun y =>
        { y with context := some (m.captured t c t.toGo) }).pairCaptured e
      = ((s.setMode p mode).updEngine e fun y =>
        { y with state := .analyze, phaseTimer := none
                 context := some (m.captured t c t.toGo) }).releaseSlot t.group := by
  have hcontext : (((s.setMode p mode).updEngine e fun y =>
      { y with context := some (m.captured t c t.toGo) }).engine e).context = some (m.captured t c t.toGo) := by
    rw [State.engine_updEngine_self]
  rw [State.pairCaptured_eq hcontext rfl, if_pos (by simp [hnil]), State.enterUntimed, State.updEngine_twice]

end Capture

/-- Settles O31. -/
theorem captureReports : Obligations.CaptureReports := by
  intro s p pulsed listening samples h
  refine ⟨FirstWith.of_find? allEngines _ fun e => ?_, fun hmode => ?_, fun hmode hon => ?_,
    fun e m t x rest hmode ht hx => ?_, fun hmode => ?_, fun expected e m t hmode hin ht => ?_⟩
  · cases hm : (s.engine e).context <;> simp [State.context, hm]
  · exact takeEvent_idle (State.silentReported_unheard hmode) h.2
  · exact h.exact (State.silentReported_quiet hmode hon) (.setMode s p _) rfl
  · exact h.exact (State.silentReported_capture hmode ht hx)
      (((State.SameBlocking.setMode s p _).trans (.updEngine _ e _)).trans (.send _ p _)) (State.send_due _ p _)
  · exact takeEvent_idle (f := fun u => u.captureReported p ⟨pulsed, listening, samples⟩)
      (State.captureReported_unheard hmode) h.2
  · have hkept := State.captureReported_kept (c := ⟨pulsed, listening, samples⟩) hmode hin ht
    have ⟨hon, hst, hm, htest⟩ := ht
    intro kept
    refine ⟨fun hmore => ?_, fun hlast => ?_⟩
    · have hmoreKept := hkept.trans (if_neg (mt (erase_isEmpty_iff hin).mp hmore))
      rw [captureModeAfter_more hin hmore] at hmoreKept
      exact h.exact (f := fun u => u.captureReported p ⟨pulsed, listening, samples⟩) hmoreKept
        ((State.SameBlocking.setMode s p _).trans (.updEngine _ e _)) rfl
    · have hcaptured := hkept.trans (if_pos ((erase_isEmpty_iff hin).mpr hlast))
      subst hlast
      rw [captureModeAfter_last] at hcaptured
      refine ⟨fun x rest hx => ?_, fun hnil => ?_⟩
      · rw [State.pairCaptured_pulses hx] at hcaptured
        rw [State.engineOn_port hon hm] at hcaptured
        exact h.exact (f := fun u => u.captureReported p ⟨pulsed, listening, samples⟩) hcaptured
          (((State.SameBlocking.setMode s p _).trans (.updEngine _ e _)).trans (.send _ p _))
          (State.send_due _ p _)
      · rw [State.pairCaptured_ends hnil, hnil] at hcaptured
        exact h.effect (f := fun u => u.captureReported p ⟨pulsed, listening, samples⟩) hcaptured

/-! ### The phase timer and the entry to RESTORE (R96, R103, R105, R111, R149) -/

theorem State.phaseExpired_stopped {s : State} {e : EngineId} (h : (s.engine e).phaseTimer = none) :
    s.phaseExpired e = s := by
  simp only [State.phaseExpired, h]

section Phase

variable {s : State} {e : EngineId} {m : Measurement} {t : TestContext}

theorem State.phaseExpired_test (hr : (s.engine e).phaseTimer.isSome = true)
    (hst : (s.engine e).state = .quiesce ∨ (s.engine e).state = .capture)
    (hm : (s.engine e).context = some m) (ht : m.test = some t) :
    s.phaseExpired e = ((s.updEngine e fun y =>
      { y with
        context := some { m with
          test := some { t with
            abortCause := some .frontEndTimeout
            result := some ⟨.frontEndTimeout, none⟩ } } }).releaseSlot t.group).enterRestore e := by
  obtain ⟨n, hn⟩ := Option.isSome_iff_exists.mp hr
  have habort : s.phaseExpired e = s.abortTest e .frontEndTimeout := by
    rcases hst with hst | hst <;> simp only [State.phaseExpired, hn, hst, State.context, hm]
  rw [habort, State.abortTest, State.testOf_eq hm ht]
  simp only [State.updTest_eq hm ht]
  rfl

theorem State.phaseExpired_survey {x : QueueEntry} (hr : (s.engine e).phaseTimer.isSome = true)
    (hst : (s.engine e).state = .surveyRead) (hm : (s.engine e).context = some m)
    (hx : s.entry m.entry = some x) :
    s.phaseExpired e = ((s.updPort m.port fun y =>
      { y with mode := .openMode, survey := y.survey.begun y.profile }).freed e).finishEntry x
        .frontEndTimeout [] := by
  obtain ⟨n, hn⟩ := Option.isSome_iff_exists.mp hr
  have hgiven : s.phaseExpired e = s.timeOutSurvey e m := by
    simp only [State.phaseExpired, hn, hst, State.context, hm]
  rw [hgiven, State.timeOutSurvey, hx, State.restartSurvey_eq, State.setMode, State.updPort_twice]
  rfl

/-- A test entered in RESTORE, its captures discarded. -/
theorem State.enterRestore_eq (hm : (s.engine e).context = some m) (ht : m.test = some t) :
    s.enterRestore e =
      (let entered := s.updEngine e fun y =>
        { y with
          state := .restore
          phaseTimer := none
          context := some { m with test := some { t with captures := [] } } }
      if s.quadUp m.port then entered.send m.port .release else entered.completeRestore e) := by
  have hm' : ((s.enterUntimed e .restore).engine e).context = some m := by
    rw [State.enterUntimed, State.engine_updEngine_self]
    exact hm
  simp only [State.enterRestore, State.context, hm, State.updTest_eq hm' ht]
  rw [State.enterUntimed, State.updEngine_twice]

end Phase

/-- Settles O32. -/
theorem phaseTimerExpires : Obligations.PhaseTimerExpires := by
  refine ⟨fun s e h => ⟨fun hstopped => takeEvent_idle (f := fun u => u.phaseExpired e) (State.phaseExpired_stopped hstopped) h.2,
    fun m hr hm =>
      ⟨fun t hst ht => h.effect (f := fun u => u.phaseExpired e) (State.phaseExpired_test hr hst hm ht),
        fun x hst hx => h.effect (f := fun u => u.phaseExpired e) (State.phaseExpired_survey hr hst hm hx)⟩⟩, fun s e m t hm ht => ?_⟩
  intro entered
  rw [State.enterRestore_eq hm ht]
  exact ⟨fun hup => if_pos hup, fun hdown => if_neg (by simp [hdown])⟩

/-! ### ANALYZE completion (R87, R102, R112, R135, R140) -/

theorem nextSequence_eq (n : BitVec 32) : nextSequence n = if n = 0xFFFFFFFF then 1 else n + 1 := by
  have h : (BitVec.allOnes 32) = 0xFFFFFFFF := by decide
  rw [nextSequence, h]

theorem FaultClass.isFault_iff (c : FaultClass) : c.isFault = true ↔ 1 < c.severity := decide_eq_true_iff

theorem State.storeReport_eq (s : State) (p : Port) (r : CableReport) :
    s.storeReport p r =
      (let n := nextSequence s.sequence
      let stored : State := { s with sequence := n }.updPort p fun x =>
        { x with
          report := some { r with sequence := n }
          cableClass := selectClass s.plan (some { r with sequence := n }) x.summary }
      if 1 < r.worst.severity then stored.raise p (.cableFault n) else stored) := by
  simp only [State.storeReport, State.selectClassOf, State.updPort_twice]
  exact ite_congr (propext r.worst.isFault_iff) (fun _ => rfl) fun _ => rfl

theorem State.report_raise (s : State) (p q : Port) (e : PortEvent) :
    ((s.raise p e).port q).report = (s.port q).report := by
  rw [State.raise_woken, State.port_woken, State.port_updPort]
  split
  · next h => rw [h]
  · rfl

/-- Storing a report reaches the port's record and leaves the queue. -/
theorem State.storeReport_stored (s : State) (p : Port) (r : CableReport) :
    ((s.storeReport p r).port p).report = some { r with sequence := nextSequence s.sequence }
    ∧ (s.storeReport p r).queue = s.queue := by
  rw [State.storeReport_eq]
  simp only []
  split
  · rw [State.report_raise, State.port_updPort_self, State.queue_raise]
    exact ⟨rfl, rfl⟩
  · rw [State.port_updPort_self]
    exact ⟨rfl, rfl⟩

theorem QueueEntry.coalesces_iff (x : QueueEntry) (p : Port) (t : TestContext) :
    x.coalesces p t = true ↔ ∃ o, x.kind = .test o ∧ o.sweep = none ∧ x.port = p ∧ x.state = .waiting
      ∧ (∀ y ∈ o.pairs, y ∈ t.pairs) ∧ o.averaging ≤ t.averaging ∧ (o.crossPair = true → t.crossPair = true)
      ∧ x.serial ∈ t.atGrant := by
  cases h : x.kind with
  | survey => simp [QueueEntry.coalesces, h]
  | test o =>
    have hcross : (!o.crossPair || t.crossPair) = true ↔ (o.crossPair = true → t.crossPair = true) := by
      cases o.crossPair <;> simp
    simp only [QueueEntry.coalesces, h, Bool.and_eq_true, hcross, Option.isNone_iff_eq_none, beq_iff_eq,
      QueueEntry.waiting, List.all_eq_true, List.contains_iff_mem, decide_eq_true_eq, and_assoc,
      EntryKind.test.injEq]
    constructor
    · exact fun h => ⟨o, rfl, h⟩
    · rintro ⟨_, rfl, h⟩
      exact h

/-- The ANALYZE completion with the stored report named. -/
theorem State.completeAnalyze_eq {s : State} {e : EngineId} {m : Measurement} {t : TestContext}
    (hm : (s.engine e).context = some m) (ht : m.test = some t) :
    s.completeAnalyze e =
      (let built := buildReport (arithmeticInputs (s.profile m.port) s.signatures.geometry) s.signatures.entries
        m.port t
      let r := { built with sequence := nextSequence s.sequence }
      let stored := s.storeReport m.port built
      (((s.queue.filter fun x => x.coalesces m.port t).foldl (fun u x => u.finishEntry x x.okCode r.encode)
        stored).updTest e fun y =>
          { y with result := some ⟨((s.entry m.entry).map QueueEntry.okCode).getD .ok, some r⟩ }).enterRestore
            e) := by
  obtain ⟨hreport, hqueue⟩ := s.storeReport_stored m.port
    (buildReport (arithmeticInputs (s.profile m.port) s.signatures.geometry) s.signatures.entries m.port t)
  simp only [State.completeAnalyze, State.context, hm, ht, hreport, State.coalesce, hqueue]

/-- Settles O33. -/
theorem analyzeStoresReport : Obligations.AnalyzeStoresReport := by
  refine ⟨fun s e m t h hm ht hst => ?_, fun s e h hst => ?_, QueueEntry.coalesces_iff⟩
  · intro n q k r stored told code
    refine h.effect (f := fun u => u.analyzed e) ((if_pos hst).trans ?_)
    rw [State.completeAnalyze_eq hm ht]
    have hn : nextSequence s.sequence = n := nextSequence_eq _
    simp only [State.storeReport_eq, hn]
    rfl
  · exact takeEvent_idle (f := fun u => u.analyzed e) (if_neg hst) h.2

/-! ### RESTORE completion (R53, R86, R89, R91, R104) -/

section Restore

variable {s : State} {e : EngineId} {m : Measurement} {t : TestContext} {r : RecordedResult}

theorem State.completeRestore_eq (hm : (s.engine e).context = some m) (ht : m.test = some t)
    (hr : t.result = some r) :
    s.completeRestore e = ((s.leaveHeld m.port).freed e).endMeasurement m.entry m.port r := by
  simp only [State.completeRestore, State.context, hm, ht, Option.bind_some, hr, Option.getD_some]
  rfl

theorem State.leaveHeld_down {p : Port} (h : s.quadUp p = false) (hl : s.link p = .held) :
    s.leaveHeld p = s.updTraining p fun x => x.quieted .noLine := by
  rw [← State.enterNoLine_other (by simp [hl])]
  simp [State.leaveHeld, h]

theorem State.leaveHeld_enabled {p : Port} (h : s.quadUp p = true) (he : (s.profile p).enabled = true) :
    s.leaveHeld p = s.enterListen p := by
  simp [State.leaveHeld, h, he]

theorem State.leaveHeld_disabled {p : Port} (h : s.quadUp p = true) (he : (s.profile p).enabled = false)
    (hl : s.link p = .held) :
    s.leaveHeld p = (s.updTraining p fun x => x.quieted .off).send p .silence := by
  have hoff : s.leaveHeld p = s.enterOff p := by simp [State.leaveHeld, h, he]
  rw [hoff, State.enterOff_eq, State.leavingTrain_other _ (by simp [hl])]

end Restore

section End

variable {s : State} {n : Nat} {p : Port} {r : RecordedResult} {x : QueueEntry} {o : TestOptions}

theorem QueueEntry.options_test (h : x.kind = .test o) : x.options = some o := by
  simp only [QueueEntry.options, h]

theorem QueueEntry.sweep_test (h : x.kind = .test o) : x.sweep = o.sweep := by
  rw [QueueEntry.sweep, QueueEntry.options_test h, Option.bind_some]

theorem RecordedResult.data_eq (r : RecordedResult) : r.data = (r.report.map CableReport.encode).getD [] := by
  unfold RecordedResult.data
  cases r.report <;> rfl

theorem State.endMeasurement_single (hx : s.entry n = some x) (hk : x.kind = .test o) (hw : o.sweep = none) :
    s.endMeasurement n p r = s.finishEntry x r.code ((r.report.map CableReport.encode).getD []) := by
  simp only [State.endMeasurement, hx, QueueEntry.options_test hk, QueueEntry.sweep_test hk, hw,
    RecordedResult.data_eq]

theorem State.endMeasurement_sweep {w : Sweep} (hx : s.entry n = some x) (hk : x.kind = .test o)
    (hw : o.sweep = some w) : s.endMeasurement n p r =
      if x.cancelMark then s.cancelSweep x (nextCursor w.down p) (w.append (measuredPort p r))
      else s.continueSweep x o (nextCursor w.down p) (w.append (measuredPort p r)) := by
  simp only [State.endMeasurement, hx, QueueEntry.options_test hk, QueueEntry.sweep_test hk, hw]

theorem measuredPort_eq (p : Port) (r : RecordedResult) : measuredPort p r =
    match r.report with
    | none => ⟨p, r.code, .notTested, none⟩
    | some rep => ⟨p, r.code, .classed rep.worst, rep.length⟩ := by
  unfold measuredPort
  cases r.report <;> rfl

end End

/-- Settles O34. -/
theorem restoreReleasesPort : Obligations.RestoreReleasesPort := by
  refine ⟨fun s e m t r hm ht hr => ?_, fun s e h => ⟨fun hst => ?_, fun hst => ?_⟩, fun s n p r x o hx hk => ?_⟩
  · rw [State.completeRestore_eq hm ht hr]
    refine ⟨fun hq hl => ?_, fun hq he => ?_, fun hq he hl => ?_⟩
    · rw [State.leaveHeld_down hq hl]
    · rw [State.leaveHeld_enabled hq he]
    · rw [State.leaveHeld_disabled hq he hl]
  · exact h.effect (f := fun u => u.restored e) (if_pos hst)
  · exact takeEvent_idle (f := fun u => u.restored e) (if_neg hst) h.2
  · intro measured
    have hmeasured : measuredPort p r = measured := measuredPort_eq p r
    refine ⟨fun hw => State.endMeasurement_single hx hk hw, fun w hw => ?_⟩
    rw [State.endMeasurement_sweep hx hk hw, hmeasured]
    exact ⟨fun hc => if_neg (by simp [hc]), fun hc => if_pos hc⟩

/-! ### Sweeps (R88 to R91) -/

section Sweeps

variable {s : State} {x : QueueEntry} {o : TestOptions} {p : Port} {w : Sweep}

theorem State.continueSweep_done (h : w.remaining = 0) :
    s.continueSweep x o p w = s.finishEntry x x.okCode w.encode := by
  simp [State.continueSweep, h, State.stepChecks]

theorem State.cancelSweep_done (h : w.remaining = 0) :
    s.cancelSweep x p w = s.finishEntry x .cancelled w.encode := by
  simp [State.cancelSweep, h, Sweep.cancelRest]

/-- A port that fails its step checks is finished, and the cursor moves on. -/
theorem State.continueSweep_refused {code : ResultCode} (h : w.remaining ≠ 0)
    (hr : s.stepRefusal x.requester o.force p = some code) : s.continueSweep x o p w
      = s.continueSweep x o (nextCursor w.down p) (w.append (notMeasured p code)) := by
  obtain ⟨n, hn⟩ := Nat.exists_eq_succ_of_ne_zero h
  have hsteps : s.stepChecks x.requester o.force w.remaining p w = s.stepChecks x.requester o.force
      (w.append (notMeasured p code)).remaining (nextCursor w.down p) (w.append (notMeasured p code)) := by
    rw [show (w.append (notMeasured p code)).remaining = w.remaining - 1 from rfl, hn, State.stepChecks, hr]
    rfl
  simp only [State.continueSweep, hsteps]

theorem State.continueSweep_stands (h : w.remaining ≠ 0) (hr : s.stepRefusal x.requester o.force p = none) :
    s.continueSweep x o p w = (s.updEntry x.serial fun y =>
      { y with kind := .test { o with sweep := some w }, port := p
               state := .waiting }).oweSelection.oweReservations := by
  obtain ⟨n, hn⟩ := Nat.exists_eq_succ_of_ne_zero h
  have hsteps : s.stepChecks x.requester o.force w.remaining p w = (p, w) := by
    rw [hn, State.stepChecks, hr]
  simp only [State.continueSweep, hsteps, if_neg h]

theorem State.cancelSweep_next (h : w.remaining ≠ 0) : s.cancelSweep x p w
    = s.cancelSweep x (nextCursor w.down p) (w.append (notMeasured p .cancelled)) := by
  obtain ⟨n, hn⟩ := Nat.exists_eq_succ_of_ne_zero h
  have hrest : w.cancelRest w.remaining p = (w.append (notMeasured p .cancelled)).cancelRest
      (w.append (notMeasured p .cancelled)).remaining (nextCursor w.down p) := by
    rw [show (w.append (notMeasured p .cancelled)).remaining = w.remaining - 1 from rfl, hn]
    rfl
  rw [State.cancelSweep, State.cancelSweep, hrest]

end Sweeps

theorem State.disturbSet_iff (s : State) (r : RequesterId) (p : Port) : (s.disturbSet r).getLsbD p.val = true
    ↔ (s.supervision.requesters[r]).inUse = true
      ∧ (s.supervision.requesters[r]).disturbSet.getLsbD p.val = true := by
  by_cases hin : (s.supervision.requesters[r]).inUse = true
  · rw [State.disturbSet, if_pos hin]
    exact (and_iff_right hin).symm
  · rw [State.disturbSet, if_neg hin]
    exact ⟨fun h => by simp at h, fun h => absurd h.1 hin⟩

theorem State.livePort_iff (s : State) (p : Port) (force : Bool) : s.livePort p force = true
    ↔ s.link p = .up ∧ (s.profile p).protectLive = true ∧ force = false := by
  simp [State.livePort, and_assoc]

section Steps

variable {s : State} {r : RequesterId} {p : Port} {force : Bool}

theorem State.stepRefusal_refused (h : ¬ (s.disturbSet r).getLsbD p.val = true) :
    s.stepRefusal r force p = some .notPermitted := by
  simp only [State.stepRefusal, Bool.eq_false_iff.mpr h]
  rfl

theorem State.stepRefusal_live (h : (s.disturbSet r).getLsbD p.val = true) (hl : s.livePort p force = true) :
    s.stepRefusal r force p = some .livePort := by
  simp only [State.stepRefusal, h, hl]
  rfl

theorem State.stepRefusal_none (h : (s.disturbSet r).getLsbD p.val = true) (hl : ¬ s.livePort p force = true) :
    s.stepRefusal r force p = none := by
  simp only [State.stepRefusal, h, Bool.eq_false_iff.mpr hl]
  rfl

end Steps

/-- Settles O35. -/
theorem sweepSteps : Obligations.SweepSteps := by
  intro s x o p w next finished requester permitted live
  have hpermitted : (s.disturbSet x.requester).getLsbD p.val = true ↔ permitted := s.disturbSet_iff x.requester p
  have hlive : s.livePort p o.force = true ↔ live := s.livePort_iff p o.force
  refine ⟨fun h => ⟨State.continueSweep_done h, State.cancelSweep_done h⟩, fun h =>
    ⟨fun hp => State.continueSweep_refused h ?_, fun hp hl => State.continueSweep_refused h ?_,
      fun hp hl => State.continueSweep_stands h ?_, State.cancelSweep_next h⟩⟩
  · exact State.stepRefusal_refused (mt hpermitted.mp hp)
  · exact State.stepRefusal_live (hpermitted.mpr hp) (hlive.mpr hl)
  · exact State.stepRefusal_none (hpermitted.mpr hp) (mt hlive.mp hl)

/-! ### TAPS (R110, R112, R125, R135, R141, R144, R148) -/

theorem differs_iff (tolerance : Nat) (x y : Int) : differs tolerance x y = true ↔ tolerance < (x - y).natAbs :=
  decide_eq_true_iff

theorem drifted_iff (prof : Profile) (r base : SurveySummary) : drifted prof r base = true
    ↔ prof.driftTolerance < ((r.length : Int) - base.length).natAbs
      ∨ ∃ i : Fin 4, prof.magnitudeTolerance < (r.healths[i] - base.healths[i]).natAbs := by
  rw [drifted, Bool.or_eq_true, differs_iff, List.any_eq_true]
  refine or_congr_right ⟨fun ⟨i, _, h⟩ => ⟨i, (differs_iff _ _ _).mp h⟩,
    fun ⟨i, h⟩ => ⟨i, List.mem_finRange i, (differs_iff _ _ _).mpr h⟩⟩

section Taps

variable {s : State} {p : Port} {e : EngineId} {m : Measurement} {x : QueueEntry} {a b c d : Tap}

theorem State.tapsReported_unheard (h : s.mode p ≠ .readingTaps) : s.tapsReported p a b c d = s := by
  unfold State.tapsReported
  split
  · next hmode _ => exact absurd hmode h
  · rfl

theorem State.tapsReported_survey (h : s.mode p = .readingTaps) (hon : s.engineOn p = some e)
    (hst : (s.engine e).state = .surveyRead) (hm : (s.engine e).context = some m) :
    s.tapsReported p a b c d = (s.setMode p .openMode).completeSurvey e m a b c d := by
  simp only [State.tapsReported, h, hon, hst, State.context, hm]

/-- The port of a completed survey as its store leaves it, with a baseline. -/
def PortState.surveyed (y : PortState) (plan : Vector PlanEntry 16) (r : SurveySummary)
    (baseline : Option SurveySummary) : PortState :=
  { y with
    mode := .openMode
    summary := some r
    cableClass := selectClass plan y.report (some r)
    baseline := baseline
    survey := y.survey.begun y.profile }

/-- A summary stored on a port whose line is OPEN, its class selected. -/
def State.summarized (s : State) (p : Port) (r : SurveySummary) : State :=
  { s with sequence := r.sequence }.updPort p fun y =>
    { y with mode := .openMode, summary := some r, cableClass := selectClass s.plan y.report (some r) }

theorem State.storeSummary_setMode (s : State) (p : Port) (r : SurveySummary) :
    (s.setMode p .openMode).storeSummary p r
      = s.summarized p { r with sequence := nextSequence s.sequence } := by
  have hnumbered (n : BitVec 32) : ({ s.setMode p .openMode with sequence := n } : State)
      = { s with sequence := n }.updPort p fun y => { y with mode := .openMode } := rfl
  simp only [State.storeSummary, State.selectClassOf, hnumbered, State.updPort_twice]
  rfl

theorem State.port_summarized (s : State) (p : Port) (r : SurveySummary) : (s.summarized p r).port p
    = { s.port p with
        mode := .openMode, summary := some r, cableClass := selectClass s.plan (s.port p).report (some r) } :=
  State.port_updPort_self ..

/-- A stored survey moved on to its next one. -/
theorem State.restartSurvey_summarized (s : State) (p : Port) (r : SurveySummary) :
    (s.summarized p r).restartSurvey p = { s with sequence := r.sequence }.updPort p fun y =>
      y.surveyed s.plan r y.baseline := by
  rw [State.restartSurvey_eq, State.summarized, State.updPort_twice]
  rfl

theorem State.restartSurvey_raise (s : State) (p : Port) (e : PortEvent) :
    (s.raise p e).restartSurvey p = (s.restartSurvey p).raise p e := by
  rw [State.restartSurvey_eq, State.restartSurvey_eq]
  exact State.raise_updPort _ _ _ _ fun _ => rfl

theorem State.checkDrift_first (h : (s.port p).baseline = none) (r : SurveySummary) :
    ((s.summarized p r).checkDrift p r).restartSurvey p
      = { s with sequence := r.sequence }.updPort p fun y => y.surveyed s.plan r (some r) := by
  have hbase : ((s.summarized p r).port p).baseline = none := by rw [State.port_summarized]; exact h
  simp only [State.checkDrift, hbase]
  rw [State.restartSurvey_eq, State.summarized, State.updPort_twice, State.updPort_twice]
  rfl

theorem State.checkDrift_later {base : SurveySummary} (h : (s.port p).baseline = some base) (r : SurveySummary) :
    ((s.summarized p r).checkDrift p r).restartSurvey p =
      (let stored := { s with sequence := r.sequence }.updPort p fun y => y.surveyed s.plan r (some base)
      if drifted (s.profile p) r base then stored.raise p (.cableDrift r.sequence) else stored) := by
  have hbase : ((s.summarized p r).port p).baseline = some base := by rw [State.port_summarized]; exact h
  have hprofile : (s.summarized p r).profile p = s.profile p := by
    rw [State.profile, State.port_summarized]
    rfl
  have hstored : (s.summarized p r).restartSurvey p
      = { s with sequence := r.sequence }.updPort p fun y => y.surveyed s.plan r (some base) := by
    rw [State.restartSurvey_summarized]
    exact State.updPort_congr (by rw [show ({ s with sequence := r.sequence } : State).port p = s.port p from rfl, h])
  simp only [State.checkDrift, hbase, hprofile]
  split
  · rw [State.restartSurvey_raise, hstored]
  · exact hstored

/-- The completed survey, with its stored summary named. -/
theorem State.completeSurvey_eq (hx : s.entry m.entry = some x) (hm : m.port = p) :
    (s.setMode p .openMode).completeSurvey e m a b c d =
      (let built := surveySummary (arithmeticInputs (s.profile p) s.signatures.geometry) a b c d
      let r := { built with sequence := nextSequence s.sequence }
      ((((s.summarized p r).checkDrift p r).restartSurvey p).freed e).finishEntry x .ok (r.encode p 1)) := by
  subst hm
  have hprofile : (s.setMode m.port .openMode).profile m.port = s.profile m.port := by
    rw [State.profile, State.setMode, State.port_updPort_self]
    rfl
  have hentry : (s.setMode m.port .openMode).entry m.entry = some x := hx
  simp only [State.completeSurvey, State.storeSummary_setMode, State.port_summarized, hprofile, hentry]
  rfl

end Taps

/-- Settles O36. -/
theorem surveyCompleted : Obligations.SurveyCompleted := by
  refine ⟨fun s p a b c d h => ⟨fun hmode => ?_, fun e m x hmode hon hst hm hx => ?_⟩, drifted_iff⟩
  · exact takeEvent_idle (f := fun u => u.tapsReported p a b c d) (State.tapsReported_unheard hmode) h.2
  · intro n q k r stored
    have hn : nextSequence s.sequence = n := nextSequence_eq _
    have hcompleted : s.tapsReported p a b c d
        = ((((s.summarized p r).checkDrift p r).restartSurvey p).freed e).finishEntry x .ok (r.encode p 1) := by
      rw [State.tapsReported_survey hmode hon hst hm, State.completeSurvey_eq hx (State.engineOn_port hon hm), hn]
      rfl
    refine ⟨fun hbase => ?_, fun base hbase => ⟨fun hsame => ?_, fun hdrift => ?_⟩⟩
    · rw [State.checkDrift_first hbase] at hcompleted
      exact h.effect (f := fun u => u.tapsReported p a b c d) hcompleted
    · rw [State.checkDrift_later hbase, hsame] at hcompleted
      exact h.effect (f := fun u => u.tapsReported p a b c d) hcompleted
    · rw [State.checkDrift_later hbase, hdrift] at hcompleted
      exact h.effect (f := fun u => u.tapsReported p a b c d) hcompleted

end Sys2Proof.Machine
end

