-- ==== Sys2Proof/Proofs/Grants.lean ====
section
/-! PROOF. Grants (R80, R81, R97, R109), the entry to HELD (R52), and the hold timers of the bundle groups (R84,
R85). -/

namespace Sys2Proof.Machine

/-! ### Kinds of entries -/

theorem QueueEntry.waiting_iff (x : QueueEntry) : x.waiting = true ↔ x.state = .waiting := beq_iff_eq

theorem QueueEntry.isSurvey_iff (x : QueueEntry) : x.isSurvey = true ↔ x.kind = .survey := by
  unfold QueueEntry.isSurvey
  cases x.kind <;> simp

theorem QueueEntry.isSingleTest_iff (x : QueueEntry) :
    x.isSingleTest = true ↔ ∃ o, x.kind = .test o ∧ o.sweep = none := by
  unfold QueueEntry.isSingleTest QueueEntry.isSurvey QueueEntry.sweep QueueEntry.options
  cases x.kind <;> simp

theorem State.oldestWaiting_first (s : State) (e : EngineId) :
    FirstWith s.queue (fun x => x.state = .waiting ∧ engineOf x.port = e) (s.oldestWaiting e) :=
  FirstWith.of_find? _ _ fun x => by simp [QueueEntry.waiting_iff]

/-! ### The entry to HELD (R52) -/

/-- A training context entered in HELD: its energy present is cleared. -/
def Training.held (t : Training) : Training := { t.enter .held with energy := false }

section Held

variable {s : State} {p : Port}

theorem State.enterHeld_up (h : s.link p = .up) :
    s.enterHeld p = (s.departUp p .portBusy).updTraining p Training.held := by
  have hlink : (s.departUp p .portBusy).link p ≠ .train := by
    rw [State.link, State.training_departUp]
    show s.link p ≠ .train
    simp [h]
  rw [State.enterHeld, State.abandonAttempt_none (by simp [h]) (by simp [h]), State.departIfUp, if_pos h,
    State.setLink_updTraining _ _ _ _ (by decide) (by decide), State.leavingTrain_other _ hlink]
  rfl

/-- An attempt running is recorded ABANDONED before the port goes to HELD. -/
theorem State.enterHeld_running (h : s.link p = .train ∨ s.link p = .verify) :
    s.enterHeld p = s.leavingTrain p
      (s.updTraining p fun t => (t.noted (t.attemptRecord .abandoned t.margin)).held) := by
  have hlink : (s.updTraining p fun t => t.noted (t.attemptRecord .abandoned t.margin)).link p = s.link p := by
    rw [State.link_updTraining_same]
    rfl
  rw [State.enterHeld, State.abandonAttempt_running h,
    State.departIfUp_down (by rw [hlink]; rcases h with h | h <;> simp [h]),
    State.setLink_updTraining _ _ _ _ (by decide) (by decide), State.leavingTrain_congr _ _ _ _ hlink,
    State.updTraining_twice]
  rfl

theorem State.enterHeld_other (hu : s.link p ≠ .up) (hv : s.link p ≠ .verify) (ht : s.link p ≠ .train) :
    s.enterHeld p = s.updTraining p Training.held := by
  rw [State.enterHeld, State.abandonAttempt_none ht hv, State.departIfUp_down hu,
    State.setLink_updTraining _ _ _ _ (by decide) (by decide), State.leavingTrain_other _ ht]
  rfl

end Held

/-! ### The passed-over counter (R81) -/

section PassedOver

variable {s : State} {e : EngineId} {x : QueueEntry} {n : Nat}

theorem State.movePassedOver_granted (h : x.serial = n) :
    s.movePassedOver e (some x) n = s.updEngine e fun y => { y with passedOver := 0 } := if_pos h

theorem State.movePassedOver_below (h : x.serial ≠ n)
    (hlimit : (s.engine e).passedOver + 1 < s.supervision.station.starvationLimit) :
    s.movePassedOver e (some x) n
      = s.updEngine e fun y => { y with passedOver := (s.engine e).passedOver + 1 } :=
  ((if_neg h).trans (if_pos hlimit)).trans (State.updEngine_congr rfl)

theorem State.movePassedOver_limit (h : x.serial ≠ n)
    (hlimit : s.supervision.station.starvationLimit ≤ (s.engine e).passedOver + 1) :
    s.movePassedOver e (some x) n = (s.updEngine e fun y => { y with passedOver := 0 }).updEntry x.serial
      fun y => { y with urgent := true } :=
  (if_neg h).trans (if_neg (Nat.not_lt.mpr hlimit))

end PassedOver

/-- Settles O38. -/
theorem grantsMade : Obligations.GrantsMade := by
  refine ⟨State.oldestWaiting_first, fun x => ⟨x.waiting_iff, x.isSurvey_iff, x.isSingleTest_iff⟩,
    fun s e x => ⟨fun o hk => ?_, fun hk => ?_⟩, fun s p => ⟨State.enterHeld_up, fun hl => ?_, fun hl => ?_,
      State.enterHeld_other⟩, fun s e x n => ⟨rfl, State.movePassedOver_granted, State.movePassedOver_below,
      State.movePassedOver_limit⟩⟩
  · simp only [State.grant, hk]
    rfl
  · simp only [State.grant, hk]
    rfl
  · rw [State.enterHeld_running (.inr hl), State.leavingTrain_other _ (by simp [hl])]
    rfl
  · rw [State.enterHeld_running (.inl hl), State.leavingTrain_train _ hl]
    rfl

/-! ### Hold timers (R84, R85) -/

section Hold

variable {b s t : State} {g : Group}

theorem State.holdTimer_starts (h : s.groupBlocked g = true) (hb : b.groupBlocked g = false)
    (hr : (s.group g).reserved = false) : State.holdTimer b s g
      = s.updGroup g fun y => { y with holdTimer := some s.supervision.station.holdLimit } := by
  simp [State.holdTimer, h, hb, hr]

theorem State.holdTimer_stops (h : s.groupBlocked g = false) (hb : b.groupBlocked g = true) :
    State.holdTimer b s g = s.updGroup g fun y => { y with holdTimer := none } := by
  simp [State.holdTimer, h, hb]

theorem State.holdTimer_reserved (h : s.groupBlocked g = true) (hr : (s.group g).reserved = true) :
    State.holdTimer b s g = s := by
  simp [State.holdTimer, h, hr]

/-- The hold timer of one group after an event. -/
def State.timerAfter (s b : State) (g : Group) : Timer :=
  if s.groupBlocked g && !b.groupBlocked g && !(s.group g).reserved then some s.supervision.station.holdLimit
  else if b.groupBlocked g && !s.groupBlocked g then none
  else (s.group g).holdTimer

theorem State.holdTimer_timer (b s : State) (g : Group) :
    ((State.holdTimer b s g).group g).holdTimer = s.timerAfter b g := by
  unfold State.holdTimer State.timerAfter
  split
  · rw [State.group_updGroup, if_pos rfl]
  · split
    · rw [State.group_updGroup, if_pos rfl]
    · rfl

theorem State.holdTimer_group_other {k : Group} (h : k ≠ g) : (State.holdTimer b s g).group k = s.group k := by
  unfold State.holdTimer
  split
  · rw [State.group_updGroup, if_neg h]
  · split
    · rw [State.group_updGroup, if_neg h]
    · rfl

theorem State.TimersApart.sameBlocking (h : s.TimersApart t) : s.SameBlocking t where
  queue := h.queue
  quads := by rw [h.rest]
  slots := h.slot
  groupOf := h.groupOf
  train p := by rw [h.link]

theorem State.TimersApart.timerAfter (h : s.TimersApart t) (hg : (t.group g).holdTimer = (s.group g).holdTimer) :
    t.timerAfter b g = s.timerAfter b g := by
  have hstation : t.supervision = s.supervision := by rw [h.rest]
  simp only [State.timerAfter, h.sameBlocking.groupBlocked, h.reserved, hg, hstation]

/-- Each group's hold timer follows its own blocking, whatever stands in the list before and after it. -/
theorem State.holdTimers_foldl (b s : State) (g : Group) (gs : List Group) (hn : gs.Nodup) :
    ((gs.foldl (State.holdTimer b) s).group g).holdTimer
      = if g ∈ gs then s.timerAfter b g else (s.group g).holdTimer := by
  induction gs generalizing s with
  | nil => rfl
  | cons k rest ih =>
    obtain ⟨hk, hrest⟩ := List.nodup_cons.mp hn
    rw [List.foldl_cons, ih _ hrest]
    by_cases hg : g = k
    · subst hg
      rw [if_neg hk, if_pos List.mem_cons_self, State.holdTimer_timer]
    · rw [State.TimersApart.timerAfter (.holdTimer b s k) (by rw [State.holdTimer_group_other hg]),
        State.holdTimer_group_other hg]
      simp [hg]

theorem State.holdTimers_timer (b s : State) (g : Group) :
    ((State.holdTimers b s).group g).holdTimer = s.timerAfter b g :=
  (State.holdTimers_foldl b s g allGroups (List.nodup_finRange _)).trans (if_pos (List.mem_finRange g))

theorem State.otherInTrain_iff (s : State) (g : Group) (p : Port) :
    s.otherInTrain g p = true ↔ ∃ q, q ≠ p ∧ s.groupOf q = g ∧ s.link q = .train := by
  simp [State.otherInTrain, mem_allPorts, and_assoc]

theorem State.portInFlight_iff (s : State) (p : Port) :
    s.portInFlight p = false ↔ ∀ y ∈ s.queue, y.state ≠ .waiting → y.port ≠ p := by
  simp [State.portInFlight, QueueEntry.waiting]

theorem State.groupBlocked_iff (s : State) (g : Group) :
    s.groupBlocked g = true ↔ ∃ x ∈ s.queue, s.groupOf x.port = g ∧ x.state = .waiting ∧ x.isSurvey = false
      ∧ s.quadUp x.port = true ∧ (∀ y ∈ s.queue, y.state ≠ .waiting → y.port ≠ x.port)
      ∧ (s.group g).slot = none ∧ ∃ q, q ≠ x.port ∧ s.groupOf q = g ∧ s.link q = .train := by
  simp only [State.groupBlocked, List.any_eq_true, Bool.and_eq_true, beq_iff_eq, State.blockedByTraining,
    Bool.not_eq_true', Option.isNone_iff_eq_none, State.otherInTrain_iff, QueueEntry.waiting_iff,
    State.portInFlight_iff, and_assoc]
  refine exists_congr fun x => and_congr_right fun _ => and_congr_right fun hg => ?_
  rw [hg]

end Hold

/-- Settles O39. -/
theorem holdTimers : Obligations.HoldTimers := by
  refine ⟨fun s g h => ⟨fun hstopped => ?_, fun hruns => ?_⟩, fun before u g => ?_, fun before s g =>
    ⟨State.holdTimer_starts, State.holdTimer_stops, State.holdTimer_calm⟩, State.groupBlocked_iff⟩
  · exact takeEvent_idle (f := fun t => t.holdExpired g) (by simp [State.holdExpired, hstopped]) h.2
  · refine h.exact (f := fun t => t.holdExpired g) (if_pos hruns)
      ⟨rfl, rfl, fun k => ?_, fun _ => rfl, fun _ => rfl⟩ rfl
    rw [State.group_updGroup]
    split
    · next e => rw [e]
    · rfl
  · intro t
    have hkept : u.SameTables (State.settle settleFuel u) := .settle _ u
    have happart : (State.settle settleFuel u).TimersApart t := .holdTimers before _
    have hblocked := happart.sameBlocking.groupBlocked g
    have hlimit : (State.settle settleFuel u).supervision.station = u.supervision.station :=
      show ({ (State.settle settleFuel u).supervision with slots := u.supervision.slots } : Supervision).station = _ by
        rw [hkept.supervision]
    have htimer : (t.group g).holdTimer = (State.settle settleFuel u).timerAfter before g :=
      State.holdTimers_timer before _ g
    rw [htimer, State.timerAfter, hlimit, hkept.holdTimer, ← hblocked, ← happart.reserved]
    refine ⟨fun hnow hbefore hres => by simp [hnow, hbefore, hres], fun hnow hbefore => by simp [hnow, hbefore],
      ?_⟩
    rintro (hsame | ⟨hnow, hres⟩)
    · rw [hsame]
      cases before.groupBlocked g <;> simp
    · simp [hnow, hres]

end Sys2Proof.Machine
end

