-- ==== Sys2Proof/Proofs/Surveys.lean ====
section
/-! PROOF. The survey and grace timers and the offers of surveys (R76, R93, R143, R145 to R147). -/

namespace Sys2Proof.Machine

theorem State.updSurvey_twice (s : State) (p : Port) (f g : SurveyRecord → SurveyRecord) :
    (s.updSurvey p f).updSurvey p g = s.updSurvey p fun r => g (f r) := State.updPort_twice ..

theorem State.updSurvey_congr {s : State} {p : Port} {f g : SurveyRecord → SurveyRecord}
    (h : f (s.survey p) = g (s.survey p)) : s.updSurvey p f = s.updSurvey p g :=
  State.updPort_congr (congrArg (fun r => { s.port p with survey := r }) h)

theorem State.survey_updSurvey (s : State) (p : Port) (f : SurveyRecord → SurveyRecord) :
    (s.updSurvey p f).survey p = f (s.survey p) := by
  rw [State.survey, State.updSurvey, State.port_updPort_self]
  rfl

theorem State.enqueue_updSurvey (s : State) (p : Port) (f : SurveyRecord → SurveyRecord) (x : QueueEntry) :
    (s.enqueue x).updSurvey p f = (s.updSurvey p f).enqueue x := rfl

theorem State.SameBlocking.updSurvey (s : State) (p : Port) (f : SurveyRecord → SurveyRecord) :
    s.SameBlocking (s.updSurvey p f) := .updPort s p _ rfl rfl

/-! ### Offers (R76, R145, R147) -/

section Offers

variable {s : State} {p : Port}

theorem State.offerSurvey_present {x : QueueEntry} (h : s.surveyEntry p = some x) : s.offerSurvey p = s := by
  simp [State.offerSurvey, h]

theorem State.offerSurvey_room (h : s.surveyEntry p = none) (hroom : s.queue.length < 32) :
    s.offerSurvey p = (s.enqueue { internalSurvey p with urgent := (s.survey p).state == .overdue }).updSurvey p
      fun r => { r with pending := false } := by
  simp [State.offerSurvey, h, s.roomInternal_iff.mpr hroom]

theorem State.offerSurvey_full (h : s.surveyEntry p = none) (hfull : 32 ≤ s.queue.length) :
    s.offerSurvey p = s.updSurvey p fun r => { r with pending := true } := by
  have hroom : ¬ s.roomInternal = true := mt s.roomInternal_iff.mp (Nat.not_lt.mpr hfull)
  simp [State.offerSurvey, h, hroom]

end Offers

/-! ### The survey timer (R145) -/

section SurveyTimer

variable {s : State} {p : Port}

theorem State.surveyExpired_stopped (h : (s.survey p).surveyTimer = none) : s.surveyExpired p = s := by
  simp [State.surveyExpired, h]

theorem State.surveyExpired_counting (h : (s.survey p).state = .counting)
    (ht : (s.survey p).surveyTimer.isSome = true) :
    s.surveyExpired p = (s.updSurvey p (surveyDue (s.profile p))).offerSurvey p := if_pos ⟨h, ht⟩

/-- The survey record of a port whose survey is called for. -/
def SurveyRecord.called (prof : Profile) (pending : Bool) : SurveyRecord :=
  ⟨.due, none, some (max (prof.surveyInterval / 4) 5), pending⟩

theorem surveyDue_pending (prof : Profile) (r : SurveyRecord) (b : Bool) :
    { surveyDue prof r with pending := b } = SurveyRecord.called prof b := rfl

theorem State.surveyDue_offered (h : s.surveyEntry p = none) (hroom : s.queue.length < 32) :
    (s.updSurvey p (surveyDue (s.profile p))).offerSurvey p
      = (s.updSurvey p fun _ => .called (s.profile p) false).enqueue
        ⟨.survey, 0, none, p, false, 0, false, 0, .waiting, false⟩ := by
  rw [State.offerSurvey_room (s := s.updSurvey p (surveyDue (s.profile p))) h hroom, State.survey_updSurvey,
    State.enqueue_updSurvey, State.updSurvey_twice]
  rfl

theorem State.surveyDue_refused (h : s.surveyEntry p = none) (hfull : 32 ≤ s.queue.length) :
    (s.updSurvey p (surveyDue (s.profile p))).offerSurvey p
      = s.updSurvey p fun _ => .called (s.profile p) true := by
  rw [State.offerSurvey_full (s := s.updSurvey p (surveyDue (s.profile p))) h hfull, State.updSurvey_twice]
  rfl

end SurveyTimer

/-! ### The grace timer (R146) -/

section GraceTimer

variable {s : State} {p : Port} {x : QueueEntry}

theorem State.graceExpired_stopped (h : (s.survey p).graceTimer = none) : s.graceExpired p = s := by
  simp [State.graceExpired, h]

theorem State.graceExpired_due (h : (s.survey p).state = .due) (ht : (s.survey p).graceTimer.isSome = true) :
    s.graceExpired p = (s.updSurvey p fun r => { r with graceTimer := none }).surveyLate p := if_pos ⟨h, ht⟩

theorem State.surveyLate_waiting (h : s.surveyEntry p = some x) (hx : x.state = .waiting) :
    s.surveyLate p = ((s.updSurvey p fun r => { r with state := .overdue }).updEntry x.serial
      fun y => { y with urgent := true }).oweSelection := by
  simp only [State.surveyLate, h, x.waiting_iff.mpr hx]
  rfl

theorem State.surveyLate_inFlight (h : s.surveyEntry p = some x) (hx : x.state ≠ .waiting) :
    s.surveyLate p = s := by
  simp [State.surveyLate, h, mt x.waiting_iff.mp hx]

theorem State.surveyLate_pending (h : s.surveyEntry p = none) (hp : (s.survey p).pending = true) :
    s.surveyLate p = s.updSurvey p fun r => { r with state := .overdue } := by
  simp only [State.surveyLate, h, hp]
  rfl

end GraceTimer

theorem allPorts_pairwise : allPorts.Pairwise (· < ·) := List.pairwise_lt_finRange 48

/-- Settles O40. -/
theorem surveyTimersExpire : Obligations.SurveyTimersExpire := by
  refine ⟨fun s p h => ⟨fun hstopped => ?_, fun hstopped => ?_, fun hcount ht hnone => ⟨fun hroom => ?_,
      fun hfull => ?_⟩, fun hdue ht => ⟨fun x hx hwait => ?_, fun x e hx hflight => ?_, fun hnone hpend => ?_⟩⟩,
    fun s p => ⟨fun x => State.offerSurvey_present, fun hnone => ⟨State.offerSurvey_room hnone,
      State.offerSurvey_full hnone⟩⟩, fun s n => rfl, allPorts_pairwise, mem_allPorts⟩
  · exact takeEvent_idle (f := fun t => t.surveyExpired p) (State.surveyExpired_stopped hstopped) h.2
  · exact takeEvent_idle (f := fun t => t.graceExpired p) (State.graceExpired_stopped hstopped) h.2
  · exact h.effect (f := fun t => t.surveyExpired p)
      ((State.surveyExpired_counting hcount ht).trans (State.surveyDue_offered hnone hroom))
  · exact h.exact (f := fun t => t.surveyExpired p)
      ((State.surveyExpired_counting hcount ht).trans (State.surveyDue_refused hnone hfull)) (.updSurvey s p _) rfl
  · refine h.effect (f := fun t => t.graceExpired p) ((State.graceExpired_due hdue ht).trans ?_)
    rw [State.surveyLate_waiting (s := s.updSurvey p _) hx hwait, State.updSurvey_twice]
  · refine h.exact (f := fun t => t.graceExpired p) ((State.graceExpired_due hdue ht).trans ?_)
      (.updSurvey s p _) rfl
    rw [State.surveyLate_inFlight (s := s.updSurvey p _) hx (by simp [hflight])]
    exact State.updSurvey_congr (by rw [hdue])
  · refine h.exact (f := fun t => t.graceExpired p) ((State.graceExpired_due hdue ht).trans ?_)
      (.updSurvey s p _) rfl
    rw [State.surveyLate_pending (s := s.updSurvey p _) hnone (by rw [State.survey_updSurvey]; exact hpend),
      State.updSurvey_twice]

end Sys2Proof.Machine
end

