-- ==== Sys2Proof/Proofs/Notices.lean ====
section
/-! PROOF. The end of the notice holdoff (R171, R172). -/

namespace Sys2Proof.Machine

/-! ### A notice built (R172) -/

/-- Emptying the sets of ports one after another changes those ports' sets alone. -/
theorem State.eventsCleared (ps : List Port) (s : State) :
    ∃ ports, ps.foldl (fun (t : State) p => t.updPort p fun x => { x with events := .empty }) s
        = { s with ports := ports }
      ∧ ∀ q : Port, ports[q] = if q ∈ ps then { s.port q with events := .empty } else s.port q := by
  induction ps generalizing s with
  | nil => exact ⟨s.ports, rfl, fun q => rfl⟩
  | cons p rest ih =>
    obtain ⟨ports, hports, hat⟩ := ih (s.updPort p fun x => { x with events := .empty })
    refine ⟨ports, hports, fun q => (hat q).trans ?_⟩
    rw [State.port_updPort]
    by_cases hq : q = p
    · simp [hq]
    · simp [hq]

/-- What a port holds after a notice was handed over. -/
def PortState.noticed (x : PortState) (reported here : Bool) (frame : List Byte) : PortState :=
  { x with
    events := if reported then .empty else x.events
    traffic := if here then x.traffic.place ⟨frame, false, .notice⟩ else x.traffic }

/-- The notice unit after a notice was handed over. -/
def State.noticeSent (s : State) : NoticeUnit :=
  ⟨.sending, none, (s.portsReported.getLast?.map (· + 1)).getD s.notice.scanStart, .empty⟩

theorem State.device_unreported {s : State} (h : s.deviceReported = false) : s.notice.device = .empty := by
  simpa [State.deviceReported, DeviceEvents.isEmpty] using h

theorem State.sendNotice_eq (s : State) (d : Address) :
    ∃ ports, s.sendNotice d = { s with ports := ports, notice := s.noticeSent }
      ∧ ∀ q : Port, ports[q] = (s.port q).noticed (decide (q ∈ s.portsReported))
        (q == s.supervision.station.noticeSlot) (s.noticeFrame d) := by
  obtain ⟨cleared, hcleared, hat⟩ := State.eventsCleared s.portsReported s
  have hdevice : (if s.deviceReported then DeviceEvents.empty else s.notice.device) = .empty := by
    split
    · rfl
    · next h => exact State.device_unreported (by simpa using h)
  have hbuilt : s.reportedCleared.noticeRests .sending = { s with ports := cleared, notice := s.noticeSent } := by
    rw [State.reportedCleared, hcleared]
    simp only [State.noticeRests, hdevice]
    rfl
  refine ⟨_, by rw [State.sendNotice, hbuilt]; rfl, fun q => ?_⟩
  show (({ s with ports := cleared, notice := s.noticeSent } : State).updPort s.supervision.station.noticeSlot
    fun x => { x with traffic := x.traffic.place ⟨s.noticeFrame d, false, .notice⟩ }).port q = _
  rw [State.port_updPort]
  have hq : ({ s with ports := cleared, notice := s.noticeSent } : State).port q = _ := hat q
  by_cases hslot : q = s.supervision.station.noticeSlot
  · subst hslot
    rw [if_pos rfl, hq]
    by_cases hin : s.supervision.station.noticeSlot ∈ s.portsReported <;> simp [PortState.noticed, hin]
  · rw [if_neg hslot, hq]
    by_cases hin : q ∈ s.portsReported <;> simp [PortState.noticed, hin, hslot]

/-! ### The holdoff -/

section Holdoff

variable {s : State}

theorem State.holdoffExpired_stopped (h : s.notice.holdoffTimer = none) : s.holdoffExpired = s := by
  simp [State.holdoffExpired, h]

theorem State.holdoffExpired_alone (h : s.notice.state = .holding) (ht : s.notice.holdoffTimer.isSome = true)
    (hd : s.supervision.station.noticeDestination = none ∨ s.noticeEntries = []) :
    s.holdoffExpired = s.noticeRests .idle := by
  rw [State.holdoffExpired, if_pos ⟨h, ht⟩]
  rcases hd with hd | hd
  · simp [hd]
  · cases s.supervision.station.noticeDestination <;> simp [hd]

theorem State.holdoffExpired_sends {d : Address} (h : s.notice.state = .holding)
    (ht : s.notice.holdoffTimer.isSome = true) (hd : s.supervision.station.noticeDestination = some d)
    (he : s.noticeEntries ≠ []) : s.holdoffExpired = s.sendNotice d := by
  rw [State.holdoffExpired, if_pos ⟨h, ht⟩]
  simp [hd, he]

end Holdoff

/-- Settles O41. -/
theorem holdoffExpires : Obligations.HoldoffExpires := by
  intro s h first nonempty ports records idle
  refine ⟨fun hstopped => ?_, fun hhold ht => ⟨fun hd => ?_, fun d hd => ⟨fun he => ?_, fun he => ?_⟩⟩⟩
  · exact takeEvent_idle (f := State.holdoffExpired) (State.holdoffExpired_stopped hstopped) h.2
  · exact h.exact (f := State.holdoffExpired) (State.holdoffExpired_alone hhold ht (.inl hd))
      ⟨rfl, rfl, fun _ => rfl, fun _ => rfl, fun _ => rfl⟩ rfl
  · exact h.exact (f := State.holdoffExpired) (State.holdoffExpired_alone hhold ht (.inr he))
      ⟨rfl, rfl, fun _ => rfl, fun _ => rfl, fun _ => rfl⟩ rfl
  · obtain ⟨after, hsent, hat⟩ := s.sendNotice_eq d
    have hpart (q : Port) : (({ s with ports := after, notice := s.noticeSent } : State).port q) = _ := hat q
    refine ⟨_, h.exact (f := State.holdoffExpired) ((State.holdoffExpired_sends hhold ht hd he).trans hsent)
      ⟨rfl, rfl, fun _ => rfl, fun p => ?_, fun p => ?_⟩ rfl, rfl, fun p => ?_, fun p => ?_, fun p => ?_,
      rfl, rfl, rfl, rfl, rfl, rfl⟩
    · rw [State.groupOf, State.profile, hpart]
      rfl
    · rw [State.link, State.training, hpart]
      rfl
    · rw [hpart]
      simp only [PortState.noticed, decide_eq_true_eq]
      rfl
    · rw [State.traffic, hpart]
      simp only [PortState.noticed, beq_iff_eq]
      rfl
    · rw [State.training, State.survey, State.mode, State.profile, hpart]
      exact ⟨rfl, rfl, rfl, rfl, rfl⟩

end Sys2Proof.Machine
end

