-- ==== Sys2Proof/Proofs/Bytes.lean ====
section
/-! PROOF. Numbers in bytes (R180): what a list of bytes holds, and what the bytes of a number are. -/

namespace Sys2Proof.Machine

@[simp] theorem bytesNat_nil : bytesNat [] = 0 := rfl

theorem bytesNat_append_singleton (b : List Byte) (x : Byte) : bytesNat (b ++ [x]) = 256 * bytesNat b + x.toNat := by
  rw [bytesNat, List.foldl_append, Nat.mul_comm]
  rfl

theorem foldl_bytes (b : List Byte) (acc : Nat) :
    b.foldl (fun acc x => acc * 256 + x.toNat) acc = 256 ^ b.length * acc + bytesNat b := by
  induction b generalizing acc with
  | nil => simp
  | cons x rest ih =>
    rw [bytesNat, List.foldl_cons, List.foldl_cons, ih, ih (0 * 256 + x.toNat), List.length_cons, Nat.pow_succ,
      Nat.mul_add, Nat.zero_mul, Nat.zero_add, Nat.mul_comm acc, ← Nat.mul_assoc, Nat.add_assoc]

theorem bytesNat_append (b c : List Byte) : bytesNat (b ++ c) = 256 ^ c.length * bytesNat b + bytesNat c := by
  rw [bytesNat, List.foldl_append]
  exact foldl_bytes c _

theorem bytesNat_singleton (x : Byte) : bytesNat [x] = x.toNat := by
  simpa using bytesNat_append_singleton [] x

theorem bytesNat_cons (x : Byte) (b : List Byte) : bytesNat (x :: b) = 256 ^ b.length * x.toNat + bytesNat b := by
  rw [← List.singleton_append, bytesNat_append, bytesNat_singleton]

theorem bytesNat_lt (b : List Byte) : bytesNat b < 256 ^ b.length := by
  induction b with
  | nil => simp
  | cons x rest ih =>
    have hdigits : 256 ^ rest.length * (x.toNat + 1) ≤ 256 ^ rest.length * 256 := Nat.mul_le_mul_left _ x.isLt
    rw [Nat.mul_succ] at hdigits
    rw [bytesNat_cons, List.length_cons, Nat.pow_succ]
    omega

theorem natAt_lt (b : List Byte) (offset width : Nat) : natAt b offset width < 256 ^ width :=
  Nat.lt_of_lt_of_le (bytesNat_lt _) (Nat.pow_le_pow_right (by decide) (List.length_take_le _ _))

theorem byteAt_lt (b : List Byte) (k : Nat) : byteAt b k < 256 := (b.getD k 0).isLt

@[simp] theorem natBytes_length (k n : Nat) : (natBytes k n).length = k := by
  induction k with
  | zero => rfl
  | succ k ih => simp [natBytes, ih]

theorem natBytes_byteAt {i k : Nat} (n : Nat) (h : i < k) :
    byteAt (natBytes k n) i = n / 256 ^ (k - 1 - i) % 256 := by
  induction k generalizing i with
  | zero => omega
  | succ k ih =>
    cases i with
    | zero => simp [natBytes, byteAt]
    | succ i =>
      have hi := ih (i := i) (by omega)
      rw [show k + 1 - 1 - (i + 1) = k - 1 - i by omega, ← hi]
      simp [natBytes, byteAt]

theorem bytesNat_natBytes (k n : Nat) : bytesNat (natBytes k n) = n % 256 ^ k := by
  induction k with
  | zero => simp [natBytes, Nat.mod_one]
  | succ k ih =>
    have hdigit : (BitVec.ofNat 8 (n / 256 ^ k)).toNat = n / 256 ^ k % 256 := BitVec.toNat_ofNat ..
    rw [natBytes, bytesNat_cons, ih, natBytes_length, hdigit, Nat.pow_succ, Nat.mod_mul, Nat.add_comm]

end Sys2Proof.Machine
end

