-- ==== Sys2Proof/Proofs/Frames.lean ====
section
/-! PROOF. Frames from and toward the switch core (R20 to R26), what an accepted frame fills (R154, R158 to R162),
and the ends of inserted frames (R163, R168, R171). -/

namespace Sys2Proof.Machine

/-! ### Frames from the switch core (R20, R21, R24) -/

theorem isSupervision_iff (station : Station) (body : List Byte) : isSupervision station body = true
    ↔ 14 ≤ body.length ∧ natAt body 0 6 = station.address.toNat ∧ natAt body 12 2 = station.ethertype.toNat := by
  simp [isSupervision, and_assoc]

theorem State.acceptFrame_eq (s : State) (i : SlotId) (r : ReplySlot) (entries : List RawEntry) :
    s.acceptFrame i r entries = s.updSupervision fun v =>
      { v with slots := v.slots.set i (some r), requests := v.requests ++ queuedRequests i 0 entries } := rfl

/-- The arrival of a diverted frame reaches the supervision unit alone. -/
theorem State.superviseArrival_updates (s : State) (p : Port) (good : Bool) (body : List Byte) :
    ∃ f, s.superviseArrival p good body = s.updSupervision f := by
  unfold State.superviseArrival
  simp only []
  split
  · exact ⟨id, rfl⟩
  · split
    · exact ⟨_, rfl⟩
    · split
      · exact ⟨_, rfl⟩
      · split
        · exact ⟨_, rfl⟩
        · exact ⟨_, State.acceptFrame_eq ..⟩

section FromSwitch

variable {s : State} {p : Port} {frame : List Byte}

theorem State.fromSwitch_diverted (h : isSupervision s.supervision.station (frameBody frame) = true) :
    s.fromSwitch p frame
      = (s.updTraffic p fun t => { t with diverted := saturating 0xFFFFFFFF t.diverted }).superviseArrival
        p (checkGood frame) (frameBody frame) := if_pos h

theorem State.fromSwitch_up (h : ¬ isSupervision s.supervision.station (frameBody frame) = true)
    (hl : s.link p = .up) : s.fromSwitch p frame
      = (s.updTraffic p fun t => { t with toLine := saturating 0xFFFFFFFF t.toLine }).emit (.toLine p frame) :=
  (if_neg h).trans (if_pos hl)

theorem State.fromSwitch_down (h : ¬ isSupervision s.supervision.station (frameBody frame) = true)
    (hl : s.link p ≠ .up) : s.fromSwitch p frame
      = s.updTraffic p fun t => { t with droppedNotUp := saturating 0xFFFFFFFF t.droppedNotUp } :=
  (if_neg h).trans (if_neg hl)

end FromSwitch

theorem State.SameBlocking.updTraffic (s : State) (p : Port) (f : Traffic → Traffic) :
    s.SameBlocking (s.updTraffic p f) := .updPort s p _ rfl rfl

/-- Settles O42. -/
theorem switchFrames : Obligations.SwitchFrames := by
  refine ⟨fun ceiling n => rfl, fun s p frame h => ?_⟩
  intro body station supervision
  have hdiverted : isSupervision s.supervision.station (frameBody frame) = true ↔ supervision :=
    isSupervision_iff _ _
  refine ⟨fun hs => ?_, fun hs => ⟨fun hl => ?_, fun hl => ?_⟩⟩
  · have hfrom := State.fromSwitch_diverted (s := s) (p := p) (hdiverted.mpr hs)
    obtain ⟨f, hf⟩ := State.superviseArrival_updates
      (s.updTraffic p fun t => { t with diverted := saturating 0xFFFFFFFF t.diverted }) p (checkGood frame) body
    refine h.exact (f := fun t => t.fromSwitch p frame) hfrom ?_ ?_
    · rw [hf]
      exact (State.SameBlocking.updTraffic s p _).trans (.updSupervision _ f)
    · rw [hf]
      rfl
  · exact h.exact (f := fun t => t.fromSwitch p frame) (State.fromSwitch_up (mt hdiverted.mp hs) hl)
      ((State.SameBlocking.updTraffic s p _).trans (.emit _ _)) rfl
  · exact h.exact (f := fun t => t.fromSwitch p frame) (State.fromSwitch_down (mt hdiverted.mp hs) hl)
      (.updTraffic s p _) rfl

/-! ### Which slot a source matches (R154) -/

/-- A search through an ascending list finds the least member that meets the test. -/
theorem find?_eq_least {n : Nat} {f : Fin n → Bool} {i : Fin n} {xs : List (Fin n)} (hs : xs.Pairwise (· < ·))
    (hi : i ∈ xs) (hf : f i = true) (hleast : ∀ j ∈ xs, j < i → f j = false) : xs.find? f = some i := by
  obtain ⟨before, after, rfl⟩ := List.append_of_mem hi
  rw [List.find?_eq_some_iff_append]
  refine ⟨hf, before, after, rfl, fun j hj => ?_⟩
  have hlt : j < i := (List.pairwise_append.mp hs).2.2 j hj i List.mem_cons_self
  simp [hleast j (by simp [hj]) hlt]

theorem requesterSlots_pairwise : requesterSlots.Pairwise (· < ·) :=
  (List.pairwise_lt_finRange 8).drop

theorem mem_requesterSlots (i : RequesterId) : i ∈ requesterSlots ↔ i ≠ 0 := by
  revert i
  decide

theorem find?_requesterSlots_least {f : RequesterId → Bool} {i : RequesterId} (h0 : i ≠ 0) (hf : f i = true)
    (hleast : ∀ j, j < i → j ≠ 0 → f j = false) : requesterSlots.find? f = some i :=
  find?_eq_least requesterSlots_pairwise ((mem_requesterSlots i).mpr h0) hf fun j hj hlt =>
    hleast j hlt ((mem_requesterSlots j).mp hj)

theorem find?_requesterSlots_none {f : RequesterId → Bool} (hnone : ∀ j, j ≠ 0 → f j = false) :
    requesterSlots.find? f = none := by
  rw [List.find?_eq_none]
  intro j hj
  simp [hnone j ((mem_requesterSlots j).mp hj)]

section Matching

variable {table : Vector Requester 8} {a : Address}

theorem requesterTest_iff (r : Requester) (x : Option Address) :
    (r.inUse && r.address == x) = true ↔ r.inUse = true ∧ r.address = x := by simp

theorem requesterTest_false (r : Requester) (x : Option Address) :
    (r.inUse && r.address == x) = false ↔ ¬ (r.inUse = true ∧ r.address = x) := by
  rw [← requesterTest_iff]
  simp

theorem matchRequester_exact {i : RequesterId} (h : i ≠ 0 ∧ table[i].inUse = true ∧ table[i].address = some a)
    (hleast : ∀ j, j < i → ¬ (j ≠ 0 ∧ table[j].inUse = true ∧ table[j].address = some a)) :
    matchRequester table a = some i := by
  obtain ⟨h0, hi⟩ := h
  have hfound := find?_requesterSlots_least (f := fun i => (table[i]).inUse && (table[i]).address == some a) h0
    ((requesterTest_iff _ _).mpr hi) fun j hlt hj => (requesterTest_false _ _).mpr fun h => hleast j hlt ⟨hj, h⟩
  simp only [matchRequester, hfound]

theorem matchRequester_inexact
    (h : ∀ i : RequesterId, ¬ (i ≠ 0 ∧ table[i].inUse = true ∧ table[i].address = some a)) :
    matchRequester table a = requesterSlots.find? fun i => (table[i]).inUse && (table[i]).address == none := by
  have hmissed := find?_requesterSlots_none (f := fun i => (table[i]).inUse && (table[i]).address == some a)
    fun j hj => (requesterTest_false _ _).mpr fun hm => h j ⟨hj, hm⟩
  simp only [matchRequester, hmissed]

end Matching

/-! ### The entries of a frame (R158, R161, R181) -/

theorem parseEntries_nil (b : List Byte) : parseEntries 0 b = some [] ↔ b = [] := by
  simp [parseEntries]

theorem parseEntries_succ (n : Nat) (b : List Byte) (e : RawEntry) (rest : List RawEntry) :
    parseEntries (n + 1) b = some (e :: rest) ↔ 6 + natAt b 4 2 ≤ b.length
      ∧ e = ⟨b.getD 0 0, BitVec.ofNat 16 (natAt b 2 2), (b.drop 6).take (natAt b 4 2)⟩
      ∧ parseEntries n (b.drop (6 + natAt b 4 2)) = some rest := by
  rw [parseEntries]
  split
  · next h => exact ⟨fun h => by simp at h, fun ⟨hle, _⟩ => absurd hle (Nat.not_le.mpr h)⟩
  · next h =>
    rw [Option.map_eq_some_iff]
    constructor
    · rintro ⟨_, hrest, heq⟩
      obtain ⟨rfl, rfl⟩ := List.cons.inj heq
      exact ⟨Nat.not_lt.mp h, rfl, hrest⟩
    · rintro ⟨_, rfl, hrest⟩
      exact ⟨rest, hrest, rfl⟩

theorem parseEntries_cons_iff (n : Nat) (b : List Byte) (e : RawEntry) (rest : List RawEntry) :
    parseEntries (n + 1) b = some (e :: rest) ↔ 6 + natAt b 4 2 ≤ b.length ∧ e.code.toNat = byteAt b 0
      ∧ e.tag.toNat = natAt b 2 2 ∧ e.params = (b.drop 6).take (natAt b 4 2)
      ∧ parseEntries n (b.drop (6 + natAt b 4 2)) = some rest := by
  have hcode : e.code.toNat = byteAt b 0 ↔ e.code = b.getD 0 0 := BitVec.toNat_inj
  have htag : e.tag.toNat = natAt b 2 2 ↔ e.tag = BitVec.ofNat 16 (natAt b 2 2) := by
    rw [← BitVec.toNat_inj, BitVec.toNat_ofNat, Nat.mod_eq_of_lt (show natAt b 2 2 < 2 ^ 16 from natAt_lt b 2 2)]
  rw [parseEntries_succ, hcode, htag]
  constructor
  · rintro ⟨hlength, rfl, hrest⟩
    exact ⟨hlength, rfl, rfl, rfl, hrest⟩
  · rintro ⟨hlength, hc, ht, hp, hrest⟩
    exact ⟨hlength, by rw [← hc, ← ht, ← hp], hrest⟩

/-- What a frame must show before its entries are read. -/
def frameHeadGood (good : Bool) (body : List Byte) : Prop :=
  good = true ∧ 22 ≤ body.length ∧ byteAt body 14 = 1 ∧ byteAt body 15 = 1 ∧ byteAt body 18 ≠ 0
    ∧ byteAt body 18 ≤ 8 ∧ 22 + natAt body 20 2 ≤ body.length

theorem requestEntries_bad {good : Bool} {body : List Byte} (h : ¬ frameHeadGood good body) :
    requestEntries good body = none := by
  refine if_pos ?_
  simp only [Bool.or_eq_true, Bool.not_eq_true', decide_eq_true_eq, frameHead]
  refine Decidable.byContradiction fun hc => ?_
  simp only [not_or, Bool.not_eq_false, Nat.not_lt, Decidable.not_not] at hc
  obtain ⟨⟨⟨⟨⟨⟨hgood, hlong⟩, hversion⟩, hkind⟩, hsome⟩, hcount⟩, hlength⟩ := hc
  exact h ⟨hgood, Nat.not_lt.mp fun h => hlong (decide_eq_true h), hversion, hkind, hsome, hcount,
    Nat.not_lt.mp fun h => hlength (decide_eq_true h)⟩

theorem requestEntries_good {good : Bool} {body : List Byte} (h : frameHeadGood good body) :
    requestEntries good body
      = (parseEntries (byteAt body 18) ((body.drop 22).take (natAt body 20 2))).bind fun entries =>
        if worstSize entries ≤ 1480 then some entries else none := by
  obtain ⟨hgood, hlong, hversion, hkind, hsome, hcount, hlength⟩ := h
  refine if_neg ?_
  simp only [Bool.or_eq_true, Bool.not_eq_true', decide_eq_true_eq, frameHead]
  rintro ((((((hc | hc) | hc) | hc) | hc) | hc) | hc)
  · simp [hgood] at hc
  · exact absurd (of_decide_eq_true hc) (Nat.not_lt.mpr hlong)
  · exact hc hversion
  · exact hc hkind
  · exact hsome hc
  · exact absurd hc (Nat.not_lt.mpr hcount)
  · exact absurd (of_decide_eq_true hc) (Nat.not_lt.mpr hlength)

theorem requestEntries_eq_some_iff (good : Bool) (body : List Byte) (entries : List RawEntry) :
    requestEntries good body = some entries ↔ frameHeadGood good body
      ∧ parseEntries (byteAt body 18) ((body.drop 22).take (natAt body 20 2)) = some entries
      ∧ worstSize entries ≤ 1480 := by
  by_cases h : frameHeadGood good body
  · rw [requestEntries_good h, Option.bind_eq_some_iff]
    simp [h]
  · rw [requestEntries_bad h]
    simp [h]

/-! ### Acceptance (R158 to R160, R162) -/

theorem queuedRequests_eq (slot : SlotId) (i : Nat) (entries : List RawEntry) :
    queuedRequests slot i entries
      = entries.mapIdx fun k e => ⟨⟨slot, i + k⟩, e.code, e.tag, e.params⟩ := by
  induction entries generalizing i with
  | nil => rfl
  | cons e rest ih =>
    rw [queuedRequests, ih, List.mapIdx_cons]
    simp only [Nat.add_zero, Nat.add_assoc, Nat.add_comm 1]

theorem State.freeSlot_none {s : State} (h : ∀ i, s.slot i ≠ none) : s.freeSlot = none := by
  rw [State.freeSlot, List.find?_eq_none]
  intro i _
  simp [h i]

theorem State.freeSlot_least {s : State} {i : SlotId} (h : s.slot i = none) (hleast : ∀ j, j < i → s.slot j ≠ none) :
    s.freeSlot = some i :=
  find?_eq_least (List.pairwise_lt_finRange 16) (List.mem_finRange i) (by simp [h]) fun j _ hj => by
    simpa [← Option.isSome_iff_ne_none] using hleast j hj

section Arrival

variable {s : State} {p : Port} {good : Bool} {body : List Byte}

theorem State.superviseArrival_deaf (h : s.supervision.accepting = false) :
    s.superviseArrival p good body = s := by
  simp [State.superviseArrival, h]

theorem State.superviseArrival_unknown (h : s.supervision.accepting = true)
    (hm : matchRequester s.supervision.requesters (BitVec.ofNat 48 (natAt body 6 6)) = none) :
    s.superviseArrival p good body
      = s.updSupervision fun v => { v with unknownSource := saturating 65535 v.unknownSource } := by
  simp only [State.superviseArrival, h, hm]
  rfl

variable {id : RequesterId}

theorem State.superviseArrival_malformed (h : s.supervision.accepting = true)
    (hm : matchRequester s.supervision.requesters (BitVec.ofNat 48 (natAt body 6 6)) = some id)
    (he : requestEntries good body = none) : s.superviseArrival p good body
      = s.updSupervision fun v => { v with malformed := saturating 65535 v.malformed } := by
  simp only [State.superviseArrival, h, hm, he]
  rfl

variable {entries : List RawEntry}

theorem State.superviseArrival_full (h : s.supervision.accepting = true)
    (hm : matchRequester s.supervision.requesters (BitVec.ofNat 48 (natAt body 6 6)) = some id)
    (he : requestEntries good body = some entries) (hf : s.freeSlot = none) : s.superviseArrival p good body
      = s.updSupervision fun v => { v with noReplySlot := saturating 65535 v.noReplySlot } := by
  simp only [State.superviseArrival, h, hm, he, hf]
  rfl

theorem State.superviseArrival_accepted {i : SlotId} (h : s.supervision.accepting = true)
    (hm : matchRequester s.supervision.requesters (BitVec.ofNat 48 (natAt body 6 6)) = some id)
    (he : requestEntries good body = some entries) (hf : s.freeSlot = some i) :
    s.superviseArrival p good body = s.acceptFrame i
      (filledSlot (BitVec.ofNat 48 (natAt body 6 6)) p (BitVec.ofNat 16 (natAt body 16 2)) id
        (s.supervision.requesters[id]) entries) entries := by
  simp only [State.superviseArrival, h, hm, he, hf]
  rfl

end Arrival

/-- Settles O43. -/
theorem framesJudged : Obligations.FramesJudged := by
  refine ⟨fun table a => ⟨fun i => matchRequester_exact, fun hinexact => ⟨fun i hi hleast => ?_, fun hnone => ?_⟩⟩,
    fun good body entries => ?_, fun n b e rest => ⟨parseEntries_nil b, ?_, parseEntries_cons_iff n b e rest⟩,
    fun s p good body => ⟨State.superviseArrival_deaf, fun ha => ⟨State.superviseArrival_unknown ha,
      fun id hm => ⟨State.superviseArrival_malformed ha hm, fun entries he =>
        ⟨fun hfull => State.superviseArrival_full ha hm he (State.freeSlot_none hfull), fun i hi hleast => ?_⟩⟩⟩⟩⟩
  · rw [matchRequester_inexact hinexact]
    exact find?_requesterSlots_least hi.1 ((requesterTest_iff _ _).mpr hi.2) fun j hlt hj =>
      (requesterTest_false _ _).mpr fun h => hleast j hlt ⟨hj, h⟩
  · rw [matchRequester_inexact hinexact]
    exact find?_requesterSlots_none fun j hj => (requesterTest_false _ _).mpr fun h => hnone j ⟨hj, h⟩
  · rw [requestEntries_eq_some_iff, frameHeadGood]
    simp only [and_assoc]
    rfl
  · rw [parseEntries]
    split <;> simp
  · rw [State.superviseArrival_accepted ha hm he (State.freeSlot_least hi hleast), State.acceptFrame,
      queuedRequests_eq]
    simp only [Nat.zero_add]
    rfl

end Sys2Proof.Machine
end

