-- ==== Sys2Proof/Proofs/Outgoing.lean ====
section
/-! PROOF. Frames toward the switch core (R22, R23, R25, R26): the output lists, and the ends of forwarded and
inserted frames (R163, R168, R171). -/

namespace Sys2Proof.Machine

/-! ### Output lists (R25) -/

section Lists

variable {t : Traffic} {f : OutFrame}

theorem Traffic.place_idle (hs : t.sending = none) (ho : t.output = []) : t.place f = { t with sending := some f } := by
  simp [Traffic.place, hs, ho]

theorem Traffic.place_busy (h : t.sending ≠ none ∨ t.output ≠ []) :
    t.place f = { t with output := t.output ++ [f] } := by
  refine if_neg ?_
  simp only [Bool.and_eq_true, Option.isNone_iff_eq_none, List.isEmpty_iff]
  exact fun ⟨hs, ho⟩ => h.elim (fun hn => hn hs) fun hn => hn ho

theorem Traffic.advance_eq (t : Traffic) :
    t.advance = { t with sending := t.output.head?, output := t.output.tail } := by
  unfold Traffic.advance
  split
  · next h => simp [h]
  · next h => simp [h]

end Lists

/-! ### Frames from the line (R22, R23, R25) -/

/-- A frame from the line, listed unless 64 forwarded frames wait. -/
def State.lineFrameListed (s : State) (p : Port) (frame : List Byte) (bad : Bool) : State :=
  if ((s.traffic p).output.filter fun f => f.source == .forwarded).length < 64 then
    s.updTraffic p fun t =>
      { t.place ⟨frame, bad, .forwarded⟩ with toSwitch := saturating 0xFFFFFFFF t.toSwitch }
  else s

theorem State.updTraffic_congr {s : State} {p : Port} {f g : Traffic → Traffic}
    (h : f (s.traffic p) = g (s.traffic p)) : s.updTraffic p f = s.updTraffic p g :=
  State.updPort_congr (congrArg (fun t => { s.port p with traffic := t }) h)

theorem State.updTraffic_unchanged {s : State} {p : Port} {f : Traffic → Traffic}
    (h : f (s.traffic p) = s.traffic p) : s.updTraffic p f = s :=
  State.updPort_unchanged (congrArg (fun t => { s.port p with traffic := t }) h)

theorem State.updTraffic_forward (s : State) (p : Port) (frame : List Byte) (bad : Bool) :
    (s.updTraffic p fun t => t.forward frame bad) = s.lineFrameListed p frame bad := by
  unfold State.lineFrameListed
  split
  · next h => exact State.updTraffic_congr (if_pos h)
  · next h => exact State.updTraffic_unchanged (if_neg h)

theorem State.SameBlocking.lineFrameListed (s : State) (p : Port) (frame : List Byte) (bad : Bool) :
    s.SameBlocking (s.lineFrameListed p frame bad) := by
  rw [← State.updTraffic_forward]
  exact .updTraffic s p _

theorem State.due_lineFrameListed (s : State) (p : Port) (frame : List Byte) (bad : Bool) :
    (s.lineFrameListed p frame bad).due = s.due := by
  rw [← State.updTraffic_forward]
  rfl

theorem State.link_lineFrameListed (s : State) (p : Port) (frame : List Byte) (bad : Bool) :
    (s.lineFrameListed p frame bad).link p = s.link p := by
  rw [← State.updTraffic_forward, State.link, State.updTraffic, State.training_updPort _ _ _ _ rfl]
  rfl

section FromLine

variable {s : State} {p : Port} {frame : List Byte}

theorem State.fromLine_good (h : checkGood frame = true) :
    s.fromLine p frame = s.lineFrameListed p frame false := by
  simp only [State.fromLine, h, State.updTraffic_forward]
  rfl

theorem State.fromLine_bad (h : checkGood frame = false) :
    s.fromLine p frame = (s.lineFrameListed p frame true).badFrame p := by
  simp only [State.fromLine, h, State.updTraffic_forward]
  rfl

/-- A frame with a failed check, counted. -/
def State.badCounted (s : State) (p : Port) : State :=
  s.updTraffic p fun t => { t with badCheck := saturating 0xFFFFFFFF t.badCheck }

theorem State.badFrame_down (h : s.link p ≠ .up) : s.badFrame p = s.badCounted p := if_neg h

theorem State.badFrame_up (h : s.link p = .up) : s.badFrame p = (s.badCounted p).updTraining p fun t =>
    { t with degradeCount := saturating 65535 t.degradeCount } := if_pos h

end FromLine

/-! ### The ends of frames (R25, R26) -/

section Ends

variable {s : State} {p : Port} {bytes : List Byte} {bad : Bool} {source : FrameSource}

/-- The frame being sent at a port has ended. -/
def State.frameEnded (s : State) (p : Port) (bytes : List Byte) (bad inserted : Bool) : State :=
  (s.updTraffic p fun t => { t with sending := t.output.head?, output := t.output.tail }).emit
    (.toSwitch p bytes bad inserted)

theorem State.sendingEnds_eq (s : State) (p : Port) (f : OutFrame) :
    s.sendingEnds p f = s.frameEnded p f.bytes f.bad (f.source != .forwarded) := by
  have hadvance : Traffic.advance = fun t : Traffic => { t with sending := t.output.head?, output := t.output.tail } :=
    funext Traffic.advance_eq
  rw [State.sendingEnds, hadvance]
  rfl

theorem State.SameBlocking.frameEnded (s : State) (p : Port) (bytes : List Byte) (bad inserted : Bool) :
    s.SameBlocking (s.frameEnded p bytes bad inserted) := (updTraffic s p _).trans (emit _ _)

theorem State.SameBlocking.notice (s : State) (n : NoticeUnit) : s.SameBlocking { s with notice := n } :=
  ⟨rfl, rfl, fun _ => rfl, fun _ => rfl, fun _ => rfl⟩

theorem State.forwardedSent_idle (h : (s.traffic p).sending = none) : s.forwardedSent p = s := by
  simp only [State.forwardedSent, h]

theorem State.forwardedSent_forwarded (h : (s.traffic p).sending = some ⟨bytes, bad, .forwarded⟩) :
    s.forwardedSent p = s.frameEnded p bytes bad false := by
  simp only [State.forwardedSent, h, State.sendingEnds_eq]
  rfl

theorem State.forwardedSent_inserted (h : (s.traffic p).sending = some ⟨bytes, bad, source⟩)
    (hs : source ≠ .forwarded) : s.forwardedSent p = s := by
  simp [State.forwardedSent, h, hs]

theorem State.transmissionCompleted_idle (h : (s.traffic p).sending = none) : s.transmissionCompleted p = s := by
  simp only [State.transmissionCompleted, h]

theorem State.transmissionCompleted_forwarded (h : (s.traffic p).sending = some ⟨bytes, bad, .forwarded⟩) :
    s.transmissionCompleted p = s := by
  simp [State.transmissionCompleted, h]

theorem State.transmissionCompleted_inserted (h : (s.traffic p).sending = some ⟨bytes, bad, source⟩)
    (hs : source ≠ .forwarded) : s.transmissionCompleted p = (s.frameEnded p bytes bad true).inserted source := by
  have hinserted : (source != .forwarded) = true := bne_iff_ne.mpr hs
  simp only [State.transmissionCompleted, h, if_neg hs, State.sendingEnds_eq, hinserted]

/-! The reply to RESET_PART (R168). -/

theorem ReplySlot.resetsPart_iff (r : ReplySlot) :
    r.resetsPart = true ↔ ∃ tag a, r.entries = [⟨18, tag, some ⟨.ok, a⟩⟩] := by
  unfold ReplySlot.resetsPart
  split
  · next e h =>
    obtain ⟨code, tag, answer⟩ := e
    have hcode : code.toNat = 18 ↔ code = 18 := BitVec.toNat_inj (y := 18)
    cases answer with
    | none => simp [h]
    | some a =>
      obtain ⟨result, data⟩ := a
      simp only [h, Option.any_some, Bool.and_eq_true, beq_iff_eq, hcode, List.cons.injEq, ReplyEntry.mk.injEq,
        Option.some.injEq, Answer.mk.injEq, and_true]
      constructor
      · rintro ⟨rfl, rfl⟩
        exact ⟨tag, data, rfl, rfl, rfl, rfl⟩
      · rintro ⟨_, _, rfl, -, rfl, -⟩
        exact ⟨rfl, rfl⟩
  · next h =>
    refine ⟨fun h => by simp at h, fun ⟨tag, a, he⟩ => ?_⟩
    exact (h _ he).elim

theorem State.resetReply_reply {i : SlotId} (h : (s.traffic p).sending = some ⟨bytes, bad, .reply i⟩) :
    s.resetReply p = (s.slot i).any ReplySlot.resetsPart := by
  simp only [State.resetReply, h]

theorem State.resetReply_iff {i : SlotId} (h : (s.traffic p).sending = some ⟨bytes, bad, .reply i⟩) :
    s.resetReply p = true ↔ ∃ r tag a, s.slot i = some r ∧ r.entries = [⟨18, tag, some ⟨.ok, a⟩⟩] := by
  rw [State.resetReply_reply h]
  cases s.slot i with
  | none => simp
  | some r => simp [ReplySlot.resetsPart_iff]

/-- Only a reply in sending can be the reply to a RESET_PART. -/
theorem State.resetReply_other (h : ∀ bytes bad i, (s.traffic p).sending ≠ some ⟨bytes, bad, .reply i⟩) :
    s.resetReply p = false := by
  unfold State.resetReply
  split
  · next heq => exact absurd heq (h _ _ _)
  · rfl

theorem execTransmissionCompletion_resets {r : ResetInputs} (hp : s.pinHeld = false) (h : s.resetReply p = true) :
    execTransmissionCompletion p r s = .next ((s.transmissionCompleted p).supervisorReset r) :=
  if_pos (by simp [hp, h])

theorem execTransmissionCompletion_taken {r : ResetInputs} (h : s.resetReply p = false) :
    execTransmissionCompletion p r s = takeEvent (fun t => t.transmissionCompleted p) s := if_neg (by simp [h])

end Ends

/-- Settles O44. -/
theorem framesTowardSwitch : Obligations.FramesTowardSwitch := by
  refine ⟨fun t f => ⟨Traffic.place_idle, Traffic.place_busy⟩, fun s p frame h => ?_, fun s p inputs h =>
    ⟨fun bytes bad hf => ⟨?_, ?_⟩, fun hnone => ⟨?_, ?_⟩, fun bytes bad source hf hs => ?_⟩⟩
  · intro waiting listed marked
    have hmarked : s.SameBlocking marked :=
      (State.SameBlocking.lineFrameListed s p frame true).trans (.updTraffic _ p _)
    have hdue : marked.due = s.due := s.due_lineFrameListed p frame true
    refine ⟨fun hg => ?_, fun hb => ⟨fun hl => ?_, fun hl => ?_⟩⟩
    · exact h.exact (f := fun t => t.fromLine p frame) (State.fromLine_good hg) (.lineFrameListed s p frame false)
        (s.due_lineFrameListed p frame false)
    · refine h.exact (f := fun t => t.fromLine p frame) ((State.fromLine_bad hb).trans ?_) hmarked hdue
      exact State.badFrame_down (by rw [State.link_lineFrameListed]; exact hl)
    · refine h.exact (f := fun t => t.fromLine p frame) ((State.fromLine_bad hb).trans ?_)
        (hmarked.trans (.updTraining _ p _ rfl)) hdue
      exact State.badFrame_up (by rw [State.link_lineFrameListed]; exact hl)
  · exact h.exact (f := fun t => t.forwardedSent p) (State.forwardedSent_forwarded hf) (.frameEnded s p _ _ _) rfl
  · exact (execTransmissionCompletion_taken (State.resetReply_other (by simp [hf]))).trans
      (takeEvent_idle (State.transmissionCompleted_forwarded hf) h.2)
  · exact takeEvent_idle (f := fun t => t.forwardedSent p) (State.forwardedSent_idle hnone) h.2
  · exact (execTransmissionCompletion_taken (State.resetReply_other (by simp [hnone]))).trans
      (takeEvent_idle (State.transmissionCompleted_idle hnone) h.2)
  · intro sent
    have hcompleted := State.transmissionCompleted_inserted hf hs
    refine ⟨takeEvent_idle (f := fun t => t.forwardedSent p) (State.forwardedSent_inserted hf hs) h.2,
      fun i hi => ⟨fun hreset => ?_, fun hkept => ?_⟩, fun hn => ?_⟩
    · subst hi
      exact ⟨_, (execTransmissionCompletion_resets h.1 ((State.resetReply_iff hf).mpr hreset)).trans
        (by rw [hcompleted]; rfl), rfl⟩
    · subst hi
      have hnot : s.resetReply p = false := by
        rw [← Bool.not_eq_true, State.resetReply_iff hf]
        rintro ⟨r, tag, a, hr, he⟩
        exact hkept r tag a hr he
      exact (execTransmissionCompletion_taken hnot).trans
        (h.exact (f := fun t => t.transmissionCompleted p) hcompleted
          ((State.SameBlocking.frameEnded s p _ _ _).trans (.updSupervision _ _)) rfl)
    · subst hn
      have htaken := execTransmissionCompletion_taken (r := inputs) (State.resetReply_other (s := s) (p := p) (by simp [hf]))
      refine ⟨fun hsending => htaken.trans ?_, fun hother => htaken.trans ?_⟩
      · exact h.exact (f := fun t => t.transmissionCompleted p) (hcompleted.trans (if_pos hsending))
          ((State.SameBlocking.frameEnded s p bytes bad true).trans (.notice _ _)) rfl
      · exact h.exact (f := fun t => t.transmissionCompleted p) (hcompleted.trans (if_neg hother))
          (.frameEnded s p _ _ _) rfl

end Sys2Proof.Machine
end

