-- ==== Sys2Proof/Proofs/Requests.lean ====
section
/-! PROOF. The checks common to all requests (R155, R162, R181), and what a request that passes them does. -/

namespace Sys2Proof.Machine

/-! ### A request in execution -/

section Serve

variable {s t u : State} {code length : Nat} {lowest : Role} {fits : List Byte → Bool}
  {body : Call → State → State} {c : Call}

theorem State.calls.taken (h : s.calls code c t) :
    ∃ rest, t = s.updSupervision fun v => { v with requests := rest } := by
  obtain ⟨r, rest, slot, -, -, -, -, ht⟩ := h
  exact ⟨rest, ht⟩

theorem State.passes.taken (h : s.passes code length lowest c t) :
    ∃ rest, t = s.updSupervision fun v => { v with requests := rest } := h.2.1.taken

theorem State.passes.sameBlocking (h : s.passes code length lowest c t) : s.SameBlocking t := h.2.1.sameBlocking

theorem State.passes.due (h : s.passes code length lowest c t) : t.due = s.due := h.2.1.due

/-- A request that passes the common checks is carried out in the state in which its entry has been taken. -/
theorem State.passes.served (h : s.passes code length lowest c t) :
    s.serve code lowest (exactly length) body = body c t := by
  obtain ⟨-, hcalls, hrole, hlength⟩ := h
  exact State.serve_passed hcalls hrole (by simp [exactly, hlength])

theorem State.passes.effect (h : s.passes code length lowest c t) (hu : body c t = u) :
    takeEvent (fun v => v.serve code lowest (exactly length) body) s = .next (State.closeEvent s u) :=
  h.1.effect (f := fun v => v.serve code lowest (exactly length) body) (h.served.trans hu)

theorem State.passes.exact (h : s.passes code length lowest c t) (hu : body c t = u) (hb : t.SameBlocking u)
    (hd : u.due = t.due) : takeEvent (fun v => v.serve code lowest (exactly length) body) s = .next u :=
  h.1.exact (f := fun v => v.serve code lowest (exactly length) body) (h.served.trans hu)
    (h.sameBlocking.trans hb) (hd.trans h.due)

/-- A request answered at its execution, with nothing else done. -/
theorem State.passes.answered {result : ResultCode} {data : List Byte} (h : s.passes code length lowest c t)
    (hu : body c t = t.answer c.place result data) :
    takeEvent (fun v => v.serve code lowest (exactly length) body) s = .next (t.answer c.place result data) :=
  h.exact hu (.answer _ _ _ _) (State.answer_due _ _ _ _)

end Serve

/-! ### The port in the first parameter byte (R155) -/

theorem finOf_eq_some_iff {n k : Nat} (i : Fin n) : finOf n k = some i ↔ i.val = k := by
  unfold finOf
  split
  · next h => simp [Fin.ext_iff, eq_comm]
  · next h =>
    refine ⟨fun hn => by simp at hn, fun hi => ?_⟩
    exact absurd (hi ▸ i.isLt) h

theorem finOf_eq_none_iff {n k : Nat} : finOf n k = none ↔ n ≤ k := by
  simp [finOf]

section OnPort

variable {s : State} {c : Call} {set : PortSet} {body : Port → State → State} {p : Port}

theorem Call.onPort_named (h : c.names set p) : c.onPort set body s = body p s := by
  obtain ⟨hp, hset⟩ := h
  simp only [Call.onPort, (finOf_eq_some_iff p).mpr hp.symm, hset]
  rfl

theorem Call.onPort_badPort (h : 48 ≤ byteAt c.params 0) : c.onPort set body s = c.give .badPort s := by
  simp only [Call.onPort, finOf_eq_none_iff.mpr h]

theorem Call.onPort_refused (h : byteAt c.params 0 < 48) (hset : set.getLsbD (byteAt c.params 0) = false) :
    c.onPort set body s = c.give .notPermitted s := by
  have hfound : finOf 48 (byteAt c.params 0) = some ⟨byteAt c.params 0, h⟩ := dif_pos h
  simp only [Call.onPort, hfound, hset]
  rfl

end OnPort

/-! ### The rows of the request table (R155, R181) -/

/-- The event of a request executes the request's own body behind the common checks, and the body begins with the
port checks of the row. -/
structure RequestRow.Served (x : RequestRow) (fits : List Byte → Bool) (body : Call → State → State) : Prop where
  event : ∀ s, exec x.event s = takeEvent (fun t => t.serve x.code x.lowest fits body) s
  length : ∀ b, fits b = x.lengthFits b
  badPort : ∀ (r : Request) slot set t, x.checked slot r.params = some set → 48 ≤ byteAt r.params 0 →
    body (r.call slot) t = (r.call slot).give .badPort t
  notPermitted : ∀ (r : Request) slot set t, x.checked slot r.params = some set → byteAt r.params 0 < 48 →
    set.getLsbD (byteAt r.params 0) = false → body (r.call slot) t = (r.call slot).give .notPermitted t

/-- A request whose first parameter byte names no port. -/
theorem RequestRow.Served.unchecked {x : RequestRow} {fits : List Byte → Bool} {body : Call → State → State}
    (event : ∀ s, exec x.event s = takeEvent (fun t => t.serve x.code x.lowest fits body) s)
    (length : ∀ b, fits b = x.lengthFits b) (h : ∀ slot b, x.checked slot b = none) : x.Served fits body :=
  ⟨event, length, fun _ _ _ _ hc => by simp [h] at hc, fun _ _ _ _ hc => by simp [h] at hc⟩

/-- A request whose port is looked up in a set of its call. -/
theorem RequestRow.Served.onPort {x : RequestRow} {fits : List Byte → Bool} {set : Call → PortSet}
    {body : Call → Port → State → State}
    (event : ∀ s, exec x.event s
      = takeEvent (fun t => t.serve x.code x.lowest fits fun c => c.onPort (set c) (body c)) s)
    (length : ∀ b, fits b = x.lengthFits b)
    (h : ∀ (r : Request) slot, x.checked slot r.params = some (set (r.call slot))) :
    x.Served fits fun c => c.onPort (set c) (body c) := by
  refine ⟨event, length, fun r slot _ t _ hp => Call.onPort_badPort hp, fun r slot found t hc hp hset => ?_⟩
  rw [h, Option.some.injEq] at hc
  exact Call.onPort_refused hp (hc ▸ hset)

theorem Call.testCable_single {c : Call} (h : (byteAt c.params 3).testBit 2 = false) (s : State) :
    c.testCable s = c.onPort c.disturbSet c.singleTest s := if_neg (by simp [Call.test, h])

theorem Call.testCable_sweep {c : Call} (h : (byteAt c.params 3).testBit 2 = true) (s : State) :
    c.testCable s = c.sweepTest s := if_pos h

/-- TEST_CABLE looks its port up unless it asks for a sweep. -/
theorem RequestRow.Served.testCable {x : RequestRow}
    (event : ∀ s, exec x.event s = takeEvent (fun t => t.serve x.code x.lowest (exactly 5) Call.testCable) s)
    (length : ∀ b, exactly 5 b = x.lengthFits b)
    (h : ∀ slot b, x.checked slot b = if (byteAt b 3).testBit 2 then none else some slot.disturbSet) :
    x.Served (exactly 5) Call.testCable := by
  have hsingle (r : Request) (slot : ReplySlot) (set : PortSet) (hc : x.checked slot r.params = some set) :
      (byteAt (r.call slot).params 3).testBit 2 = false ∧ (r.call slot).disturbSet = set := by
    rw [h] at hc
    cases hbit : (byteAt r.params 3).testBit 2 with
    | true => simp [hbit] at hc
    | false =>
      rw [hbit] at hc
      exact ⟨hbit, Option.some.inj hc⟩
  refine ⟨event, length, fun r slot set t hc hp => ?_, fun r slot set t hc hp hset => ?_⟩
  all_goals obtain ⟨hbit, hdisturb⟩ := hsingle r slot set hc
  · rw [Call.testCable_single hbit]
    exact Call.onPort_badPort hp
  · rw [Call.testCable_single hbit]
    exact Call.onPort_refused hp (hdisturb ▸ hset)

theorem requestRows_served : ∀ x ∈ requestRows, ∃ fits body, x.Served fits body := by
  have length (n : Nat) (b : List Byte) : exactly n b = (b.length == n) := rfl
  simp only [requestRows, List.forall_mem_cons]
  refine ⟨⟨_, _, .onPort (set := Call.readSet) (body := fun c p u => c.data (u.portData p) u) (fun _ => rfl) (length 1) fun _ _ => rfl⟩,
    ⟨_, _, .onPort (set := Call.readSet) (body := Call.readReport) (fun _ => rfl) (length 2) fun _ _ => rfl⟩,
    ⟨_, Call.readTable, .unchecked (fun _ => rfl) (length 4) fun _ _ => rfl⟩,
    ⟨_, fun c u => c.data u.statusData u.statusCleared, .unchecked (fun _ => rfl) (length 0) fun _ _ => rfl⟩,
    ⟨_, _, .testCable (fun _ => rfl) (length 5) fun _ _ => rfl⟩,
    ⟨_, _, .onPort (set := Call.readSet) (body := Call.surveyNow) (fun _ => rfl) (length 1) fun _ _ => rfl⟩,
    ⟨_, Call.cancel, .unchecked (fun _ => rfl) (length 2) fun _ _ => rfl⟩,
    ⟨_, _, .onPort (set := Call.disturbSet) (body := Call.retrain) (fun _ => rfl) (length 2) fun _ _ => rfl⟩,
    ⟨_, _, .onPort (set := Call.disturbSet) (body := Call.setAdmin) (fun _ => rfl) (length 2) fun _ _ => rfl⟩,
    ⟨_, _, .onPort (set := Call.disturbSet) (body := Call.writeProfile) (fun _ => rfl) (length 33) fun _ _ => rfl⟩,
    ⟨_, Call.writePlanEntry, .unchecked (fun _ => rfl) (length 33) fun _ _ => rfl⟩,
    ⟨signaturesLength, Call.writeSignatures, .unchecked (fun _ => rfl) (fun _ => Bool.and_comm _ _) fun _ _ => rfl⟩,
    ⟨_, Call.clearBlock, .unchecked (fun _ => rfl) (length 1) fun _ _ => rfl⟩,
    ⟨_, Call.setGeometry, .unchecked (fun _ => rfl) (length 4) fun _ _ => rfl⟩,
    ⟨_, Call.lowerLock, .unchecked (fun _ => rfl) (length 2) fun _ _ => rfl⟩,
    ⟨_, Call.writeRequester, .unchecked (fun _ => rfl) (length 24) fun _ _ => rfl⟩,
    ⟨_, Call.setStation, .unchecked (fun _ => rfl) (length 24) fun _ _ => rfl⟩,
    ⟨_, Call.resetPart, .unchecked (fun _ => rfl) (length 0) fun _ _ => rfl⟩, fun x hx => ?_⟩
  simp at hx

/-! ### The common checks in their order (R155) -/

section Checks

variable {s : State} {r : Request} {rest : List Request} {slot : ReplySlot} {x : RequestRow}
  {fits : List Byte → Bool} {body : Call → State → State}

theorem State.serve_other {code : Nat} {lowest : Role} (hr : s.supervision.requests = r :: rest)
    (h : r.code.toNat ≠ code) : s.serve code lowest fits body = s := by
  simp [State.serve, hr, h]

theorem State.serve_own {code : Nat} {lowest : Role} (hr : s.supervision.requests = r :: rest)
    (hslot : s.slot r.place.slot = some slot) (h : r.code.toNat = code) :
    s.serve code lowest fits body =
      (let t := s.updSupervision fun v => { v with requests := rest }
      if slot.role.code < lowest.code then t.answer r.place .notPermitted []
      else if !fits r.params then t.answer r.place .badValue []
      else body (r.call slot) t) := by
  simp only [State.serve, hr, hslot, h, ne_eq, not_true_eq_false, if_false]
  rfl

/-- A request answered at its execution, with its entry taken and nothing else done. -/
theorem State.ready.refused {i : Instr} {f : State → State} {code : ResultCode} (h : s.ready)
    (hi : exec i s = takeEvent f s)
    (hf : f s = (s.updSupervision fun v => { v with requests := rest }).answer r.place code []) :
    exec i s = .next ((s.updSupervision fun v => { v with requests := rest }).answer r.place code []) :=
  hi.trans (h.exact hf ((State.SameBlocking.updSupervision s _).trans (.answer _ _ _ _)) (State.answer_due _ _ _ _))

end Checks

/-- Settles O45. -/
theorem requestChecks : Obligations.RequestChecks := by
  refine ⟨fun r slot => rfl, fun s r rest slot h hr hslot => ?_⟩
  intro t answered p
  refine ⟨fun hcode => ?_, fun h1 h18 => ?_, fun x hx => ?_⟩
  · refine h.refused (f := State.serveUnknown) rfl ?_
    have hunknown : ¬ (1 ≤ r.code.toNat ∧ r.code.toNat ≤ 18) := by omega
    simp only [State.serveUnknown, hr, if_neg hunknown]
  · refine takeEvent_idle (f := State.serveUnknown) ?_ h.2
    simp only [State.serveUnknown, hr, if_pos (And.intro h1 h18)]
  · obtain ⟨fits, body, hserved⟩ := requestRows_served x hx
    refine ⟨fun hother => ?_, fun hown => ?_⟩
    · exact (hserved.event s).trans
        (takeEvent_idle (f := fun t => t.serve x.code x.lowest fits body) (State.serve_other hr hother) h.2)
    · have hbody := State.serve_own (fits := fits) (body := body) (lowest := x.lowest) hr hslot hown
      have refused {code : ResultCode}
          (hf : s.serve x.code x.lowest fits body = t.answer r.place code []) : answered x.event code :=
        h.refused (f := fun t => t.serve x.code x.lowest fits body) (hserved.event s) hf
      refine ⟨fun hrole => refused (hbody.trans (if_pos hrole)), fun hrole => ?_⟩
      have hranked := hbody.trans (if_neg (Nat.not_lt.mpr hrole))
      refine ⟨fun hlength => refused (hranked.trans (if_pos ?_)), fun hlength set hc => ?_⟩
      · rw [hserved.length, hlength]
        rfl
      · have hfits : ¬ (!fits r.params) = true := by rw [hserved.length, hlength]; simp
        have hpassed := hranked.trans (if_neg hfits)
        exact ⟨fun hp => refused (hpassed.trans (hserved.badPort r slot set _ hc hp)),
          fun hp hset => refused (hpassed.trans (hserved.notPermitted r slot set _ hc hp hset))⟩

end Sys2Proof.Machine
end

