-- ==== Sys2Proof/Proofs/Answers.lean ====
section
/-! PROOF. The results of entries and requests (R86, R92, R93, R160, R163), and the four reads (R61, R131, R142, R164
to R166). -/

namespace Sys2Proof.Machine

/-! ### Results in their places (R160, R163) -/

section Answer

variable {s : State} {place : ReplyPlace} {code : ResultCode} {data : List Byte} {r : ReplySlot} {x : QueueEntry}

theorem State.answerEntry_internal (h : x.external = none) : s.answerEntry x code data = s := by
  simp only [State.answerEntry, h]

theorem State.answerEntry_external {y : ExternalRequest} (h : x.external = some y) :
    s.answerEntry x code data = s.answer y.place code data := by
  simp only [State.answerEntry, h]

theorem State.answer_free (h : s.slot place.slot = none) : s.answer place code data = s := by
  simp only [State.answer, h]

theorem ReplySlot.complete_iff (r : ReplySlot) : r.complete = true ↔ ∀ e ∈ r.entries, e.answer ≠ none := by
  simp [ReplySlot.complete, Option.isSome_iff_ne_none]

theorem State.answer_collects (h : s.slot place.slot = some r)
    (hc : r.sending = true ∨ ¬ (r.withAnswer place.index ⟨code, data⟩).complete = true) :
    s.answer place code data = s.setSlot place.slot (some (r.withAnswer place.index ⟨code, data⟩)) := by
  simp only [State.answer, h]
  refine if_neg fun hboth => ?_
  rw [Bool.and_eq_true, Bool.not_eq_true'] at hboth
  rcases hc with hc | hc
  · simp [hc] at hboth
  · exact hc hboth.1

theorem State.answer_completes (h : s.slot place.slot = some r) (hs : r.sending = false)
    (hc : (r.withAnswer place.index ⟨code, data⟩).complete = true) : s.answer place code data
      = (s.setSlot place.slot (some { r.withAnswer place.index ⟨code, data⟩ with sending := true })).insertFrame
        r.port (replyFrame s.supervision.station (r.withAnswer place.index ⟨code, data⟩)) (.reply place.slot) := by
  simp only [State.answer, h]
  exact if_pos (by simp [hs, hc])

theorem ReplySlot.withAnswer_length (r : ReplySlot) (index : Nat) (a : Answer) :
    (r.withAnswer index a).entries.length = r.entries.length := List.length_modify ..

end Answer

/-- Settles O46. -/
theorem answersGiven : Obligations.AnswersGiven := by
  refine ⟨fun s x code data => ⟨fun hx => ⟨State.answerEntry_internal hx, State.answerEntry_internal hx⟩,
    fun r hr => ⟨State.answerEntry_external hr, State.answerEntry_external hr⟩⟩,
    fun s place code data => ⟨State.answer_free, fun r hr => ?_⟩⟩
  intro r'
  have hcomplete : (r.withAnswer place.index ⟨code, data⟩).complete = true ↔ ∀ e ∈ r'.entries, e.answer ≠ none :=
    ReplySlot.complete_iff _
  refine ⟨fun hopen => State.answer_collects hr (hopen.imp_right ?_), fun hs hall => ?_⟩
  · rintro ⟨e, he, hnone⟩ hc
    exact hcomplete.mp hc e he hnone
  · rw [State.answer_completes hr hs (hcomplete.mpr hall), replyFrame, ReplySlot.withAnswer_length]
    rfl

/-! ### READ_REPORT (R142) -/

section ReadReport

variable {c : Call} {p : Port} {s : State}

theorem Call.readReport_report (h : byteAt c.params 1 = 0) :
    c.readReport p s = c.record ((s.port p).report.map CableReport.encode) s := by
  simp only [Call.readReport, h]

theorem Call.readReport_summary (h : byteAt c.params 1 = 1) :
    c.readReport p s = c.record ((s.port p).summary.map (SurveySummary.encode p 1)) s := by
  simp only [Call.readReport, h]

theorem Call.readReport_baseline (h : byteAt c.params 1 = 2) :
    c.readReport p s = c.record ((s.port p).baseline.map (SurveySummary.encode p 2)) s := by
  simp only [Call.readReport, h]

theorem Call.readReport_badValue (h : 2 < byteAt c.params 1) : c.readReport p s = c.give .badValue s := by
  unfold Call.readReport
  split
  · omega
  · omega
  · omega
  · rfl

end ReadReport

/-! ### READ_TABLE (R61, R131, R165) -/

section ReadTable

variable {c : Call} {s : State}

theorem Call.readTable_plan (h : byteAt c.params 0 = 0) : c.readTable s = c.readPlan s := by
  simp only [Call.readTable, h]

theorem Call.readTable_signatures (h : byteAt c.params 0 = 1) : c.readTable s = c.readSignatures s := by
  simp only [Call.readTable, h]

theorem Call.readTable_geometry (h : byteAt c.params 0 = 2) :
    c.readTable s = c.data s.signatures.encodeGeometry s := by
  simp only [Call.readTable, h]

theorem Call.readTable_requester (h : byteAt c.params 0 = 3) : c.readTable s = c.readRequester s := by
  simp only [Call.readTable, h]

theorem Call.readTable_profile (h : byteAt c.params 0 = 4) : c.readTable s = c.readProfile s := by
  simp only [Call.readTable, h]

theorem Call.readTable_badValue (h : 4 < byteAt c.params 0) : c.readTable s = c.give .badValue s := by
  unfold Call.readTable
  split
  · omega
  · omega
  · omega
  · omega
  · omega
  · rfl

theorem Call.readPlan_data {i : Fin 16} (h : c.tableIndex = i.val) :
    c.readPlan s = c.data (byteOf c.tableIndex ++ (s.plan[i]).encode) s := by
  simp only [Call.readPlan, (finOf_eq_some_iff i).mpr h.symm]
  rw [h]

theorem Call.readPlan_badValue (h : 16 ≤ c.tableIndex) : c.readPlan s = c.give .badValue s := by
  simp only [Call.readPlan, finOf_eq_none_iff.mpr h]

theorem Call.readSignatures_data
    (h : 1 ≤ byteAt c.params 3 ∧ byteAt c.params 3 ≤ 64 ∧ c.tableIndex + byteAt c.params 3 ≤ 1024) :
    c.readSignatures s = c.data (s.signatures.encodeRange c.tableIndex (byteAt c.params 3)) s :=
  if_pos (by omega)

theorem Call.readSignatures_badValue
    (h : byteAt c.params 3 = 0 ∨ 64 < byteAt c.params 3 ∨ 1024 < c.tableIndex + byteAt c.params 3) :
    c.readSignatures s = c.give .badValue s := if_neg (by omega)

theorem Call.readRequester_data {i : RequesterId} (h : c.tableIndex = i.val) (h0 : i ≠ 0) :
    c.readRequester s = c.data ((s.supervision.requesters[i]).encode i) s := by
  simp only [Call.readRequester, (finOf_eq_some_iff i).mpr h.symm, if_neg h0]

theorem Call.readRequester_badValue (h : c.tableIndex = 0 ∨ 8 ≤ c.tableIndex) :
    c.readRequester s = c.give .badValue s := by
  rcases h with h | h
  · have hfound : finOf 8 c.tableIndex = some 0 := (finOf_eq_some_iff 0).mpr h.symm
    simp only [Call.readRequester, hfound, if_pos]
  · simp only [Call.readRequester, finOf_eq_none_iff.mpr h]

theorem Call.readProfile_data {p : Port} (h : c.tableIndex = p.val) (hset : c.readSet.getLsbD c.tableIndex = true) :
    c.readProfile s = c.data (s.profile p).encode s := by
  rw [h] at hset
  simp only [Call.readProfile, (finOf_eq_some_iff p).mpr h.symm, hset]
  rfl

theorem Call.readProfile_notPermitted {p : Port} (h : c.tableIndex = p.val)
    (hset : c.readSet.getLsbD c.tableIndex = false) : c.readProfile s = c.give .notPermitted s := by
  rw [h] at hset
  simp only [Call.readProfile, (finOf_eq_some_iff p).mpr h.symm, hset]
  rfl

theorem Call.readProfile_badPort (h : 48 ≤ c.tableIndex) : c.readProfile s = c.give .badPort s := by
  simp only [Call.readProfile, finOf_eq_none_iff.mpr h]

end ReadTable

theorem State.passes.readTable {s t : State} {c : Call} (h : s.passes 3 4 .observer c t) {code : ResultCode}
    {data : List Byte} (hbody : c.readTable t = t.answer c.place code data) :
    exec .readTable s = .next (t.answer c.place code data) := h.answered (body := Call.readTable) hbody

theorem State.passes.readReport {s t : State} {c : Call} {p : Port} (h : s.passes 2 2 .observer c t)
    (hn : c.names c.readSet p) {code : ResultCode} {data : List Byte}
    (hbody : c.readReport p t = t.answer c.place code data) :
    exec .readReport s = .next (t.answer c.place code data) :=
  h.answered (body := fun c => c.onPort c.readSet c.readReport) ((Call.onPort_named hn).trans hbody)

/-! What a read returns does not change as its request is taken. -/

theorem State.portData_updSupervision (s : State) (f : Supervision → Supervision) (p : Port) :
    (s.updSupervision f).portData p = s.portData p := rfl

theorem State.statusData_taken (s : State) (rest : List Request) :
    (s.updSupervision fun v => { v with requests := rest }).statusData = s.statusData := rfl

/-- Settles O47. -/
theorem readsAnswered : Obligations.ReadsAnswered := by
  intro s t c told record index
  have hrecord {p : Port} (h : s.passes 2 2 .observer c t) (hn : c.names c.readSet p) {data : Option (List Byte)}
      (hbody : c.readReport p t = c.record data t) : record data := by
    cases data with
    | none => exact h.readReport hn hbody
    | some d => exact h.readReport hn hbody
  refine ⟨fun p h hn => ?_, fun p h hn => ?_, fun h => ?_, fun h => ?_⟩
  · have hdata : t.portData p = s.portData p := by
      obtain ⟨rest, ht⟩ := h.taken
      rw [ht, State.portData_updSupervision]
    rw [← hdata]
    exact h.answered (body := fun c => c.onPort c.readSet fun p u => c.data (u.portData p) u)
      (Call.onPort_named hn)
  · have hport : s.port p = t.port p := by
      obtain ⟨rest, ht⟩ := h.taken
      rw [ht]
      rfl
    rw [hport]
    exact ⟨fun h0 => hrecord h hn (Call.readReport_report h0), fun h1 => hrecord h hn (Call.readReport_summary h1),
      fun h2 => hrecord h hn (Call.readReport_baseline h2),
      fun hbad => h.readReport hn (Call.readReport_badValue hbad)⟩
  · have htables : s.plan = t.plan ∧ s.signatures = t.signatures
        ∧ s.supervision.requesters = t.supervision.requesters ∧ ∀ p, s.profile p = t.profile p := by
      obtain ⟨rest, ht⟩ := h.taken
      rw [ht]
      exact ⟨rfl, rfl, rfl, fun _ => rfl⟩
    obtain ⟨hplan, hsignatures, hrequesters, hprofile⟩ := htables
    simp only [hplan, hsignatures, hrequesters, hprofile]
    refine ⟨fun h0 => ⟨fun i hi => ?_, fun hi => ?_⟩, fun h1 => ⟨fun hc => ?_, fun hc => ?_⟩, fun h2 => ?_,
      fun h3 => ⟨fun i hi h0 => ?_, fun hi => ?_⟩, fun h4 => ⟨fun p hp => ⟨fun hset => ?_, fun hset => ?_⟩, fun hp => ?_⟩,
      fun hbad => h.readTable (Call.readTable_badValue hbad)⟩
    · exact h.readTable ((Call.readTable_plan h0).trans (Call.readPlan_data hi))
    · exact h.readTable ((Call.readTable_plan h0).trans (Call.readPlan_badValue hi))
    · exact h.readTable ((Call.readTable_signatures h1).trans (Call.readSignatures_data hc))
    · exact h.readTable ((Call.readTable_signatures h1).trans (Call.readSignatures_badValue hc))
    · exact h.readTable (Call.readTable_geometry h2)
    · exact h.readTable ((Call.readTable_requester h3).trans (Call.readRequester_data hi h0))
    · exact h.readTable ((Call.readTable_requester h3).trans (Call.readRequester_badValue hi))
    · exact h.readTable ((Call.readTable_profile h4).trans (Call.readProfile_data hp hset))
    · exact h.readTable ((Call.readTable_profile h4).trans (Call.readProfile_notPermitted hp hset))
    · exact h.readTable ((Call.readTable_profile h4).trans (Call.readProfile_badPort hp))
  · have hdata : t.statusData = s.statusData := by
      obtain ⟨rest, ht⟩ := h.taken
      rw [ht, State.statusData_taken]
    rw [← hdata]
    have hcleared : t.SameBlocking t.statusCleared := ⟨rfl, rfl, fun _ => rfl, fun _ => rfl, fun _ => rfl⟩
    exact h.exact (body := fun c u => c.data u.statusData u.statusCleared) rfl
      (hcleared.trans (.answer _ _ _ _)) (State.answer_due _ _ _ _)

end Sys2Proof.Machine
end

