-- ==== Sys2Proof/Proofs/Offers.lean ====
section
/-! PROOF. TEST_CABLE: the checks of a test and of a sweep, and admission (R71, R73 to R75). -/

namespace Sys2Proof.Machine

/-! ### The averaging count (R73) -/

theorem roundAveraging_eq (n : Nat) : roundAveraging n =
    if 64 ≤ n then 64 else if 32 ≤ n then 32 else if 16 ≤ n then 16 else if 8 ≤ n then 8
    else if 4 ≤ n then 4 else if 2 ≤ n then 2 else 1 := by
  have step (k : Nat) (rest : List Nat) :
      ((k :: rest).find? fun j => j ≤ n).getD 1 = if k ≤ n then k else (rest.find? fun j => j ≤ n).getD 1 := by
    rw [List.find?_cons]
    by_cases h : k ≤ n <;> simp [h]
  rw [roundAveraging]
  simp only [step]
  simp

theorem roundAveraging_zero {n : Nat} (h : n = 0) : roundAveraging n = 1 := by
  subst h
  decide

theorem roundAveraging_top {n : Nat} (h : 64 ≤ n) : roundAveraging n = 64 := by
  rw [roundAveraging_eq, if_pos h]

theorem roundAveraging_between {n k : Nat} (hk : k < 7) (hlow : 2 ^ k ≤ n) (hhigh : n < 2 ^ (k + 1)) :
    roundAveraging n = 2 ^ k := by
  rw [roundAveraging_eq]
  have hcases : k = 0 ∨ k = 1 ∨ k = 2 ∨ k = 3 ∨ k = 4 ∨ k = 5 ∨ k = 6 := by omega
  rcases hcases with rfl | rfl | rfl | rfl | rfl | rfl | rfl <;> (repeat' split) <;> omega

/-! ### What the queue already holds (R74) -/

theorem State.singleWaiting_first (s : State) (r : RequesterId) (p : Port) :
    FirstWith s.queue (fun x => x.requester = r ∧ x.port = p ∧ x.state = .waiting
      ∧ ∃ o, x.kind = .test o ∧ o.sweep = none) (s.singleWaiting r p) :=
  FirstWith.of_find? _ _ fun x => by
    simp only [Bool.and_eq_true, beq_iff_eq, QueueEntry.isSingleTest_iff, QueueEntry.waiting_iff]
    exact ⟨fun ⟨⟨⟨hr, hsingle⟩, hp⟩, hw⟩ => ⟨hr, hp, hw, hsingle⟩, fun ⟨hr, hp, hw, hsingle⟩ => ⟨⟨⟨hr, hsingle⟩, hp⟩, hw⟩⟩

theorem State.tagged_first (s : State) (r : RequesterId) (tag : BitVec 16) :
    FirstWith s.queue (fun x => x.requester = r ∧ ∃ y, x.external = some y ∧ y.tag = tag) (s.tagged r tag) :=
  FirstWith.of_find? _ _ fun x => by cases x.external <;> simp

theorem State.tagged_isSome (s : State) (r : RequesterId) (tag : BitVec 16) : (s.tagged r tag).isSome = true
    ↔ ∃ x ∈ s.queue, x.requester = r ∧ ∃ y, x.external = some y ∧ y.tag = tag := by
  rw [Option.isSome_iff_ne_none, ne_eq, (s.tagged_first r tag).2]
  simp

/-- The queue holds an entry of the call's requester with the call's tag. -/
def State.holdsTag (s : State) (c : Call) : Prop :=
  ∃ x ∈ s.queue, x.requester = c.requester ∧ ∃ y, x.external = some y ∧ y.tag = c.tag

theorem State.tagged_of_holdsTag {s : State} {c : Call} (h : s.holdsTag c) :
    ∃ x, s.tagged c.requester c.tag = some x :=
  Option.isSome_iff_exists.mp ((s.tagged_isSome _ _).mpr h)

theorem State.tagged_of_not_holdsTag {s : State} {c : Call} (h : ¬ s.holdsTag c) :
    s.tagged c.requester c.tag = none :=
  Option.not_isSome_iff_eq_none.mp (mt (s.tagged_isSome _ _).mp h)

theorem State.roomExternal_iff (s : State) : s.roomExternal = true ↔ s.queue.length < 28 := decide_eq_true_iff

/-! ### A single test (R73) -/

section SingleTest

variable {c : Call} {p : Port} {s : State}

theorem Call.singleTest_noPairs (h : c.test.pairs = []) : c.singleTest p s = c.give .badValue s := by
  simp [Call.singleTest, h]

theorem Call.singleTest_duplicate (h : c.test.pairs ≠ []) (ht : s.holdsTag c) :
    c.singleTest p s = c.duplicate c.tag s := by
  obtain ⟨x, hx⟩ := State.tagged_of_holdsTag ht
  simp [Call.singleTest, h, hx]

theorem Call.singleTest_waiting {x : QueueEntry} (h : c.test.pairs ≠ []) (ht : ¬ s.holdsTag c)
    (hx : s.singleWaiting c.requester p = some x) : c.singleTest p s = c.duplicate x.tag s := by
  simp [Call.singleTest, h, State.tagged_of_not_holdsTag ht, hx]

/-- The checks behind those of pairs and duplicates. -/
theorem Call.singleTest_new (h : c.test.pairs ≠ []) (ht : ¬ s.holdsTag c)
    (hw : s.singleWaiting c.requester p = none) : c.singleTest p s =
      if s.livePort p c.test.force then c.give .livePort s
      else if !s.roomExternal then c.give .queueFull s
      else s.enqueue (s.externalEntry c (.test (c.test.options none)) p c.test.adjusted) := by
  simp [Call.singleTest, h, State.tagged_of_not_holdsTag ht, hw]

end SingleTest

/-! ### A sweep (R73, R88) -/

section SweepTest

variable {c : Call} {s : State}

theorem TestRequest.inRange_iff (t : TestRequest) (start : Nat) : t.inRange start = true ↔ start < 48
    ∧ (t.down = true → t.count ≤ start + 1) ∧ (t.down = false → start + t.count ≤ 48) := by
  unfold TestRequest.inRange
  cases t.down <;> simp

theorem Call.sweepTest_badValue (h : c.test.pairs = [] ∨ c.test.count = 0 ∨ 48 < c.test.count) :
    c.sweepTest s = c.give .badValue s := by
  refine if_pos ?_
  simpa [or_assoc] using h

/-- The checks behind those of the pairs and the count. -/
theorem Call.sweepTest_counted (h : c.test.pairs ≠ []) (h1 : 1 ≤ c.test.count) (h48 : c.test.count ≤ 48) :
    c.sweepTest s =
      if !c.test.inRange (byteAt c.params 0) then c.give .badPort s
      else
        match s.tagged c.requester c.tag with
        | some _ => c.duplicate c.tag s
        | none =>
          if !s.roomExternal then c.give .queueFull s
          else
            match finOf 48 (byteAt c.params 0) with
            | none => c.give .badPort s
            | some start => s.admitSweep c start := by
  refine (if_neg ?_).trans rfl
  simp [h, Nat.ne_of_gt h1, h48]

end SweepTest

theorem State.passes.testCable {s t : State} {c : Call} (h : s.passes 5 5 .operator c t) {code : ResultCode}
    {data : List Byte} (hbody : c.testCable t = t.answer c.place code data) :
    exec .testCable s = .next (t.answer c.place code data) := h.answered (body := Call.testCable) hbody

/-- Settles O48. -/
theorem testsOffered : Obligations.TestsOffered := by
  refine ⟨fun n => ⟨roundAveraging_zero, roundAveraging_top, fun k => roundAveraging_between⟩, fun s x => rfl,
    State.singleWaiting_first, fun s t c h => ?_⟩
  intro pairs averaging cross force down count entry refused duplicate held
  have htaken : t.queue = s.queue ∧ (∀ p, t.link p = s.link p) ∧ (∀ p, t.profile p = s.profile p)
      ∧ ∀ p w, t.externalEntry c (.test (c.test.options w)) p c.test.adjusted = entry p w := by
    obtain ⟨rest, ht⟩ := h.taken
    rw [ht]
    exact ⟨rfl, fun _ => rfl, fun _ => rfl, fun _ _ => rfl⟩
  obtain ⟨hqueue, hlinks, hprofiles, hentry⟩ := htaken
  have hheld : t.holdsTag c ↔ held := by
    rw [State.holdsTag, hqueue]
  have hsingle (r : RequesterId) (p : Port) : t.singleWaiting r p = s.singleWaiting r p := by
    rw [State.singleWaiting, hqueue]
    rfl
  have hroom : t.roomExternal = true ↔ s.queue.length < 28 := by rw [t.roomExternal_iff, hqueue]
  refine ⟨fun hbit p hn => ?_, fun hbit => ?_⟩
  · intro live
    have hlive : t.livePort p force = true ↔ live := by rw [t.livePort_iff, hlinks, hprofiles]
    have hbody : c.testCable t = c.singleTest p t := (Call.testCable_single hbit t).trans (Call.onPort_named hn)
    refine ⟨fun hp => ?_, fun hp ht => ?_, fun hp ht x hx => ?_, fun hp ht hw => ⟨fun hl => ?_, fun hl hfull => ?_,
      fun hl hr => ?_⟩⟩
    · exact h.testCable (hbody.trans (Call.singleTest_noPairs hp))
    · exact h.testCable (hbody.trans (Call.singleTest_duplicate hp (hheld.mpr ht)))
    · exact h.testCable (hbody.trans (Call.singleTest_waiting hp (mt hheld.mp ht) ((hsingle _ _).trans hx)))
    all_goals have hnew := hbody.trans (Call.singleTest_new hp (mt hheld.mp ht) ((hsingle _ _).trans hw))
    · exact h.testCable (hnew.trans (if_pos (hlive.mpr hl)))
    all_goals replace hnew := hnew.trans (if_neg (mt hlive.mp hl))
    · have hnone : ¬ t.roomExternal = true := mt hroom.mp (Nat.not_lt.mpr hfull)
      exact h.testCable (hnew.trans (if_pos (by simp [hnone])))
    · replace hnew := hnew.trans (if_neg (by simp [hroom.mpr hr]))
      rw [hentry] at hnew
      exact h.effect (body := Call.testCable) hnew
  · intro start within
    have hwithin : c.test.inRange (byteAt c.params 0) = true ↔ within := c.test.inRange_iff start
    have hbody : c.testCable t = c.sweepTest t := Call.testCable_sweep hbit t
    refine ⟨fun hbad => ?_, fun hp h1 h48 => ?_⟩
    · exact h.testCable (hbody.trans (Call.sweepTest_badValue hbad))
    have hcounted := hbody.trans (Call.sweepTest_counted hp h1 h48)
    refine ⟨fun hout => ?_, fun hin ht => ?_, fun hin ht hfull => ?_, fun p hstart hin ht hr => ?_⟩
    · exact h.testCable (hcounted.trans (if_pos (by simp [mt hwithin.mp hout])))
    all_goals replace hcounted := hcounted.trans (if_neg (by simp [hwithin.mpr hin]))
    · obtain ⟨x, hx⟩ := State.tagged_of_holdsTag (hheld.mpr ht)
      rw [hx] at hcounted
      exact h.testCable hcounted
    all_goals rw [State.tagged_of_not_holdsTag (mt hheld.mp ht)] at hcounted
    · have hnone : ¬ t.roomExternal = true := mt hroom.mp (Nat.not_lt.mpr hfull)
      exact h.testCable (hcounted.trans (if_pos (by simp [hnone])))
    · replace hcounted := hcounted.trans (if_neg (by simp [hroom.mpr hr]))
      rw [(finOf_eq_some_iff p).mpr hstart] at hcounted
      refine h.effect (body := Call.testCable) (hcounted.trans ?_)
      show t.admitSweep c p = _
      rw [State.admitSweep, hentry]
      rfl

end Sys2Proof.Machine
end

