-- ==== Sys2Proof/Proofs/Cancels.lean ====
section
/-! PROOF. SURVEY_NOW and CANCEL (R76, R90 to R92, R106, R152), and the abort of a test (R105, R106). -/

namespace Sys2Proof.Machine

/-! ### Searches in the queue -/

theorem State.surveyEntry_first (s : State) (p : Port) :
    FirstWith s.queue (fun x => x.kind = .survey ∧ x.port = p) (s.surveyEntry p) :=
  FirstWith.of_find? _ _ fun x => by simp [QueueEntry.isSurvey_iff]

theorem State.entry_first (s : State) (n : Nat) : FirstWith s.queue (fun x => x.serial = n) (s.entry n) :=
  FirstWith.of_find? _ _ fun x => by simp

/-! ### SURVEY_NOW (R76, R152) -/

theorem surveyCalled_eq (prof : Profile) (fresh : Bool) (r : SurveyRecord) : surveyCalled prof fresh r =
    if r.state = .idle ∨ r.state = .counting then
      { r with state := .due, surveyTimer := none, graceTimer := some (max (prof.surveyInterval / 4) 5) }
    else if fresh then { r with pending := false } else r := by
  unfold surveyCalled
  cases h : r.state
  case idle => rfl
  case counting => rfl
  case due => simp
  case overdue => simp

section SurveyNow

variable {c : Call} {p : Port} {s : State}

theorem Call.surveyNow_down (h : s.link p ≠ .up) : c.surveyNow p s = c.give .portBusy s := if_pos h

theorem Call.surveyNow_full (h : s.link p = .up) (hx : s.surveyEntry p = none) (hfull : 28 ≤ s.queue.length) :
    c.surveyNow p s = c.give .queueFull s := by
  have hroom : ¬ s.roomExternal = true := mt s.roomExternal_iff.mp (Nat.not_lt.mpr hfull)
  simp [Call.surveyNow, h, hx, hroom]

theorem Call.surveyNow_offered (h : s.link p = .up) (hx : s.surveyEntry p = none) (hroom : s.queue.length < 28) :
    c.surveyNow p s = (s.enqueue (s.externalEntry c .survey p false)).updSurvey p
      (surveyCalled (s.profile p) true) := by
  simp [Call.surveyNow, h, hx, s.roomExternal_iff.mpr hroom]

theorem Call.surveyNow_duplicate {x : QueueEntry} {y : ExternalRequest} (h : s.link p = .up)
    (hx : s.surveyEntry p = some x) (hy : x.external = some y) : c.surveyNow p s = c.duplicate y.tag s := by
  simp [Call.surveyNow, h, hx, hy]

theorem Call.surveyNow_attached {x : QueueEntry} (h : s.link p = .up) (hx : s.surveyEntry p = some x)
    (hnone : x.external = none) : c.surveyNow p s
      = (s.updEntry x.serial fun y => y.attach c (s.classOf c)).updSurvey p (surveyCalled (s.profile p) false) := by
  simp [Call.surveyNow, h, hx, hnone]

end SurveyNow

theorem State.passes.surveyNow {s t u : State} {c : Call} {p : Port} (h : s.passes 6 1 .operator c t)
    (hn : c.names c.readSet p) (hbody : c.surveyNow p t = u) : HasEffect .surveyNow s u :=
  h.effect (body := fun c => c.onPort c.readSet c.surveyNow) ((Call.onPort_named hn).trans hbody)

theorem State.passes.surveyNow_answered {s t : State} {c : Call} {p : Port} (h : s.passes 6 1 .operator c t)
    (hn : c.names c.readSet p) {code : ResultCode} {data : List Byte}
    (hbody : c.surveyNow p t = t.answer c.place code data) :
    exec .surveyNow s = .next (t.answer c.place code data) :=
  h.answered (body := fun c => c.onPort c.readSet c.surveyNow) ((Call.onPort_named hn).trans hbody)

/-! ### CANCEL of a waiting entry (R90, R92) -/

section Cancel

variable {c : Call} {x : QueueEntry} {o : TestOptions} {s : State}

/-- The entry that a CANCEL names. -/
def Call.cancels (c : Call) (s : State) : Option QueueEntry :=
  s.tagged c.requester (BitVec.ofNat 16 (natAt c.params 0 2))

theorem QueueEntry.isSurvey_survey (h : x.kind = .survey) : x.isSurvey = true := x.isSurvey_iff.mpr h

theorem QueueEntry.isSurvey_test (h : x.kind = .test o) : x.isSurvey = false := by
  simp [QueueEntry.isSurvey, h]

theorem Call.cancel_notFound (h : c.cancels s = none) : c.cancel s = c.give .notFound s := by
  rw [Call.cancels] at h
  simp only [Call.cancel, h]

theorem Call.cancel_waiting (h : c.cancels s = some x) (hx : x.state = .waiting) :
    c.cancel s = c.cancelWaiting x s := by
  rw [Call.cancels] at h
  simp only [Call.cancel, h, hx]

theorem Call.cancelWaiting_survey (hk : x.kind = .survey) : c.cancelWaiting x s
    = c.give .ok ((s.updEntry x.serial QueueEntry.detach).answerEntry x .cancelled []) :=
  if_pos (QueueEntry.isSurvey_survey hk)

theorem Call.cancelWaiting_single (hk : x.kind = .test o) (hw : o.sweep = none) :
    c.cancelWaiting x s = c.give .ok (s.finishEntry x .cancelled []) := by
  simp [Call.cancelWaiting, QueueEntry.isSurvey_test hk, QueueEntry.sweep_test hk, hw]

theorem Call.cancelWaiting_sweep {w : Sweep} (hk : x.kind = .test o) (hw : o.sweep = some w) :
    c.cancelWaiting x s = c.give .ok (s.cancelSweep x x.port w) := by
  simp [Call.cancelWaiting, QueueEntry.isSurvey_test hk, QueueEntry.sweep_test hk, hw]

/-! ### CANCEL of an entry in flight (R91, R106) -/

variable {e : EngineId}

theorem Call.cancel_surveyInFlight (h : c.cancels s = some x) (hx : x.state = .inFlight e)
    (hk : x.kind = .survey) : c.cancel s = c.give .tooLate s := by
  rw [Call.cancels] at h
  simp [Call.cancel, h, hx, QueueEntry.isSurvey_survey hk]

theorem Call.cancel_testInFlight (h : c.cancels s = some x) (hx : x.state = .inFlight e)
    (hk : x.kind = .test o) : c.cancel s = c.cancelInFlight x e s := by
  rw [Call.cancels] at h
  simp [Call.cancel, h, hx, QueueEntry.isSurvey_test hk]

theorem Call.cancelInFlight_marked (h : x.cancelMark = true) : c.cancelInFlight x e s = c.give .tooLate s :=
  if_pos h

/-- In QUIESCE and CAPTURE the test is aborted. -/
theorem Call.cancelInFlight_early (h : x.cancelMark = false)
    (he : (s.engine e).state = .quiesce ∨ (s.engine e).state = .capture) (hk : x.kind = .test o) :
    c.cancelInFlight x e s = c.give .ok ((s.updEntry x.serial fun y =>
      { y with cancelMark := o.sweep.isSome }).abortTest e .cancelled) := by
  rw [← QueueEntry.sweep_test hk]
  refine (if_neg (by simp [h])).trans ?_
  rcases he with he | he <;> simp only [he] <;> rfl

/-- In the later phases a sweep with ports to come is marked. -/
theorem Call.cancelInFlight_late (h : x.cancelMark = false)
    (he : ¬ ((s.engine e).state = .quiesce ∨ (s.engine e).state = .capture)) (hk : x.kind = .test o) :
    c.cancelInFlight x e s =
      match o.sweep with
      | none => c.give .tooLate s
      | some w =>
        if 1 < w.remaining then c.give .ok (s.updEntry x.serial fun y => { y with cancelMark := true })
        else c.give .tooLate s := by
  rw [← QueueEntry.sweep_test hk]
  refine (if_neg (by simp [h])).trans ?_
  cases hst : (s.engine e).state
  case quiesce => exact absurd (.inl hst) he
  case capture => exact absurd (.inr hst) he
  all_goals rfl

end Cancel

/-! ### A cancel mark blocks nothing -/

/-- Blocking reads the ports, states and kinds of the entries. -/
theorem State.groupBlocked_updEntry {f : QueueEntry → QueueEntry}
    (hf : ∀ x, (f x).port = x.port ∧ (f x).state = x.state ∧ (f x).kind = x.kind) (s : State) (n : Nat)
    (g : Group) : (s.updEntry n f).groupBlocked g = s.groupBlocked g := by
  have hport (x : QueueEntry) : (if x.serial == n then f x else x).port = x.port := by
    split
    · exact (hf x).1
    · rfl
  have hwaiting (x : QueueEntry) : (if x.serial == n then f x else x).waiting = x.waiting := by
    split
    · simp only [QueueEntry.waiting, (hf x).2.1]
    · rfl
  have hsurvey (x : QueueEntry) : (if x.serial == n then f x else x).isSurvey = x.isSurvey := by
    split
    · simp only [QueueEntry.isSurvey, (hf x).2.2]
    · rfl
  have hflight (p : Port) : (s.updEntry n f).portInFlight p = s.portInFlight p := by
    simp only [State.portInFlight, State.updEntry, List.any_map, Function.comp_def, hport, hwaiting]
  simp only [State.groupBlocked, State.blockedByTraining, hflight]
  simp only [State.updEntry, List.any_map, Function.comp_def, hport, hwaiting, hsurvey]
  rfl

theorem State.passes.cancel {s t u : State} {c : Call} (h : s.passes 7 2 .operator c t) (hbody : c.cancel t = u) :
    HasEffect .cancel s u := h.effect (body := Call.cancel) hbody

theorem State.passes.cancel_answered {s t : State} {c : Call} (h : s.passes 7 2 .operator c t) {code : ResultCode}
    (hbody : c.cancel t = c.give code t) : Refuses .cancel s c t code := h.answered (body := Call.cancel) hbody

/-- A CANCEL that leaves a mark only changes nothing else. -/
theorem State.passes.cancel_marked {s t : State} {c : Call} {n : Nat} {b : Bool} (h : s.passes 7 2 .operator c t)
    (hbody : c.cancel t = c.give .ok (t.updEntry n fun y => { y with cancelMark := b })) :
    exec .cancel s = .next ((t.updEntry n fun y => { y with cancelMark := b }).answer c.place .ok []) := by
  refine (h.effect (body := Call.cancel) hbody).trans (congrArg _ (State.closeEvent_calm ?_ fun g => ?_))
  · exact (State.answer_due _ _ _ _).trans (h.due.trans h.1.2)
  · have hmarked : (t.updEntry n fun y => { y with cancelMark := b }).groupBlocked g = t.groupBlocked g :=
      State.groupBlocked_updEntry (f := fun y => { y with cancelMark := b }) (fun _ => ⟨rfl, rfl, rfl⟩) t n g
    rw [Call.give, (State.SameBlocking.answer _ _ _ _).groupBlocked, hmarked, h.sameBlocking.groupBlocked]

/-! ### Aborts (R105, R106) -/

theorem State.releaseSlot_rest (s : State) (g : Group) :
    ∃ due, s.releaseSlot g = { s.updGroup g fun x => { x with slot := none } with due := due } := by
  unfold State.releaseSlot
  split
  · exact ⟨_, rfl⟩
  · exact ⟨_, rfl⟩

theorem State.slot_releaseSlot (s : State) (g : Group) : ((s.releaseSlot g).group g).slot = none := by
  obtain ⟨due, h⟩ := s.releaseSlot_rest g
  rw [h]
  show ((s.updGroup g fun x => { x with slot := none }).group g).slot = none
  rw [State.group_updGroup_self]

theorem State.engine_releaseSlot (s : State) (g : Group) (e : EngineId) :
    (s.releaseSlot g).engine e = s.engine e := by
  obtain ⟨due, h⟩ := s.releaseSlot_rest g
  rw [h]
  rfl

theorem State.quadUp_releaseSlot (s : State) (g : Group) (p : Port) :
    (s.releaseSlot g).quadUp p = s.quadUp p := by
  obtain ⟨due, h⟩ := s.releaseSlot_rest g
  rw [h]
  rfl

/-- A test that takes a cause, gives up its slot, and enters RESTORE. -/
theorem State.abortTest_eq {s : State} {e : EngineId} {m : Measurement} {t : TestContext}
    (hm : (s.engine e).context = some m) (ht : m.test = some t) (cause : AbortCause) :
    s.abortTest e cause = ((s.updEngine e fun y =>
      { y with context := some { m with
          test := some { t with abortCause := some cause, result := some ⟨cause.code, none⟩ } } }).releaseSlot
        t.group).enterRestore e := by
  rw [State.abortTest, State.testOf_eq hm ht]
  simp only [State.updTest_eq hm ht]

theorem State.mode_send_release {s : State} {p : Port} (h : s.quadUp p = true) :
    (s.send p .release).mode p = .openMode := by
  rw [State.mode, State.port_send_up h, if_pos rfl]
  rfl

/-- The entry to RESTORE of a test that an abort has given its result. -/
theorem State.abortTest_restoring {s freed restoring : State} {e : EngineId} {m : Measurement}
    {t cancelled : TestContext} (hm : (s.engine e).context = some m) (ht : m.test = some t)
    (hcancelled : cancelled = { t with abortCause := some .cancelled, result := some ⟨.cancelled, none⟩ })
    (hfreed : freed = (s.updEngine e fun y =>
      { y with context := some { m with test := some cancelled } }).releaseSlot t.group)
    (hrestoring : restoring = (freed.updEngine e fun y =>
      { y with context := some { m with test := some { cancelled with captures := [] } } }).updEngine e fun y =>
        { y with state := .restore, phaseTimer := none }) :
    s.abortTest e .cancelled
      = if s.quadUp m.port then restoring.send m.port .release else restoring.completeRestore e := by
  have hcontext : (freed.engine e).context = some { m with test := some cancelled } := by
    rw [hfreed, State.engine_releaseSlot, State.engine_updEngine_self]
  have hquad : freed.quadUp m.port = s.quadUp m.port := by
    rw [hfreed, State.quadUp_releaseSlot]
    rfl
  have habort : s.abortTest e .cancelled = freed.enterRestore e := by
    rw [State.abortTest_eq hm ht, hfreed, hcancelled]
    rfl
  rw [habort, State.enterRestore_eq hcontext rfl, hrestoring, State.updEngine_twice, ← hquad]

/-- Settles O49. -/
theorem surveysCalledEntriesCancelled : Obligations.SurveysCalledEntriesCancelled := by
  refine ⟨fun s r tag p n => ⟨s.tagged_first r tag, s.surveyEntry_first p, s.entry_first n⟩,
    fun s t c p h hn => ?_, fun s t c h => ?_, fun s e m t hm ht => ?_⟩
  · intro priority called
    have htaken : t.link p = s.link p ∧ t.surveyEntry p = s.surveyEntry p ∧ t.queue = s.queue
        ∧ t.externalEntry c .survey p false
          = ⟨.survey, c.requester, some ⟨c.tag, c.place⟩, p, false, priority, false, s.admissions, .waiting, false⟩
        ∧ t.classOf c = priority ∧ t.profile p = s.profile p := by
      obtain ⟨rest, ht⟩ := h.taken
      rw [ht]
      exact ⟨rfl, rfl, rfl, rfl, rfl, rfl⟩
    obtain ⟨hlink, hentry, hqueue, hnew, hclass, hprofile⟩ := htaken
    have hcalled (fresh : Bool) : surveyCalled (t.profile p) fresh = called fresh := by
      rw [hprofile]
      exact funext fun r => surveyCalled_eq _ fresh r
    refine ⟨fun hl => ?_, fun hl hx => ⟨fun hfull => ?_, fun hroom => ?_⟩, fun x hl hx => ⟨fun y hy => ?_, fun hnone => ?_⟩⟩
    all_goals rw [← hlink] at hl
    · exact h.surveyNow_answered hn (Call.surveyNow_down hl)
    all_goals rw [← hentry] at hx
    · exact h.surveyNow_answered hn (Call.surveyNow_full hl hx (hqueue ▸ hfull))
    · refine h.surveyNow hn ((Call.surveyNow_offered hl hx (hqueue ▸ hroom)).trans ?_)
      rw [hnew, hcalled]
    · exact h.surveyNow_answered hn (Call.surveyNow_duplicate hl hx hy)
    · refine h.surveyNow hn ((Call.surveyNow_attached hl hx hnone).trans ?_)
      rw [hclass, hcalled]
      rfl
  · intro found marked done
    have htaken : c.cancels t = found ∧ ∀ e, t.engine e = s.engine e := by
      obtain ⟨rest, ht⟩ := h.taken
      rw [ht]
      exact ⟨rfl, fun _ => rfl⟩
    obtain ⟨hfound, hengine⟩ := htaken
    rw [← hfound]
    refine ⟨fun hnone => h.cancel_answered (Call.cancel_notFound hnone), fun x hx => ⟨fun hwait => ?_,
      fun e hflight => ?_⟩⟩
    · have hbody := Call.cancel_waiting hx hwait
      exact ⟨fun hk => h.cancel (hbody.trans (Call.cancelWaiting_survey hk)), fun o hk =>
        ⟨fun hw => h.cancel (hbody.trans (Call.cancelWaiting_single hk hw)),
          fun w hw => h.cancel (hbody.trans (Call.cancelWaiting_sweep hk hw))⟩⟩
    · intro early
      have hearly : early ↔ (t.engine e).state = .quiesce ∨ (t.engine e).state = .capture := by rw [hengine]
      refine ⟨fun hk => h.cancel_answered (Call.cancel_surveyInFlight hx hflight hk), fun o hk => ?_⟩
      have hbody := Call.cancel_testInFlight hx hflight hk
      refine ⟨fun hmark => h.cancel_answered (hbody.trans (Call.cancelInFlight_marked hmark)),
        fun hmark he => h.cancel (hbody.trans (Call.cancelInFlight_early hmark (hearly.mp he) hk)), fun hmark he => ?_⟩
      have hlate := hbody.trans (Call.cancelInFlight_late hmark (mt hearly.mpr he) hk)
      refine ⟨fun hw => ?_, fun w hw => ⟨fun hlast => ?_, fun hmore => ?_⟩⟩
      all_goals rw [hw] at hlate
      · exact h.cancel_answered hlate
      · exact h.cancel_answered (hlate.trans (if_neg (Nat.not_lt.mpr hlast)))
      · exact h.cancel_marked (hlate.trans (if_pos hmore))
  · intro cancelled holding freed restoring
    have habort := State.abortTest_restoring (freed := freed) (restoring := restoring) hm ht rfl rfl rfl
    refine ⟨State.slot_releaseSlot _ _, fun hup => ?_, fun hdown => ?_⟩
    · have hsent : s.abortTest e .cancelled = restoring.send m.port .release := habort.trans (if_pos hup)
      have hquad : restoring.quadUp m.port = true := by
        rw [← hup]
        exact State.quadUp_releaseSlot _ _ _
      exact ⟨hsent, by rw [hsent, State.mode_send_release hquad]⟩
    · exact habort.trans (if_neg (by simp [hdown]))

end Sys2Proof.Machine
end

