-- ==== Sys2Proof/Proofs/Codes.lean ====
section
/-! PROOF. The named values of parameters and records (R180): flags, rates, rate sets, and the fields of a profile
record. -/

namespace Sys2Proof.Machine

theorem flagAt_eq_some_iff (b : List Byte) (k : Nat) (f : Bool) : flagAt b k = some f ↔ byteAt b k = f.toNat := by
  unfold flagAt
  split
  · next h => cases f <;> simp [h]
  · split
    · next h => cases f <;> simp [h]
    · cases f <;> simp_all

theorem flagAt_eq_none_iff (b : List Byte) (k : Nat) : flagAt b k = none ↔ 1 < byteAt b k := by
  unfold flagAt
  split
  · next h => simp [h]
  · split
    · next h => simp [h]
    · next h0 h1 => simpa using by omega

theorem Rate.code_inj (j k : Rate) (h : j.code = k.code) : j = k := by
  have hall : ∀ j ∈ Rate.all, ∀ k ∈ Rate.all, j.code = k.code → j = k := by decide
  exact hall j j.mem_all k k.mem_all h

theorem Rate.ofCode_eq_some_iff (n : Nat) (r : Rate) : Rate.ofCode n = some r ↔ r.code = n :=
  find?_code_eq_some_iff Rate.mem_all Rate.code_inj n r

theorem Rate.ofCode_eq_none_iff (n : Nat) : Rate.ofCode n = none ↔ ∀ r : Rate, r.code ≠ n :=
  find?_code_eq_none_iff Rate.mem_all n

theorem Rate.code_range (r : Rate) : 1 ≤ r.code ∧ r.code ≤ 5 := by cases r <;> decide

theorem Rate.exists_code {n : Nat} (h1 : 1 ≤ n) (h5 : n ≤ 5) : ∃ r : Rate, r.code = n := by
  have hcodes : ∀ k : Fin 6, 1 ≤ k.val → ∃ r ∈ Rate.all, r.code = k.val := by decide
  obtain ⟨r, -, hr⟩ := hcodes ⟨n, by omega⟩ h1
  exact ⟨r, hr⟩

theorem optionalRate_eq_some_iff (n : Nat) (f : Option Rate) :
    optionalRate n = some f ↔ n = (f.map Rate.code).getD 0 := by
  unfold optionalRate
  split
  · next h =>
    cases f with
    | none => simp [h]
    | some r =>
      have := r.code_range
      simp only [h, Option.some.injEq, reduceCtorEq, Option.map_some, Option.getD_some, false_iff]
      omega
  · next h =>
    cases f with
    | none => simp [h]
    | some r =>
      rw [Option.map_eq_some_iff]
      simp only [Option.some.injEq, exists_eq_right, Rate.ofCode_eq_some_iff, Option.map_some, Option.getD_some]
      exact eq_comm

theorem optionalRate_eq_none_iff (n : Nat) : optionalRate n = none ↔ 5 < n := by
  unfold optionalRate
  split
  · next h => simp [h]
  · next h =>
    rw [Option.map_eq_none_iff, Rate.ofCode_eq_none_iff]
    constructor
    · intro hnone
      refine Nat.lt_of_not_le fun hle => ?_
      obtain ⟨r, hr⟩ := Rate.exists_code (n := n) (by omega) (by omega)
      exact hnone r hr
    · intro hlt r hr
      have := r.code_range
      omega

theorem RateSet.ofByte_eq_some_iff (n : Nat) (set : RateSet) :
    RateSet.ofByte n = some set ↔ n < 32 ∧ set = Rate.all.filter fun r => n.testBit (r.code - 1) := by
  unfold RateSet.ofByte RateSet.ofPred
  split
  · next h => simp [h, eq_comm]
  · next h => simp [h]

/-- The fields of a profile record, each as its bytes state it (section 13.3). -/
theorem Profile.fields_eq_some_iff (b : List Byte) (g : Profile) : Profile.fields b = some g ↔
    byteAt b 0 = g.enabled.toNat ∧ byteAt b 1 = g.group.val
      ∧ (byteAt b 2 < 32 ∧ g.allowed = Rate.all.filter fun r => (byteAt b 2).testBit (r.code - 1))
      ∧ byteAt b 3 = (g.forced.map Rate.code).getD 0 ∧ g.nvp = natAt b 4 2 ∧ g.pathOffset = byteAt b 6
      ∧ g.nearBlank = byteAt b 7 ∧ g.threshold = natAt b 8 2 ∧ g.slope = byteAt b 10
      ∧ g.verifyWindow = natAt b 11 2 ∧ g.degradeThreshold = natAt b 13 2 ∧ g.backoffTime = natAt b 15 2
      ∧ byteAt b 17 = g.autoDiagnosis.toNat ∧ g.internalPriority = byteAt b 18
      ∧ byteAt b 19 = g.survey.toNat ∧ g.surveyInterval = natAt b 20 2 ∧ g.driftTolerance = natAt b 22 2
      ∧ g.magnitudeTolerance = natAt b 24 2 ∧ byteAt b 26 = g.protectLive.toNat := by
  simp only [Profile.fields, Option.bind_eq_bind, Option.bind_eq_some_iff, flagAt_eq_some_iff, finOf_eq_some_iff,
    RateSet.ofByte_eq_some_iff, optionalRate_eq_some_iff, Option.some.injEq]
  constructor
  · rintro ⟨enabled, h0, group, h1, allowed, h2, forced, h3, diagnosis, h17, survey, h19, live, h26, rfl⟩
    exact ⟨h0, h1.symm, h2, h3, rfl, rfl, rfl, rfl, rfl, rfl, rfl, rfl, h17, rfl, h19, rfl, rfl, rfl, h26⟩
  · rintro ⟨h0, h1, h2, h3, h4, h6, h7, h8, h10, h11, h13, h15, h17, h18, h19, h20, h22, h24, h26⟩
    refine ⟨_, h0, _, h1.symm, _, h2, _, h3, _, h17, _, h19, _, h26, ?_⟩
    rw [← h4, ← h6, ← h7, ← h8, ← h10, ← h11, ← h13, ← h15, ← h18, ← h20, ← h22, ← h24]

end Sys2Proof.Machine
end

