-- ==== Sys2Proof/Proofs/Restarts.lean ====
section
/-! PROOF. RETRAIN and SET_ADMIN (R9 to R11, R55, R56). -/

namespace Sys2Proof.Machine

/-! ### A port leaves its link state (R32) -/

/-- A port whose link state is left at the part's own doing: an attempt running is recorded ABANDONED, a port in UP
departs, and STOP_TRAIN is sent where training or a link runs. -/
def State.linkLeft (s : State) (p : Port) : State :=
  match s.link p with
  | .train | .verify =>
    (s.updTraining p fun t => t.noted (t.attemptRecord .abandoned t.margin)).send p .stopTrain
  | .up => (s.departUp p .portBusy).send p .stopTrain
  | .exchange => s.send p .stopTrain
  | _ => s

section Left

variable {s : State} {p : Port}

theorem State.link_noted (s : State) (p : Port) :
    (s.updTraining p fun t => t.noted (t.attemptRecord .abandoned t.margin)).link p = s.link p := by
  rw [State.link_updTraining_same]
  rfl

theorem State.linkLeft_running (h : s.link p = .train ∨ s.link p = .verify) : s.linkLeft p
    = (s.updTraining p fun t => t.noted (t.attemptRecord .abandoned t.margin)).send p .stopTrain := by
  rcases h with h | h <;> simp only [State.linkLeft, h]

theorem State.linkLeft_up (h : s.link p = .up) : s.linkLeft p = (s.departUp p .portBusy).send p .stopTrain := by
  simp only [State.linkLeft, h]

theorem State.linkLeft_exchange (h : s.link p = .exchange) : s.linkLeft p = s.send p .stopTrain := by
  simp only [State.linkLeft, h]

theorem State.linkLeft_silent (h : (s.link p).stopsTraining = false) : s.linkLeft p = s := by
  unfold State.linkLeft
  cases hl : s.link p <;> simp [hl, LinkState.stopsTraining] at h ⊢

theorem State.linkLeft_eq (s : State) (p : Port) :
    ((s.abandonAttempt p).departIfUp p .portBusy).stopTraining p (s.link p) = s.linkLeft p := by
  by_cases hrun : s.link p = .train ∨ s.link p = .verify
  · have hstops : (s.link p).stopsTraining = true := by rcases hrun with h | h <;> rw [h] <;> rfl
    have hdown : s.link p ≠ .up := by rcases hrun with h | h <;> simp [h]
    rw [State.linkLeft_running hrun, State.abandonAttempt_running hrun,
      State.departIfUp_down (by rw [State.link_noted]; exact hdown), State.stopTraining, if_pos hstops]
  · obtain ⟨ht, hv⟩ := not_or.mp hrun
    rw [State.abandonAttempt_none ht hv]
    by_cases hup : s.link p = .up
    · have hstops : (s.link p).stopsTraining = true := by rw [hup]; rfl
      rw [State.linkLeft_up hup, State.departIfUp, if_pos hup, State.stopTraining, if_pos hstops]
    · rw [State.departIfUp_down hup, State.stopTraining]
      by_cases hex : s.link p = .exchange
      · rw [State.linkLeft_exchange hex, hex]
        rfl
      · have hsilent : (s.link p).stopsTraining = false := by
          cases hl : s.link p <;> simp [hl] at ht hv hup hex ⊢ <;> rfl
        rw [State.linkLeft_silent hsilent, hsilent]
        rfl

theorem State.link_linkLeft (s : State) (p : Port) : (s.linkLeft p).link p = s.link p := by
  unfold State.linkLeft
  cases h : s.link p
  case train => rw [State.link_send, State.link_noted, h]
  case verify => rw [State.link_send, State.link_noted, h]
  case up =>
    rw [State.link_send, State.link, State.training_departUp]
    exact h
  case exchange => rw [State.link_send, h]
  all_goals exact h

end Left

/-! ### RETRAIN (R55, R56) -/

/-- The rates above a from rate, by its code. -/
theorem preDemotion_eq {code : Nat} {f : Option Rate} (h : optionalRate code = some f) :
    preDemotion f = Rate.all.filter fun r => decide (code ≠ 0 ∧ code < r.code) := by
  rw [optionalRate_eq_some_iff] at h
  subst h
  cases f with
  | none => rfl
  | some r => cases r <;> rfl

section Retrain

variable {c : Call} {p : Port} {s : State}

theorem Call.retrain_badValue (h : 5 < byteAt c.params 1) : c.retrain p s = c.give .badValue s := by
  simp only [Call.retrain, (optionalRate_eq_none_iff _).mpr h]

variable {f : Option Rate} (hf : optionalRate (byteAt c.params 1) = some f)

include hf

theorem Call.retrain_off (h : s.link p = .off) : c.retrain p s = c.give .portDisabled s := by
  simp only [Call.retrain, hf, h]

theorem Call.retrain_noLine (h : s.link p = .noLine) : c.retrain p s = c.give .noLine s := by
  simp only [Call.retrain, hf, h]

theorem Call.retrain_held (h : s.link p = .held) : c.retrain p s = c.give .portBusy s := by
  simp only [Call.retrain, hf, h]

theorem Call.retrain_restarts (h : s.link p ∉ [LinkState.off, .noLine, .held]) :
    c.retrain p s = c.give .ok (s.restart p f) := by
  simp only [Call.retrain, hf]
  cases hl : s.link p <;> simp [hl] at h ⊢

end Retrain

theorem State.restart_eq {code : Nat} {f : Option Rate} (hf : optionalRate code = some f) (s : State) (p : Port) :
    s.restart p f = ((s.linkLeft p).updTraining p fun x =>
      { x with demoted := Rate.all.filter fun r => decide (code ≠ 0 ∧ code < r.code) }).beginExchange false p := by
  rw [State.restart, State.linkLeft_eq, preDemotion_eq hf]

theorem State.passes.retrain {s t u : State} {c : Call} {p : Port} (h : s.passes 8 2 .operator c t)
    (hn : c.names c.disturbSet p) (hbody : c.retrain p t = u) : HasEffect .retrain s u :=
  h.effect (body := fun c => c.onPort c.disturbSet c.retrain) ((Call.onPort_named hn).trans hbody)

theorem State.passes.retrain_refused {s t : State} {c : Call} {p : Port} (h : s.passes 8 2 .operator c t)
    (hn : c.names c.disturbSet p) {code : ResultCode} (hbody : c.retrain p t = c.give code t) :
    Refuses .retrain s c t code :=
  h.answered (body := fun c => c.onPort c.disturbSet c.retrain) ((Call.onPort_named hn).trans hbody)

/-! ### The administrative field (R9 to R11) -/

section Admin

variable {s : State} {p : Port}

theorem State.disablePort_stays (h : s.link p = .held ∨ s.link p = .noLine ∨ s.link p = .off) :
    s.disablePort p = s := by
  rcases h with h | h | h <;> simp only [State.disablePort, h]

theorem State.disablePort_leaves (h : s.link p ∉ [LinkState.off, .noLine, .held]) : s.disablePort p
    = s.leavingTrain p (((s.linkLeft p).updTraining p fun t => t.quieted .off).send p .silence) := by
  have hleaves : s.disablePort p
      = (((s.abandonAttempt p).departIfUp p .portBusy).stopTraining p (s.link p)).enterOff p := by
    unfold State.disablePort
    cases hl : s.link p <;> simp [hl] at h ⊢
  rw [hleaves, State.linkLeft_eq, State.enterOff_eq, State.leavingTrain_congr _ s _ _ (State.link_linkLeft s p),
    State.send_leavingTrain]

theorem State.enablePort_off (h : s.link p = .off) : s.enablePort p = (s.send p .release).enterListen p := if_pos h

theorem State.enablePort_other (h : s.link p ≠ .off) : s.enablePort p = s := if_neg h

theorem State.adminStored_same (s : State) (p : Port) (b : Bool) : s.adminStored p b b = s := by
  cases b <;> rfl

/-- admin stored on a port, with nothing else done. -/
def State.adminSet (s : State) (p : Port) (now : Bool) : State :=
  s.updPort p fun x => { x with profile := { x.profile with enabled := now } }

theorem State.adminSet_same {now : Bool} (h : (s.profile p).enabled = now) : s.adminSet p now = s :=
  State.updPort_unchanged (by
    subst h
    rfl)

variable {c : Call}

theorem Call.setAdmin_badValue (h : 1 < byteAt c.params 1) : c.setAdmin p s = c.give .badValue s := by
  simp only [Call.setAdmin, (flagAt_eq_none_iff _ _).mpr h]

theorem Call.setAdmin_stored {now : Bool} (h : byteAt c.params 1 = now.toNat) :
    c.setAdmin p s = c.give .ok ((s.adminSet p now).adminStored p (s.profile p).enabled now) := by
  simp only [Call.setAdmin, (flagAt_eq_some_iff _ _ _).mpr h]
  rfl

end Admin

theorem State.passes.setAdmin {s t u : State} {c : Call} {p : Port} (h : s.passes 9 2 .admin c t)
    (hn : c.names c.disturbSet p) (hbody : c.setAdmin p t = u) : HasEffect .setAdmin s u :=
  h.effect (body := fun c => c.onPort c.disturbSet c.setAdmin) ((Call.onPort_named hn).trans hbody)

theorem State.passes.setAdmin_answered {s t : State} {c : Call} {p : Port} (h : s.passes 9 2 .admin c t)
    (hn : c.names c.disturbSet p) {code : ResultCode} (hbody : c.setAdmin p t = c.give code t) :
    Refuses .setAdmin s c t code :=
  h.answered (body := fun c => c.onPort c.disturbSet c.setAdmin) ((Call.onPort_named hn).trans hbody)

/-- Settles O50. -/
theorem portsRestartedAndSwitched : Obligations.PortsRestartedAndSwitched := by
  unfold Obligations.PortsRestartedAndSwitched
  intro left
  have hleft (s : State) (p : Port) : left s p = s.linkLeft p := rfl
  clear_value left
  refine ⟨fun s t c p h hn => ?_, fun s t c p h hn => ?_, fun s p => ⟨State.disablePort_stays, fun hl => ?_,
    State.enablePort_off, State.enablePort_other⟩⟩
  · intro code
    have hlink : t.link p = s.link p := by
      obtain ⟨rest, ht⟩ := h.taken
      rw [ht]
      rfl
    rw [← hlink, hleft]
    refine ⟨fun hbad => h.retrain_refused hn (Call.retrain_badValue hbad), fun hgood => ?_⟩
    obtain ⟨f, hf⟩ : ∃ f, optionalRate code = some f :=
      Option.ne_none_iff_exists'.mp (mt (optionalRate_eq_none_iff _).mp (Nat.not_lt.mpr hgood))
    refine ⟨fun hl => h.retrain_refused hn (Call.retrain_off hf hl),
      fun hl => h.retrain_refused hn (Call.retrain_noLine hf hl),
      fun hl => h.retrain_refused hn (Call.retrain_held hf hl), fun hl => ?_⟩
    rw [← State.restart_eq hf]
    exact h.retrain hn (Call.retrain_restarts hf hl)
  · intro stored done
    have hprofile : t.profile p = s.profile p := by
      obtain ⟨rest, ht⟩ := h.taken
      rw [ht]
      rfl
    rw [← hprofile]
    refine ⟨fun hbad => h.setAdmin_answered hn (Call.setAdmin_badValue hbad), fun hoff hen => ?_, fun hon hen => ?_,
      fun hsame hgood => ?_⟩
    · refine h.setAdmin hn ((Call.setAdmin_stored (now := false) hoff).trans ?_)
      rw [hen]
      rfl
    · refine h.setAdmin hn ((Call.setAdmin_stored (now := true) hon).trans ?_)
      rw [hen]
      rfl
    · have hcode : byteAt c.params 1 = (t.profile p).enabled.toNat := by
        rw [hsame]
        rcases (show byteAt c.params 1 = 0 ∨ byteAt c.params 1 = 1 by omega) with h0 | h1
        · rw [h0]
          rfl
        · rw [h1]
          rfl
      refine h.setAdmin_answered hn ((Call.setAdmin_stored hcode).trans ?_)
      rw [State.adminStored_same, State.adminSet_same rfl]
  · rw [hleft]
    exact State.disablePort_leaves hl

end Sys2Proof.Machine
end

