-- ==== Sys2Proof/Proofs/Profiles.lean ====
section
/-! PROOF. WRITE_PROFILE and the effects of a stored profile (R3 to R8, R10, R11, R151). -/

namespace Sys2Proof.Machine

/-! ### A profile record judged (R3 to R5) -/

theorem clampNat_eq (lo hi n : Nat) (h : lo ≤ hi) : clampNat lo hi n = max lo (min hi n) := by
  unfold clampNat
  (repeat' split) <;> omega

theorem Profile.clamped_eq (g : Profile) : g.clamped = g.intoRange := by
  simp only [Profile.clamped, Profile.intoRange, clampNat_eq _ _ _ (show 500 ≤ 900 by decide),
    clampNat_eq _ _ _ (show 100 ≤ 5000 by decide), clampNat_eq _ _ _ (show 1000 ≤ 60000 by decide),
    clampNat_eq _ _ _ (show 10 ≤ 3600 by decide), clampNat_eq _ _ _ (show 1 ≤ 1000 by decide),
    clampNat_eq _ _ _ (show 1 ≤ 1023 by decide)]

theorem Profile.acceptable_iff (g : Profile) : g.acceptable = true ↔ g.storable := by
  simp only [Profile.acceptable, Profile.storable, Bool.and_eq_true, Bool.not_eq_true', List.isEmpty_eq_false_iff,
    decide_eq_true_eq, and_assoc]
  refine and_congr_right fun _ => and_congr_left fun _ => ?_
  cases g.forced <;> simp

theorem Profile.decode_of_storable {b : List Byte} {g : Profile} (h : Profile.fields b = some g) (hg : g.storable) :
    Profile.decode b = some (g.intoRange, g.intoRange != g) := by
  simp only [Profile.decode, h, g.acceptable_iff.mpr hg, ← g.clamped_eq]
  rfl

theorem Profile.decode_eq_none {b : List Byte} (h : ∀ g, Profile.fields b = some g → ¬ g.storable) :
    Profile.decode b = none := by
  cases hb : Profile.fields b with
  | none => simp only [Profile.decode, hb]
  | some g =>
    simp only [Profile.decode, hb]
    exact if_neg (mt g.acceptable_iff.mp (h g hb))

theorem Profile.decode_eq_some_iff (b : List Byte) (x : Profile × Bool) : Profile.decode b = some x
    ↔ ∃ g, Profile.fields b = some g ∧ g.storable ∧ x = (g.intoRange, g.intoRange != g) := by
  constructor
  · intro h
    refine Classical.byContradiction fun hno => ?_
    have hnone : Profile.decode b = none := by
      refine Profile.decode_eq_none fun g hb hg => hno ⟨g, hb, hg, ?_⟩
      rw [Profile.decode_of_storable hb hg] at h
      exact (Option.some.inj h).symm
    simp [hnone] at h
  · rintro ⟨g, hb, hg, rfl⟩
    exact Profile.decode_of_storable hb hg

theorem LinkState.keepsGroup_iff (l : LinkState) :
    l.keepsGroup = true ↔ l ∈ [LinkState.train, .pendingTrain, .held] := by
  cases l <;> simp [LinkState.keepsGroup]

section WriteProfile

variable {c : Call} {p : Port} {s : State}

theorem Call.writeProfile_badValue (h : ∀ g, Profile.fields (c.params.drop 1) = some g → ¬ g.storable) :
    c.writeProfile p s = c.give .badValue s := by
  simp only [Call.writeProfile, Profile.decode_eq_none h]

variable {g : Profile} (hg : Profile.fields (c.params.drop 1) = some g) (hs : g.storable)

include hg hs

theorem Call.writeProfile_portBusy (h : g.group ≠ (s.profile p).group)
    (hl : s.link p ∈ [LinkState.train, .pendingTrain, .held]) : c.writeProfile p s = c.give .portBusy s := by
  simp only [Call.writeProfile, Profile.decode_of_storable hg hs]
  exact if_pos ⟨h, (LinkState.keepsGroup_iff _).mpr hl⟩

theorem Call.writeProfile_stored
    (h : g.group = (s.profile p).group ∨ s.link p ∉ [LinkState.train, .pendingTrain, .held]) :
    c.writeProfile p s
      = c.give (if g.intoRange = g then .ok else .okAdjusted) (s.storeProfile p g.intoRange) := by
  have hkept : ¬ (g.intoRange.group ≠ s.groupOf p ∧ (s.link p).keepsGroup = true) := by
    rintro ⟨hgroup, hkeeps⟩
    rcases h with h | h
    · exact hgroup h
    · exact h ((LinkState.keepsGroup_iff _).mp hkeeps)
  have hcode : (if g.intoRange != g then ResultCode.okAdjusted else .ok)
      = if g.intoRange = g then .ok else .okAdjusted := by
    by_cases heq : g.intoRange = g
    · rw [if_pos heq, if_neg (by simp [heq])]
    · rw [if_neg heq, if_pos (by simp [heq])]
  simp only [Call.writeProfile, Profile.decode_of_storable hg hs, if_neg hkept, Call.stored, hcode]

end WriteProfile

/-! ### The effects in their order (R8, R10, R11, R151) -/

theorem State.storeProfile_eq (s : State) (p : Port) (new : Profile) :
    s.storeProfile p new =
      (let old := s.profile p
      let stored := s.updPort p fun x => { x with profile := new }
      let grouped := if new.group = old.group then stored else stored.oweSelection.oweReservations
      ((grouped.ratesRemoved p old.allowed).adminStored p old.enabled new.enabled).surveyStored p old.survey
        new.survey) := by
  simp only [State.storeProfile, State.groupStored, eq_comm]

/-! ### A rate in use removed (R8) -/

section Removed

variable {s : State} {p : Port} {old : RateSet}

theorem removedRate_iff (old new : RateSet) (r : Rate) : removedRate old new r = true ↔ r ∈ old ∧ r ∉ new := by
  simp [removedRate]

/-- A rate that the profile no longer allows. -/
def State.rateRemoved (s : State) (p : Port) (old : RateSet) (r : Rate) : Prop :=
  r ∈ old ∧ r ∉ (s.profile p).allowed

theorem any_removedRate_iff (s : State) (p : Port) (old : RateSet) (x : Option Rate) :
    x.any (removedRate old (s.profile p).allowed) = true ↔ ∃ r, x = some r ∧ s.rateRemoved p old r := by
  cases x <;> simp [removedRate_iff, State.rateRemoved]

theorem list_any_removedRate_iff (s : State) (p : Port) (old : RateSet) (xs : List Rate) :
    xs.any (removedRate old (s.profile p).allowed) = true ↔ ∃ r ∈ xs, s.rateRemoved p old r := by
  simp [removedRate_iff, State.rateRemoved]

/-- What a removed rate does in each link state, by the rate that the state uses. -/
theorem State.ratesRemoved_eq (s : State) (p : Port) (old : RateSet) : s.ratesRemoved p old =
    match s.link p with
    | .up =>
      if (s.training p).current.any (removedRate old (s.profile p).allowed) then
        (((s.raise p .degradedProfile).departUp p .portBusy).send p .stopTrain).beginExchange false p
      else s
    | .exchange =>
      if (s.training p).ability.any (removedRate old (s.profile p).allowed) then s.beginExchange true p else s
    | .train | .verify =>
      if (s.training p).target.any (removedRate old (s.profile p).allowed) then
        (((s.abandonAttempt p).updTraining p fun x => { x with attempts := 0 }).send p
          .stopTrain).beginExchange false p
      else s
    | .pendingTrain =>
      if (s.training p).target.any (removedRate old (s.profile p).allowed) then s.beginExchange false p else s
    | .off | .noLine | .listen | .held | .backoff => s := rfl

theorem State.ratesRemoved_up (hl : s.link p = .up) (h : ∃ r, (s.training p).current = some r ∧ s.rateRemoved p old r) :
    s.ratesRemoved p old
      = (((s.raise p .degradedProfile).departUp p .portBusy).send p .stopTrain).beginExchange false p := by
  simp only [State.ratesRemoved_eq, hl, (any_removedRate_iff s p old _).mpr h, if_true]

theorem State.ratesRemoved_up_kept (hl : s.link p = .up)
    (h : ¬ ∃ r, (s.training p).current = some r ∧ s.rateRemoved p old r) : s.ratesRemoved p old = s := by
  simp only [State.ratesRemoved_eq, hl]
  exact if_neg (mt (any_removedRate_iff s p old _).mp h)

theorem State.ratesRemoved_exchange (hl : s.link p = .exchange)
    (h : ∃ r ∈ (s.training p).ability, s.rateRemoved p old r) : s.ratesRemoved p old = s.beginExchange true p := by
  simp only [State.ratesRemoved_eq, hl]
  exact if_pos ((list_any_removedRate_iff s p old _).mpr h)

theorem State.ratesRemoved_exchange_kept (hl : s.link p = .exchange)
    (h : ¬ ∃ r ∈ (s.training p).ability, s.rateRemoved p old r) : s.ratesRemoved p old = s := by
  simp only [State.ratesRemoved_eq, hl]
  exact if_neg (mt (list_any_removedRate_iff s p old _).mp h)

theorem State.ratesRemoved_running (hl : s.link p = .train ∨ s.link p = .verify)
    (h : ∃ r, (s.training p).target = some r ∧ s.rateRemoved p old r) : s.ratesRemoved p old
      = ((s.updTraining p fun t =>
        { t.noted (t.attemptRecord .abandoned t.margin) with attempts := 0 }).send p .stopTrain).beginExchange
          false p := by
  have hend : s.ratesRemoved p old
      = (((s.abandonAttempt p).updTraining p fun x => { x with attempts := 0 }).send p
        .stopTrain).beginExchange false p := by
    rcases hl with hl | hl <;> simp only [State.ratesRemoved_eq, hl, (any_removedRate_iff s p old _).mpr h, if_true]
  rw [hend, State.abandonAttempt_running hl, State.updTraining_twice]

theorem State.ratesRemoved_pending (hl : s.link p = .pendingTrain)
    (h : ∃ r, (s.training p).target = some r ∧ s.rateRemoved p old r) :
    s.ratesRemoved p old = s.beginExchange false p := by
  simp only [State.ratesRemoved_eq, hl]
  exact if_pos ((any_removedRate_iff s p old _).mpr h)

theorem State.ratesRemoved_target_kept (hl : s.link p ∈ [LinkState.train, .verify, .pendingTrain])
    (h : ¬ ∃ r, (s.training p).target = some r ∧ s.rateRemoved p old r) : s.ratesRemoved p old = s := by
  have hkept := mt (any_removedRate_iff s p old (s.training p).target).mp h
  simp only [List.mem_cons, List.not_mem_nil, or_false] at hl
  rcases hl with hl | hl | hl
  all_goals
    simp only [State.ratesRemoved_eq, hl]
    exact if_neg hkept

theorem State.ratesRemoved_unused (hl : s.link p ∈ [LinkState.off, .noLine, .listen, .held, .backoff]) :
    s.ratesRemoved p old = s := by
  simp only [List.mem_cons, List.not_mem_nil, or_false] at hl
  rcases hl with hl | hl | hl | hl | hl <;> simp only [State.ratesRemoved_eq, hl]

end Removed

/-! ### The survey field (R151) -/

section Survey

variable {s : State} {p : Port} {x : QueueEntry}

theorem State.surveyStored_same (s : State) (p : Port) (b : Bool) : s.surveyStored p b b = s := by
  cases b <;> rfl

theorem State.surveyStored_on (hl : s.link p = .up) (hi : (s.survey p).state = .idle)
    (hs : (s.profile p).survey = true) : s.surveyStored p false true = s.updSurvey p fun r =>
      { r with state := .counting, surveyTimer := some (s.profile p).surveyInterval, graceTimer := none } := by
  refine (if_pos ⟨hl, hi⟩ : s.surveyOn p = _).trans (State.updSurvey_congr ?_)
  simp [surveyRestarted, hs]

theorem State.surveyStored_on_other (h : s.link p ≠ .up ∨ (s.survey p).state ≠ .idle) :
    s.surveyStored p false true = s := by
  have hno : ¬ (s.link p = .up ∧ (s.survey p).state = .idle) :=
    fun ⟨hup, hidle⟩ => h.elim (fun hn => hn hup) fun hn => hn hidle
  exact (if_neg hno : s.surveyOn p = s)

theorem State.surveyStored_off_none (h : s.surveyEntry p = none) :
    s.surveyStored p true false = s.updSurvey p fun _ => ⟨.idle, none, none, false⟩ := by
  show s.surveyOff p = _
  simp only [State.surveyOff, h]
  rfl

theorem State.surveyStored_off_internal (h : s.surveyEntry p = some x) (hx : x.external = none)
    (hw : x.state = .waiting) : s.surveyStored p true false
      = (s.updSurvey p fun _ => ⟨.idle, none, none, false⟩).removeEntry x.serial := by
  have hgoes : x.staysUnsurveyed = false := by simp [QueueEntry.staysUnsurveyed, hx, QueueEntry.waiting, hw]
  show s.surveyOff p = _
  simp only [State.surveyOff, h, hgoes]
  rfl

theorem State.surveyStored_off_stays (h : s.surveyEntry p = some x) (hx : x.external ≠ none ∨ x.state ≠ .waiting) :
    s.surveyStored p true false = s.updSurvey p fun r => { r with surveyTimer := none, pending := false } := by
  have hstays : x.staysUnsurveyed = true := by
    rw [QueueEntry.staysUnsurveyed, Bool.or_eq_true, Option.isSome_iff_ne_none]
    exact hx.imp_right fun hw => by simp [QueueEntry.waiting, hw]
  show s.surveyOff p = _
  simp only [State.surveyOff, h, hstays]
  rfl

end Survey

theorem State.passes.writeProfile {s t u : State} {c : Call} {p : Port} (h : s.passes 10 33 .admin c t)
    (hn : c.names c.disturbSet p) (hbody : c.writeProfile p t = u) : HasEffect .writeProfile s u :=
  h.effect (body := fun c => c.onPort c.disturbSet c.writeProfile) ((Call.onPort_named hn).trans hbody)

theorem State.passes.writeProfile_refused {s t : State} {c : Call} {p : Port} (h : s.passes 10 33 .admin c t)
    (hn : c.names c.disturbSet p) {code : ResultCode} (hbody : c.writeProfile p t = c.give code t) :
    Refuses .writeProfile s c t code :=
  h.answered (body := fun c => c.onPort c.disturbSet c.writeProfile) ((Call.onPort_named hn).trans hbody)

/-- Settles O51. -/
theorem profilesWritten : Obligations.ProfilesWritten := by
  refine ⟨fun s t c p h hn => ?_, State.storeProfile_eq, fun s p old => ?_, fun s p b =>
    ⟨s.adminStored_same p b, rfl, rfl⟩, fun s p => ⟨⟨s.surveyStored_same p true, s.surveyStored_same p false⟩,
      State.surveyStored_on, State.surveyStored_on_other, State.surveyStored_off_none, fun x hx =>
        ⟨State.surveyStored_off_internal hx, State.surveyStored_off_stays hx⟩⟩⟩
  · intro given
    have htaken : t.profile p = s.profile p ∧ t.link p = s.link p := by
      obtain ⟨rest, ht⟩ := h.taken
      rw [ht]
      exact ⟨rfl, rfl⟩
    rw [← htaken.1, ← htaken.2]
    refine ⟨fun hnone => h.writeProfile_refused hn (Call.writeProfile_badValue fun g hg => ?_), fun g hg => ?_⟩
    · exact absurd (hnone.symm.trans hg) (by simp)
    · refine ⟨fun hbad => h.writeProfile_refused hn (Call.writeProfile_badValue fun x hx => ?_), fun hs =>
        ⟨fun hgroup hl => h.writeProfile_refused hn (Call.writeProfile_portBusy hg hs hgroup hl),
          fun hfree => h.writeProfile hn (Call.writeProfile_stored hg hs hfree)⟩⟩
      rwa [← Option.some.inj (hg.symm.trans hx)]
  · intro removed aborted
    refine ⟨fun r hl hr hrem => State.ratesRemoved_up hl ⟨r, hr, hrem⟩, State.ratesRemoved_exchange,
      fun r hl hr hrem => State.ratesRemoved_running hl ⟨r, hr, hrem⟩,
      fun r hl hr hrem => State.ratesRemoved_pending hl ⟨r, hr, hrem⟩, fun hl hkept => ?_, fun hl hkept => ?_,
      fun hl hkept => ?_, State.ratesRemoved_unused⟩
    · exact State.ratesRemoved_up_kept hl fun ⟨r, hr, hrem⟩ => hkept r hr hrem
    · exact State.ratesRemoved_exchange_kept hl fun ⟨r, hr, hrem⟩ => hkept r hr hrem
    · exact State.ratesRemoved_target_kept hl fun ⟨r, hr, hrem⟩ => hkept r hr hrem

end Sys2Proof.Machine
end

