-- ==== Sys2Proof/Proofs/PlanRecords.lean ====
section
/-! PROOF. Plan entry records (R57, R59, R60, log 19): when a record is accepted, what it stores, and the class that
the table selects (R64, R65). -/

namespace Sys2Proof.Machine

/-! ### The places of a rate list (R59, R180) -/

theorem PlanRate.at_eq_some_iff (b : List Byte) (k : Nat) (x : PlanRate) : PlanRate.at b k = some x ↔
    x.rate.code = byteAt b (8 + 4 * k) ∧ x.limit = byteAt b (9 + 4 * k) ∧ x.margin = intAt b (10 + 4 * k) := by
  rw [PlanRate.at, Option.map_eq_some_iff]
  simp only [Rate.ofCode_eq_some_iff]
  constructor
  · rintro ⟨r, hr, rfl⟩
    exact ⟨hr, rfl, rfl⟩
  · rintro ⟨hr, hlimit, hmargin⟩
    exact ⟨x.rate, hr, by rw [← hlimit, ← hmargin]⟩

theorem PlanRate.at_isSome_iff (b : List Byte) (k : Nat) :
    (∃ x, PlanRate.at b k = some x) ↔ ∃ r : Rate, r.code = byteAt b (8 + 4 * k) := by
  simp only [PlanRate.at_eq_some_iff]
  constructor
  · rintro ⟨x, hr, -, -⟩
    exact ⟨x.rate, hr⟩
  · rintro ⟨r, hr⟩
    exact ⟨⟨r, _, _⟩, hr, rfl, rfl⟩

theorem PlanRate.list_eq_some_iff (b : List Byte) (n : Nat) (xs : List PlanRate) :
    PlanRate.list b n = some xs ↔ (List.range n).map (PlanRate.at b) = xs.map some := by
  induction n generalizing xs with
  | zero => cases xs <;> simp [PlanRate.list]
  | succ n ih =>
    simp only [PlanRate.list, Option.bind_eq_bind, Option.bind_eq_some_iff, ih, Option.some.injEq,
      List.range_succ, List.map_append, List.map_cons, List.map_nil]
    constructor
    · rintro ⟨front, hfront, last, hlast, rfl⟩
      simp [hfront, hlast]
    · intro h
      obtain ⟨front, ends, rfl, hfront, hends⟩ := List.map_eq_append_iff.mp h.symm
      obtain ⟨last, rfl, hlast⟩ := List.map_eq_singleton_iff.mp hends
      exact ⟨front, hfront.symm, last, hlast.symm, rfl⟩

/-- A rate list read: one place for each, in order. -/
structure PlanRate.Read (b : List Byte) (n : Nat) (xs : List PlanRate) : Prop where
  length : xs.length = n
  place : ∀ k x, xs[k]? = some x → PlanRate.at b k = some x

theorem PlanRate.read_iff (b : List Byte) (n : Nat) (xs : List PlanRate) :
    PlanRate.list b n = some xs ↔ PlanRate.Read b n xs := by
  rw [PlanRate.list_eq_some_iff]
  constructor
  · intro h
    have hlength : xs.length = n := by simpa using (congrArg List.length h).symm
    refine ⟨hlength, fun k x hx => ?_⟩
    have hk : k < n := hlength ▸ (List.getElem?_eq_some_iff.mp hx).1
    have hplace := congrArg (·[k]?) h
    simpa [List.getElem?_range hk, hx] using hplace
  · rintro ⟨hlength, hplace⟩
    refine List.ext_getElem? fun k => ?_
    by_cases hk : k < n
    · have hx : xs[k]? = some xs[k] := List.getElem?_eq_getElem (hlength ▸ hk)
      simp [List.getElem?_range hk, hx, hplace k _ hx]
    · rw [List.getElem?_eq_none (by simpa using hk), List.getElem?_eq_none (by simp [hlength]; omega)]

theorem PlanRate.list_exists {b : List Byte} {n : Nat}
    (h : ∀ k, k < n → ∃ r : Rate, r.code = byteAt b (8 + 4 * k)) : ∃ xs, PlanRate.list b n = some xs := by
  induction n with
  | zero => exact ⟨[], rfl⟩
  | succ n ih =>
    obtain ⟨front, hfront⟩ := ih fun k hk => h k (Nat.lt_succ_of_lt hk)
    obtain ⟨last, hlast⟩ := (PlanRate.at_isSome_iff b n).mpr (h n n.lt_succ_self)
    exact ⟨front ++ [last], by simp [PlanRate.list, hfront, hlast]⟩

theorem PlanRate.distinct_iff (xs : List PlanRate) :
    PlanRate.distinct xs = true ↔ xs.Pairwise fun x y => x.rate ≠ y.rate := by
  induction xs with
  | nil => simp [PlanRate.distinct]
  | cons x rest ih =>
    simp only [PlanRate.distinct, Bool.and_eq_true, Bool.not_eq_true', List.any_eq_false, beq_iff_eq, ih,
      List.pairwise_cons]
    exact and_congr_left fun _ => forall₂_congr fun y _ => not_congr eq_comm

section Read

variable {b : List Byte} {n : Nat} {xs : List PlanRate} (h : PlanRate.Read b n xs)

include h

theorem PlanRate.Read.getElem? {k : Nat} (hk : k < n) : ∃ x, xs[k]? = some x ∧ PlanRate.at b k = some x := by
  have hx : xs[k]? = some (xs[k]'(h.length ▸ hk)) := List.getElem?_eq_getElem _
  exact ⟨_, hx, h.place k _ hx⟩

theorem PlanRate.Read.distinct_iff : PlanRate.distinct xs = true
    ↔ ∀ j k, j < k → k < n → byteAt b (8 + 4 * j) ≠ byteAt b (8 + 4 * k) := by
  rw [PlanRate.distinct_iff, List.pairwise_iff_getElem]
  have hcode (k : Nat) (hk : k < xs.length) : xs[k].rate.code = byteAt b (8 + 4 * k) :=
    ((PlanRate.at_eq_some_iff b k _).mp (h.place k _ (List.getElem?_eq_getElem hk))).1
  constructor
  · intro hall j k hjk hk hcodes
    have hkx : k < xs.length := h.length ▸ hk
    refine hall j k (by omega) hkx hjk (Rate.code_inj _ _ ?_)
    rw [hcode, hcode, hcodes]
  · intro hall j k hj hk hjk hrates
    refine hall j k hjk (h.length ▸ hk) ?_
    rw [← hcode j hj, ← hcode k hk, hrates]

theorem PlanRate.Read.all_iff (f : PlanRate → Bool) :
    xs.all f = true ↔ ∀ k, k < n → ∀ x, PlanRate.at b k = some x → f x = true := by
  rw [List.all_eq_true]
  constructor
  · intro hall k hk x hx
    obtain ⟨y, hy, hat⟩ := h.getElem? hk
    obtain rfl : x = y := Option.some.inj (hx.symm.trans hat)
    exact hall x (List.mem_of_getElem? hy)
  · intro hall x hx
    obtain ⟨k, hk⟩ := List.getElem?_of_mem hx
    exact hall k (h.length ▸ (List.getElem?_eq_some_iff.mp hk).1) x (h.place k x hk)

theorem PlanRate.Read.limits_iff : (xs.all fun r => 1 ≤ r.limit && r.limit ≤ 8) = true
    ↔ ∀ k, k < n → 1 ≤ byteAt b (9 + 4 * k) ∧ byteAt b (9 + 4 * k) ≤ 8 := by
  rw [h.all_iff]
  constructor
  · intro hall k hk
    obtain ⟨x, -, hat⟩ := h.getElem? hk
    rw [← ((PlanRate.at_eq_some_iff b k x).mp hat).2.1]
    simpa using hall k hk x hat
  · intro hall k hk x hat
    simpa [((PlanRate.at_eq_some_iff b k x).mp hat).2.1] using hall k hk

end Read

/-! ### Margins clamped (R60) -/

theorem clampMargin_eq (m : Int) : clampMargin m = max (-100) (min 300 m) := by
  unfold clampMargin
  (repeat' split) <;> omega

theorem clampMargin_ne_iff (m : Int) : clampMargin m ≠ m ↔ m < -100 ∨ 300 < m := by
  unfold clampMargin
  (repeat' split) <;> omega

/-- A place of the rate list with its margin in its range. -/
def PlanRate.clamped (r : PlanRate) : PlanRate := { r with margin := clampMargin r.margin }

theorem PlanRate.clamped_ne_iff (r : PlanRate) : r.clamped ≠ r ↔ r.margin < -100 ∨ 300 < r.margin := by
  rw [← clampMargin_ne_iff]
  refine not_congr ?_
  obtain ⟨rate, limit, margin⟩ := r
  simp [PlanRate.clamped]

theorem PlanRate.Read.clamped_iff {b : List Byte} {n : Nat} {xs : List PlanRate} (h : PlanRate.Read b n xs) :
    (xs.map PlanRate.clamped != xs) = true
      ↔ ∃ k, k < n ∧ (intAt b (10 + 4 * k) < -100 ∨ 300 < intAt b (10 + 4 * k)) := by
  have hfixed : xs.map PlanRate.clamped = xs ↔ xs.all (fun r => r.clamped == r) = true := by
    rw [List.all_eq_true]
    simp only [beq_iff_eq]
    exact ⟨fun he r hr => List.map_inj_left.mp (he.trans (List.map_id xs).symm) r hr,
      fun hall => (List.map_inj_left.mpr hall).trans (List.map_id xs)⟩
  rw [bne_iff_ne, ne_eq, hfixed, h.all_iff]
  simp only [Classical.not_forall, exists_prop]
  refine exists_congr fun k => and_congr_right fun hk => ?_
  obtain ⟨x, -, hat⟩ := h.getElem? hk
  obtain ⟨-, -, hmargin⟩ := (PlanRate.at_eq_some_iff b k x).mp hat
  rw [← hmargin, ← x.clamped_ne_iff]
  constructor
  · rintro ⟨y, hy, hne⟩
    obtain rfl : x = y := Option.some.inj (hat.symm.trans hy)
    simpa using hne
  · intro hne
    exact ⟨x, hat, by simpa using hne⟩

/-! ### The description (R59 check 5) -/

/-- What entries 1 to 15 state of a cable. -/
def planDescribed (b : List Byte) : Prop :=
  byteAt b 1 = 1 ∧ 1 ≤ natAt b 2 2 ∧ natAt b 2 2 ≤ 4000 ∧ byteAt b 4 = 1 ∧ natAt b 5 2 < 512

/-- The description that a record gives. -/
def planDescription (index : Nat) (b : List Byte) : Option Nat × Option (List FaultClass) :=
  if index = 0 then (none, none)
  else (some (natAt b 2 2), some (FaultClass.all.filter fun c => (natAt b 5 2).testBit c.severity))

theorem PlanEntry.description_of_described {index : Nat} {b : List Byte} (h : index ≠ 0 → planDescribed b) :
    PlanEntry.description index b = some (planDescription index b) := by
  unfold PlanEntry.description planDescription
  split
  · rfl
  · next h0 =>
    obtain ⟨h1, hlow, hhigh, h4, h5⟩ := h h0
    simp [h1, h4, hlow, hhigh, toleratedOf, h5]

theorem PlanEntry.description_none {index : Nat} {b : List Byte} (h0 : index ≠ 0) (h : ¬ planDescribed b) :
    PlanEntry.description index b = none := by
  refine (if_neg h0).trans ?_
  split
  · next hc =>
    simp only [Bool.and_eq_true, decide_eq_true_eq] at hc
    obtain ⟨⟨⟨h1, h4⟩, hlow⟩, hhigh⟩ := hc
    have h5 : ¬ natAt b 5 2 < 512 := fun h5 => h ⟨h1, hlow, hhigh, h4, h5⟩
    simp [toleratedOf, h5]
  · rfl

/-! ### A record accepted (R59) -/

theorem planAcceptable_iff {index : Nat} {b : List Byte} {inUse : Bool} {xs : List PlanRate}
    (hin : byteAt b 0 = inUse.toNat) (hxs : PlanRate.Read b (byteAt b 7) xs) :
    planAcceptable index b ↔ (index ≠ 0 → planDescribed b)
      ∧ (index ≤ 15 && (inUse || index != 0) && 1 ≤ byteAt b 7 && byteAt b 7 ≤ 5 && PlanRate.distinct xs
        && xs.all (fun r => 1 ≤ r.limit && r.limit ≤ 8)) = true := by
  have hrates : ∀ k, k < byteAt b 7 → ∃ r : Rate, r.code = byteAt b (8 + 4 * k) := fun k hk => by
    obtain ⟨x, -, hat⟩ := hxs.getElem? hk
    exact (PlanRate.at_isSome_iff b k).mp ⟨x, hat⟩
  have hfirst : (index = 0 → byteAt b 0 = 1) ↔ (inUse || index != 0) = true := by
    rw [hin]
    cases inUse <;> simp
  have hflag : byteAt b 0 ≤ 1 := by
    rw [hin]
    cases inUse <;> decide
  have hlimits : (∀ k, k < byteAt b 7 → (∃ r : Rate, r.code = byteAt b (8 + 4 * k)) ∧ 1 ≤ byteAt b (9 + 4 * k)
      ∧ byteAt b (9 + 4 * k) ≤ 8) ↔ (xs.all fun r => 1 ≤ r.limit && r.limit ≤ 8) = true := by
    rw [hxs.limits_iff]
    exact ⟨fun h k hk => (h k hk).2, fun h k hk => ⟨hrates k hk, h k hk⟩⟩
  simp only [planAcceptable, planDescribed, hfirst, hflag, hlimits, ← hxs.distinct_iff, Bool.and_eq_true,
    decide_eq_true_eq, true_and, Nat.lt_succ_iff (n := 15)]
  exact ⟨fun ⟨hindex, hfilled, hsome, hfive, hplaces, honce, hdescribed⟩ =>
      ⟨hdescribed, ⟨⟨⟨⟨hindex, hfilled⟩, hsome⟩, hfive⟩, honce⟩, hplaces⟩,
    fun ⟨hdescribed, ⟨⟨⟨⟨hindex, hfilled⟩, hsome⟩, hfive⟩, honce⟩, hplaces⟩ =>
      ⟨hindex, hfilled, hsome, hfive, hplaces, honce, hdescribed⟩⟩

/-- The entry that an acceptable record gives, and whether a margin was clamped. -/
theorem PlanEntry.decode_of_acceptable {index : Nat} {b : List Byte} (h : planAcceptable index b) :
    ∃ inUse xs, byteAt b 0 = Bool.toNat inUse ∧ PlanRate.Read b (byteAt b 7) xs
      ∧ PlanEntry.decode index b = some (⟨inUse, (planDescription index b).1, (planDescription index b).2,
        xs.map PlanRate.clamped⟩, xs.map PlanRate.clamped != xs) := by
  have hacceptable := h
  obtain ⟨-, hflag, -, -, -, hplaces, -, -⟩ := h
  obtain ⟨inUse, hin⟩ : ∃ f : Bool, byteAt b 0 = f.toNat := by
    rcases Nat.le_one_iff_eq_zero_or_eq_one.mp hflag with h0 | h1
    · exact ⟨false, h0⟩
    · exact ⟨true, h1⟩
  obtain ⟨xs, hxs⟩ := PlanRate.list_exists fun k hk => (hplaces k hk).1
  have hread := (PlanRate.read_iff b _ xs).mp hxs
  obtain ⟨hdescribed, hchecks⟩ := (planAcceptable_iff hin hread).mp hacceptable
  refine ⟨inUse, xs, hin, hread, ?_⟩
  simp only [PlanEntry.decode, (flagAt_eq_some_iff b 0 inUse).mpr hin, PlanEntry.description_of_described hdescribed,
    hxs, Option.bind_eq_bind, Option.bind_some]
  exact if_pos hchecks

theorem PlanEntry.acceptable_of_decode {index : Nat} {b : List Byte} {x : PlanEntry × Bool}
    (h : PlanEntry.decode index b = some x) : planAcceptable index b := by
  simp only [PlanEntry.decode, Option.bind_eq_bind, Option.bind_eq_some_iff, flagAt_eq_some_iff,
    PlanRate.read_iff] at h
  obtain ⟨inUse, hin, description, hdescription, xs, hread, hstored⟩ := h
  refine (planAcceptable_iff hin hread).mpr ⟨fun h0 => ?_, ?_⟩
  · refine Classical.byContradiction fun hnot => ?_
    simp [PlanEntry.description_none h0 hnot] at hdescription
  · refine Decidable.byContradiction fun hchecks => ?_
    rw [if_neg hchecks] at hstored
    simp at hstored

theorem PlanEntry.decode_eq_none {index : Nat} {b : List Byte} (h : ¬ planAcceptable index b) :
    PlanEntry.decode index b = none :=
  Option.eq_none_iff_forall_ne_some.mpr fun _ hx => h (PlanEntry.acceptable_of_decode hx)

/-- An acceptable record stores the entry that it states. -/
theorem PlanEntry.decode_stored {index : Nat} {b : List Byte} (h : planAcceptable index b) :
    ∃ e clamped, PlanEntry.decode index b = some (e, clamped) ∧ e.storedFrom index b
      ∧ (clamped = true ↔ ∃ k, k < byteAt b 7
        ∧ (intAt b (10 + 4 * k) < -100 ∨ 300 < intAt b (10 + 4 * k))) := by
  obtain ⟨inUse, xs, hin, hread, hdecode⟩ := PlanEntry.decode_of_acceptable h
  refine ⟨_, _, hdecode, ⟨?_, fun h0 => ?_, fun h0 => ?_, ?_, fun k x hx => ?_⟩, hread.clamped_iff⟩
  · rw [hin]
    cases inUse <;> rfl
  · simp [planDescription, h0]
  · simp [planDescription, h0]
  · simp [hread.length]
  · obtain ⟨y, hy, rfl⟩ : ∃ y, xs[k]? = some y ∧ y.clamped = x := by simpa using hx
    obtain ⟨hcode, hlimit, hmargin⟩ := (PlanRate.at_eq_some_iff b k y).mp (hread.place k y hy)
    exact ⟨hcode, hlimit, hmargin ▸ clampMargin_eq _⟩

/-- A record states one entry. -/
theorem PlanEntry.storedFrom_unique {index : Nat} {b : List Byte} {e f : PlanEntry} (he : e.storedFrom index b)
    (hf : f.storedFrom index b) : e = f := by
  obtain ⟨heUse, heZero, heOther, heLength, hePlace⟩ := he
  obtain ⟨hfUse, hfZero, hfOther, hfLength, hfPlace⟩ := hf
  obtain ⟨eUse, eMax, eTolerated, eRates⟩ := e
  obtain ⟨fUse, fMax, fTolerated, fRates⟩ := f
  simp only at heUse hfUse heZero hfZero heOther hfOther heLength hfLength hePlace hfPlace
  have hdescription : eMax = fMax ∧ eTolerated = fTolerated := by
    by_cases h0 : index = 0
    · exact ⟨(heZero h0).1.trans (hfZero h0).1.symm, (heZero h0).2.trans (hfZero h0).2.symm⟩
    · exact ⟨(heOther h0).1.trans (hfOther h0).1.symm, (heOther h0).2.trans (hfOther h0).2.symm⟩
  have hrates : eRates = fRates := by
    refine List.ext_getElem (heLength.trans hfLength.symm) fun k hk hk' => ?_
    obtain ⟨heCode, heLimit, heMargin⟩ := hePlace k _ (List.getElem?_eq_getElem hk)
    obtain ⟨hfCode, hfLimit, hfMargin⟩ := hfPlace k _ (List.getElem?_eq_getElem hk')
    have hcode := Rate.code_inj _ _ (heCode.trans hfCode.symm)
    generalize eRates[k] = x at *
    generalize fRates[k] = y at *
    obtain ⟨xr, xl, xm⟩ := x
    obtain ⟨yr, yl, ym⟩ := y
    simp only at heLimit hfLimit heMargin hfMargin hcode
    rw [heLimit, hfLimit, heMargin, hfMargin, hcode]
  rw [heUse, hfUse, hdescription.1, hdescription.2, hrates]

/-! ### WRITE_PLAN_ENTRY (R59, R60) -/

theorem State.SameBlocking.selectAllClasses (s : State) : s.SameBlocking s.selectAllClasses := by
  refine ⟨rfl, rfl, fun _ => rfl, fun p => ?_, fun p => ?_⟩
  · rw [State.groupOf, State.profile, State.port_selectAllClasses]
    rfl
  · rw [State.link, State.training, State.port_selectAllClasses]
    rfl

/-- An entry stored in the plan, with every port's class selected anew. -/
def State.planStored (s : State) (i : Fin 16) (e : PlanEntry) : State :=
  { s with plan := s.plan.set i e }.selectAllClasses

theorem State.SameBlocking.planStored (s : State) (i : Fin 16) (e : PlanEntry) : s.SameBlocking (s.planStored i e) :=
  .trans (t := { s with plan := s.plan.set i e }) ⟨rfl, rfl, fun _ => rfl, fun _ => rfl, fun _ => rfl⟩
    (.selectAllClasses _)

section WritePlanEntry

variable {c : Call} {s : State}

theorem Call.writePlanEntry_badValue (h : ¬ planAcceptable (byteAt c.params 0) (c.params.drop 1)) :
    c.writePlanEntry s = c.give .badValue s := by
  unfold Call.writePlanEntry
  rw [PlanEntry.decode_eq_none h]
  split
  · next hd => simp at hd
  · rfl

theorem Call.writePlanEntry_stored {i : Fin 16} {e : PlanEntry} {clamped : Bool} (hi : i.val = byteAt c.params 0)
    (h : PlanEntry.decode (byteAt c.params 0) (c.params.drop 1) = some (e, clamped)) :
    c.writePlanEntry s = c.give (if clamped then .okAdjusted else .ok) (s.planStored i e) := by
  simp only [Call.writePlanEntry, (finOf_eq_some_iff i).mpr hi, h]
  rfl

end WritePlanEntry

/-! ### Class selection (R64, R65) -/

theorem lengthInput_eq (report : Option CableReport) (summary : Option SurveySummary) :
    lengthInput report summary = (report.bind CableReport.length).or (summary.map SurveySummary.length) := by
  unfold lengthInput
  cases report.bind CableReport.length <;> rfl

theorem worstInput_eq (report : Option CableReport) :
    worstInput report = (report.map CableReport.worst).getD .normal := by cases report <;> rfl

theorem PlanEntry.fits_iff (e : PlanEntry) (length : Nat) (worst : FaultClass) : e.fits length worst = true
    ↔ e.inUse = true ∧ ∃ m t, e.maxLength = some m ∧ length ≤ m ∧ e.tolerated = some t ∧ worst ∈ t := by
  simp only [PlanEntry.fits, Bool.and_eq_true, Option.any_eq_true, decide_eq_true_eq, List.contains_iff_mem, and_assoc]
  refine and_congr_right fun _ => ?_
  constructor
  · rintro ⟨⟨m, hm, hle⟩, t, ht, hin⟩
    exact ⟨m, t, hm, hle, ht, hin⟩
  · rintro ⟨m, t, hm, hle, ht, hin⟩
    exact ⟨⟨m, hm, hle⟩, t, ht, hin⟩

/-- A plan entry among 1 to 15 whose limits the two inputs meet. -/
def planFits (plan : Vector PlanEntry 16) (length : Option Nat) (worst : FaultClass) (i : Fin 16) : Prop :=
  i ≠ 0 ∧ plan[i].inUse = true
    ∧ ∃ n m t, length = some n ∧ plan[i].maxLength = some m ∧ n ≤ m ∧ plan[i].tolerated = some t ∧ worst ∈ t

theorem mem_classIndices (i : Fin 16) : i ∈ classIndices ↔ i ≠ 0 := by
  revert i
  decide

theorem classIndices_pairwise : classIndices.Pairwise (· < ·) := (List.pairwise_lt_finRange 16).drop

section Select

variable {plan : Vector PlanEntry 16} {report : Option CableReport} {summary : Option SurveySummary}

theorem planFits_iff {n : Nat} (hn : lengthInput report summary = some n) (i : Fin 16) :
    planFits plan (lengthInput report summary) (worstInput report) i
      ↔ i ≠ 0 ∧ (plan[i]).fits n (worstInput report) = true := by
  rw [planFits, hn, PlanEntry.fits_iff]
  simp

theorem selectClass_least {i : Fin 16} (h : planFits plan (lengthInput report summary) (worstInput report) i)
    (hleast : ∀ j, j < i → ¬ planFits plan (lengthInput report summary) (worstInput report) j) :
    selectClass plan report summary = i := by
  obtain ⟨n, hn⟩ : ∃ n, lengthInput report summary = some n := by
    obtain ⟨-, -, n, -, -, hn, -⟩ := h
    exact ⟨n, hn⟩
  simp only [planFits_iff hn] at h hleast
  have hfound : classIndices.find? (fun i => (plan[i]).fits n (worstInput report)) = some i :=
    find?_eq_least classIndices_pairwise ((mem_classIndices i).mpr h.1) h.2 fun j hj hlt =>
      Bool.eq_false_iff.mpr fun hf => hleast j hlt ⟨(mem_classIndices j).mp hj, hf⟩
  simp only [selectClass, hn, hfound]
  rfl

theorem selectClass_default (h : ∀ i, ¬ planFits plan (lengthInput report summary) (worstInput report) i) :
    selectClass plan report summary = 0 := by
  cases hn : lengthInput report summary with
  | none => simp only [selectClass, hn]
  | some n =>
    simp only [planFits_iff hn] at h
    have hnone : classIndices.find? (fun i => (plan[i]).fits n (worstInput report)) = none := by
      rw [List.find?_eq_none]
      exact fun j hj hf => h j ⟨(mem_classIndices j).mp hj, hf⟩
    simp only [selectClass, hn, hnone]
    rfl

end Select

/-- Settles O52. -/
theorem planEntriesWritten : Obligations.PlanEntriesWritten := by
  refine ⟨fun s t c h => ?_, fun plan report summary => ?_⟩
  · intro b index stored
    refine ⟨fun hbad => h.answered (body := Call.writePlanEntry) (Call.writePlanEntry_badValue hbad),
      fun i hi hgood => ?_⟩
    obtain ⟨e, clamped, hdecode, hfrom, hclamped⟩ := PlanEntry.decode_stored hgood
    refine ⟨e, clamped, ?_, hfrom, hclamped⟩
    exact h.exact (body := Call.writePlanEntry) (Call.writePlanEntry_stored hi hdecode)
      ((State.SameBlocking.planStored t i e).trans (.answer _ _ _ _)) (State.answer_due _ _ _ _)
  · intro length worst fits
    have hfits (i : Fin 16) : fits i ↔ planFits plan (lengthInput report summary) (worstInput report) i := by
      rw [lengthInput_eq, worstInput_eq]
      rfl
    simp only [hfits]
    exact ⟨fun i => selectClass_least, selectClass_default⟩

end Sys2Proof.Machine
end

