-- ==== Sys2Proof/Proofs/SupervisionRecords.lean ====
section
/-! PROOF. Requester slot and station records (R153, R156, R180), and the requests that write the supervision unit
(R157, R167, R168, R173). -/

namespace Sys2Proof.Machine

theorem Role.ofCode_eq_some_iff (n : Nat) (r : Role) : Role.ofCode n = some r ↔ r.code = n := by
  have hall : ∀ r : Role, r ∈ [Role.observer, .operator, .admin] := by
    intro r
    cases r <;> decide
  have hinj : ∀ j ∈ [Role.observer, .operator, .admin], ∀ k ∈ [Role.observer, .operator, .admin],
      j.code = k.code → j = k := by decide
  exact find?_code_eq_some_iff hall (fun j k => hinj j (hall j) k (hall k)) n r

theorem Role.exists_code {n : Nat} (h : n ≤ 2) : ∃ r : Role, r.code = n := by
  match n, h with
  | 0, _ => exact ⟨.observer, rfl⟩
  | 1, _ => exact ⟨.operator, rfl⟩
  | 2, _ => exact ⟨.admin, rfl⟩

theorem Role.code_le (r : Role) : r.code ≤ 2 := by cases r <;> decide

theorem exists_flag {n : Nat} (h : n ≤ 1) : ∃ f : Bool, n = f.toNat := by
  match n, h with
  | 0, _ => exact ⟨false, rfl⟩
  | 1, _ => exact ⟨true, rfl⟩

/-! ### Requester slots (R153, R167) -/

theorem Requester.decode_eq_some_iff (b : List Byte) (i : RequesterId) (r : Requester) :
    Requester.decode b = some (i, r) ↔ i.val = byteAt b 0 ∧ requesterAcceptable b
      ∧ ∃ role : Role, role.code = byteAt b 9 ∧ r = Requester.ofRecord b role := by
  simp only [Requester.decode, Option.bind_eq_bind, Option.bind_eq_some_iff, finOf_eq_some_iff, flagAt_eq_some_iff,
    Role.ofCode_eq_some_iff]
  constructor
  · rintro ⟨slot, hslot, inUse, hin, wild, hwild, role, hrole, hstored⟩
    split at hstored
    next hchecks =>
      obtain ⟨rfl, rfl⟩ := Prod.mk.inj (Option.some.inj hstored)
      simp only [Bool.and_eq_true, bne_iff_ne, ne_eq, Fin.ext_iff, hslot, decide_eq_true_eq] at hchecks
      have hcode := role.code_le
      refine ⟨hslot, ⟨Nat.one_le_iff_ne_zero.mpr hchecks.1, by omega, by rw [hin]; cases inUse <;> decide,
        by rw [hwild]; cases wild <;> decide, hrole ▸ hcode, hchecks.2⟩, role, hrole, ?_⟩
      rw [Requester.ofRecord, hin, hwild]
      cases inUse <;> cases wild <;> rfl
    next => cases hstored
  · rintro ⟨hslot, ⟨h0, -, h1, h2, -, h22⟩, role, hrole, rfl⟩
    obtain ⟨inUse, hin⟩ := exists_flag h1
    obtain ⟨wild, hwild⟩ := exists_flag h2
    refine ⟨i, hslot, inUse, hin, wild, hwild, role, hrole, ?_⟩
    have hne : i ≠ 0 := by
      rintro rfl
      simp only [Fin.val_zero] at hslot
      omega
    rw [if_pos (by simp [hne, h22]), Requester.ofRecord, hin, hwild]
    cases inUse <;> cases wild <;> rfl

theorem Requester.decode_eq_none {b : List Byte} (h : ¬ requesterAcceptable b) : Requester.decode b = none :=
  Option.eq_none_iff_forall_ne_some.mpr fun x hx => h ((Requester.decode_eq_some_iff b x.1 x.2).mp hx).2.1

/-! ### The station (R156, R157) -/

theorem byteAt_nil (k : Nat) : byteAt [] k = 0 := rfl

/-- The first byte of a six-byte field that is there. -/
theorem natAt_div_first {b : List Byte} (h : 6 ≤ b.length) : natAt b 0 6 / 2 ^ 40 = byteAt b 0 := by
  cases b with
  | nil => simp at h
  | cons x rest =>
    have hrest : (rest.take 5).length = 5 := List.length_take_of_le (Nat.le_of_succ_le_succ h)
    have hlow := bytesNat_lt (rest.take 5)
    have hfield : natAt (x :: rest) 0 6 = 256 ^ 5 * x.toNat + bytesNat (rest.take 5) := by
      rw [natAt, List.drop_zero, List.take_succ_cons, bytesNat_cons, hrest]
    rw [hrest] at hlow
    rw [hfield, show byteAt (x :: rest) 0 = x.toNat from rfl]
    omega

theorem isGroupAddress_iff {b : List Byte} (h : 6 ≤ b.length) :
    isGroupAddress (BitVec.ofNat 48 (natAt b 0 6)) = false ↔ byteAt b 0 % 2 = 0 := by
  rw [← natAt_div_first h, isGroupAddress, BitVec.getLsbD_ofNat, Nat.testBit, Nat.shiftRight_eq_div_pow]
  simp

theorem length_of_natAt {b : List Byte} {k width : Nat} (h : natAt b k width ≠ 0) : k < b.length := by
  refine Nat.lt_of_not_le fun hlong => ?_
  exact h (by rw [natAt, List.drop_eq_nil_of_le hlong]; simp)

theorem natAt_past {b : List Byte} {k : Nat} (width : Nat) (h : b.length ≤ k) : natAt b k width = 0 := by
  rw [natAt, List.drop_eq_nil_of_le h]
  simp

/-- The checks of a station record but those of its two named values. -/
theorem station_checks_iff {b : List Byte} :
    (!isGroupAddress (BitVec.ofNat 48 (natAt b 0 6)) && 0x0600 ≤ natAt b 6 2 && 10 ≤ natAt b 16 2
        && natAt b 16 2 ≤ 1000 && 1 ≤ byteAt b 18 && byteAt b 18 ≤ 64 && 100 ≤ natAt b 19 2
        && natAt b 19 2 ≤ 10000) = true
      ↔ byteAt b 0 % 2 = 0 ∧ 0x0600 ≤ natAt b 6 2 ∧ 10 ≤ natAt b 16 2 ∧ natAt b 16 2 ≤ 1000
        ∧ 1 ≤ byteAt b 18 ∧ byteAt b 18 ≤ 64 ∧ 100 ≤ natAt b 19 2 ∧ natAt b 19 2 ≤ 10000 := by
  simp only [Bool.and_eq_true, Bool.not_eq_true', decide_eq_true_eq, and_assoc]
  by_cases hlong : 6 ≤ b.length
  · rw [isGroupAddress_iff hlong]
  · have hshort : natAt b 16 2 = 0 := natAt_past 2 (by omega)
    simp [hshort]

theorem Station.decode_eq_some_iff (b : List Byte) (x : Station) : Station.decode b = some x
    ↔ stationAcceptable b ∧ ∃ slot : Port, slot.val = byteAt b 15 ∧ x = Station.ofRecord b slot := by
  simp only [Station.decode, Option.bind_eq_bind, Option.bind_eq_some_iff, finOf_eq_some_iff, flagAt_eq_some_iff]
  constructor
  · rintro ⟨present, hpresent, slot, hslot, hstored⟩
    split at hstored
    next hchecks =>
      obtain ⟨h0, h6, hlow, hhigh, hcount⟩ := station_checks_iff.mp hchecks
      have hport := slot.isLt
      refine ⟨⟨h0, h6, by rw [hpresent]; cases present <;> decide, by omega, hlow, hhigh, hcount⟩, slot, hslot, ?_⟩
      rw [← Option.some.inj hstored, Station.ofRecord, hpresent]
      cases present <;> rfl
    next => cases hstored
  · rintro ⟨⟨h0, h6, h8, -, hlow, hhigh, hcount⟩, slot, hslot, rfl⟩
    obtain ⟨present, hpresent⟩ := exists_flag h8
    refine ⟨present, hpresent, slot, hslot, ?_⟩
    rw [if_pos (station_checks_iff.mpr ⟨h0, h6, hlow, hhigh, hcount⟩), Station.ofRecord, hpresent]
    cases present <;> rfl

theorem Station.decode_eq_none {b : List Byte} (h : ¬ stationAcceptable b) : Station.decode b = none :=
  Option.eq_none_iff_forall_ne_some.mpr fun x hx => h ((Station.decode_eq_some_iff b x).mp hx).1

/-! ### WRITE_REQUESTER, SET_STATION, RESET_PART (R157, R167, R168, R173) -/

section Written

variable {c : Call} {s : State}

theorem Call.writeRequester_badValue (h : ¬ requesterAcceptable c.params) :
    c.writeRequester s = c.give .badValue s := by
  simp only [Call.writeRequester, Requester.decode_eq_none h]

theorem Call.writeRequester_stored {i : RequesterId} {r : Role} (h : requesterAcceptable c.params)
    (hi : i.val = byteAt c.params 0) (hr : r.code = byteAt c.params 9) :
    c.writeRequester s = c.give .ok (s.updSupervision fun v =>
      { v with requesters := v.requesters.set i (Requester.ofRecord c.params r) }) := by
  have hdecode := (Requester.decode_eq_some_iff c.params i _).mpr ⟨hi, h, r, hr, rfl⟩
  simp only [Call.writeRequester, hdecode]
  rfl

theorem State.anyEvents_iff (s : State) : s.anyEvents = true ↔ s.notice.device ≠ ⟨none, none⟩
    ∨ ∃ p, (s.port p).events ≠ ⟨none, none, none, none, none, none, none, none⟩ := by
  simp [State.anyEvents, DeviceEvents.isEmpty, DeviceEvents.empty, PortEvents.isEmpty, PortEvents.empty,
    mem_allPorts]

theorem State.stationStored_starts (hi : s.notice.state = .idle)
    (hd : s.supervision.station.noticeDestination.isSome = true) (he : s.anyEvents = true) :
    s.stationStored = s.startHoldoff := if_pos (by simp [hi, hd, he])

theorem State.stationStored_stays
    (h : s.supervision.station.noticeDestination = none ∨ ¬ (s.notice.state = .idle ∧ s.anyEvents = true)) :
    s.stationStored = s := by
  refine if_neg fun hall => ?_
  simp only [Bool.and_eq_true, beq_iff_eq] at hall
  obtain ⟨⟨hi, hd⟩, he⟩ := hall
  rcases h with h | h
  · simp [h] at hd
  · exact h ⟨hi, he⟩

theorem Call.setStation_alreadySet (h : s.supervision.stationSet = true) :
    c.setStation s = c.give .alreadySet s := if_pos h

theorem Call.setStation_badValue (h : s.supervision.stationSet = false) (hb : ¬ stationAcceptable c.params) :
    c.setStation s = c.give .badValue s := by
  refine (if_neg (by simp [h])).trans ?_
  rw [Station.decode_eq_none hb]

theorem Call.setStation_stored {slot : Port} (h : s.supervision.stationSet = false)
    (hb : stationAcceptable c.params) (hslot : slot.val = byteAt c.params 15) :
    c.setStation s = c.give .ok (s.updSupervision fun v =>
      { v with station := Station.ofRecord c.params slot, stationSet := true }).stationStored := by
  refine (if_neg (by simp [h])).trans ?_
  rw [(Station.decode_eq_some_iff c.params _).mpr ⟨hb, slot, hslot, rfl⟩]

end Written

theorem Station.ofRecord_destination (b : List Byte) (slot : Port) :
    (Station.ofRecord b slot).noticeDestination.isSome = true ↔ byteAt b 8 = 1 := by
  unfold Station.ofRecord
  by_cases h : byteAt b 8 = 1 <;> simp [h]

/-- Settles O54. -/
theorem supervisionWritten : Obligations.SupervisionWritten := by
  refine ⟨fun s t c h => ?_, fun s t c h => ?_, fun s t c h => ⟨fun hc => ?_, fun hc => ?_⟩⟩
  · intro b
    refine ⟨fun hbad => h.answered (body := Call.writeRequester) (Call.writeRequester_badValue hbad),
      fun hgood i r hi hr => ?_⟩
    exact h.exact (body := Call.writeRequester) (Call.writeRequester_stored hgood hi hr)
      ((State.SameBlocking.updSupervision t _).trans (.answer _ _ _ _)) (State.answer_due _ _ _ _)
  · intro b idleWithEvents
    have htaken : t.supervision.stationSet = s.supervision.stationSet
        ∧ (idleWithEvents ↔ t.notice.state = .idle ∧ t.anyEvents = true) := by
      obtain ⟨rest, ht⟩ := h.taken
      rw [ht, State.anyEvents_iff]
      exact ⟨rfl, Iff.rfl⟩
    obtain ⟨hset, hidle⟩ := htaken
    rw [← hset]
    refine ⟨fun hs => h.answered (body := Call.setStation) (Call.setStation_alreadySet hs),
      fun hs hbad => h.answered (body := Call.setStation) (Call.setStation_badValue hs hbad),
      fun hs hgood slot hslot => ?_⟩
    intro stored
    have hbody : c.setStation t = c.give .ok stored.stationStored := Call.setStation_stored hs hgood hslot
    have hstored : t.SameBlocking stored := .updSupervision t _
    have hdestination := Station.ofRecord_destination b slot
    refine ⟨fun hd hi => ?_, fun hnot => ?_⟩
    · obtain ⟨hnotice, hevents⟩ := hidle.mp hi
      have hstarts : stored.stationStored = stored.startHoldoff :=
        State.stationStored_starts hnotice (hdestination.mpr hd) hevents
      rw [hstarts] at hbody
      exact h.exact (body := Call.setStation) hbody ((hstored.trans (.notice stored _)).trans (.answer _ _ _ _))
        (State.answer_due _ _ _ _)
    · have hstays : stored.stationStored = stored := by
        refine State.stationStored_stays (hnot.imp (fun h0 => ?_) (mt hidle.mpr))
        exact Option.not_isSome_iff_eq_none.mp (mt hdestination.mp (by omega))
      rw [hstays] at hbody
      exact h.exact (body := Call.setStation) hbody (hstored.trans (.answer _ _ _ _)) (State.answer_due _ _ _ _)
  · exact h.answered (body := Call.resetPart) (if_neg (by simp [hc]))
  · exact h.exact (body := Call.resetPart) (if_pos hc)
      ((State.SameBlocking.updSupervision t _).trans (.answer _ _ _ _)) (State.answer_due _ _ _ _)

end Sys2Proof.Machine
end

