-- ==== Sys2Proof/Proofs/Sections.lean ====
section
/-! PROOF. What the sections of the image give and store (R178, R183). -/

namespace Sys2Proof.Machine

/-! ### One record of each kind -/

theorem profileRecord_eq_some_iff (b : List Byte) (p : Port) (g : Profile) : profileRecord b = some (p, g) ↔
    p.val = byteAt b 0
      ∧ ∃ given, Profile.fields (b.drop 1) = some given ∧ given.storable ∧ g = given.intoRange := by
  unfold profileRecord
  constructor
  · intro h
    split at h
    next q d hq hd =>
      obtain ⟨rfl, rfl⟩ := Prod.mk.inj (Option.some.inj h)
      obtain ⟨given, hgiven, hstorable, rfl⟩ := (Profile.decode_eq_some_iff _ _).mp hd
      exact ⟨(finOf_eq_some_iff _).mp hq, given, hgiven, hstorable, rfl⟩
    next => cases h
  · rintro ⟨hp, given, hgiven, hstorable, rfl⟩
    rw [(finOf_eq_some_iff p).mpr hp, Profile.decode_of_storable hgiven hstorable]

theorem planRecord_eq_some_iff (b : List Byte) (i : Fin 16) (e : PlanEntry) : planRecord b = some (i, e) ↔
    i.val = byteAt b 0 ∧ planAcceptable i.val (b.drop 1) ∧ e.storedFrom i.val (b.drop 1) := by
  unfold planRecord
  constructor
  · intro h
    split at h
    next j d hj hd =>
      obtain ⟨rfl, rfl⟩ := Prod.mk.inj (Option.some.inj h)
      have hval := (finOf_eq_some_iff j).mp hj
      rw [← hval] at hd
      have hgood := PlanEntry.acceptable_of_decode hd
      obtain ⟨f, clamped, hdecode, hfrom, -⟩ := PlanEntry.decode_stored hgood
      obtain rfl : d = (f, clamped) := Option.some.inj (hd.symm.trans hdecode)
      exact ⟨hval, hgood, hfrom⟩
    next => cases h
  · rintro ⟨hval, hgood, hfrom⟩
    obtain ⟨f, clamped, hdecode, hstored, -⟩ := PlanEntry.decode_stored hgood
    rw [(finOf_eq_some_iff i).mpr hval, ← hval, hdecode, PlanEntry.storedFrom_unique hfrom hstored]

theorem signatureRecord_eq_some_iff (b : List Byte) (i : Fin 1024) (g : Signature) :
    signatureRecord b = some (i, g) ↔ i.val = natAt b 0 2 ∧ g.cls.severity = byteAt b 2 / 16 ∧ g.cls ≠ .normal
      ∧ g.cls ≠ .beyondReach ∧ g.confidence = byteAt b 2 % 16 := by
  have hgood : Signature.decode (byteAt b 2) = some g ↔ g.cls.severity = byteAt b 2 / 16 ∧ g.cls ≠ .normal
      ∧ g.cls ≠ .beyondReach ∧ g.confidence = byteAt b 2 % 16 := by
    rw [Signature.decode_eq_some_iff, FaultClass.storable_iff, and_assoc]
  rw [← hgood]
  unfold signatureRecord
  constructor
  · intro h
    split at h
    next j d hj hd =>
      obtain ⟨rfl, rfl⟩ := Prod.mk.inj (Option.some.inj h)
      exact ⟨(finOf_eq_some_iff _).mp hj, hd⟩
    next => cases h
  · rintro ⟨hi, hg⟩
    rw [(finOf_eq_some_iff i).mpr hi, hg]

theorem Geometry.decode_eq_some_iff (b : List Byte) (g : Geometry) :
    Geometry.decode b = some g ↔ g = Geometry.ofRecord b ∧ g.allowed := by
  by_cases h : (Geometry.ofRecord b).allowed
  · rw [Geometry.decode_of_allowed h, Option.some.injEq]
    exact ⟨fun he => ⟨he.symm, he ▸ h⟩, fun he => he.1.symm⟩
  · rw [Geometry.decode_of_not_allowed h]
    refine ⟨fun he => (nomatch he), ?_⟩
    rintro ⟨rfl, hg⟩
    exact absurd hg h

/-! ### Sections of one record -/

section Single

variable {s : State} {b : List Byte}

theorem State.applySection_lock (h : natAt b 0 2 ≤ 1024 ∧ natAt b 0 2 % 16 = 0) : s.applySection .lock [b]
    = some { s with signatures := { s.signatures with lock := natAt b 0 2 } } := by
  simp [State.applySection, (lockAcceptable_iff _).mpr h]

theorem State.applySection_lock_none (h : ¬ (natAt b 0 2 ≤ 1024 ∧ natAt b 0 2 % 16 = 0)) :
    s.applySection .lock [b] = none := by
  simp [State.applySection, mt (lockAcceptable_iff _).mp h]

/-- The decoding of one record. -/
theorem decodeAll_singleton {α : Type} (f : List Byte → Option α) (b : List Byte) :
    decodeAll f [b] = (f b).map fun x => [x] := by
  cases h : f b <;> simp [decodeAll, h]

theorem State.applySection_geometry (s : State) (b : List Byte) : s.applySection .geometry [b]
    = (Geometry.decode b).map fun g => { s with signatures := { s.signatures with geometry := g } } := by
  simp only [State.applySection, decodeAll_singleton, Option.map_map]
  rfl

theorem State.applySection_station (s : State) (b : List Byte) : s.applySection .station [b]
    = (Station.decode b).map fun x => s.updSupervision fun v => { v with station := x } := by
  simp only [State.applySection, decodeAll_singleton, Option.map_map]
  rfl

end Single

/-! ### Sections of tables -/

theorem noneTwice_iff (ns : List Nat) : noneTwice ns = true ↔ ns.Nodup := by
  induction ns with
  | nil => simp [noneTwice]
  | cons n rest ih => simp [noneTwice, ih]

theorem onceEach_nodup {K V : Type} {key : K → Nat} (hkey : Function.Injective key) {xs : List (K × V)}
    (h : (xs.map Prod.fst).Nodup) : onceEach (fun x => key x.1) xs = some xs := by
  refine if_pos ((noneTwice_iff _).mpr ?_)
  have hkeys : xs.map (fun x => key x.1) = (xs.map Prod.fst).map key := by rw [List.map_map]; rfl
  rw [hkeys]
  exact List.pairwise_map.mpr (h.imp fun hne he => hne (hkey he))

theorem onceEach_twice {K V : Type} {key : K → Nat} {xs : List (K × V)} (h : ¬ (xs.map Prod.fst).Nodup) :
    onceEach (fun x => key x.1) xs = none := by
  refine if_neg fun hn => h ?_
  have hkeys : xs.map (fun x => key x.1) = (xs.map Prod.fst).map key := by rw [List.map_map]; rfl
  rw [noneTwice_iff, hkeys] at hn
  exact (List.pairwise_map.mp hn).imp fun hne he => hne (congrArg key he)

theorem decodeAll_eq_none {α : Type} {f : List Byte → Option α} {bs : List (List Byte)} (h : none ∈ bs.map f) :
    decodeAll f bs = none := by
  refine Option.eq_none_iff_forall_ne_some.mpr fun xs hxs => ?_
  rw [(decodeAll_eq_some_iff f bs xs).mp hxs] at h
  simp at h

/-- A section whose decoded records are stored one for each name. -/
theorem SectionTable.of_store {K V : Type} {s : State} {kind : SectionKind} {decode : List Byte → Option (K × V)}
    {read : State → K → Option V} {key : K → Nat} (hkey : Function.Injective key) (store : List (K × V) → State)
    (happly : ∀ bs, s.applySection kind bs
      = ((decodeAll decode bs).bind (onceEach fun x => key x.1)).map store)
    (hstore : ∀ xs : List (K × V), SectionLeaves kind s (store xs)
      ∧ ((xs.map Prod.fst).Nodup → ∀ x ∈ xs, read (store xs) x.1 = some x.2)
      ∧ ∀ k, k ∉ xs.map Prod.fst → read (store xs) k = read s k) :
    SectionTable s kind decode read := by
  refine ⟨fun bs xs hxs => ?_, fun bs hnone => ?_⟩
  · rw [happly, (decodeAll_eq_some_iff decode bs xs).mpr hxs, Option.bind_some]
    refine ⟨fun hn => ?_, fun hn => ?_⟩
    · obtain ⟨hleaves, hread, hother⟩ := hstore xs
      exact ⟨store xs, by rw [onceEach_nodup hkey hn]; rfl, hleaves, hread hn, hother⟩
    · rw [onceEach_twice hn]
      rfl
  · rw [happly, decodeAll_eq_none hnone]
    rfl

/-! ### The tables stored -/

section FoldSet

variable {α β : Type} {n : Nat} (f : β → α)

theorem foldl_set_other (xs : List (Fin n × β)) (v : Vector α n) (k : Fin n) (h : k ∉ xs.map Prod.fst) :
    (xs.foldl (fun t x => t.set x.1 (f x.2)) v)[k] = v[k] := by
  induction xs generalizing v with
  | nil => rfl
  | cons x rest ih =>
    obtain ⟨hx, hrest⟩ := not_or.mp (mt List.mem_cons.mpr h)
    rw [List.foldl_cons, ih _ hrest]
    simp only [Fin.getElem_fin]
    exact Vector.getElem_set_ne _ _ (fun he => hx (Fin.ext he.symm))

theorem foldl_set_mem (xs : List (Fin n × β)) (v : Vector α n) (h : (xs.map Prod.fst).Nodup) (x : Fin n × β)
    (hx : x ∈ xs) : (xs.foldl (fun t x => t.set x.1 (f x.2)) v)[x.1] = f x.2 := by
  induction xs generalizing v with
  | nil => simp at hx
  | cons y rest ih =>
    obtain ⟨hy, hrest⟩ := List.nodup_cons.mp h
    rw [List.foldl_cons]
    rcases List.mem_cons.mp hx with rfl | hx
    · rw [foldl_set_other f rest _ _ hy]
      simp
    · exact ih _ hrest hx

end FoldSet

theorem sectionTable_plan (s : State) : SectionTable s .plan planRecord (fun t i => some t.plan[i]) :=
  .of_store (key := Fin.val) (fun _ _ => Fin.eq_of_val_eq)
    (fun xs => { s with plan := xs.foldl (fun t x => t.set x.1 x.2) s.plan }) (fun _ => rfl) fun xs =>
    ⟨⟨rfl, rfl, rfl, rfl, rfl, rfl, rfl, rfl, rfl, rfl, rfl, rfl, rfl, rfl, rfl, rfl, rfl, rfl, rfl,
        fun h => absurd rfl h, fun _ => rfl, fun _ => rfl, fun _ => ⟨rfl, fun _ => rfl⟩⟩,
      fun hn x hx => congrArg some (foldl_set_mem id xs s.plan hn x hx),
      fun k hk => congrArg some (foldl_set_other id xs s.plan k hk)⟩

theorem sectionTable_requesters (s : State) :
    SectionTable s .requesters Requester.decode (fun t r => some t.supervision.requesters[r]) :=
  .of_store (key := Fin.val) (fun _ _ => Fin.eq_of_val_eq)
    (fun xs => s.updSupervision fun v => v.withRequesters xs) (fun _ => rfl) fun xs =>
    ⟨⟨rfl, rfl, rfl, rfl, rfl, rfl, rfl, rfl, rfl, rfl, rfl, rfl, rfl, rfl, rfl, rfl, rfl, rfl, rfl,
        fun _ => rfl, fun h => absurd rfl h, fun _ => rfl, fun _ => ⟨rfl, fun _ => rfl⟩⟩,
      fun hn x hx => congrArg some (foldl_set_mem id xs s.supervision.requesters hn x hx),
      fun k hk => congrArg some (foldl_set_other id xs s.supervision.requesters k hk)⟩

theorem sectionTable_signatures (s : State) :
    SectionTable s .signatures signatureRecord (fun t i => t.signatures.entries[i]) :=
  .of_store (key := Fin.val) (fun _ _ => Fin.eq_of_val_eq)
    (fun xs => { s with signatures := s.signatures.withEntries xs }) (fun _ => rfl) fun xs =>
    ⟨⟨rfl, rfl, rfl, rfl, rfl, rfl, rfl, rfl, rfl, rfl, rfl, rfl, rfl, rfl, rfl, rfl, rfl, rfl, rfl,
        fun _ => rfl, fun _ => rfl, fun h => absurd rfl h, fun _ => ⟨rfl, fun _ => rfl⟩⟩,
      fun hn x hx => foldl_set_mem some xs s.signatures.entries hn x hx,
      fun k hk => foldl_set_other some xs s.signatures.entries k hk⟩

/-- Profiles stored one after another in the ports that they name. -/
def storeProfiles (xs : List (Port × Profile)) (s : State) : State :=
  xs.foldl (fun t x => t.updPort x.1 fun y => { y with profile := x.2 }) s

theorem storeProfiles_ports (xs : List (Port × Profile)) (s : State) :
    ∃ ports, storeProfiles xs s = { s with ports := ports }
      ∧ ∀ p : Port, ports[p] = { s.port p with profile := (ports[p]).profile } := by
  induction xs generalizing s with
  | nil => exact ⟨s.ports, rfl, fun _ => rfl⟩
  | cons x rest ih =>
    obtain ⟨ports, hports, hat⟩ := ih (s.updPort x.1 fun y => { y with profile := x.2 })
    refine ⟨ports, hports, fun p => (hat p).trans ?_⟩
    rw [State.port_updPort]
    split
    · next h => rw [h]
    · rfl

theorem profile_storeProfiles_other (xs : List (Port × Profile)) (s : State) (p : Port)
    (h : p ∉ xs.map Prod.fst) : (storeProfiles xs s).profile p = s.profile p := by
  induction xs generalizing s with
  | nil => rfl
  | cons x rest ih =>
    obtain ⟨hx, hrest⟩ := not_or.mp (mt List.mem_cons.mpr h)
    refine (ih (s.updPort x.1 fun y => { y with profile := x.2 }) hrest).trans ?_
    rw [State.profile, State.port_updPort, if_neg hx]
    rfl

theorem profile_storeProfiles_mem (xs : List (Port × Profile)) (s : State) (h : (xs.map Prod.fst).Nodup)
    (x : Port × Profile) (hx : x ∈ xs) : (storeProfiles xs s).profile x.1 = x.2 := by
  induction xs generalizing s with
  | nil => simp at hx
  | cons y rest ih =>
    obtain ⟨hy, hrest⟩ := List.nodup_cons.mp h
    rcases List.mem_cons.mp hx with rfl | hx
    · refine (profile_storeProfiles_other rest (s.updPort x.1 fun y => { y with profile := x.2 }) x.1 hy).trans ?_
      rw [State.profile, State.port_updPort_self]
    · exact ih _ hrest hx

theorem sectionLeaves_profiles (xs : List (Port × Profile)) (s : State) :
    SectionLeaves .profiles s (storeProfiles xs s) := by
  obtain ⟨ports, hports, hat⟩ := storeProfiles_ports xs s
  rw [hports]
  exact ⟨rfl, rfl, rfl, rfl, rfl, rfl, rfl, rfl, rfl, rfl, rfl, rfl, rfl, rfl, rfl, rfl, rfl, rfl, rfl,
    fun _ => rfl, fun _ => rfl, fun _ => rfl, fun p => ⟨hat p, fun h => absurd rfl h⟩⟩

theorem sectionTable_profiles (s : State) :
    SectionTable s .profiles profileRecord (fun t p => some (t.profile p)) :=
  .of_store (key := Fin.val) (fun _ _ => Fin.eq_of_val_eq) (fun xs => storeProfiles xs s) (fun _ => rfl) fun xs =>
    ⟨sectionLeaves_profiles xs s, fun hn x hx => congrArg some (profile_storeProfiles_mem xs s hn x hx),
      fun k hk => congrArg some (profile_storeProfiles_other xs s k hk)⟩

/-- Settles O27. -/
theorem sectionValues : Obligations.SectionValues :=
  ⟨profileRecord_eq_some_iff, planRecord_eq_some_iff, signatureRecord_eq_some_iff, Requester.decode_eq_some_iff,
    Station.decode_eq_some_iff, Geometry.decode_eq_some_iff, fun s =>
    ⟨fun _ => ⟨State.applySection_lock, State.applySection_lock_none⟩, s.applySection_geometry,
      s.applySection_station, sectionTable_profiles s, sectionTable_plan s, sectionTable_requesters s,
      sectionTable_signatures s⟩⟩

end Sys2Proof.Machine
end

