-- ==== Sys2Proof/Proofs/Layouts.lean ====
section
/-! PROOF. Fields in byte lists (R180): bytes put together part after part hold each part at its offset. -/

namespace Sys2Proof.Machine

/-! ### Parts one after another -/

/-- Parts with the offsets at which they stand, the first at `o`. -/
def layout : Nat → List (List Byte) → List (Nat × List Byte)
  | _, [] => []
  | o, x :: rest => (o, x) :: layout (o + x.length) rest

@[simp] theorem layout_nil (o : Nat) : layout o [] = [] := rfl

@[simp] theorem layout_cons (o : Nat) (x : List Byte) (rest : List (List Byte)) :
    layout o (x :: rest) = (o, x) :: layout (o + x.length) rest := rfl

theorem Holds.cons {b : List Byte} {x : Nat × List Byte} {rest : List (Nat × List Byte)}
    (h : (b.drop x.1).take x.2.length = x.2) (hrest : Holds b rest) : Holds b (x :: rest) :=
  List.forall_mem_cons.mpr ⟨h, hrest⟩

theorem Holds.nil (b : List Byte) : Holds b [] := fun _ hx => absurd hx List.not_mem_nil

theorem Holds.subset {b : List Byte} {fields more : List (Nat × List Byte)} (h : Holds b more)
    (hsub : ∀ x ∈ fields, x ∈ more) : Holds b fields := fun x hx => h x (hsub x hx)

theorem holds_layout (pre post : List Byte) (parts : List (List Byte)) :
    Holds (pre ++ parts.flatten ++ post) (layout pre.length parts) := by
  induction parts generalizing pre with
  | nil => exact .nil _
  | cons x rest ih =>
    refine .cons ?_ ?_
    · simp
    · have hrest := ih (pre ++ x)
      rw [List.length_append] at hrest
      simpa using hrest

/-- Bytes that are parts one after another, between others, hold each part. -/
theorem Holds.between {b pre post : List Byte} {parts : List (List Byte)} {fields : List (Nat × List Byte)} (o : Nat)
    (hb : b = pre ++ parts.flatten ++ post) (ho : pre.length = o) (hf : ∀ x ∈ fields, x ∈ layout o parts) :
    Holds b fields := by
  subst hb ho
  exact (holds_layout pre post parts).subset hf

/-- Bytes that are parts one after another hold each part. -/
theorem Holds.parts {b : List Byte} {fields : List (Nat × List Byte)} (parts : List (List Byte))
    (hb : b = parts.flatten) (hf : ∀ x ∈ fields, x ∈ layout 0 parts) : Holds b fields :=
  .between (pre := []) (post := []) 0 (by simpa using hb) rfl hf

/-- A field of a part is a field of the whole. -/
theorem take_drop_within {b y x : List Byte} {o k : Nat} (h : (b.drop o).take y.length = y)
    (hk : k + x.length ≤ y.length) (hx : (y.drop k).take x.length = x) :
    (b.drop (o + k)).take x.length = x := by
  have hy := congrArg (List.drop k) h
  rw [List.drop_take, List.drop_drop] at hy
  rw [← hy, List.take_take, Nat.min_eq_left (by omega)] at hx
  exact hx

/-- Blocks of one length, one after another: each stands at its multiple. -/
theorem take_drop_flatten {w : Nat} {xs : List (List Byte)} (hw : ∀ x ∈ xs, x.length = w) {k : Nat} {x : List Byte}
    (hx : xs[k]? = some x) : (xs.flatten.drop (w * k)).take w = x := by
  induction xs generalizing k with
  | nil => simp at hx
  | cons y rest ih =>
    obtain ⟨hy, hrest⟩ := List.forall_mem_cons.mp hw
    cases k with
    | zero =>
      obtain rfl : y = x := by simpa using hx
      simp [← hy]
    | succ k =>
      have hat := ih hrest (by simpa using hx)
      rw [List.flatten_cons, Nat.mul_succ, Nat.add_comm, ← List.drop_drop, ← hy, List.drop_left, hy]
      exact hat

theorem length_flatten_blocks {w : Nat} {xs : List (List Byte)} (hw : ∀ x ∈ xs, x.length = w) :
    xs.flatten.length = w * xs.length := by
  induction xs with
  | nil => simp
  | cons x rest ih =>
    obtain ⟨hx, hrest⟩ := List.forall_mem_cons.mp hw
    rw [List.flatten_cons, List.length_append, hx, ih hrest, List.length_cons, Nat.mul_succ, Nat.add_comm]

/-! ### The lengths of the smallest parts -/

theorem byteOf_eq (n : Nat) : byteOf n = [BitVec.ofNat 8 n] := by simp [byteOf, natBytes]

@[simp] theorem byteOf_length (n : Nat) : (byteOf n).length = 1 := natBytes_length 1 n

@[simp] theorem flagByte_length (f : Bool) : (flagByte f).length = 1 := byteOf_length _

@[simp] theorem fill_length (n : Nat) : (fill n).length = n := List.length_replicate

@[simp] theorem intBytes_length (k : Nat) (x : Int) : (intBytes k x).length = k := natBytes_length ..

@[simp] theorem portSetBytes_length (set : PortSet) : (portSetBytes set).length = 6 := by
  simp [portSetBytes]

@[simp] theorem RateSet.byte_length (set : RateSet) : (RateSet.byte set).length = 1 := byteOf_length _

@[simp] theorem optionalRateByte_length (r : Option Rate) : (optionalRateByte r).length = 1 := byteOf_length _

@[simp] theorem pairsByte_length (set : List Pair) : (pairsByte set).length = 1 := byteOf_length _

@[simp] theorem optionalDistance_length (d : Option Nat) : (optionalDistance d).length = 2 := natBytes_length ..

@[simp] theorem checkBytes_length (b : List Byte) : (checkBytes b).length = 4 := by simp [checkBytes]

/-- Bytes of a number, the least significant first. -/
theorem natBytes_reverse_byteAt {i k : Nat} (n : Nat) (h : i < k) :
    byteAt (natBytes k n).reverse i = n / 256 ^ i % 256 := by
  have hmirror := natBytes_byteAt (i := k - 1 - i) (k := k) n (by omega)
  rw [show k - 1 - (k - 1 - i) = i by omega] at hmirror
  rw [← hmirror]
  simp only [byteAt]
  rw [List.getD_eq_getElem?_getD, List.getElem?_reverse (by simpa using h), natBytes_length,
    List.getD_eq_getElem?_getD]

theorem padTo_length (n : Nat) (b : List Byte) : (padTo n b).length = max n b.length := by
  rw [padTo, List.length_append, fill_length]
  omega

theorem byteAt_byteOf (n : Nat) : byteAt (byteOf n) 0 = n % 256 := by
  rw [byteOf_eq]
  exact BitVec.toNat_ofNat ..

/-- The byte at the offset of a field of one byte. -/
theorem Holds.byteAt {b : List Byte} {o n : Nat} (h : Holds b [(o, byteOf n)]) : byteAt b o = n % 256 := by
  have hfield : (b.drop (o * 1)).take 1 = byteOf n := by
    rw [Nat.mul_one]
    exact h (o, byteOf n) List.mem_cons_self
  rw [← byteAt_byteOf n, ← hfield, byteAt_take_drop]

/-! ### Signed values -/

theorem intBytes_two {x : Int} (hlow : -32768 ≤ x) (hhigh : x < 32768) :
    intBytes 2 x = natBytes 2 (if 0 ≤ x then x.toNat else (x + 65536).toNat) := by
  rw [intBytes]
  congr 1
  split <;> omega

theorem natAt_natBytes (k n : Nat) : natAt (natBytes k n) 0 k = n % 256 ^ k := by
  rw [natAt, List.drop_zero, List.take_of_length_le (Nat.le_of_eq (natBytes_length k n)), bytesNat_natBytes]

theorem intAt_intBytes {x : Int} (hlow : -32768 ≤ x) (hhigh : x < 32768) : intAt (intBytes 2 x) 0 = x := by
  rw [intBytes_two hlow hhigh]
  unfold intAt
  rw [natAt_natBytes]
  simp only []
  split <;> split at * <;> omega

end Sys2Proof.Machine
end

