-- ==== Sys2Proof/Proofs/FrameLayouts.lean ====
section
/-! PROOF. The frames that the part builds, their check sequence, and the entries of a reply (R180, R182). -/

namespace Sys2Proof.Machine

/-! ### The head of a frame (section 13.2) -/

theorem originated_parts (station : Station) (destination : Address) (kind tag count : Nat) (payload : List Byte) :
    originated station destination kind tag count payload
      = [natBytes 6 destination.toNat, natBytes 6 station.address.toNat, natBytes 2 station.ethertype.toNat, byteOf 1,
        byteOf kind, natBytes 2 tag, byteOf count, fill 1, natBytes 2 payload.length, payload].flatten := by
  simp [originated]

theorem originated_length (station : Station) (destination : Address) (kind tag count : Nat) (payload : List Byte) :
    (originated station destination kind tag count payload).length = 22 + payload.length := by
  simp [originated_parts]
  omega

theorem originated_holds (station : Station) (destination : Address) (kind tag count : Nat) (payload : List Byte) :
    Holds (originated station destination kind tag count payload)
      [(0, natBytes 6 destination.toNat), (6, natBytes 6 station.address.toNat),
        (12, natBytes 2 station.ethertype.toNat), (14, byteOf 1), (15, byteOf kind), (16, natBytes 2 tag),
        (18, byteOf count), (19, fill 1), (20, natBytes 2 payload.length), (22, payload)] :=
  .parts _ (originated_parts ..) (by simp)

/-! ### The check sequence (R180) -/

theorem checkGood_iff (frame : List Byte) : checkGood frame = true ↔
    4 ≤ frame.length ∧ frame.drop (frame.length - 4) = checkBytes (frame.take (frame.length - 4)) := by
  simp [checkGood, frameBody]

theorem checkBytes_byteAt (b : List Byte) {i : Nat} (h : i < 4) :
    byteAt (checkBytes b) i = (checkValue b).toNat / 256 ^ i % 256 := natBytes_reverse_byteAt _ h

theorem checkValue_append (b : List Byte) (x : Byte) :
    checkValue (b ++ [x]) = ~~~ checkShift 8 (~~~ checkValue b ^^^ x.setWidth 32) := by
  simp [checkValue, List.foldl_append]

/-- The generator of the check sequence, its bits in reverse order. -/
theorem generator_reflected :
    ∀ i, i < 32 → (0xEDB88320#32).getLsbD i = (0x04C11DB7#32).getLsbD (31 - i) := by decide

/-! ### A frame sealed (R180, R182) -/

section Seal

variable (body : List Byte)

theorem sealFrame_parts : sealFrame body
    = [body, fill (60 - body.length), checkBytes (padTo 60 body)].flatten := by
  simp [sealFrame, padTo]

theorem sealFrame_length : (sealFrame body).length = max 64 (body.length + 4) := by
  simp only [sealFrame, List.length_append, padTo_length, checkBytes_length]
  omega

theorem sealFrame_take : (sealFrame body).take ((sealFrame body).length - 4) = padTo 60 body := by
  simp [sealFrame]

theorem sealFrame_drop : (sealFrame body).drop ((sealFrame body).length - 4) = checkBytes (padTo 60 body) := by
  simp [sealFrame]

theorem checkGood_sealFrame : checkGood (sealFrame body) = true := by
  rw [checkGood_iff, sealFrame_take, sealFrame_drop]
  exact ⟨by rw [sealFrame_length]; omega, rfl⟩

theorem sealFrame_holds : Holds (sealFrame body)
    [(0, body), (body.length, fill (60 - body.length)),
      ((sealFrame body).length - 4, checkBytes ((sealFrame body).take ((sealFrame body).length - 4)))] := by
  rw [sealFrame_take]
  have hend : (sealFrame body).length - 4 = body.length + (60 - body.length) := by
    rw [sealFrame_length]
    omega
  rw [hend]
  exact .parts _ (sealFrame_parts body) (by simp)

end Seal

/-! ### The entries of a reply (section 13.2) -/

section Reply

variable {e : ReplyEntry} {a : Answer} (i : Nat) (h : e.answer = some a)

include h

theorem ReplyEntry.encode_parts : e.encode i = [[e.code], byteOf a.code.code, natBytes 2 e.tag.toNat,
    natBytes 2 a.data.length, byteOf i, fill 1, a.data].flatten := by
  simp [ReplyEntry.encode, h]

theorem ReplyEntry.encode_length : (e.encode i).length = 8 + a.data.length := by
  simp [ReplyEntry.encode_parts i h]
  omega

theorem ReplyEntry.encode_holds : Holds (e.encode i)
    [(0, [e.code]), (1, byteOf a.code.code), (2, natBytes 2 e.tag.toNat), (4, natBytes 2 a.data.length),
      (6, byteOf i), (7, fill 1), (8, a.data)] :=
  .parts _ (ReplyEntry.encode_parts i h) (by simp)

end Reply

/-- Settles O59. -/
theorem framesLaidOut : Obligations.FramesLaidOut :=
  ⟨fun k n => ⟨natBytes_length k n, fun _ => natBytes_byteAt n, bytesNat_natBytes k n⟩,
    ⟨rfl, bytesNat_append_singleton⟩,
    fun b offset width => ⟨by rw [byteAt, List.getD_eq_getElem?_getD], rfl, rfl⟩,
    fun n => ⟨byteOf_eq n, rfl⟩, rfl, rfl, fun x hlow hhigh => ⟨intAt_intBytes hlow hhigh, intBytes_two hlow hhigh⟩,
    fun station destination kind tag count payload =>
      ⟨originated_length station destination kind tag count payload,
        originated_holds station destination kind tag count payload⟩,
    fun body => ⟨sealFrame_length body, checkGood_sealFrame body, sealFrame_holds body⟩,
    fun i => ⟨rfl, fun e rest => ⟨rfl, fun a h => ⟨ReplyEntry.encode_length i h, ReplyEntry.encode_holds i h⟩⟩⟩,
    checkGood_iff, fun b => ⟨checkBytes_length b, fun _ => checkBytes_byteAt b⟩, ⟨rfl, checkValue_append⟩,
    0xEDB88320#32, generator_reflected, fun n c => ⟨rfl, rfl⟩⟩

end Sys2Proof.Machine
end

