-- ==== Sys2Proof/Proofs/SetBytes.lean ====
section
/-! PROOF. Sets in bytes (R180): a member is a bit. -/

namespace Sys2Proof.Machine

/-! ### Sums of distinct powers of two -/

/-- A power of two added where its bit is clear sets that bit alone: nothing is carried. -/
theorem testBit_two_pow_add {i n : Nat} (h : n.testBit i = false) (k : Nat) :
    (2 ^ i + n).testBit k = (decide (k = i) || n.testBit k) := by
  induction i generalizing n k with
  | zero =>
    have heven : n % 2 = 0 := by simpa [Nat.testBit_zero] using h
    cases k with
    | zero =>
      have hodd : (2 ^ 0 + n) % 2 = 1 := by omega
      rw [Nat.testBit_zero, hodd, decide_eq_true rfl, decide_eq_true rfl, Bool.true_or]
    | succ k =>
      have hhalf : (2 ^ 0 + n) / 2 = n / 2 := by omega
      rw [Nat.testBit_succ, Nat.testBit_succ, hhalf, decide_eq_false (Nat.succ_ne_zero k), Bool.false_or]
  | succ i ih =>
    rw [Nat.testBit_succ] at h
    cases k with
    | zero =>
      have hlow : (2 ^ (i + 1) + n) % 2 = n % 2 := by omega
      rw [Nat.testBit_zero, Nat.testBit_zero, hlow, decide_eq_false (Nat.succ_ne_zero i).symm, Bool.false_or]
    | succ k =>
      have hhalf : (2 ^ (i + 1) + n) / 2 = 2 ^ i + n / 2 := by omega
      rw [Nat.testBit_succ, Nat.testBit_succ, hhalf, ih h k]
      simp

theorem testBit_sum_two_pow {ns : List Nat} (h : ns.Nodup) (k : Nat) :
    (ns.map fun i => 2 ^ i).sum.testBit k = true ↔ k ∈ ns := by
  induction ns generalizing k with
  | nil => simp
  | cons i rest ih =>
    obtain ⟨hi, hrest⟩ := List.nodup_cons.mp h
    have hclear : (rest.map fun i => 2 ^ i).sum.testBit i = false := by
      rw [← Bool.not_eq_true, ih hrest]
      exact hi
    rw [List.map_cons, List.sum_cons, testBit_two_pow_add hclear, Bool.or_eq_true, decide_eq_true_eq, ih hrest,
      List.mem_cons]

/-- A set whose members have different numbers: the number's bit is set for its members alone. -/
theorem testBit_sum_members {α : Type} {f : α → Nat} (hf : f.Injective) {set : List α} (h : set.Nodup) (x : α) :
    (set.map fun y => 2 ^ f y).sum.testBit (f x) = true ↔ x ∈ set := by
  have hmap : (set.map fun y => 2 ^ f y) = (set.map f).map fun i => 2 ^ i := by simp
  have hnodup : (set.map f).Nodup := List.pairwise_map.mpr (h.imp fun hne he => hne (hf he))
  rw [hmap, testBit_sum_two_pow hnodup, List.mem_map]
  exact ⟨fun ⟨_, hy, he⟩ => hf he ▸ hy, fun hx => ⟨x, hx, rfl⟩⟩

theorem testBit_mod_byte (n : Nat) {k : Nat} (hk : k < 8) : (n % 256).testBit k = n.testBit k := by
  rw [show 256 = 2 ^ 8 from rfl, Nat.testBit_mod_two_pow, decide_eq_true hk, Bool.true_and]

/-- The byte of such a set, with numbers below 8. -/
theorem testBit_byteOf_members {α : Type} {f : α → Nat} (hf : f.Injective) {set : List α} (h : set.Nodup) {x : α}
    (hx : f x < 8) : (byteAt (byteOf (set.map fun y => 2 ^ f y).sum) 0).testBit (f x) = true ↔ x ∈ set := by
  rw [byteAt_byteOf, testBit_mod_byte _ hx, testBit_sum_members hf h]

/-! ### Rates, pairs, classes and sections -/

theorem Rate.bit_injective : Function.Injective fun r : Rate => r.code - 1 := by
  intro j k h
  have hj := j.code_range
  have hk := k.code_range
  exact Rate.code_inj j k (by simp only [] at h; omega)

theorem RateSet.testBit_byte {set : RateSet} (h : set.Nodup) (r : Rate) :
    (byteAt (RateSet.byte set) 0).testBit (r.code - 1) = true ↔ r ∈ set :=
  testBit_byteOf_members Rate.bit_injective h (by have := r.code_range; omega)

theorem mem_pairs (x : Pair) : x ∈ Pair.all := by cases x <;> decide

theorem pairIndex_injective : Function.Injective fun x : Pair => x.index.val := by
  have hall : ∀ x ∈ Pair.all, ∀ y ∈ Pair.all, x.index.val = y.index.val → x = y := by decide
  exact fun x y => hall x (mem_pairs x) y (mem_pairs y)

theorem testBit_pairsByte {set : List Pair} (h : set.Nodup) (x : Pair) :
    (byteAt (pairsByte set) 0).testBit x.index.val = true ↔ x ∈ set :=
  testBit_byteOf_members pairIndex_injective h (Nat.lt_trans x.index.isLt (by decide))

theorem mem_pairsOfByte (n : Nat) (x : Pair) : x ∈ pairsOfByte n ↔ n.testBit x.index.val = true := by
  simp [pairsOfByte, mem_pairs]

theorem FaultClass.mem_all (c : FaultClass) : c ∈ FaultClass.all := by cases c <;> decide

theorem FaultClass.severity_injective : FaultClass.severity.Injective := by
  have hall : ∀ x ∈ FaultClass.all, ∀ y ∈ FaultClass.all, x.severity = y.severity → x = y := by decide
  exact fun x y => hall x x.mem_all y y.mem_all

theorem SectionKind.mem_all (k : SectionKind) : k ∈ SectionKind.all := by cases k <;> decide

theorem SectionKind.bit_injective : Function.Injective fun k : SectionKind => k.code - 1 := by
  have hall : ∀ x ∈ SectionKind.all, ∀ y ∈ SectionKind.all, x.code - 1 = y.code - 1 → x = y := by decide
  exact fun x y => hall x x.mem_all y y.mem_all

/-! ### Port sets -/

theorem portSetBytes_testBit (set : PortSet) (p : Port) :
    (byteAt (portSetBytes set) (p.val / 8)).testBit (p.val % 8) = set.getLsbD p.val := by
  have hbyte : byteAt (portSetBytes set) (p.val / 8) = set.toNat / 256 ^ (p.val / 8) % 256 :=
    natBytes_reverse_byteAt _ (by omega)
  rw [hbyte, testBit_mod_byte _ (Nat.mod_lt _ (by decide)), show 256 = 2 ^ 8 from rfl, ← Nat.pow_mul,
    Nat.testBit_div_two_pow, Nat.mod_add_div]
  rfl

/-- A number whose bytes stand least significant first: its bits are those of its bytes. -/
theorem testBit_bytesNat_reverse (b : List Byte) (k : Nat) {r : Nat} (hr : r < 8) :
    (bytesNat b.reverse).testBit (8 * k + r) = (byteAt b k).testBit r := by
  induction b generalizing k with
  | nil => simp [byteAt]
  | cons x rest ih =>
    rw [List.reverse_cons, bytesNat_append_singleton, show 256 = 2 ^ 8 from rfl,
      Nat.testBit_two_pow_mul_add _ x.isLt]
    cases k with
    | zero => rw [if_pos (by omega), Nat.mul_zero, Nat.zero_add]; rfl
    | succ k =>
      rw [if_neg (by omega), show 8 * (k + 1) + r - 8 = 8 * k + r by omega, ih k]
      rfl

theorem portSetAt_getLsbD (b : List Byte) (offset : Nat) (p : Port) :
    (portSetAt b offset).getLsbD p.val = (byteAt b (offset + p.val / 8)).testBit (p.val % 8) := by
  have hbit := testBit_bytesNat_reverse ((b.drop offset).take 6) (p.val / 8) (Nat.mod_lt p.val (by decide : 0 < 8))
  have hbyte : byteAt ((b.drop offset).take 6) (p.val / 8) = byteAt b (offset + p.val / 8) := by
    rw [← byteAt_drop, byteAt, List.getD_eq_getElem?_getD, List.getElem?_take_of_lt (by omega),
      ← List.getD_eq_getElem?_getD]
    rfl
  rw [hbyte, Nat.div_add_mod] at hbit
  rw [portSetAt, BitVec.getLsbD_ofNat, decide_eq_true p.isLt, Bool.true_and, hbit]

end Sys2Proof.Machine
end

