-- ==== Sys2Proof/Proofs/Records.lean ====
section
/-! PROOF. The records of the formats (section 13.3): each is its fields, one after another. -/

namespace Sys2Proof.Machine

/-! ### Records within records -/

theorem Holds.append {b : List Byte} {fields more : List (Nat × List Byte)} (h : Holds b fields) (hmore : Holds b more) :
    Holds b (fields ++ more) := fun x hx => (List.mem_append.mp hx).elim (h x) (hmore x)

theorem Holds.single {b x : List Byte} {o : Nat} (h : (b.drop o).take x.length = x) : Holds b [(o, x)] :=
  .cons h (.nil b)

/-- The fields of a part are fields of the whole. -/
theorem Holds.within {b y : List Byte} {o : Nat} {fields : List (Nat × List Byte)} (h : Holds b [(o, y)])
    (hy : Holds y fields) (hfit : ∀ x ∈ fields, x.1 + x.2.length ≤ y.length) :
    Holds b (fields.map fun x => (o + x.1, x.2)) := by
  intro z hz
  obtain ⟨x, hx, rfl⟩ := List.mem_map.mp hz
  exact take_drop_within (h (o, y) List.mem_cons_self) (hfit x hx) (hy x hx)

theorem layout_add (o k : Nat) (parts : List (List Byte)) :
    layout (o + k) parts = (layout k parts).map fun x => (o + x.1, x.2) := by
  induction parts generalizing k with
  | nil => rfl
  | cons x rest ih => rw [layout_cons, layout_cons, Nat.add_assoc, ih, List.map_cons]

theorem layout_fits {o : Nat} {parts : List (List Byte)} :
    ∀ x ∈ layout o parts, x.1 + x.2.length ≤ o + parts.flatten.length := by
  induction parts generalizing o with
  | nil => simp
  | cons y rest ih =>
    rw [layout_cons, List.flatten_cons, List.length_append]
    refine List.forall_mem_cons.mpr ⟨Nat.add_le_add_left (Nat.le_add_right ..) o, fun x hx => ?_⟩
    have := ih x hx
    omega

/-- A part that is parts one after another: each stands in the whole. -/
theorem Holds.inside {b y : List Byte} {o : Nat} {fields : List (Nat × List Byte)} (parts : List (List Byte))
    (h : Holds b [(o, y)]) (hy : y = parts.flatten) (hf : ∀ x ∈ fields, x ∈ layout o parts) : Holds b fields := by
  subst hy
  have hparts := h.within (.parts parts rfl fun _ => id) (by simpa using layout_fits (o := 0) (parts := parts))
  rw [← layout_add, Nat.add_zero] at hparts
  exact hparts.subset hf

/-- Bytes that begin with parts one after another hold each of them. -/
theorem Holds.front {b post : List Byte} {fields : List (Nat × List Byte)} {parts : List (List Byte)}
    (hb : b = parts.flatten ++ post) (hf : ∀ x ∈ fields, x ∈ layout 0 parts) : Holds b fields :=
  .between (pre := []) 0 hb rfl hf

/-- Bytes that end with parts one after another hold each of them. -/
theorem Holds.back {b pre : List Byte} {fields : List (Nat × List Byte)} {parts : List (List Byte)} (o : Nat)
    (hb : b = pre ++ parts.flatten) (ho : pre.length = o) (hf : ∀ x ∈ fields, x ∈ layout o parts) : Holds b fields :=
  .between (post := []) o (by simpa using hb) ho hf

/-- Blocks of one length within a record: each stands at its multiple. -/
theorem Holds.block {b : List Byte} {o w k : Nat} {xs : List (List Byte)} {x : List Byte} (h : Holds b [(o, xs.flatten)])
    (hw : ∀ x ∈ xs, x.length = w) (hx : xs[k]? = some x) : Holds b [(o + w * k, x)] := by
  have hlength : x.length = w := hw x (List.mem_of_getElem? hx)
  obtain ⟨hk, -⟩ := List.getElem?_eq_some_iff.mp hx
  refine h.within (fields := [(w * k, x)]) (.single ?_) ?_
  · rw [hlength]
    exact take_drop_flatten hw hx
  · intro y hy
    obtain rfl := List.mem_singleton.mp hy
    rw [length_flatten_blocks hw, hlength, ← Nat.mul_succ]
    exact Nat.mul_le_mul_left w hk

theorem length_records {α : Type} {f : α → List Byte} {w : Nat} (h : ∀ x, (f x).length = w) (xs : List α) :
    (xs.map f).flatten.length = w * xs.length := by
  rw [length_flatten_blocks (w := w) (by simp [h]), List.length_map]

/-! ### The records of tables (R180) -/

theorem Profile.encode_parts (g : Profile) : g.encode = [flagByte g.enabled, byteOf g.group.val,
    RateSet.byte g.allowed, optionalRateByte g.forced, natBytes 2 g.nvp, byteOf g.pathOffset, byteOf g.nearBlank,
    natBytes 2 g.threshold, byteOf g.slope, natBytes 2 g.verifyWindow, natBytes 2 g.degradeThreshold,
    natBytes 2 g.backoffTime, flagByte g.autoDiagnosis, byteOf g.internalPriority, flagByte g.survey,
    natBytes 2 g.surveyInterval, natBytes 2 g.driftTolerance, natBytes 2 g.magnitudeTolerance,
    flagByte g.protectLive, fill 5].flatten := by
  simp [Profile.encode, padTo]

theorem Profile.encode_length (g : Profile) : g.encode.length = 32 := by
  simp [Profile.encode_parts]

theorem PlanRate.encode_parts (r : PlanRate) :
    r.encode = [byteOf r.rate.code, byteOf r.limit, intBytes 2 r.margin].flatten := by
  simp [PlanRate.encode]

theorem PlanRate.encode_length (r : PlanRate) : r.encode.length = 4 := by
  simp [PlanRate.encode_parts]

theorem PlanRate.encode_holds (r : PlanRate) :
    Holds r.encode [(0, byteOf r.rate.code), (1, byteOf r.limit), (2, intBytes 2 r.margin)] :=
  .parts _ r.encode_parts (by simp)

theorem PlanEntry.rates_length (e : PlanEntry) : (e.rates.map PlanRate.encode).flatten.length = 4 * e.rates.length :=
  length_records PlanRate.encode_length e.rates

theorem PlanEntry.encode_parts (e : PlanEntry) : e.encode = [flagByte e.inUse, flagByte e.maxLength.isSome,
    natBytes 2 (e.maxLength.getD 0), flagByte e.tolerated.isSome,
    natBytes 2 ((e.tolerated.getD []).map fun c => 2 ^ c.severity).sum, byteOf e.rates.length,
    (e.rates.map PlanRate.encode).flatten, fill (24 - 4 * e.rates.length)].flatten := by
  have hfill : 32 - (8 + 4 * e.rates.length) = 24 - 4 * e.rates.length := by omega
  simp [PlanEntry.encode, padTo, -List.length_flatten, PlanEntry.rates_length, ← hfill, ← Nat.add_assoc]

theorem PlanEntry.encode_length {e : PlanEntry} (h : e.limitsFit) : e.encode.length = 32 := by
  obtain ⟨hrates, -⟩ := h
  simp only [PlanEntry.encode_parts, List.flatten_cons, List.flatten_nil, List.length_append, List.length_nil,
    PlanEntry.rates_length, flagByte_length, natBytes_length, byteOf_length, fill_length]
  omega

theorem PlanEntry.encode_holds_rates (e : PlanEntry) :
    Holds e.encode [(8, (e.rates.map PlanRate.encode).flatten)] := .parts _ e.encode_parts (by simp)

theorem PlanEntry.encode_holds (e : PlanEntry) : Holds e.encode
    [(0, flagByte e.inUse), (1, flagByte e.maxLength.isSome), (2, natBytes 2 (e.maxLength.getD 0)),
      (4, flagByte e.tolerated.isSome), (5, natBytes 2 ((e.tolerated.getD []).map fun c => 2 ^ c.severity).sum),
      (7, byteOf e.rates.length), (8 + 4 * e.rates.length, fill (24 - 4 * e.rates.length))] :=
  .parts _ e.encode_parts (by simp [-List.length_flatten, PlanEntry.rates_length])

theorem PlanEntry.encode_holds_rate (e : PlanEntry) {k : Nat} {x : PlanRate} (hx : e.rates[k]? = some x) :
    Holds e.encode
      [(8 + 4 * k, byteOf x.rate.code), (9 + 4 * k, byteOf x.limit), (10 + 4 * k, intBytes 2 x.margin)] := by
  have hblock : Holds e.encode [(8 + 4 * k, x.encode)] :=
    e.encode_holds_rates.block (by simp [PlanRate.encode_length]) (by simp [hx])
  have hfields := hblock.within x.encode_holds (by simp [PlanRate.encode_length])
  rw [show 9 + 4 * k = 8 + 4 * k + 1 by omega, show 10 + 4 * k = 8 + 4 * k + 2 by omega]
  exact hfields

theorem Requester.encode_parts (i : RequesterId) (r : Requester) : r.encode i = [byteOf i.val, flagByte r.inUse,
    flagByte r.address.isNone, natBytes 6 (r.address.getD 0).toNat, byteOf r.role.code, portSetBytes r.readSet,
    portSetBytes r.disturbSet, byteOf r.priority, fill 1].flatten := by
  simp [Requester.encode, padTo]

theorem Requester.encode_length (i : RequesterId) (r : Requester) : (r.encode i).length = 24 := by
  simp [Requester.encode_parts]

theorem Station.encode_parts (x : Station) : x.encode = [natBytes 6 x.address.toNat, natBytes 2 x.ethertype.toNat,
    flagByte x.noticeDestination.isSome, natBytes 6 (x.noticeDestination.getD 0).toNat, byteOf x.noticeSlot.val,
    natBytes 2 x.holdoff, byteOf x.starvationLimit, natBytes 2 x.holdLimit, fill 3].flatten := by
  simp [Station.encode, padTo]

theorem Station.encode_length (x : Station) : x.encode.length = 24 := by
  simp [Station.encode_parts]

/-! ### The forms of the signature table (R131) -/

theorem signaturePair_length (x : Option Signature) : (signaturePair x).length = 2 := by
  cases x <;> simp [signaturePair, Signature.encode]

section Signatures

variable (t : SignatureTable) (start count : Nat)

theorem SignatureTable.encodeRange_parts : t.encodeRange start count = [natBytes 2 start, byteOf count, fill 1,
    ((List.range count).map fun k => signaturePair t.entries[start + k]?.join).flatten].flatten := by
  simp [SignatureTable.encodeRange]

theorem SignatureTable.encodeRange_length : (t.encodeRange start count).length = 4 + 2 * count := by
  have hpairs := length_records (fun k => signaturePair_length t.entries[start + k]?.join) (List.range count)
  rw [List.length_range] at hpairs
  simp only [SignatureTable.encodeRange_parts, List.flatten_cons, List.flatten_nil, List.length_append, List.length_nil,
    hpairs, natBytes_length, byteOf_length, fill_length]
  omega

theorem SignatureTable.encodeRange_holds :
    Holds (t.encodeRange start count) [(0, natBytes 2 start), (2, byteOf count), (3, fill 1)] :=
  .parts _ (t.encodeRange_parts start count) (by simp)

variable {count}

theorem SignatureTable.encodeRange_holds_entry {i : Fin 1024} {k : Nat} (hk : k < count) (hi : i.val = start + k) :
    Holds (t.encodeRange start count) [(4 + 2 * k, signaturePair t.entries[i])] := by
  have hpairs : Holds (t.encodeRange start count)
      [(4, ((List.range count).map fun k => signaturePair t.entries[start + k]?.join).flatten)] :=
    .parts _ (t.encodeRange_parts start count) (by simp)
  refine hpairs.block (by simp [signaturePair_length]) ?_
  have hentry : t.entries[start + k]?.join = t.entries[i] := by
    rw [← hi, Vector.getElem?_eq_getElem i.isLt]
    rfl
  simp [hk, hentry]

end Signatures

theorem signaturePair_holds (x : Signature) :
    Holds (signaturePair (some x)) [(0, byteOf 1), (1, byteOf (x.cls.severity * 16 + x.confidence))] :=
  .parts [byteOf 1, byteOf (x.cls.severity * 16 + x.confidence)] (by simp [signaturePair, Signature.encode]) (by simp)

theorem SignatureTable.encodeGeometry_parts (t : SignatureTable) : t.encodeGeometry = [byteOf t.geometry.distanceBins,
    byteOf t.geometry.amplitudeBins, natBytes 2 t.geometry.reach, natBytes 2 t.lock, fill 2].flatten := by
  simp [SignatureTable.encodeGeometry]

/-! ### Result data -/

theorem Reflection.encode_parts (r : Reflection) : r.encode = [natBytes 2 r.distance, intBytes 2 r.comp,
    byteOf r.cls.severity, byteOf (r.confidence % 16 + 128 * r.saturated.toNat)].flatten := by
  simp [Reflection.encode]

theorem Reflection.encode_length (r : Reflection) : r.encode.length = 6 := by
  simp [Reflection.encode_parts]

theorem Reflection.encode_last (r : Reflection) :
    byteAt r.encode 5 = (r.confidence % 16 + 128 * r.saturated.toNat) % 256 :=
  (Holds.parts _ r.encode_parts (by simp)).byteAt

theorem Reflection.encode_confidence (r : Reflection) : byteAt r.encode 5 % 16 = r.confidence % 16 := by
  rw [r.encode_last]
  cases r.saturated <;> simp
  omega

theorem Reflection.encode_saturated (r : Reflection) : (byteAt r.encode 5).testBit 7 = r.saturated := by
  rw [r.encode_last, testBit_mod_byte _ (by decide), Nat.add_comm, show 128 = 2 ^ 7 from rfl,
    Nat.testBit_two_pow_mul_add _ (by omega), if_neg (by decide)]
  cases r.saturated <;> rfl

theorem PairFinding.encode_parts (f : PairFinding) : f.encode = [byteOf f.verdict.code, byteOf f.reflections.length,
    (f.reflections.map Reflection.encode).flatten].flatten := by
  simp [PairFinding.encode]

theorem PairFinding.encode_length (f : PairFinding) : f.encode.length = 2 + 6 * f.reflections.length := by
  rw [PairFinding.encode, List.length_append, List.length_append, length_records Reflection.encode_length, byteOf_length,
    byteOf_length]

theorem CrossFinding.encode_parts (f : CrossFinding) :
    f.encode = [byteOf (f.pulsed.index.val * 16 + f.listening.index.val), f.reflection.encode].flatten := by
  simp [CrossFinding.encode]

theorem CrossFinding.encode_length (f : CrossFinding) : f.encode.length = 7 := by
  simp [CrossFinding.encode_parts, Reflection.encode_length]

/-- The head of a cable report. -/
def CableReport.head (r : CableReport) : List (List Byte) :=
  [natBytes 4 r.sequence.toNat, byteOf r.port.val, pairsByte r.pairs,
    byteOf (r.crossPair.toNat + 2 * r.force.toNat), byteOf r.averaging, byteOf r.worst.severity,
    optionalDistance r.length, byteOf r.cross.length]

/-- The findings of a cable report. -/
def CableReport.tail (r : CableReport) : List Byte :=
  (r.findings.toList.map PairFinding.encode).flatten ++ (r.cross.map CrossFinding.encode).flatten

section Cable

variable (r : CableReport)

theorem CableReport.encode_eq : r.encode = r.head.flatten ++ r.tail := by
  simp [CableReport.encode, CableReport.head, CableReport.tail]

theorem CableReport.head_length : r.head.flatten.length = 12 := by
  simp [CableReport.head]

theorem CableReport.encode_holds {fields : List (Nat × List Byte)} (hf : ∀ x ∈ fields, x ∈ layout 0 r.head) :
    Holds r.encode fields :=
  .front r.encode_eq hf

theorem CableReport.encode_options :
    byteAt r.encode 6 = (r.crossPair.toNat + 2 * r.force.toNat) % 256 :=
  (r.encode_holds (by simp [CableReport.head])).byteAt

theorem CableReport.encode_crossPair : (byteAt r.encode 6).testBit 0 = r.crossPair := by
  rw [r.encode_options]
  cases r.crossPair <;> cases r.force <;> rfl

theorem CableReport.encode_force : (byteAt r.encode 6).testBit 1 = r.force := by
  rw [r.encode_options]
  cases r.crossPair <;> cases r.force <;> rfl

theorem toList_four {α : Type} (v : Vector α 4) : v.toList = [v[0], v[1], v[2], v[3]] := by
  refine List.ext_getElem (by simp) fun i h _ => ?_
  rw [Vector.length_toList] at h
  match i, h with
  | 0, _ | 1, _ | 2, _ | 3, _ => simp

theorem CableReport.encode_findings : r.encode.drop 12 = r.findings[0].encode ++ r.findings[1].encode
    ++ r.findings[2].encode ++ r.findings[3].encode ++ (r.cross.map CrossFinding.encode).flatten := by
  rw [r.encode_eq, List.drop_left' r.head_length, CableReport.tail, toList_four]
  simp

end Cable

section Summary

variable (p : Port) (kind : Nat) (x : SurveySummary)

theorem SurveySummary.encode_parts : x.encode p kind = [byteOf p.val, byteOf kind, natBytes 4 x.sequence.toNat,
    natBytes 2 x.length, (x.lengths.toList.map (natBytes 2)).flatten,
    (x.healths.toList.map (intBytes 2)).flatten].flatten := by
  simp [SurveySummary.encode]

theorem SurveySummary.lengths_length : (x.lengths.toList.map (natBytes 2)).flatten.length = 8 := by
  rw [length_records (natBytes_length 2), Vector.length_toList]

theorem SurveySummary.healths_length : (x.healths.toList.map (intBytes 2)).flatten.length = 8 := by
  rw [length_records (intBytes_length 2), Vector.length_toList]

theorem SurveySummary.encode_length : (x.encode p kind).length = 24 := by
  simp only [SurveySummary.encode_parts, List.flatten_cons, List.flatten_nil, List.length_append, List.length_nil,
    SurveySummary.lengths_length, SurveySummary.healths_length, byteOf_length, natBytes_length]

theorem SurveySummary.encode_holds : Holds (x.encode p kind)
    [(0, byteOf p.val), (1, byteOf kind), (2, natBytes 4 x.sequence.toNat), (6, natBytes 2 x.length)] :=
  .parts _ (x.encode_parts p kind) (by simp)

theorem SurveySummary.encode_holds_pair (i : Fin 4) : Holds (x.encode p kind)
    [(8 + 2 * i.val, natBytes 2 x.lengths[i]), (16 + 2 * i.val, intBytes 2 x.healths[i])] := by
  have hlengths : Holds (x.encode p kind) [(8, (x.lengths.toList.map (natBytes 2)).flatten)] :=
    .parts _ (x.encode_parts p kind) (by simp)
  have hhealths : Holds (x.encode p kind) [(16, (x.healths.toList.map (intBytes 2)).flatten)] :=
    .parts _ (x.encode_parts p kind) (by simp [-List.length_flatten, SurveySummary.lengths_length])
  exact (hlengths.block (k := i.val) (by simp) (by simp)).append (hhealths.block (k := i.val) (by simp) (by simp))

end Summary

theorem PortResult.encode_parts (r : PortResult) : r.encode = [byteOf r.port.val, byteOf r.code.code,
    byteOf r.worst.code, fill 1, optionalDistance r.length, fill 2].flatten := by
  simp [PortResult.encode]

theorem PortResult.encode_length (r : PortResult) : r.encode.length = 8 := by
  simp [PortResult.encode_parts]

theorem Sweep.encode_parts (w : Sweep) : w.encode = [byteOf w.start.val, flagByte w.down, byteOf w.count,
    byteOf w.results.length, fill 4, (w.results.map PortResult.encode).flatten].flatten := by
  simp [Sweep.encode]

theorem Sweep.encode_length (w : Sweep) : w.encode.length = 8 + 8 * w.results.length := by
  simp only [Sweep.encode_parts, List.flatten_cons, List.flatten_nil, List.length_append, List.length_nil,
    length_records PortResult.encode_length, byteOf_length, flagByte_length, fill_length]
  omega

/-! ### All formats (R180, section 13.3) -/

theorem Profile.encode_holds (g : Profile) : Holds g.encode
    [(0, flagByte g.enabled), (1, byteOf g.group.val), (2, RateSet.byte g.allowed), (3, optionalRateByte g.forced),
      (4, natBytes 2 g.nvp), (6, byteOf g.pathOffset), (7, byteOf g.nearBlank), (8, natBytes 2 g.threshold),
      (10, byteOf g.slope), (11, natBytes 2 g.verifyWindow), (13, natBytes 2 g.degradeThreshold),
      (15, natBytes 2 g.backoffTime), (17, flagByte g.autoDiagnosis), (18, byteOf g.internalPriority),
      (19, flagByte g.survey), (20, natBytes 2 g.surveyInterval), (22, natBytes 2 g.driftTolerance),
      (24, natBytes 2 g.magnitudeTolerance), (26, flagByte g.protectLive), (27, fill 5)] :=
  .parts _ g.encode_parts (by simp)

/-- Settles O60. -/
theorem recordsLaidOut : Obligations.RecordsLaidOut := by
  refine ⟨⟨rfl, fun _ _ => rfl, rfl, rfl, rfl, rfl, rfl, rfl, fun _ => rfl, rfl, rfl, rfl, rfl, rfl, rfl, rfl⟩,
    ⟨fun set r h => ⟨RateSet.byte_length set, RateSet.testBit_byte h r⟩,
      fun set x h => ⟨pairsByte_length set, testBit_pairsByte h x⟩, mem_pairsOfByte,
      fun set c h => testBit_sum_members FaultClass.severity_injective h c,
      fun set p => ⟨portSetBytes_length set, portSetBytes_testBit set p⟩, fun b offset p _ => portSetAt_getLsbD b offset p,
      rfl, fun _ => rfl, rfl, fun _ => rfl⟩,
    ⟨fun g => ⟨g.encode_length, g.encode_holds⟩, Profile.fields_eq_some_iff,
      fun e h => ⟨PlanEntry.encode_length h, e.encode_holds, fun k x hx => e.encode_holds_rate hx⟩,
      fun i r => ⟨r.encode_length i, .parts _ (r.encode_parts i) (by simp)⟩,
      fun x => ⟨x.encode_length, .parts _ x.encode_parts (by simp)⟩⟩,
    ⟨fun t start count _ => ⟨t.encodeRange_length start count, t.encodeRange_holds start count, ?_⟩,
      fun t => ⟨by simp [t.encodeGeometry_parts], .parts _ t.encodeGeometry_parts (by simp)⟩⟩,
    fun r => ⟨r.encode_length, .parts _ r.encode_parts (by simp), r.encode_confidence, r.encode_saturated⟩,
    fun f => ⟨f.encode_length, .parts _ f.encode_parts (by simp)⟩,
    fun f => ⟨f.encode_length, .parts _ f.encode_parts (by simp)⟩,
    fun r => ⟨r.encode_holds (by simp [CableReport.head]), r.encode_crossPair, r.encode_force, r.encode_findings⟩,
    fun p kind x => ⟨x.encode_length p kind, x.encode_holds p kind, x.encode_holds_pair p kind⟩,
    fun r => ⟨r.encode_length, .parts _ r.encode_parts (by simp)⟩,
    fun w => ⟨w.encode_length, .parts _ w.encode_parts (by simp)⟩⟩
  intro i k hk hi
  have hentry := t.encodeRange_holds_entry start hk hi
  refine ⟨fun hfree => ?_, fun x hx => ?_⟩
  · rw [hfree] at hentry
    exact hentry
  · rw [hx] at hentry
    have hfields := hentry.within (signaturePair_holds x) (by simp [signaturePair_length])
    rw [show 5 + 2 * k = 4 + 2 * k + 1 by omega]
    exact hfields

end Sys2Proof.Machine
end

