-- ==== Sys2Proof/Proofs/PortData.lean ====
section
/-! PROOF. The status word of a port, and what READ_PORT and READ_STATUS return (R19, R164, R166, section 13.3). -/

namespace Sys2Proof.Machine

/-! ### Bits and half bytes -/

/-- Four flags in one byte. -/
theorem testBit_flags (a b c d : Bool) (k : Nat) : (a.toNat + 2 * b.toNat + 4 * c.toNat + 8 * d.toNat).testBit k
    = if k = 0 then a else if k = 1 then b else if k = 2 then c else if k = 3 then d else false := by
  by_cases hk : k < 4
  · have hall : ∀ (j : Fin 4) (a b c d : Bool), (a.toNat + 2 * b.toNat + 4 * c.toNat + 8 * d.toNat).testBit j.val
        = if j.val = 0 then a else if j.val = 1 then b else if j.val = 2 then c else if j.val = 3 then d else false := by
      decide
    exact hall ⟨k, hk⟩ a b c d
  · rw [if_neg (by omega), if_neg (by omega), if_neg (by omega), if_neg (by omega)]
    refine Nat.testBit_lt_two_pow (Nat.lt_of_lt_of_le ?_ (Nat.pow_le_pow_right (by decide) (Nat.not_lt.mp hk) : 2 ^ 4 ≤ 2 ^ k))
    have := a.toNat_lt
    have := b.toNat_lt
    have := c.toNat_lt
    have := d.toNat_lt
    omega

/-- Four flags in a byte of their own: the other bits are clear. -/
theorem testBit_flags_byte (a b c d : Bool) (k : Nat) :
    ((a.toNat + 2 * b.toNat + 4 * c.toNat + 8 * d.toNat) % 256).testBit k
      = if k = 0 then a else if k = 1 then b else if k = 2 then c else if k = 3 then d else false := by
  have := a.toNat_lt
  have := b.toNat_lt
  have := c.toNat_lt
  have := d.toNat_lt
  rw [Nat.mod_eq_of_lt (by omega), testBit_flags]

theorem nibble_high {hi lo : Nat} (hhi : hi < 16) (hlo : lo < 16) : (hi * 16 + lo) % 256 / 16 = hi := by omega

theorem nibble_low (hi : Nat) {lo : Nat} (hlo : lo < 16) : (hi * 16 + lo) % 256 % 16 = lo := by omega

/-- Counts of four bits, packed: two in each byte, the first in its high half. -/
theorem packCounts_nibble : ∀ {ns : List Nat}, (∀ n ∈ ns, n < 16) → ∀ {k : Nat}, k / 2 < (packCounts ns).length →
    byteAt (packCounts ns) (k / 2) / 16 ^ (1 - k % 2) % 16 = ns.getD k 0
  | [], _, _, hk => absurd hk (Nat.not_lt_zero _)
  | [_], _, _, hk => absurd hk (Nat.not_lt_zero _)
  | hi :: lo :: rest, hfit, k, hk => by
    have hhi : hi < 16 := hfit hi (by simp)
    have hlo : lo < 16 := hfit lo (by simp)
    have hfirst : byteAt (packCounts (hi :: lo :: rest)) 0 = (hi * 16 + lo) % 256 := by
      rw [packCounts, byteOf_eq]
      exact BitVec.toNat_ofNat ..
    match k with
    | 0 =>
      show byteAt (packCounts (hi :: lo :: rest)) 0 / 16 ^ 1 % 16 = hi
      rw [hfirst, Nat.pow_one, nibble_high hhi hlo, Nat.mod_eq_of_lt hhi]
    | 1 =>
      show byteAt (packCounts (hi :: lo :: rest)) 0 / 16 ^ 0 % 16 = lo
      rw [hfirst, Nat.pow_zero, Nat.div_one, nibble_low hi hlo]
    | k + 2 =>
      have hrest := packCounts_nibble (ns := rest) (fun n hn => hfit n (by simp [hn])) (k := k)
        (by rw [packCounts, List.length_append, byteOf_length] at hk; omega)
      have hbyte : byteAt (packCounts (hi :: lo :: rest)) (k / 2 + 1) = byteAt (packCounts rest) (k / 2) := by
        rw [packCounts, byteOf_eq]
        rfl
      rw [show (k + 2) / 2 = k / 2 + 1 by omega, hbyte, show (k + 2) % 2 = k % 2 by omega, hrest]
      rfl

/-- The bytes of a part, in the whole. -/
theorem Holds.byteAt_within {b y : List Byte} {o i : Nat} (h : Holds b [(o, y)]) (hi : i < y.length) :
    Machine.byteAt b (o + i) = Machine.byteAt y i := by
  have hy : (b.drop o).take y.length = y := h (o, y) List.mem_cons_self
  rw [← byteAt_drop, Machine.byteAt, Machine.byteAt, ← hy, List.getD_eq_getElem?_getD, List.getD_eq_getElem?_getD,
    List.getElem?_take_of_lt hi]

/-! ### The status word (R19) -/

section Status

variable (s : State) (p : Port)

theorem State.statusWord_reset {s : State} (h : s.justReset) : s.statusWord p = ⟨false, none, false⟩ := by
  obtain ⟨straps, causes, progress, pending, arbiter, outputs, rfl⟩ := h
  simp [State.statusWord, State.link, State.training, State.port_atReset, PortState.atReset, Training.atReset]

theorem State.statusWord_shown : let w := s.statusWord p
    (w.linkUp = true ↔ s.link p = .up) ∧ (w.held = true ↔ s.link p = .held)
      ∧ (s.link p = .up → w.rate = (s.training p).current) ∧ (s.link p ≠ .up → w.rate = none)
      ∧ (s.justReset → w = ⟨false, none, false⟩) :=
  ⟨beq_iff_eq, beq_iff_eq, fun h => if_pos (beq_iff_eq.mpr h), fun h => if_neg (mt beq_iff_eq.mp h),
    State.statusWord_reset p⟩

end Status

/-! ### The records within READ_PORT's data -/

theorem HistoryRecord.encode_parts (h : HistoryRecord) : h.encode = [optionalRateByte h.rate, byteOf h.outcome.code,
    flagByte h.margin.isSome, intBytes 2 (h.margin.getD 0), byteOf h.attempt, byteOf h.planIndex, fill 1].flatten := by
  simp [HistoryRecord.encode]

theorem HistoryRecord.encode_length (h : HistoryRecord) : h.encode.length = 8 := by
  simp [HistoryRecord.encode_parts]

section Entry

variable (x : QueueEntry)

theorem QueueEntry.encode_parts : x.encode = [byteOf (x.isSurvey.toNat + 2 * (!x.waiting).toNat + 4 * x.urgent.toNat),
    byteOf x.requester.val, natBytes 2 ((x.external.map fun y => y.tag.toNat).getD 0),
    natBytes 4 (x.serial % 2 ^ 32)].flatten := by
  simp [QueueEntry.encode, QueueEntry.stamp]

theorem QueueEntry.encode_length : x.encode.length = 8 := by
  simp [QueueEntry.encode_parts]

theorem QueueEntry.encode_flags (k : Nat) : (byteAt x.encode 0).testBit k
    = (if k = 0 then x.isSurvey else if k = 1 then x.state != .waiting else if k = 2 then x.urgent else false) := by
  have hbyte : byteAt x.encode 0 = (x.isSurvey.toNat + 2 * (!x.waiting).toNat + 4 * x.urgent.toNat) % 256 :=
    (Holds.parts _ x.encode_parts (by simp)).byteAt
  have hflags := testBit_flags_byte x.isSurvey (!x.waiting) x.urgent false k
  rw [hbyte]
  simpa [QueueEntry.waiting, bne] using hflags

theorem QueueEntry.encode_tag :
    Holds x.encode [(2, natBytes 2 ((x.external.map fun y => y.tag.toNat).getD 0))] :=
  .parts _ x.encode_parts (by simp)

end Entry

/-! ### READ_PORT (R164) -/

section PortRead

variable (s : State) (p : Port)

/-- The parts of READ_PORT's data to byte 113. -/
def State.portHead : List (List Byte) :=
  [byteOf p.val, byteOf (s.training p).link.code, RateSet.byte (s.training p).ability,
    RateSet.byte (s.training p).demoted, optionalRateByte (s.training p).target, byteOf (s.training p).attempts,
    optionalRateByte (s.training p).current, flagByte (s.training p).energy, flagByte (s.training p).margin.isSome,
    intBytes 2 ((s.training p).margin.getD 0), natBytes 2 (s.training p).degradeCount,
    byteOf (s.port p).cableClass.val, flagByte (s.training p).snapshot.isSome,
    byteOf (s.training p).planIndex ++ snapshotBytes (s.training p).snapshot, byteOf (s.training p).history.length,
    fill 1, ((s.training p).history.map HistoryRecord.encode).flatten, fill (64 - 8 * (s.training p).history.length)]

/-- The parts from byte 114 on. -/
def State.portTail : List (List Byte) :=
  [natBytes 4 (s.traffic p).toLine, natBytes 4 (s.traffic p).toSwitch, natBytes 4 (s.traffic p).droppedNotUp,
    natBytes 4 (s.traffic p).badCheck, natBytes 4 (s.traffic p).diverted, flagByte (s.quadUp p),
    byteOf (s.mode p).code, byteOf (s.survey p).state.code, flagByte (s.survey p).pending, s.engineBytes p, fill 1,
    (s.port p).events.encode p, byteOf (s.entriesFor p).length, fill 1,
    ((s.entriesFor p).map QueueEntry.encode).flatten]

theorem State.history_length :
    (((s.training p).history.map HistoryRecord.encode).flatten).length = 8 * (s.training p).history.length :=
  length_records HistoryRecord.encode_length _

theorem State.portData_eq : s.portData p = (s.portHead p).flatten ++ (s.portTail p).flatten := by
  simp [State.portData, State.portHead, State.portTail, Training.encodeFirst, Training.encodeLast, Traffic.encode, padTo,
    -List.length_flatten, State.history_length]

theorem State.engineBytes_length : (s.engineBytes p).length = 3 := by
  unfold State.engineBytes
  split <;> simp

theorem PortEvents.encode_length (e : PortEvents) : (e.encode p).length = 16 := by
  simp [PortEvents.encode, padTo, packCounts]

theorem State.portTail_length : (s.portTail p).flatten.length = 46 + 8 * (s.entriesFor p).length := by
  simp only [State.portTail, List.flatten_cons, List.flatten_nil, List.length_append, List.length_nil, natBytes_length,
    byteOf_length, flagByte_length, fill_length, State.engineBytes_length, PortEvents.encode_length,
    length_records QueueEntry.encode_length]
  omega

theorem State.portData_holds_snapshot :
    Holds (s.portData p) [(15, byteOf (s.training p).planIndex ++ snapshotBytes (s.training p).snapshot)] :=
  .front (s.portData_eq p) (by simp [State.portHead])

variable {s p}

theorem Training.snapshotBytes_length {t : Training} (h : t.bounded) : (snapshotBytes t.snapshot).length = 32 := by
  obtain ⟨-, -, -, hfit⟩ := h
  unfold snapshotBytes
  split
  · exact fill_length 32
  · next x hx => exact PlanEntry.encode_length (hfit x hx)

theorem State.portData_noSnapshot (h : (s.training p).snapshot = none) : Holds (s.portData p) [(15, fill 33)] := by
  have hpart := s.portData_holds_snapshot p
  rw [Training.planIndex, h] at hpart
  exact hpart

theorem State.portData_snapshot {x : Snapshot} (h : (s.training p).snapshot = some x) :
    Holds (s.portData p) [(15, byteOf x.index.val), (16, x.entry.encode)] := by
  have hpart := s.portData_holds_snapshot p
  rw [Training.planIndex, h] at hpart
  exact hpart.inside [byteOf x.index.val, x.entry.encode] (by simp [snapshotBytes]) (by simp)

variable (hb : (s.training p).bounded)

include hb

theorem State.portHead_length : (s.portHead p).flatten.length = 114 := by
  obtain ⟨hhistory, -⟩ := id hb
  simp only [State.portHead, List.flatten_cons, List.flatten_nil, List.length_append, List.length_nil, natBytes_length,
    byteOf_length, flagByte_length, fill_length, RateSet.byte_length, optionalRateByte_length, intBytes_length,
    State.history_length, Training.snapshotBytes_length hb]
  omega

theorem State.portData_length : (s.portData p).length = 160 + 8 * (s.entriesFor p).length := by
  rw [s.portData_eq p, List.length_append, State.portHead_length hb, State.portTail_length]
  omega

theorem State.portData_holds_training : Holds (s.portData p)
    [(0, byteOf p.val), (1, byteOf (s.training p).link.code), (2, RateSet.byte (s.training p).ability),
      (3, RateSet.byte (s.training p).demoted), (4, optionalRateByte (s.training p).target),
      (5, byteOf (s.training p).attempts), (6, optionalRateByte (s.training p).current),
      (7, flagByte (s.training p).energy), (8, flagByte (s.training p).margin.isSome),
      (9, intBytes 2 ((s.training p).margin.getD 0)), (11, natBytes 2 (s.training p).degradeCount),
      (13, byteOf (s.port p).cableClass.val), (14, flagByte (s.training p).snapshot.isSome),
      (48, byteOf (s.training p).history.length), (49, fill 1),
      (50, ((s.training p).history.map HistoryRecord.encode).flatten),
      (50 + 8 * (s.training p).history.length, fill (64 - 8 * (s.training p).history.length))] :=
  .front (s.portData_eq p)
    (by simp [State.portHead, -List.length_flatten, State.history_length, Training.snapshotBytes_length hb])

theorem State.portData_holds_line : Holds (s.portData p)
    [(114, natBytes 4 (s.traffic p).toLine), (118, natBytes 4 (s.traffic p).toSwitch),
      (122, natBytes 4 (s.traffic p).droppedNotUp), (126, natBytes 4 (s.traffic p).badCheck),
      (130, natBytes 4 (s.traffic p).diverted), (134, flagByte (s.quadUp p)), (135, byteOf (s.mode p).code),
      (136, byteOf (s.survey p).state.code), (137, flagByte (s.survey p).pending), (141, fill 1),
      (142, (s.port p).events.encode p), (158, byteOf (s.entriesFor p).length), (159, fill 1),
      (160, ((s.entriesFor p).map QueueEntry.encode).flatten)] :=
  .back 114 (s.portData_eq p) (State.portHead_length hb)
    (by simp [State.portTail, State.engineBytes_length, PortEvents.encode_length])

theorem State.portData_holds_engine : Holds (s.portData p) [(138, s.engineBytes p)] :=
  .back 114 (s.portData_eq p) (State.portHead_length hb) (by simp [State.portTail])

theorem State.portData_noEngine (h : s.engineOn p = none) :
    Holds (s.portData p) [(138, byteOf 0xFF), (139, byteOf 0), (140, byteOf 0)] := by
  have hpart := State.portData_holds_engine hb
  rw [State.engineBytes, h] at hpart
  exact hpart.inside [byteOf 0xFF, byteOf 0, byteOf 0] rfl (by simp)

theorem State.portData_engine {e : EngineId} (h : s.engineOn p = some e) : Holds (s.portData p)
    [(138, byteOf e.val), (139, byteOf (s.engine e).state.code),
      (140, byteOf (((s.testOf e).map fun t => t.captures.length).getD 0))] := by
  have hpart := State.portData_holds_engine hb
  rw [State.engineBytes, h] at hpart
  exact hpart.inside [byteOf e.val, byteOf (s.engine e).state.code,
    byteOf (((s.testOf e).map fun t => t.captures.length).getD 0)] (by simp) (by simp)

end PortRead

/-! ### READ_STATUS (R166) -/

section StatusRead

variable (s : State)

theorem outcomeBytes_length (o : Option ImageOutcome) : (outcomeBytes o).length = 2 := by
  unfold outcomeBytes
  split <;> simp

theorem ResetCauses.byte_length (c : ResetCauses) : c.byte.length = 1 := byteOf_length _

theorem State.statusData_parts : s.statusData = [s.startUp.causes.byte, fill 1,
    natBytes 2 s.supervision.unknownSource, natBytes 2 s.supervision.malformed, natBytes 2 s.supervision.noReplySlot,
    flagByte (!s.loading), outcomeBytes s.startUp.outcome, byteOf (s.startUp.applied.map fun k => 2 ^ (k.code - 1)).sum,
    flagByte s.supervision.stationSet, fill 3, s.supervision.station.encode, fill 8].flatten := by
  simp [State.statusData]

theorem State.statusData_length : s.statusData.length = 48 := by
  simp [State.statusData_parts, ResetCauses.byte_length, outcomeBytes_length, Station.encode_length]

theorem State.statusData_causes (k : Nat) : (byteAt s.statusData 0).testBit k
    = (if k = 0 then s.startUp.causes.powerOn else if k = 1 then s.startUp.causes.pin
      else if k = 2 then s.startUp.causes.supervisor else if k = 3 then s.startUp.causes.imageRejected else false) := by
  have hbyte : Holds s.statusData [(0, s.startUp.causes.byte)] := .parts _ s.statusData_parts (by simp)
  rw [Holds.byteAt hbyte, testBit_flags_byte]

theorem State.statusData_applied (h : s.startUp.applied.Nodup) (k : SectionKind) :
    (byteAt s.statusData 11).testBit (k.code - 1) = true ↔ k ∈ s.startUp.applied := by
  have hbyte : Holds s.statusData [(11, byteOf (s.startUp.applied.map fun k => 2 ^ (k.code - 1)).sum)] :=
    .parts _ s.statusData_parts (by simp [ResetCauses.byte_length, outcomeBytes_length])
  have hk : k.code - 1 < 8 := by cases k <;> decide
  rw [hbyte.byteAt, ← byteAt_byteOf, testBit_byteOf_members SectionKind.bit_injective h hk]

theorem State.statusData_holds : Holds s.statusData
    [(1, fill 1), (2, natBytes 2 s.supervision.unknownSource), (4, natBytes 2 s.supervision.malformed),
      (6, natBytes 2 s.supervision.noReplySlot), (8, flagByte (!s.loading)), (12, flagByte s.supervision.stationSet),
      (13, fill 3), (16, s.supervision.station.encode), (40, fill 8)] :=
  .parts _ s.statusData_parts (by simp [ResetCauses.byte_length, outcomeBytes_length, Station.encode_length])

theorem State.statusData_outcome : Holds s.statusData [(9, outcomeBytes s.startUp.outcome)] :=
  .parts _ s.statusData_parts (by simp [ResetCauses.byte_length])

variable {s}

theorem State.statusData_outcome_of {o : Option ImageOutcome} (h : s.startUp.outcome = o) {result reason : Nat}
    (ho : outcomeBytes o = byteOf result ++ byteOf reason) :
    Holds s.statusData [(9, byteOf result), (10, byteOf reason)] := by
  have hpart := s.statusData_outcome
  rw [h] at hpart
  exact hpart.inside [byteOf result, byteOf reason] (by simp [ho]) (by simp)

end StatusRead

end Sys2Proof.Machine
end

