-- ==== Sys2Proof/Proofs/EventRecords.lean ====
section
/-! PROOF. The records of pending events (R170, section 13.3). -/

namespace Sys2Proof.Machine

/-! ### Counts -/

theorem countFits.getD_lt {n : Option Nat} (h : countFits n) : n.getD 0 < 16 := by
  cases n with
  | none => decide
  | some k =>
    obtain ⟨-, hk⟩ := h k rfl
    exact Nat.lt_succ_of_le hk

/-! ### The record of a port -/

section PortRecord

variable (e : PortEvents) (p : Port)

/-- The ten counts of a port's set, in the order of the kinds. -/
def PortEvents.counts : List Nat :=
  [e.linkUp.getD 0, e.linkDown.getD 0, (e.trainExhausted.map ExhaustedCount.count).getD 0, e.noCommonRate.getD 0,
    (e.degraded.map DegradedCount.count).getD 0, (e.cableFault.map SequencedCount.count).getD 0,
    (e.cableDrift.map SequencedCount.count).getD 0, e.frontEndFault.getD 0, 0, 0]

/-- The flags of a port's set: diagnosis not queued, and the causes of DEGRADED. -/
def PortEvents.flags : Nat :=
  (e.trainExhausted.map fun x => x.notQueued.toNat).getD 0
    + (e.degraded.map fun x => 2 * x.errors.toNat + 4 * x.profile.toNat).getD 0

theorem PortEvents.encode_parts : e.encode p = [byteOf p.val, byteOf e.flags, packCounts e.counts,
    natBytes 4 ((e.cableFault.map fun x => x.sequence.toNat).getD 0),
    natBytes 4 ((e.cableDrift.map fun x => x.sequence.toNat).getD 0), fill 1].flatten := by
  simp [PortEvents.encode, PortEvents.flags, PortEvents.counts, padTo, packCounts]

theorem PortEvents.packCounts_length : (packCounts e.counts).length = 5 := by
  simp [PortEvents.counts, packCounts]

theorem PortEvents.counts_lt {e : PortEvents} (h : e.countsFit) : ∀ n ∈ e.counts, n < 16 := by
  obtain ⟨hup, hdown, hexhausted, hrate, hdegraded, hfault, hdrift, hfront⟩ := h
  simp only [PortEvents.counts, List.forall_mem_cons]
  exact ⟨hup.getD_lt, hdown.getD_lt, hexhausted.getD_lt, hrate.getD_lt, hdegraded.getD_lt, hfault.getD_lt,
    hdrift.getD_lt, hfront.getD_lt, by decide, by decide, nofun⟩

theorem PortEvents.encode_count {e : PortEvents} (h : e.countsFit) {k : Nat} (hk : k < 10) :
    byteAt (e.encode p) (2 + k / 2) / 16 ^ (1 - k % 2) % 16 = e.counts.getD k 0 := by
  have hpart : Holds (e.encode p) [(2, packCounts e.counts)] := .parts _ (e.encode_parts p) (by simp)
  have hbyte : k / 2 < (packCounts e.counts).length := by
    rw [e.packCounts_length]
    omega
  rw [hpart.byteAt_within hbyte, packCounts_nibble (PortEvents.counts_lt h) hbyte]

theorem PortEvents.flags_eq : e.flags = ((e.trainExhausted.map ExhaustedCount.notQueued).getD false).toNat
    + 2 * ((e.degraded.map DegradedCount.errors).getD false).toNat
    + 4 * ((e.degraded.map DegradedCount.profile).getD false).toNat + 8 * false.toNat := by
  rw [PortEvents.flags]
  cases e.trainExhausted <;> cases e.degraded <;> simp [Nat.add_assoc]

theorem PortEvents.encode_flag (k : Nat) : (byteAt (e.encode p) 1).testBit k
    = if k = 0 then (e.trainExhausted.map ExhaustedCount.notQueued).getD false
      else if k = 1 then (e.degraded.map DegradedCount.errors).getD false
      else if k = 2 then (e.degraded.map DegradedCount.profile).getD false else if k = 3 then false else false := by
  have hbyte : Holds (e.encode p) [(1, byteOf e.flags)] := .parts _ (e.encode_parts p) (by simp)
  rw [hbyte.byteAt, e.flags_eq, testBit_flags_byte]

theorem PortEvents.encode_holds : Holds (e.encode p) [(0, byteOf p.val), (15, fill 1)] :=
  .parts _ (e.encode_parts p) (by simp [e.packCounts_length])

theorem PortEvents.encode_sequences : Holds (e.encode p)
    [(7, natBytes 4 ((e.cableFault.map fun x => x.sequence.toNat).getD 0)),
      (11, natBytes 4 ((e.cableDrift.map fun x => x.sequence.toNat).getD 0))] :=
  .parts _ (e.encode_parts p) (by simp [e.packCounts_length])

end PortRecord

/-! ### The record of the device -/

section DeviceRecord

variable (e : DeviceEvents)

theorem DeviceEvents.encode_parts : e.encode
    = [byteOf 0xFF, fill 5, byteOf (e.startUp.getD 0 * 16 + e.imageRejected.getD 0), fill 9].flatten := by
  rfl

theorem DeviceEvents.encode_byte :
    byteAt e.encode 6 = (e.startUp.getD 0 * 16 + e.imageRejected.getD 0) % 256 :=
  (Holds.parts _ e.encode_parts (by simp)).byteAt

end DeviceRecord

/-- Settles O58. -/
theorem stateShown : Obligations.StateShown := by
  refine ⟨State.statusWord_shown, fun s p hb => ?_, fun s => ?_, fun h => ?_, fun x => ?_, fun p e hfit => ?_,
    fun e hfit => ?_⟩
  · refine ⟨State.portData_length hb, State.portData_holds_training hb, State.portData_holds_line hb,
      State.portData_noSnapshot, fun x => State.portData_snapshot, State.portData_noEngine hb,
      fun e m he hm => ?_⟩
    have hengine := State.portData_engine hb he
    have htest : s.testOf e = m.test := by rw [State.testOf, State.context, hm, Option.bind_some]
    rw [htest] at hengine
    refine ⟨hengine.subset (by simp), fun hnone => ?_, fun x hx => ?_⟩
    · rw [hnone] at hengine
      exact hengine.subset (by simp)
    · rw [hx] at hengine
      exact hengine.subset (by simp)
  · exact ⟨s.statusData_length, s.statusData_causes, s.statusData_holds, fun h => State.statusData_outcome_of h rfl,
      fun h => State.statusData_outcome_of h rfl, fun reason h => State.statusData_outcome_of h rfl,
      s.statusData_applied⟩
  · exact ⟨h.encode_length, .parts _ h.encode_parts (by simp)⟩
  · refine ⟨x.encode_length, x.encode_flags, .parts _ x.encode_parts (by simp), fun hnone => ?_, fun y hy => ?_⟩
    · have htag := x.encode_tag
      rw [hnone] at htag
      exact htag
    · have htag := x.encode_tag
      rw [hy] at htag
      exact htag
  · intro b count flag
    have hcount {k : Nat} (hk : k < 10) : count k = e.counts.getD k 0 := PortEvents.encode_count p hfit hk
    have hflag (k : Nat) := e.encode_flag p k
    have hsequences := e.encode_sequences p
    refine ⟨e.encode_length p, e.encode_holds p, hcount (by decide), hcount (by decide), hcount (by decide),
      hcount (by decide), hcount (by decide), hcount (by decide), fun h => ?_, fun x h => ?_, fun h => ?_, fun x h => ?_,
      fun h => ?_, fun x h => ?_, fun h => ?_, fun x h => ?_, fun k hk => ?_⟩
    · exact ⟨(hcount (by decide)).trans (by simp [PortEvents.counts, h]), (hflag 0).trans (by simp [h])⟩
    · exact ⟨(hcount (by decide)).trans (by simp [PortEvents.counts, h]), (hflag 0).trans (by simp [h])⟩
    · exact ⟨(hcount (by decide)).trans (by simp [PortEvents.counts, h]), (hflag 1).trans (by simp [h]),
        (hflag 2).trans (by simp [h])⟩
    · exact ⟨(hcount (by decide)).trans (by simp [PortEvents.counts, h]), (hflag 1).trans (by simp [h]),
        (hflag 2).trans (by simp [h])⟩
    · rw [h] at hsequences
      exact ⟨(hcount (by decide)).trans (by simp [PortEvents.counts, h]), hsequences.subset (by simp [natBytes, fill])⟩
    · rw [h] at hsequences
      exact ⟨(hcount (by decide)).trans (by simp [PortEvents.counts, h]), hsequences.subset (by simp)⟩
    · rw [h] at hsequences
      exact ⟨(hcount (by decide)).trans (by simp [PortEvents.counts, h]), hsequences.subset (by simp [natBytes, fill])⟩
    · rw [h] at hsequences
      exact ⟨(hcount (by decide)).trans (by simp [PortEvents.counts, h]), hsequences.subset (by simp)⟩
    · refine (hflag k).trans ?_
      rw [if_neg (by omega), if_neg (by omega), if_neg (by omega), ite_self]
  · have hbyte := e.encode_byte
    obtain ⟨hstart, himage⟩ := hfit
    intro b
    refine ⟨by simp [b, e.encode_parts], .parts _ e.encode_parts (by simp), ?_, ?_⟩
    · rw [hbyte, nibble_high hstart.getD_lt himage.getD_lt]
    · rw [hbyte, nibble_low _ himage.getD_lt]

end Sys2Proof.Machine
end
